-- ==== Sys2Proof/Word.lean ====
section
/-! DEFINITION. The word and byte types of the engine (rule R13: `ADDR_W = REG_W = 32`; rule R90: 8 bits per byte). -/

namespace Sys2Proof

/-- A 32-bit register, address, length or capacity (rule R13). -/
abbrev Word := BitVec 32

/-- One byte of buffer memory (rule R90). -/
abbrev Byte := BitVec 8

end Sys2Proof
end

