-- ==== Sys2Proof/Syntax.lean ====
section
/-! DEFINITION. The instructions: the 34 commands of rule R122 and the 15 stream elements of the opcode table (rule R11). -/

namespace Sys2Proof

/-- The three alphabets (rule R50). -/
inductive Alphabet where
  /-- LL: literals and lengths. -/
  | litlen
  /-- OF: match offsets. -/
  | offset
  /-- PC: the precode. -/
  | precode
deriving DecidableEq, Repr

/-- The sixteen table spaces of TREAD and TWRITE, in SEL order (rule R82). -/
inductive Space where
  | head
  | next
  | freqLL
  | freqOF
  | freqPC
  | lensLL
  | lensOF
  | lensPC
  | codeLL
  | codeOF
  | codePC
  | dtabLL
  | dtabOF
  | dtabPC
  | items
  | misc
deriving DecidableEq, Repr

/-- One constructor per row of the opcode table. The operands of a command are in `a0..a3` (rule
R120), so a command carries its SEL only; a stream element carries the fields its bits hold. -/
inductive Instr where
  /-- NOP, rule R181. -/
  | nop
  /-- CREATE, rule R182. -/
  | create (level : BitVec 4)
  /-- DESTROY, rule R183. -/
  | destroy
  /-- COMPRESS, rule R233. -/
  | compress
  /-- BOUND, rule R259. -/
  | bound
  /-- DECOMPRESS, rule R363. -/
  | decompress
  /-- TREAD, rule R189. -/
  | tread (space : Space)
  /-- TWRITE, rule R190. -/
  | twrite (space : Space)
  /-- MF.INIT, rule R202. -/
  | mfInit
  /-- MF.FIND, rule R206. -/
  | mfFind
  /-- MF.SKIP, rule R207. -/
  | mfSkip
  /-- MF.SLIDE, rule R209. -/
  | mfSlide
  /-- HB.CLEAR, rule R271. -/
  | hbClear
  /-- HB.TALLY, rule R272. -/
  | hbTally (x : Alphabet)
  /-- HB.MATCH, rule R273. -/
  | hbMatch
  /-- HB.LENS, rule R274. -/
  | hbLens (x : Alphabet)
  /-- HB.CODES, rule R280. -/
  | hbCodes (x : Alphabet)
  /-- HB.FIXED, rule R283. -/
  | hbFixed
  /-- HB.PRECODE, rule R284. -/
  | hbPrecode
  /-- DT.BUILD, rule R301. -/
  | dtBuild (x : Alphabet)
  /-- DT.DECODE, rule R307. -/
  | dtDecode (x : Alphabet)
  /-- BW.INIT, rule R321. -/
  | bwInit
  /-- BW.PUT, rule R322. -/
  | bwPut
  /-- BW.ALIGN, rule R324. -/
  | bwAlign
  /-- BW.FLUSH, rule R325. -/
  | bwFlush
  /-- BW.BYTES, rule R326. -/
  | bwBytes
  /-- BR.INIT, rule R341. -/
  | brInit
  /-- BR.PEEK, rule R343. -/
  | brPeek
  /-- BR.DROP, rule R345. -/
  | brDrop
  /-- BR.GET, rule R346. -/
  | brGet
  /-- BR.ALIGN, rule R347. -/
  | brAlign
  /-- BR.BYTES, rule R348. -/
  | brBytes
  /-- DX.INIT, rule R361. -/
  | dxInit
  /-- DX.STEP, rule R362. -/
  | dxStep
  /-- BLOCK.STORED: a block header with BTYPE 0 (rules R131, R364). -/
  | blockStored (final : Bool)
  /-- BLOCK.FIXED: a block header with BTYPE 1 (rules R131, R364). -/
  | blockFixed (final : Bool)
  /-- BLOCK.DYNAMIC: a block header with BTYPE 2 (rules R131, R364). -/
  | blockDynamic (final : Bool)
  /-- BLOCK.RESERVED: a block header with BTYPE 3 (rules R131, R364). -/
  | blockReserved (final : Bool)
  /-- STORED.BODY: LEN and NLEN; the data stay in the input buffer (rules R132, R375). -/
  | storedBody (len nlen : BitVec 16)
  /-- DYNAMIC.HEADER: HLIT, HDIST, HCLEN; the lengths they announce stay in the stream (rules R134, R366). -/
  | dynamicHeader (hlit hdist : BitVec 5) (hclen : BitVec 4)
  /-- PRE.LEN: precode symbols 0..15 (rules R136, R368). -/
  | preLen (value : BitVec 4)
  /-- PRE.REP: precode symbol 16 (rules R136, R368). -/
  | preRep (extra : BitVec 2)
  /-- PRE.ZREP3: precode symbol 17 (rules R136, R368). -/
  | preZrep3 (extra : BitVec 3)
  /-- PRE.ZREP11: precode symbol 18 (rules R136, R368). -/
  | preZrep11 (extra : BitVec 7)
  /-- LIT: litlen symbols 0..255 (rules R138, R371). -/
  | lit (value : Byte)
  /-- EOB: litlen symbol 256 (rules R138, R372). -/
  | eob
  /-- MATCH: litlen symbol `257 + ls` with extra bits `lx`, offset symbol `os` with extra bits `ox` (rules R139, R141, R373). -/
  | copyMatch (ls lx os : BitVec 5) (ox : BitVec 13)
  /-- LL.RESERVED: litlen symbols 286 and 287 (rule R374). -/
  | llReserved (symbol : BitVec 16)
  /-- OF.RESERVED: offset symbols 30 and 31 (rule R374). -/
  | ofReserved (symbol : BitVec 16)
deriving DecidableEq, Repr

end Sys2Proof
end

