-- ==== Sys2Proof/Machine/Params.lean ====
section
/-! DEFINITION. The fixed parameters and read-only tables of the engine (rules R13, R14, R31, R50, R135, R139 to R141).

They are "parameters of the step" (rule R31), not state. -/

namespace Sys2Proof

/-- `ceil_div(a, b)`: the least integer not below `a / b` (rule R15). -/
def ceilDiv (a b : Nat) : Nat := (a + (b - 1)) / b

/-- The size of buffer memory, and one more than the largest word (rules R13, R90). -/
def wordSpan : Nat := 4294967296

/-- `MIN_MATCH` (rule R13). -/
def minMatch : Nat := 3

/-- `MAX_MATCH` (rule R13). -/
def maxMatch : Nat := 258

/-- `WINDOW_SIZE`, `MF_DELTA` and the number of HEAD and NEXT slots (rules R13, R42, R43). -/
def windowSize : Nat := 32768

/-- `HASH_MULT` (rule R13). -/
def hashMult : Nat := 0x1E35A7BD

/-- `MF_SENTINEL`, -32768 as an `int16` (rule R13). -/
def sentinel : BitVec 16 := 0x8000#16

/-- `BW_MAX_PUT` (rule R13). -/
def maxPut : Nat := 32

/-- `BR_MAX_GET` (rule R13). -/
def maxGet : Nat := 32

/-- `OVERREAD_MAX_BYTES` (rules R13, R344). -/
def overreadMaxBytes : Nat := 8

/-- `LEVEL_MAX` (rule R13). -/
def levelMax : Nat := 9

/-- `BLOCK_TARGET_BYTES` (rules R13, R235). -/
def blockTarget : Nat := 32768

/-- `STORED_MAX` (rules R13, R234). -/
def storedMax : Nat := 65535

/-- `TOKENS_MAX`, the capacity of the symbol-stream buffer (rules R13, R48). Rule R235 shows that no
block holds more than 33023 tokens; `tokensOk` in `Safety.lean` states the capacity of `CP.tok`. -/
def tokensMax : Nat := 33024

/-- The end-of-block symbol (rule R138). -/
def eobSymbol : Nat := 256

/-- A row of the level table: the parse is lazy, the chain depth limit, the nice length. -/
structure LevelRow where
  lazy : Bool
  depth : BitVec 10
  nice : BitVec 9
deriving DecidableEq, Repr

/-- The level table (rule R14); level 0 has 0, 0, 0 (rule R38), and so has a level the table does not hold. -/
def levelRow (level : BitVec 4) : LevelRow :=
  match level.toNat with
  | 1 => ⟨false, 2, 8⟩
  | 2 => ⟨false, 6, 10⟩
  | 3 => ⟨false, 12, 14⟩
  | 4 => ⟨false, 16, 30⟩
  | 5 => ⟨true, 16, 30⟩
  | 6 => ⟨true, 35, 65⟩
  | 7 => ⟨true, 100, 130⟩
  | 8 => ⟨true, 300, 258⟩
  | 9 => ⟨true, 600, 258⟩
  | _ => ⟨false, 0, 0⟩

/-- Array entries per alphabet: `LITLEN_SLOTS`, `OFFSET_SLOTS` and 19 (rules R13, R50). -/
def Alphabet.slots : Alphabet → Nat
  | .litlen => 288
  | .offset => 32
  | .precode => 19

/-- Usable symbols per alphabet (rules R13, R50). -/
def Alphabet.nsym : Alphabet → Nat
  | .litlen => 286
  | .offset => 30
  | .precode => 19

/-- `MAXLEN(x)` (rules R13, R50). -/
def Alphabet.maxLen : Alphabet → Nat
  | .litlen => 15
  | .offset => 15
  | .precode => 7

/-- `TB(x)`: index bits of the main decode table (rules R13, R58). -/
def Alphabet.tableBits : Alphabet → Nat
  | .litlen => 10
  | .offset => 8
  | .precode => 7

/-- `SIZE(x)`: entries of the decode table store (rules R13, R58). -/
def Alphabet.tableSize : Alphabet → Nat
  | .litlen => 2560
  | .offset => 768
  | .precode => 128

/-- `PERM`, the order of the precode lengths in a dynamic header (rule R135). -/
def precodeOrder : List Nat :=
  [16, 17, 18, 0, 8, 7, 9, 6, 10, 5, 11, 4, 12, 3, 13, 2, 14, 1, 15]

/-- `LEN_BASE`, by `sym - 257` (rule R139). -/
def lenBases : List Nat :=
  [3, 4, 5, 6, 7, 8, 9, 10, 11, 13, 15, 17, 19, 23, 27, 31, 35, 43, 51, 59,
   67, 83, 99, 115, 131, 163, 195, 227, 258]

/-- `LEN_EXTRA`, by `sym - 257` (rule R139). -/
def lenExtras : List Nat :=
  [0, 0, 0, 0, 0, 0, 0, 0, 1, 1, 1, 1, 2, 2, 2, 2, 3, 3, 3, 3,
   4, 4, 4, 4, 5, 5, 5, 5, 0]

/-- `OFF_BASE` (rule R141). -/
def offBases : List Nat :=
  [1, 2, 3, 4, 5, 7, 9, 13, 17, 25, 33, 49, 65, 97, 129, 193, 257, 385, 513, 769,
   1025, 1537, 2049, 3073, 4097, 6145, 8193, 12289, 16385, 24577]

/-- `OFF_EXTRA` (rule R141). -/
def offExtras : List Nat :=
  [0, 0, 0, 0, 1, 1, 2, 2, 3, 3, 4, 4, 5, 5, 6, 6, 7, 7, 8, 8,
   9, 9, 10, 10, 11, 11, 12, 12, 13, 13]

/-- `LEN_BASE[i]` (rule R139). -/
def lenBase (i : Nat) : Nat := lenBases.getD i 0

/-- `LEN_EXTRA[i]` (rule R139). -/
def lenExtra (i : Nat) : Nat := lenExtras.getD i 0

/-- `OFF_BASE[t]` (rule R141). -/
def offBase (t : Nat) : Nat := offBases.getD t 0

/-- `OFF_EXTRA[t]` (rule R141). -/
def offExtra (t : Nat) : Nat := offExtras.getD t 0

/-- `PRE_EXTRA(s)`: the extra bits of a precode symbol (rules R136, R240). -/
def preExtra (s : Nat) : Nat :=
  if s = 16 then 2 else if s = 17 then 3 else if s = 18 then 7 else 0

/-- The litlen code lengths of the fixed code, symbols 0..287 (rule R140). -/
def fixedLitlenLens : List Nat :=
  List.replicate 144 8 ++ (List.replicate 112 9 ++ (List.replicate 24 7 ++ List.replicate 8 8))

/-- The offset code lengths of the fixed code, symbols 0..31 (rule R140). -/
def fixedOffsetLens : List Nat := List.replicate 32 5

end Sys2Proof
end

