-- ==== Sys2Proof/WellFormed.lean ====
section
/-! DEFINITION. Which terms of `Instr` stand for an instruction some bits encode.

A command is well-formed whatever its SEL operand, whose type holds exactly the legal values (rule
R123). A stream element is well-formed when its fields fit the widths and ranges of rules R138 to
R141. -/

namespace Sys2Proof

/-- The fields fit what the encoding can hold. -/
def Instr.wellFormed : Instr → Bool
  | .copyMatch ls lx os ox =>
    decide (ls.toNat < 29) && decide (lx.toNat < 2 ^ lenExtra ls.toNat)
      && decide (os.toNat < 30) && decide (ox.toNat < 2 ^ offExtra os.toNat)
  | .llReserved symbol => decide (286 ≤ symbol.toNat) && decide (symbol.toNat ≤ 287)
  | .ofReserved symbol => decide (30 ≤ symbol.toNat) && decide (symbol.toNat ≤ 31)
  | .nop | .create _ | .destroy | .compress | .bound | .decompress | .tread _ | .twrite _
  | .mfInit | .mfFind | .mfSkip | .mfSlide
  | .hbClear | .hbTally _ | .hbMatch | .hbLens _ | .hbCodes _ | .hbFixed | .hbPrecode
  | .dtBuild _ | .dtDecode _
  | .bwInit | .bwPut | .bwAlign | .bwFlush | .bwBytes
  | .brInit | .brPeek | .brDrop | .brGet | .brAlign | .brBytes
  | .dxInit | .dxStep
  | .blockStored _ | .blockFixed _ | .blockDynamic _ | .blockReserved _
  | .storedBody _ _ | .dynamicHeader _ _ _
  | .preLen _ | .preRep _ | .preZrep3 _ | .preZrep11 _ | .lit _ | .eob => true

end Sys2Proof
end

