-- ==== Sys2Proof/Decode.lean ====
section
/-! DEFINITION. Decoding and encoding, at both levels of rule R11: command words (rules R120 to R124)
and stream elements (rules R130 to R145). Decoding is total and rejects by name; the encoder is
written from the same tables.

A stream element is read from a `Source`: something that yields a fixed-width field or the next
symbol of an alphabet. The machine reads from its bit reader and decode tables, the encoder's
counterpart from a list of bits and the code lengths in force; which fields an element has is said
once, here. -/

namespace Sys2Proof

/-! ## Bits -/

/-- The low `n` bits of `v`, bit 0 first: a field in stream order (rule R96). -/
def bitsOf : (n v : Nat) → List Bool
  | 0, _ => []
  | n + 1, v => decide (v % 2 = 1) :: bitsOf n (v / 2)

/-- The number whose bit `k` is the `k`-th bit of the list (rule R96). -/
def ofBits : List Bool → Nat
  | [] => 0
  | b :: bs => b.toNat + 2 * ofBits bs

/-- `rev_n(v)`: the low `n` bits of `v` reversed (rule R15). -/
def rev : (n v : Nat) → Nat
  | 0, _ => 0
  | n + 1, v => (v % 2) * 2 ^ n + rev n (v / 2)

/-! ## Canonical codewords (rule R281) -/

/-- `count[l]`: how many entries of `lens` are `l`. -/
def countLen (lens : List Nat) (l : Nat) : Nat := lens.count l

/-- The first codeword of each length from `l` on, for `n` lengths, when the first codeword of length
`l - 1` is `code` and `prev` codewords have that length: doubled as rule R281 says. -/
def firstCodesFrom (lens : List Nat) : (n l code prev : Nat) → List Nat
  | 0, _, _, _ => []
  | n + 1, l, code, prev =>
    ((code + prev) * 2) :: firstCodesFrom lens n (l + 1) ((code + prev) * 2) (countLen lens l)

/-- `first[l]` for `l` in 0..15; entry 0 is not used (rule R281). -/
def firstCodes (lens : List Nat) : List Nat := 0 :: firstCodesFrom lens 15 1 0 0

/-- Hand out the next codeword of each symbol's length, symbols in increasing order (rule R281). -/
def assignCodes : (lens next : List Nat) → List Nat
  | [], _ => []
  | l :: ls, next =>
    if l = 0 then 0 :: assignCodes ls next
    else next.getD l 0 :: assignCodes ls (next.set l (next.getD l 0 + 1))

/-- `Canonical(lens)`: the codeword of every symbol as a number; 0 where the length is 0 (rule R281). -/
def canonical (lens : List Nat) : List Nat := assignCodes lens (firstCodes lens)

/-! ## Sources of stream fields -/

/-- Why a word or a bit sequence is no instruction. -/
inductive Reject where
  /-- Bits 31:12 of a command word are not 0 (rule R121, test 1). -/
  | reservedBits
  /-- Bits 7:0 of a command word are no OPC (rule R121, test 2). -/
  | unknownOpc
  /-- SEL is outside what the OPC allows (rule R121, test 3). -/
  | badSel
  /-- The source refuses more bits: the overread bound of the reader (rule R344), or the end of a list. -/
  | outOfBits
  /-- The next bits are no codeword of the code in force (rule R143). -/
  | noCodeword
  /-- Precode symbol 16 with no previous length (rule R368). -/
  | noPrevious
  /-- A precode symbol above 18; only a changed table yields one. -/
  | noSuchPrecode
  /-- An offset symbol below 30 standing where no match has begun. -/
  | offsetAlone
deriving DecidableEq, Repr

/-- Something stream fields are read from. A read that fails may still have consumed bits. -/
structure Source (σ : Type) where
  /-- A field of `n` bits, least significant bit first (rule R96). -/
  bits : (n : Nat) → σ → σ × Option Nat
  /-- The next symbol of an alphabet, by the code in force (rule R143). -/
  symbol : Alphabet → σ → σ × Option Nat

/-! ## Stream elements -/

/-- BLKHDR: BFINAL, then BTYPE (rule R131). -/
def headerInstr (h : Nat) : Instr :=
  let final := decide (h % 2 = 1)
  match h / 2 % 4 with
  | 0 => .blockStored final
  | 1 => .blockFixed final
  | 2 => .blockDynamic final
  | _ => .blockReserved final

/-- Read a block header (rules R131, R364). -/
def readHeader {σ : Type} (src : Source σ) (st : σ) : σ × Except Reject Instr :=
  match src.bits 3 st with
  | (st, none) => (st, .error .outOfBits)
  | (st, some h) => (st, .ok (headerInstr h))

/-- Read LEN and NLEN of a stored block, from a byte boundary on (rules R132, R375). -/
def readStored {σ : Type} (src : Source σ) (st : σ) : σ × Except Reject Instr :=
  match src.bits 16 st with
  | (st, none) => (st, .error .outOfBits)
  | (st, some len) =>
    match src.bits 16 st with
    | (st, none) => (st, .error .outOfBits)
    | (st, some nlen) => (st, .ok (.storedBody (BitVec.ofNat 16 len) (BitVec.ofNat 16 nlen)))

/-- Read HLIT, HDIST and HCLEN as one field of 14 bits (rules R134, R366). -/
def readDynamic {σ : Type} (src : Source σ) (st : σ) : σ × Except Reject Instr :=
  match src.bits 14 st with
  | (st, none) => (st, .error .outOfBits)
  | (st, some h) =>
    (st, .ok (.dynamicHeader (BitVec.ofNat 5 h) (BitVec.ofNat 5 (h / 32)) (BitVec.ofNat 4 (h / 1024))))

/-- Read a precode symbol and its extra bits (rules R136, R368). `havePrevious` says whether a
length precedes: symbol 16 without one is an error before its extra bits are read. -/
def readPrecode {σ : Type} (src : Source σ) (havePrevious : Bool) (st : σ) : σ × Except Reject Instr :=
  match src.symbol .precode st with
  | (st, none) => (st, .error .noCodeword)
  | (st, some s) =>
    if s ≤ 15 then (st, .ok (.preLen (BitVec.ofNat 4 s)))
    else if s = 16 ∧ havePrevious = false then (st, .error .noPrevious)
    else if 18 < s then (st, .error .noSuchPrecode)
    else
      match src.bits (preExtra s) st with
      | (st, none) => (st, .error .outOfBits)
      | (st, some e) =>
        if s = 16 then (st, .ok (.preRep (BitVec.ofNat 2 e)))
        else if s = 17 then (st, .ok (.preZrep3 (BitVec.ofNat 3 e)))
        else (st, .ok (.preZrep11 (BitVec.ofNat 7 e)))

/-- Read the offset part of a match whose length part is known (rules R141, R373). -/
def readMatchOffset {σ : Type} (src : Source σ) (ls lx : Nat) (st : σ) : σ × Except Reject Instr :=
  match src.symbol .offset st with
  | (st, none) => (st, .error .noCodeword)
  | (st, some t) =>
    if 30 ≤ t then (st, .ok (.ofReserved (BitVec.ofNat 16 t)))
    else
      match src.bits (offExtra t) st with
      | (st, none) => (st, .error .outOfBits)
      | (st, some ox) =>
        (st, .ok (.copyMatch (BitVec.ofNat 5 ls) (BitVec.ofNat 5 lx) (BitVec.ofNat 5 t) (BitVec.ofNat 13 ox)))

/-- Read a litlen symbol with all that belongs to it (rules R138, R370, R373). -/
def readLitlen {σ : Type} (src : Source σ) (st : σ) : σ × Except Reject Instr :=
  match src.symbol .litlen st with
  | (st, none) => (st, .error .noCodeword)
  | (st, some s) =>
    if s ≤ 255 then (st, .ok (.lit (BitVec.ofNat 8 s)))
    else if s = 256 then (st, .ok .eob)
    else if s ≤ 285 then
      match src.bits (lenExtra (s - 257)) st with
      | (st, none) => (st, .error .outOfBits)
      | (st, some lx) => readMatchOffset src (s - 257) lx st
    else (st, .ok (.llReserved (BitVec.ofNat 16 s)))

/-- Read an offset symbol that stands alone: only the reserved ones are elements of their own (rule R374). -/
def readOffset {σ : Type} (src : Source σ) (st : σ) : σ × Except Reject Instr :=
  match src.symbol .offset st with
  | (st, none) => (st, .error .noCodeword)
  | (st, some t) =>
    if 30 ≤ t then (st, .ok (.ofReserved (BitVec.ofNat 16 t))) else (st, .error .offsetAlone)

/-! ## Command words -/

/-- A command without SEL (rule R123). -/
def plainCommand (sel : Nat) (i : Instr) : Except Reject Instr :=
  if sel = 0 then .ok i else .error .badSel

/-- A command whose SEL names an alphabet (rule R123). -/
def alphabetCommand (sel : Nat) (i : Alphabet → Instr) : Except Reject Instr :=
  match sel with
  | 0 => .ok (i .litlen)
  | 1 => .ok (i .offset)
  | 2 => .ok (i .precode)
  | _ => .error .badSel

/-- The table space SEL names (rule R82). -/
def spaceOf (sel : Nat) : Space :=
  match sel with
  | 0 => .head
  | 1 => .next
  | 2 => .freqLL
  | 3 => .freqOF
  | 4 => .freqPC
  | 5 => .lensLL
  | 6 => .lensOF
  | 7 => .lensPC
  | 8 => .codeLL
  | 9 => .codeOF
  | 10 => .codePC
  | 11 => .dtabLL
  | 12 => .dtabOF
  | 13 => .dtabPC
  | 14 => .items
  | _ => .misc

/-- The opcode map (rule R122), with SEL as rule R123 allows it. -/
def decodeOpc (opc sel : Nat) : Except Reject Instr :=
  match opc with
  | 0x00 => plainCommand sel .nop
  | 0x01 => .ok (.create (BitVec.ofNat 4 sel))
  | 0x02 => plainCommand sel .destroy
  | 0x03 => plainCommand sel .compress
  | 0x04 => plainCommand sel .bound
  | 0x05 => plainCommand sel .decompress
  | 0x06 => .ok (.tread (spaceOf sel))
  | 0x07 => .ok (.twrite (spaceOf sel))
  | 0x10 => plainCommand sel .mfInit
  | 0x11 => plainCommand sel .mfFind
  | 0x12 => plainCommand sel .mfSkip
  | 0x13 => plainCommand sel .mfSlide
  | 0x20 => plainCommand sel .hbClear
  | 0x21 => alphabetCommand sel .hbTally
  | 0x22 => plainCommand sel .hbMatch
  | 0x23 => alphabetCommand sel .hbLens
  | 0x24 => alphabetCommand sel .hbCodes
  | 0x25 => plainCommand sel .hbFixed
  | 0x26 => plainCommand sel .hbPrecode
  | 0x30 => alphabetCommand sel .dtBuild
  | 0x31 => alphabetCommand sel .dtDecode
  | 0x40 => plainCommand sel .bwInit
  | 0x41 => plainCommand sel .bwPut
  | 0x42 => plainCommand sel .bwAlign
  | 0x43 => plainCommand sel .bwFlush
  | 0x44 => plainCommand sel .bwBytes
  | 0x50 => plainCommand sel .brInit
  | 0x51 => plainCommand sel .brPeek
  | 0x52 => plainCommand sel .brDrop
  | 0x53 => plainCommand sel .brGet
  | 0x54 => plainCommand sel .brAlign
  | 0x55 => plainCommand sel .brBytes
  | 0x60 => plainCommand sel .dxInit
  | 0x61 => plainCommand sel .dxStep
  | _ => .error .unknownOpc

/-- Decode a command word: tests 1 to 3 of rule R121, in that order. -/
def decodeCommand (w : Word) : Except Reject Instr :=
  if w.toNat / 4096 ≠ 0 then .error .reservedBits
  else decodeOpc (w.toNat % 256) (w.toNat / 256 % 16)

/-! ## The code in force, and decoding from a list of bits -/

/-- Code lengths per alphabet: "which code is in force depends on the block" (rule R143). -/
structure Codes where
  litlen : List Nat
  offset : List Nat
  precode : List Nat
deriving DecidableEq, Repr

/-- The lengths of one alphabet. -/
def Codes.lens (c : Codes) : Alphabet → List Nat
  | .litlen => c.litlen
  | .offset => c.offset
  | .precode => c.precode

/-- The codes of a FIXED block (rule R140); it has no precode. -/
def Codes.fixed : Codes := ⟨fixedLitlenLens, fixedOffsetLens, []⟩

/-- The symbol whose codeword is the `l`-bit number `acc`, symbols numbered from `s` (rule R143). -/
def findSymbol (l acc : Nat) : (lens words : List Nat) → (s : Nat) → Option Nat
  | len :: lens, w :: words, s =>
    if len = l ∧ w = acc then some s else findSymbol l acc lens words (s + 1)
  | _, _, _ => none

/-- Read bits, first bit most significant, until they equal a codeword of at most 15 bits (rule R143). -/
def readCodeword (lens words : List Nat) : (fuel l acc : Nat) → List Bool → List Bool × Option Nat
  | 0, _, _, bs => (bs, none)
  | _ + 1, _, _, [] => ([], none)
  | fuel + 1, l, acc, b :: bs =>
    match findSymbol (l + 1) (2 * acc + b.toNat) lens words 0 with
    | some s => (bs, some s)
    | none => readCodeword lens words fuel (l + 1) (2 * acc + b.toNat) bs

/-- A list of bits as a source: fields least significant bit first, codewords most significant bit
first (rule R96). -/
def listSource (c : Codes) : Source (List Bool) where
  bits n bs := if bs.length < n then (bs, none) else (bs.drop n, some (ofBits (bs.take n)))
  symbol x bs := readCodeword (c.lens x) (canonical (c.lens x)) 15 0 0 bs

/-- What the decoder expects next (rule R143). -/
inductive Expect where
  | command
  | header
  | stored
  | dynamic
  | precode
  | litlen
  | offset
deriving DecidableEq, Repr

/-- Decode one instruction at the front of a list of bits, and give the rest of the list. -/
def decode (c : Codes) (e : Expect) (bs : List Bool) : List Bool × Except Reject Instr :=
  match e with
  | .command =>
    match (listSource c).bits 32 bs with
    | (bs, none) => (bs, .error .outOfBits)
    | (bs, some w) => (bs, decodeCommand (BitVec.ofNat 32 w))
  | .header => readHeader (listSource c) bs
  | .stored => readStored (listSource c) bs
  | .dynamic => readDynamic (listSource c) bs
  | .precode => readPrecode (listSource c) true bs
  | .litlen => readLitlen (listSource c) bs
  | .offset => readOffset (listSource c) bs

/-! ## Encoding -/

/-- SEL of an alphabet (rule R123). -/
def selOfAlphabet : Alphabet → Nat
  | .litlen => 0
  | .offset => 1
  | .precode => 2

/-- SEL of a table space (rule R82). -/
def selOfSpace : Space → Nat
  | .head => 0
  | .next => 1
  | .freqLL => 2
  | .freqOF => 3
  | .freqPC => 4
  | .lensLL => 5
  | .lensOF => 6
  | .lensPC => 7
  | .codeLL => 8
  | .codeOF => 9
  | .codePC => 10
  | .dtabLL => 11
  | .dtabOF => 12
  | .dtabPC => 13
  | .items => 14
  | .misc => 15

/-- `OPC | SEL << 8` (rules R120, R122). -/
def commandWord (opc sel : Nat) : Word := BitVec.ofNat 32 (opc + 256 * sel)

/-- The command word of a command (rule R122); a stream element has none. -/
def encodeCommand : Instr → Option Word
  | .nop => some (commandWord 0x00 0)
  | .create level => some (commandWord 0x01 level.toNat)
  | .destroy => some (commandWord 0x02 0)
  | .compress => some (commandWord 0x03 0)
  | .bound => some (commandWord 0x04 0)
  | .decompress => some (commandWord 0x05 0)
  | .tread space => some (commandWord 0x06 (selOfSpace space))
  | .twrite space => some (commandWord 0x07 (selOfSpace space))
  | .mfInit => some (commandWord 0x10 0)
  | .mfFind => some (commandWord 0x11 0)
  | .mfSkip => some (commandWord 0x12 0)
  | .mfSlide => some (commandWord 0x13 0)
  | .hbClear => some (commandWord 0x20 0)
  | .hbTally x => some (commandWord 0x21 (selOfAlphabet x))
  | .hbMatch => some (commandWord 0x22 0)
  | .hbLens x => some (commandWord 0x23 (selOfAlphabet x))
  | .hbCodes x => some (commandWord 0x24 (selOfAlphabet x))
  | .hbFixed => some (commandWord 0x25 0)
  | .hbPrecode => some (commandWord 0x26 0)
  | .dtBuild x => some (commandWord 0x30 (selOfAlphabet x))
  | .dtDecode x => some (commandWord 0x31 (selOfAlphabet x))
  | .bwInit => some (commandWord 0x40 0)
  | .bwPut => some (commandWord 0x41 0)
  | .bwAlign => some (commandWord 0x42 0)
  | .bwFlush => some (commandWord 0x43 0)
  | .bwBytes => some (commandWord 0x44 0)
  | .brInit => some (commandWord 0x50 0)
  | .brPeek => some (commandWord 0x51 0)
  | .brDrop => some (commandWord 0x52 0)
  | .brGet => some (commandWord 0x53 0)
  | .brAlign => some (commandWord 0x54 0)
  | .brBytes => some (commandWord 0x55 0)
  | .dxInit => some (commandWord 0x60 0)
  | .dxStep => some (commandWord 0x61 0)
  | .blockStored _ | .blockFixed _ | .blockDynamic _ | .blockReserved _
  | .storedBody _ _ | .dynamicHeader _ _ _
  | .preLen _ | .preRep _ | .preZrep3 _ | .preZrep11 _
  | .lit _ | .eob | .copyMatch _ _ _ _ | .llReserved _ | .ofReserved _ => none

/-- A codeword as sent: the `lens[s]` bits of its canonical number, most significant first (rules R96, R281). -/
def codewordBits (lens : List Nat) (s : Nat) : List Bool :=
  (bitsOf (lens.getD s 0) ((canonical lens).getD s 0)).reverse

/-- A block header's three bits (rule R131). -/
def headerBits (final : Bool) (btype : Nat) : List Bool := final :: bitsOf 2 btype

/-- The bits of an instruction in stream order; a command word bit 0 first. A stored block's padding
and data and a dynamic header's lengths are not part of the element's own fields. -/
def encode (c : Codes) (i : Instr) : List Bool :=
  match i with
  | .blockStored final => headerBits final 0
  | .blockFixed final => headerBits final 1
  | .blockDynamic final => headerBits final 2
  | .blockReserved final => headerBits final 3
  | .storedBody len nlen => bitsOf 16 len.toNat ++ bitsOf 16 nlen.toNat
  | .dynamicHeader hlit hdist hclen =>
    bitsOf 5 hlit.toNat ++ (bitsOf 5 hdist.toNat ++ bitsOf 4 hclen.toNat)
  | .preLen value => codewordBits c.precode value.toNat
  | .preRep extra => codewordBits c.precode 16 ++ bitsOf 2 extra.toNat
  | .preZrep3 extra => codewordBits c.precode 17 ++ bitsOf 3 extra.toNat
  | .preZrep11 extra => codewordBits c.precode 18 ++ bitsOf 7 extra.toNat
  | .lit value => codewordBits c.litlen value.toNat
  | .eob => codewordBits c.litlen 256
  | .copyMatch ls lx os ox =>
    codewordBits c.litlen (257 + ls.toNat) ++ (bitsOf (lenExtra ls.toNat) lx.toNat
      ++ (codewordBits c.offset os.toNat ++ bitsOf (offExtra os.toNat) ox.toNat))
  | .llReserved symbol => codewordBits c.litlen symbol.toNat
  | .ofReserved symbol => codewordBits c.offset symbol.toNat
  | .nop | .create _ | .destroy | .compress | .bound | .decompress | .tread _ | .twrite _
  | .mfInit | .mfFind | .mfSkip | .mfSlide
  | .hbClear | .hbTally _ | .hbMatch | .hbLens _ | .hbCodes _ | .hbFixed | .hbPrecode
  | .dtBuild _ | .dtDecode _
  | .bwInit | .bwPut | .bwAlign | .bwFlush | .bwBytes
  | .brInit | .brPeek | .brDrop | .brGet | .brAlign | .brBytes
  | .dxInit | .dxStep => bitsOf 32 ((encodeCommand i).getD 0).toNat

/-- What a decoder must expect to read an instruction back (rule R143). -/
def Instr.expect : Instr → Expect
  | .blockStored _ | .blockFixed _ | .blockDynamic _ | .blockReserved _ => .header
  | .storedBody _ _ => .stored
  | .dynamicHeader _ _ _ => .dynamic
  | .preLen _ | .preRep _ | .preZrep3 _ | .preZrep11 _ => .precode
  | .lit _ | .eob | .copyMatch _ _ _ _ | .llReserved _ => .litlen
  | .ofReserved _ => .offset
  | .nop | .create _ | .destroy | .compress | .bound | .decompress | .tread _ | .twrite _
  | .mfInit | .mfFind | .mfSkip | .mfSlide
  | .hbClear | .hbTally _ | .hbMatch | .hbLens _ | .hbCodes _ | .hbFixed | .hbPrecode
  | .dtBuild _ | .dtDecode _
  | .bwInit | .bwPut | .bwAlign | .bwFlush | .bwBytes
  | .brInit | .brPeek | .brDrop | .brGet | .brAlign | .brBytes
  | .dxInit | .dxStep => .command

/-- The symbols an element's bits hold, each with its alphabet (rules R136, R138, R141). -/
def Instr.symbols : Instr → List (Alphabet × Nat)
  | .preLen value => [(.precode, value.toNat)]
  | .preRep _ => [(.precode, 16)]
  | .preZrep3 _ => [(.precode, 17)]
  | .preZrep11 _ => [(.precode, 18)]
  | .lit value => [(.litlen, value.toNat)]
  | .eob => [(.litlen, 256)]
  | .copyMatch ls _ os _ => [(.litlen, 257 + ls.toNat), (.offset, os.toNat)]
  | .llReserved symbol => [(.litlen, symbol.toNat)]
  | .ofReserved symbol => [(.offset, symbol.toNat)]
  | .blockStored _ | .blockFixed _ | .blockDynamic _ | .blockReserved _
  | .storedBody _ _ | .dynamicHeader _ _ _
  | .nop | .create _ | .destroy | .compress | .bound | .decompress | .tread _ | .twrite _
  | .mfInit | .mfFind | .mfSkip | .mfSlide
  | .hbClear | .hbTally _ | .hbMatch | .hbLens _ | .hbCodes _ | .hbFixed | .hbPrecode
  | .dtBuild _ | .dtDecode _
  | .bwInit | .bwPut | .bwAlign | .bwFlush | .bwBytes
  | .brInit | .brPeek | .brDrop | .brGet | .brAlign | .brBytes
  | .dxInit | .dxStep => []

/-- Whether the codes in force have a codeword for every symbol of the element. -/
def Codes.cover (c : Codes) (i : Instr) : Bool :=
  i.symbols.all fun p => decide ((c.lens p.1).getD p.2 0 ≠ 0)

/-! ## The host's view of the opcode table -/

/-- What a decode result holds when it holds an instruction. -/
def instrOf (r : Except Reject Instr) : Option Instr :=
  match r with
  | .ok i => some i
  | .error _ => none

/-- The instruction the decoder reads from a row's word. A row of 32 bits is a command word; a
shorter row is a block header, the only stream element whose bits the table fixes (rule R131). -/
def decodeTableWord (nbits w : Nat) : Option Instr :=
  if 32 ≤ nbits then instrOf (decode Codes.fixed .command (bitsOf 32 w)).2
  else instrOf (decode Codes.fixed .header (bitsOf 8 w)).2

end Sys2Proof
end

