-- ==== Sys2Proof/Config.lean ====
section
/-! DEFINITION. What an implementation fixes (the OPEN parameters of rule R13) and the free values of the model.

The OPEN parameters are plain data: the machine's State holds one `Config`, no step changes it, and
every statement over all states holds for every value of them. The free values are constants without a body, so nothing
can be proved about the value of one. -/

namespace Sys2Proof

/-- The OPEN parameter `OVERREAD_AT_DONE` (rules R13, R376): what a stream answers that ends having
consumed implicit zero bits, or whose stored block is longer than the input. -/
inductive OverreadAtDone where
  | shortInput
  | badData
deriving DecidableEq, Repr

/-- The OPEN parameter `ERROR_OUTPUT` (rules R13, R418; U5): what is shown of the destination after
a failed COMPRESS or DECOMPRESS. -/
inductive ErrorOutput where
  | unspecified
  | asRuled
deriving DecidableEq, Repr

/-- The OPEN parameters a platform fixes (rule R13). -/
structure Config where
  /-- `REG_BASE`: where the platform places the register port (rule R93). -/
  regBase : Word
  /-- `OVERREAD_AT_DONE` (rule R376; log entry 23). -/
  overreadAtDone : OverreadAtDone
  /-- `STRICT_COUNTS` (rule R366). -/
  strictCounts : Bool
  /-- `ERROR_OUTPUT` (rules R246, R377, R418). -/
  errorOutput : ErrorOutput
  /-- `NUM_ENGINES` (rules R13, R423): how many instances the platform holds, 1 or more. The State is
  one of them, and they share nothing but buffer memory, so no rule of a step reads it (log entry 3). -/
  numEngines : Nat
deriving DecidableEq, Repr

/-- The defaults of rule R13; `REG_BASE` has none, and 0 is a DESIGN CHOICE (log entry 2). -/
def Config.default : Config where
  regBase := 0
  overreadAtDone := .shortInput
  strictCounts := true
  errorOutput := .unspecified
  numEngines := 1

/-- FREE VALUE (log entry 6): the byte at an address of the destination of the failed command that made draw `draw`. -/
opaque Config.freeByte : (draw : Nat) → (address : Nat) → Byte

/-- FREE VALUE (log entry 6): result register `index` after the failed DECOMPRESS that made draw `draw`. -/
opaque Config.freeCount : (draw : Nat) → (index : Nat) → Nat

/-- FREE VALUE (log entry 5): entry `index` of table space `space` after the DESTROY or hard reset that made draw `draw`. -/
opaque Config.freeEntry : (draw : Nat) → (space : Nat) → (index : Nat) → Word

end Sys2Proof
end

