-- ==== Sys2Proof/Machine/State.lean ====
section
/-! DEFINITION. The state of one engine instance (rule R30), with the buffer memory it masters and
the host accesses that drive it; the machine right after hard reset (rule R450). Plain data.

Tables are held sparsely: a list of (index, entry) pairs, indexes strictly rising, no entry equal to
what an unlisted index reads as. -/

namespace Sys2Proof.Machine

/-- The result codes of rule R37. Codes 8..15 are never produced. -/
inductive Result where
  | success
  | badData
  | insufficientSpace
  | shortInput
  | createFailed
  | noHandle
  | badCmd
  | badArg
deriving DecidableEq, Repr

/-- The decompressor's states (rule R75). Encodings 6 and 7 never occur. -/
inductive DxState where
  | blockHeader
  | buildTables
  | decodeLoop
  | copyStored
  | done
  | error
deriving DecidableEq, Repr

/-- Buffer memory: address and byte, addresses strictly rising, no byte equal to `memoryFill`. -/
abbrev Memory := List Host.Cell

/-- A table of `w`-bit entries; an unlisted index reads as 0. -/
abbrev Table (w : Nat) := List (Nat × BitVec w)

/-- A position table; an unlisted index reads as the sentinel (rules R42, R43). -/
abbrev Slots := List (Nat × BitVec 16)

/-- One table per alphabet (rule R50). -/
structure Trio (w : Nat) where
  litlen : Table w
  offset : Table w
  precode : Table w
deriving DecidableEq, Repr

/-- The host port's registers (rules R33, R34) and STATUS.RESULT (rule R35); the other STATUS fields are live copies. -/
structure Port where
  a0 : Word
  a1 : Word
  a2 : Word
  a3 : Word
  a4 : Word
  a5 : Word
  a6 : Word
  a7 : Word
  cmd : Word
  result : Result
deriving DecidableEq, Repr

/-- The handle scalars (rule R38). -/
structure Handle where
  /-- `H.alive`. -/
  alive : Bool
  /-- `H.level`. -/
  level : BitVec 4
  /-- `CP.lazy`. -/
  lazy : Bool
  /-- `CP.depth`. -/
  depth : BitVec 10
  /-- `CP.nice`. -/
  nice : BitVec 9
deriving DecidableEq, Repr

/-- The match-finder (rules R40 to R43). -/
structure MatchFinder where
  src : Word
  len : Word
  base : Word
  pos : BitVec 17
  head : Slots
  next : Slots
deriving DecidableEq, Repr

/-- A token of the symbol stream (rule R48). -/
inductive Token where
  | lit (b : Byte)
  | copy (len : BitVec 9) (off : BitVec 15)
deriving DecidableEq, Repr

/-- The compressor sequencer (rule R48). `CP.ntok` is the length of `tok`, at most `TOKENS_MAX`
(`tokensOk`): tokens past it are unspecified and unobservable, so they are not held (log entry 7). What
`tok` holds between commands is unspecified too (U1); what it holds here is log entry 24. -/
structure Sequencer where
  tok : List Token
  bstart : Word
deriving DecidableEq, Repr

/-- The description of a dynamic block's codes (rule R55). -/
structure Builder where
  items : Table 16
  nitems : BitVec 9
  nlit : BitVec 9
  ndist : BitVec 5
  npre : BitVec 5
deriving DecidableEq, Repr

/-- The bit writer (rules R64 to R66). -/
structure Writer where
  dst : Word
  cap : Word
  nbytes : Word
  acc : BitVec 64
  nbits : BitVec 7
  ovf : Bool
deriving DecidableEq, Repr

/-- The bit reader (rules R70, R71). -/
structure Reader where
  src : Word
  len : Word
  bitpos : BitVec 64
deriving DecidableEq, Repr

/-- The decompressor (rules R75 to R78). -/
structure Decomp where
  state : DxState
  bfinal : Bool
  btype : BitVec 2
  /-- `DX.err`: the recorded result, `success` (0) while there is none. -/
  err : Result
  dst : Word
  cap : Word
  outpos : Word
  nlit : BitVec 9
  ndist : BitVec 6
  npre : BitVec 5
  /-- The model's own: the length sequence `L` that the table build in progress has decoded (rule
  R368), empty between steps (log entry 8). -/
  seq : List (BitVec 4)
deriving DecidableEq, Repr

/-- One access of the host (log entry 4). -/
inductive HostOp where
  /-- A whole-word write to a word index of the register port (rules R33 to R36). -/
  | write (index : Nat) (w : Word)
  /-- A whole-word read of a word index of the register port (rules R33 to R36). -/
  | read (index : Nat)
  /-- A host write of one byte of buffer memory between commands (rules R90, R107, R455). -/
  | poke (address : Word) (b : Byte)
  /-- The reset input, between commands (rule R450). -/
  | hardReset
  /-- A port access that is not a whole aligned word (U2). -/
  | narrowAccess
  /-- A CMD write of `w` during which another agent touches a declared buffer or the port, or the
  reset input is asserted (U4; rule R450). -/
  | contended (w : Word)
deriving DecidableEq, Repr

/-- How the machine stops. No command and no stream element raises a fault: errors are result codes
(rule R418). -/
inductive Fault where
  /-- Raised by `step` on a `contended` access: the spec gives such an interleaving no meaning (U4,
  rules R105, R109, R455, R456; rule R450 for a reset during a command). Safe: the model stops where
  the engine goes on. -/
  | interference
deriving DecidableEq, Repr

/-- What the model refuses. -/
inductive Refusal where
  /-- An instruction without a meaning yet, by its mnemonic; raised by `exec` only. Safe. -/
  | notModelled (mnemonic : String)
  /-- Raised by `step` on a `narrowAccess`: accesses narrower than a word "are not defined" (rule
  R36, U2). Safe: the model stops where the engine does something. -/
  | narrowPortAccess
deriving DecidableEq, Repr

/-- The state of one engine instance, its buffer memory, and the host accesses still to come. -/
structure State where
  port : Port
  handle : Handle
  mf : MatchFinder
  cp : Sequencer
  /-- `FREQ_x` (rule R51). -/
  freq : Trio 32
  /-- `LENS_x` (rule R52), shared by the compressor and the decompressor. -/
  lens : Trio 4
  /-- `CODE_x` (rule R53). -/
  code : Trio 16
  hb : Builder
  /-- `DTAB_x` (rules R58, R59). -/
  dtab : Trio 32
  bw : Writer
  br : Reader
  dx : Decomp
  /-- Buffer memory, owned by the host (rule R90). -/
  mem : Memory
  /-- The OPEN parameters (rule R13); no step changes them. -/
  cfg : Config
  /-- The model's own: the host accesses still to come, next first (log entry 4). -/
  host : List HostOp
  /-- The model's own: the word the last port read returned (log entry 4). -/
  rdata : Word
  /-- The model's own: how many times free values have been drawn (log entries 5 and 6). -/
  draws : Nat
deriving DecidableEq, Repr

/-- Port registers after hard reset (rules R33, R34, R450). -/
def Port.reset : Port := ⟨0, 0, 0, 0, 0, 0, 0, 0, 0, .success⟩

/-- Handle scalars after hard reset (rule R38). -/
def Handle.reset : Handle := ⟨false, 0, false, 0, 0⟩

/-- Match-finder scalars after hard reset (rules R40, R41); the slots are the caller's. -/
def MatchFinder.cleared (head next : Slots) : MatchFinder := ⟨0, 0, 0, 0, head, next⟩

/-- Sequencer after hard reset (rule R48). -/
def Sequencer.reset : Sequencer := ⟨[], 0⟩

/-- Builder scalars after hard reset (rule R55); the items are the caller's. -/
def Builder.cleared (items : Table 16) : Builder := ⟨items, 0, 0, 0, 0⟩

/-- Bit writer after hard reset and after CREATE (rules R64 to R66). -/
def Writer.reset : Writer := ⟨0, 0, 0, 0, 0, false⟩

/-- Bit reader after hard reset and after CREATE (rules R70, R71). -/
def Reader.reset : Reader := ⟨0, 0, 0⟩

/-- Decompressor after hard reset (rules R75 to R78). -/
def Decomp.reset : Decomp := ⟨.blockHeader, false, 0, .success, 0, 0, 0, 0, 0, 0, []⟩

/-- Three tables with nothing listed. -/
def Trio.empty (w : Nat) : Trio w := ⟨[], [], []⟩

/-- The machine right after the first hard reset (rule R450). The tables, which that rule leaves
unspecified, list nothing: HEAD and NEXT read as the sentinel, the others as 0 (DESIGN CHOICE, log
entry 1). Memory lists nothing (log entry 9). -/
def State.reset : State where
  port := Port.reset
  handle := Handle.reset
  mf := MatchFinder.cleared [] []
  cp := Sequencer.reset
  freq := Trio.empty 32
  lens := Trio.empty 4
  code := Trio.empty 16
  hb := Builder.cleared []
  dtab := Trio.empty 32
  bw := Writer.reset
  br := Reader.reset
  dx := Decomp.reset
  mem := []
  cfg := Config.default
  host := []
  rdata := 0
  draws := 0

end Sys2Proof.Machine
end

