-- ==== Sys2Proof/Machine/Ops.lean ====
section
/-! DEFINITION. The named operations over memory, tables and registers, and the end of a command:
how a result code is recorded, which is all the engine has of taking an exception (rule R418).

`Cells` is the one sparse store memory and every table are held in. -/

namespace Sys2Proof.Machine

/-! ## The sparse store -/

/-- What index `i` reads as: its entry, else `fill`. -/
def Cells.get {α : Type} (fill : α) : List (Nat × α) → Nat → α
  | [], _ => fill
  | (j, x) :: r, i => if j = i then x else Cells.get fill r i

/-- Put an entry before the first entry of a larger index. -/
def Cells.insert {α : Type} (i : Nat) (x : α) : List (Nat × α) → List (Nat × α)
  | [] => [(i, x)]
  | (j, y) :: r => if i < j then (i, x) :: (j, y) :: r else (j, y) :: Cells.insert i x r

/-- Take every entry of an index out. -/
def Cells.erase {α : Type} (i : Nat) : List (Nat × α) → List (Nat × α)
  | [] => []
  | (j, y) :: r => if j = i then Cells.erase i r else (j, y) :: Cells.erase i r

/-- Write index `i`, keeping the canonical form: an entry equal to `fill` is not listed. -/
def Cells.set {α : Type} [DecidableEq α] (fill : α) (l : List (Nat × α)) (i : Nat) (x : α) :
    List (Nat × α) :=
  if x = fill then Cells.erase i l else Cells.insert i x (Cells.erase i l)

/-- The store whose index `i`, `i + 1`, … read as the given entries and every other index as `fill`. -/
def Cells.ofDense {α : Type} [DecidableEq α] (fill : α) : (i : Nat) → List α → List (Nat × α)
  | _, [] => []
  | i, x :: xs => if x = fill then Cells.ofDense fill (i + 1) xs else (i, x) :: Cells.ofDense fill (i + 1) xs

/-- Whether every index is at least `lo`, below `bound` and above the one before, and no entry is `fill`. -/
def Cells.wfFrom {α : Type} [DecidableEq α] (fill : α) (bound : Nat) : (lo : Nat) → List (Nat × α) → Bool
  | _, [] => true
  | lo, (j, x) :: r => decide (lo ≤ j) && decide (j < bound) && decide (x ≠ fill) && Cells.wfFrom fill bound (j + 1) r

/-! ## Buffer memory (rules R90, R94, R101) -/

/-- What a byte nothing has written reads as (DESIGN CHOICE, log entry 9). -/
def memoryFill : Byte := 0

/-- Memory is in its canonical form, and every address is one of the 2^32. -/
def Memory.wf (m : Memory) : Bool := Cells.wfFrom memoryFill wordSpan 0 m

/-- `MemRead(addr, 1)` (rules R16, R99). -/
def Memory.read (m : Memory) (addr : Word) : Byte := Cells.get memoryFill m addr.toNat

/-- `MemWrite(addr, 1, b)` (rules R16, R99). -/
def Memory.write (m : Memory) (addr : Word) (b : Byte) : Memory := Cells.set memoryFill m addr.toNat b

/-- The address `base + index` of a buffer byte (rules R17 (a), R193). -/
def bufferAddr (base : Word) (index : Nat) : Word := base + BitVec.ofNat 32 index

/-- The `n` bytes of a buffer from index `i` on, read one by one. -/
def Memory.bytes (m : Memory) (base : Word) : (i n : Nat) → List Byte
  | _, 0 => []
  | i, n + 1 => m.read (bufferAddr base i) :: Memory.bytes m base (i + 1) n

/-- Replace the `n` bytes of a buffer from index `i` on by free values of one draw (U5). -/
def Memory.scramble (draw : Nat) (base : Word) : (i n : Nat) → Memory → Memory
  | _, 0, m => m
  | i, n + 1, m =>
    Memory.scramble draw base (i + 1) n
      (m.write (bufferAddr base i) (Config.freeByte draw (bufferAddr base i).toNat))

/-! ## Tables (rules R42, R43, R51 to R53, R55, R58) -/

/-- Entry `i` of a table. -/
def Table.get {w : Nat} (t : Table w) (i : Nat) : BitVec w := Cells.get 0 t i

/-- Write entry `i` of a table. -/
def Table.set {w : Nat} (t : Table w) (i : Nat) (v : BitVec w) : Table w := Cells.set 0 t i v

/-- A table in canonical form whose indexes are below `n`. -/
def Table.wf {w : Nat} (n : Nat) (t : Table w) : Bool := Cells.wfFrom 0 n 0 t

/-- The first `n` entries of a table, as numbers. -/
def Table.toList {w : Nat} (t : Table w) (n : Nat) : List Nat :=
  (List.range n).map fun i => (t.get i).toNat

/-- The table whose first entries are the given numbers and whose other entries are 0. -/
def Table.ofList (w : Nat) (vs : List Nat) : Table w :=
  Cells.ofDense 0 0 (vs.map (BitVec.ofNat w))

/-- Slot `i` of a position table. -/
def Slots.get (t : Slots) (i : Nat) : BitVec 16 := Cells.get sentinel t i

/-- Write slot `i` of a position table. -/
def Slots.set (t : Slots) (i : Nat) (v : BitVec 16) : Slots := Cells.set sentinel t i v

/-- A position table in canonical form. -/
def Slots.wf (t : Slots) : Bool := Cells.wfFrom sentinel windowSize 0 t

/-- The table of one alphabet. -/
def Trio.table {w : Nat} (t : Trio w) : Alphabet → Table w
  | .litlen => t.litlen
  | .offset => t.offset
  | .precode => t.precode

/-- Replace the table of one alphabet. -/
def Trio.put {w : Nat} (t : Trio w) (x : Alphabet) (v : Table w) : Trio w :=
  match x with
  | .litlen => { t with litlen := v }
  | .offset => { t with offset := v }
  | .precode => { t with precode := v }

/-- The three tables in canonical form, each with its alphabet's number of entries. -/
def Trio.wf {w : Nat} (n : Alphabet → Nat) (t : Trio w) : Bool :=
  Table.wf (n .litlen) t.litlen && Table.wf (n .offset) t.offset && Table.wf (n .precode) t.precode

/-! ## The codes of results and decompressor states (rules R37, R75) -/

/-- The number of a result code (rule R37). -/
def Result.code : Result → Nat
  | .success => 0
  | .badData => 1
  | .insufficientSpace => 2
  | .shortInput => 3
  | .createFailed => 4
  | .noHandle => 5
  | .badCmd => 6
  | .badArg => 7

/-- The encoding of a decompressor state (rule R75). -/
def DxState.code : DxState → Nat
  | .blockHeader => 0
  | .buildTables => 1
  | .decodeLoop => 2
  | .copyStored => 3
  | .done => 4
  | .error => 5

/-! ## Host port registers (rules R33 to R36) -/

/-- `a[i]` for `i` in 0..7. -/
def Port.operand (p : Port) (i : Nat) : Word :=
  match i with
  | 0 => p.a0
  | 1 => p.a1
  | 2 => p.a2
  | 3 => p.a3
  | 4 => p.a4
  | 5 => p.a5
  | 6 => p.a6
  | _ => p.a7

/-- `a[i] <- v` for `i` in 0..7. -/
def Port.setOperand (p : Port) (i : Nat) (v : Word) : Port :=
  match i with
  | 0 => { p with a0 := v }
  | 1 => { p with a1 := v }
  | 2 => { p with a2 := v }
  | 3 => { p with a3 := v }
  | 4 => { p with a4 := v }
  | 5 => { p with a5 := v }
  | 6 => { p with a6 := v }
  | _ => { p with a7 := v }

/-- `a4 <- v`, `v` reduced modulo 2^32 (rule R16). -/
def State.setA4 (s : State) (v : Nat) : State := { s with port := { s.port with a4 := BitVec.ofNat 32 v } }

/-- `a5 <- v`, `v` reduced modulo 2^32 (rule R16). -/
def State.setA5 (s : State) (v : Nat) : State := { s with port := { s.port with a5 := BitVec.ofNat 32 v } }

/-- `a6 <- v`, `v` reduced modulo 2^32 (rule R16). -/
def State.setA6 (s : State) (v : Nat) : State := { s with port := { s.port with a6 := BitVec.ofNat 32 v } }

/-! ## The end of a command -/

/-- The epilogue of a command, and the one way an error is taken: STATUS.RESULT receives the code and
the state stays as the body left it (rules R180, R418). There is no vector, no saved pc and no mode;
nothing is returned from, the next command simply runs (rule R419). -/
def complete (s : State) (r : Result) : Host.Outcome State Fault Refusal :=
  .next { s with port := { s.port with result := r } }

/-- Run the body of a command that needs a handle: without one it ends with NO_HANDLE and changes
nothing else (rules R121 test 4, R185). -/
def withHandle (s : State) (body : State → State × Result) : Host.Outcome State Fault Refusal :=
  if s.handle.alive then complete (body s).1 (body s).2 else complete s .noHandle

/-! ## Losing the handle -/

/-- A table of free values (log entry 5). -/
def freeTable (draw space w n : Nat) : Table w :=
  Cells.ofDense 0 0 ((List.range n).map fun i => (Config.freeEntry draw space i).setWidth w)

/-- A position table of free values (log entry 5). -/
def freeSlots (draw space : Nat) : Slots :=
  Cells.ofDense sentinel 0 ((List.range windowSize).map fun i => (Config.freeEntry draw space i).setWidth 16)

/-- Free values in the tables of three consecutive spaces. -/
def freeTrio (draw space w : Nat) (n : Alphabet → Nat) : Trio w where
  litlen := freeTable draw space w (n .litlen)
  offset := freeTable draw (space + 1) w (n .offset)
  precode := freeTable draw (space + 2) w (n .precode)

/-- Every scalar of rules R38 to R78 at its hard-reset value 0 and every table unspecified: what a
hard reset and DESTROY share (rules R183, R450). -/
def State.clearUnits (s : State) : State :=
  { s with
    handle := Handle.reset
    mf := MatchFinder.cleared (freeSlots s.draws 0) (freeSlots s.draws 1)
    cp := Sequencer.reset
    freq := freeTrio s.draws 2 32 Alphabet.slots
    lens := freeTrio s.draws 5 4 Alphabet.slots
    code := freeTrio s.draws 8 16 Alphabet.slots
    hb := Builder.cleared (freeTable s.draws 14 16 316)
    dtab := freeTrio s.draws 11 32 Alphabet.tableSize
    bw := Writer.reset
    br := Reader.reset
    dx := Decomp.reset
    draws := s.draws + 1 }

/-- A hard reset between commands: the units and the port registers; memory is not touched (rule R450). -/
def State.hardReset (s : State) : State := { s.clearUnits with port := Port.reset }

end Sys2Proof.Machine
end

