-- ==== Sys2Proof/Machine/Flags.lean ====
section
/-! DEFINITION. The one-bit conditions and the STATUS register they are shown in (rules R12, R35, R66, R76).

The engine has no flags register; STATUS is a view: every field but RESULT is a live copy (rule R35). -/

namespace Sys2Proof.Machine

/-- STATUS (rule R35): RESULT 3:0, DXSTATE 6:4, ALIVE 7, LEVEL 11:8, BWOVF 12, BFINAL 13, 31:14 zero. -/
def State.status (s : State) : Word :=
  BitVec.ofNat 32
    (s.port.result.code + 16 * s.dx.state.code + 128 * s.handle.alive.toNat
      + 256 * s.handle.level.toNat + 4096 * s.bw.ovf.toNat + 8192 * s.dx.bfinal.toNat)

/-- The result a writer command ends with: INSUFFICIENT_SPACE while `BW.ovf` is set (rule R327). -/
def Writer.verdict (w : Writer) : Result := if w.ovf then .insufficientSpace else .success

/-- The result a step of the decompressor ends with: the recorded error in state ERROR, else
SUCCESS (rules R362, R363). -/
def Decomp.verdict (d : Decomp) : Result :=
  match d.state with
  | .error => d.err
  | .blockHeader | .buildTables | .decodeLoop | .copyStored | .done => .success

end Sys2Proof.Machine
end

