-- ==== Sys2Proof/Machine/Operands.lean ====
section
/-! DEFINITION. The operand forms: buffers as (base, length) pairs (rule R186), table spaces and
their indexes (rules R82, R83, R189, R190). -/

namespace Sys2Proof.Machine

/-! ## Buffer operands -/

/-- `CheckBuf(base, len)`: the buffer ends inside the address space (rule R186). -/
def checkBuf (base len : Word) : Bool := decide (base.toNat + len.toNat ≤ wordSpan)

/-- `Disjoint(b1, l1, b2, l2)`: one buffer is empty or ends before the other begins (rule R186). -/
def disjoint (b1 l1 b2 l2 : Word) : Bool :=
  decide (l1 = 0) || decide (l2 = 0)
    || decide (b1.toNat + l1.toNat ≤ b2.toNat) || decide (b2.toNat + l2.toNat ≤ b1.toNat)

/-- The operand check of COMPRESS and DECOMPRESS: two buffers, neither wrapping, disjoint (rule R186). -/
def checkTwoBufs (p : Port) : Bool :=
  checkBuf p.a0 p.a1 && checkBuf p.a2 p.a3 && disjoint p.a0 p.a1 p.a2 p.a3

/-! ## Table spaces -/

/-- How many entries a table space has (rule R82). -/
def spaceSize : Space → Nat
  | .head => 32768
  | .next => 32768
  | .freqLL => 288
  | .freqOF => 32
  | .freqPC => 19
  | .lensLL => 288
  | .lensOF => 32
  | .lensPC => 19
  | .codeLL => 288
  | .codeOF => 32
  | .codePC => 19
  | .dtabLL => 2560
  | .dtabOF => 768
  | .dtabPC => 128
  | .items => 316
  | .misc => 31

/-- MISC: the scalars by index, zero-extended (rule R83). -/
def miscEntry (s : State) (i : Nat) : Word :=
  match i with
  | 0 => s.mf.src
  | 1 => s.mf.len
  | 2 => s.mf.base
  | 3 => s.mf.pos.setWidth 32
  | 4 => s.bw.dst
  | 5 => s.bw.cap
  | 6 => s.bw.nbytes
  | 7 => s.bw.nbits.setWidth 32
  | 8 => s.bw.acc.setWidth 32
  | 9 => BitVec.ofNat 32 s.bw.ovf.toNat
  | 10 => s.br.src
  | 11 => s.br.len
  | 12 => s.br.bitpos.setWidth 32
  | 13 => (s.br.bitpos >>> 32).setWidth 32
  | 14 => BitVec.ofNat 32 s.dx.state.code
  | 15 => BitVec.ofNat 32 s.dx.err.code
  | 16 => BitVec.ofNat 32 s.dx.bfinal.toNat
  | 17 => s.dx.btype.setWidth 32
  | 18 => s.dx.dst
  | 19 => s.dx.cap
  | 20 => s.dx.outpos
  | 21 => s.hb.nlit.setWidth 32
  | 22 => s.hb.ndist.setWidth 32
  | 23 => s.hb.npre.setWidth 32
  | 24 => s.hb.nitems.setWidth 32
  | 25 => BitVec.ofNat 32 s.handle.lazy.toNat
  | 26 => s.handle.depth.setWidth 32
  | 27 => s.handle.nice.setWidth 32
  | 28 => s.dx.nlit.setWidth 32
  | 29 => s.dx.ndist.setWidth 32
  | 30 => s.dx.npre.setWidth 32
  | _ => 0

/-- What TREAD returns: sign-extended for HEAD and NEXT, zero-extended otherwise (rules R82, R189). -/
def readSpace (s : State) (space : Space) (i : Nat) : Word :=
  match space with
  | .head => (s.mf.head.get i).signExtend 32
  | .next => (s.mf.next.get i).signExtend 32
  | .freqLL => s.freq.litlen.get i
  | .freqOF => s.freq.offset.get i
  | .freqPC => s.freq.precode.get i
  | .lensLL => (s.lens.litlen.get i).setWidth 32
  | .lensOF => (s.lens.offset.get i).setWidth 32
  | .lensPC => (s.lens.precode.get i).setWidth 32
  | .codeLL => (s.code.litlen.get i).setWidth 32
  | .codeOF => (s.code.offset.get i).setWidth 32
  | .codePC => (s.code.precode.get i).setWidth 32
  | .dtabLL => s.dtab.litlen.get i
  | .dtabOF => s.dtab.offset.get i
  | .dtabPC => s.dtab.precode.get i
  | .items => (s.hb.items.get i).setWidth 32
  | .misc => miscEntry s i

/-- Whether a space accepts a value on TWRITE (rule R82, last column; MISC accepts none). -/
def spaceAccepts (space : Space) (v : Word) : Bool :=
  match space with
  | .head | .next => decide ((v.setWidth 16).signExtend 32 = v)
  | .freqLL | .freqOF | .freqPC | .dtabLL | .dtabOF | .dtabPC => true
  | .lensLL | .lensOF | .lensPC => decide (v.toNat ≤ 15)
  | .codeLL | .codeOF | .codePC | .items => decide (v.toNat ≤ 65535)
  | .misc => false

/-- Write an accepted value to an entry (rule R190). MISC is read-only. -/
def writeSpace (s : State) (space : Space) (i : Nat) (v : Word) : State :=
  match space with
  | .head => { s with mf := { s.mf with head := s.mf.head.set i (v.setWidth 16) } }
  | .next => { s with mf := { s.mf with next := s.mf.next.set i (v.setWidth 16) } }
  | .freqLL => { s with freq := { s.freq with litlen := s.freq.litlen.set i v } }
  | .freqOF => { s with freq := { s.freq with offset := s.freq.offset.set i v } }
  | .freqPC => { s with freq := { s.freq with precode := s.freq.precode.set i v } }
  | .lensLL => { s with lens := { s.lens with litlen := s.lens.litlen.set i (v.setWidth 4) } }
  | .lensOF => { s with lens := { s.lens with offset := s.lens.offset.set i (v.setWidth 4) } }
  | .lensPC => { s with lens := { s.lens with precode := s.lens.precode.set i (v.setWidth 4) } }
  | .codeLL => { s with code := { s.code with litlen := s.code.litlen.set i (v.setWidth 16) } }
  | .codeOF => { s with code := { s.code with offset := s.code.offset.set i (v.setWidth 16) } }
  | .codePC => { s with code := { s.code with precode := s.code.precode.set i (v.setWidth 16) } }
  | .dtabLL => { s with dtab := { s.dtab with litlen := s.dtab.litlen.set i v } }
  | .dtabOF => { s with dtab := { s.dtab with offset := s.dtab.offset.set i v } }
  | .dtabPC => { s with dtab := { s.dtab with precode := s.dtab.precode.set i v } }
  | .items => { s with hb := { s.hb with items := s.hb.items.set i (v.setWidth 16) } }
  | .misc => s

end Sys2Proof.Machine
end

