-- ==== Sys2Proof/Machine/BitWriter.lean ====
section
/-! DEFINITION. The BW family: the bit writer (rules R320 to R327).

The procedures act on the writer and on buffer memory; COMPRESS calls the same ones. -/

namespace Sys2Proof.Machine

/-- The writer with the memory it writes. -/
structure Sink where
  bw : Writer
  mem : Memory
deriving DecidableEq, Repr

/-! ## Procedures -/

/-- `PutByte(b)` (rule R323). -/
def Sink.putByte (k : Sink) (b : Byte) : Sink :=
  if k.bw.nbytes.toNat < k.bw.cap.toNat then
    { bw := { k.bw with nbytes := k.bw.nbytes + 1 }
      mem := k.mem.write (bufferAddr k.bw.dst k.bw.nbytes.toNat) b }
  else { k with bw := { k.bw with ovf := true } }

/-- The loop of `Put`: `n` times commit the low byte of the accumulator and shift it out (rule R322). -/
def Sink.drain : (n : Nat) → Sink → Sink
  | 0, k => k
  | n + 1, k =>
    let k' := k.putByte (k.bw.acc.setWidth 8)
    Sink.drain n { k' with bw := { k'.bw with acc := k'.bw.acc >>> 8 } }

/-- `Put(v, n)` (rule R322): the loop runs once for each whole byte held. -/
def Sink.put (k : Sink) (v n : Nat) : Sink :=
  let total := k.bw.nbits.toNat + n
  let k' := Sink.drain (total / 8) { k with bw := { k.bw with acc := k.bw.acc ||| (BitVec.ofNat 64 v <<< k.bw.nbits.toNat) } }
  { k' with bw := { k'.bw with nbits := BitVec.ofNat 7 (total % 8) } }

/-- `Align()` (rule R324). -/
def Sink.align (k : Sink) : Sink :=
  if 0 < k.bw.nbits.toNat then
    let k' := k.putByte (k.bw.acc.setWidth 8)
    { k' with bw := { k'.bw with acc := 0, nbits := 0 } }
  else k

/-- The loop of BW.BYTES and of a stored block: commit `n` bytes of a buffer from index `i` on, each
read when its turn comes (rules R242, R326). -/
def Sink.putBytes (base : Word) : (i n : Nat) → Sink → Sink
  | _, 0, k => k
  | i, n + 1, k => Sink.putBytes base (i + 1) n (k.putByte (k.mem.read (bufferAddr base i)))

/-- `BwInit` (rule R321). -/
def Writer.init (dst cap : Word) : Writer := ⟨dst, cap, 0, 0, 0, false⟩

/-- The writer and memory of a state. -/
def State.sink (s : State) : Sink := ⟨s.bw, s.mem⟩

/-- Put the writer and memory back. -/
def State.withSink (s : State) (k : Sink) : State := { s with bw := k.bw, mem := k.mem }

/-! ## Commands -/

/-- The body of BW.INIT (rule R321). -/
def bwInitBody (s : State) : State × Result :=
  if checkBuf s.port.a0 s.port.a1 then
    ({ s with bw := Writer.init s.port.a0 s.port.a1 }, .success)
  else (s, .badArg)

/-- BW.INIT (rule R321). -/
def execBwInit (s : State) : Host.Outcome State Fault Refusal := withHandle s bwInitBody

/-- The body of BW.PUT (rule R322). -/
def bwPutBody (s : State) : State × Result :=
  if maxPut < s.port.a1.toNat then (s, .badArg)
  else if 2 ^ s.port.a1.toNat ≤ s.port.a0.toNat then (s, .badArg)
  else
    let k := s.sink.put s.port.a0.toNat s.port.a1.toNat
    (s.withSink k, k.bw.verdict)

/-- BW.PUT (rule R322). -/
def execBwPut (s : State) : Host.Outcome State Fault Refusal := withHandle s bwPutBody

/-- The body of BW.ALIGN (rule R324). -/
def bwAlignBody (s : State) : State × Result := (s.withSink s.sink.align, s.sink.align.bw.verdict)

/-- BW.ALIGN (rule R324). -/
def execBwAlign (s : State) : Host.Outcome State Fault Refusal := withHandle s bwAlignBody

/-- The bytes a finished stream has, 0 after an overflow (rules R233, R325). -/
def Writer.report (w : Writer) : Nat := if w.ovf then 0 else w.nbytes.toNat

/-- The body of BW.FLUSH (rule R325). -/
def bwFlushBody (s : State) : State × Result :=
  ((s.withSink s.sink.align).setA5 s.sink.align.bw.report, s.sink.align.bw.verdict)

/-- BW.FLUSH (rule R325). -/
def execBwFlush (s : State) : Host.Outcome State Fault Refusal := withHandle s bwFlushBody

/-- The body of BW.BYTES (rule R326). -/
def bwBytesBody (s : State) : State × Result :=
  if checkBuf s.port.a0 s.port.a1 = false then (s, .badArg)
  else if disjoint s.port.a0 s.port.a1 s.bw.dst s.bw.cap = false then (s, .badArg)
  else if s.bw.nbits ≠ 0 then (s, .badArg)
  else
    let k := Sink.putBytes s.port.a0 0 s.port.a1.toNat s.sink
    (s.withSink k, k.bw.verdict)

/-- BW.BYTES (rule R326). -/
def execBwBytes (s : State) : Host.Outcome State Fault Refusal := withHandle s bwBytesBody

end Sys2Proof.Machine
end

