-- ==== Sys2Proof/Machine/Huffman.lean ====
section
/-! DEFINITION. The HB family: the Huffman canonical code builder (rules R270 to R288).

The procedures act on the histogram, the code lengths, the codewords and the precode description;
COMPRESS calls the same ones. -/

namespace Sys2Proof.Machine

/-- What the builder works on: `FREQ_x`, `LENS_x`, `CODE_x` and the precode description. -/
structure Huff where
  freq : Trio 32
  lens : Trio 4
  code : Trio 16
  hb : Builder
deriving DecidableEq, Repr

/-- The builder's part of a state. -/
def State.huff (s : State) : Huff := ⟨s.freq, s.lens, s.code, s.hb⟩

/-- Put the builder's part back. -/
def State.withHuff (s : State) (b : Huff) : State :=
  { s with freq := b.freq, lens := b.lens, code := b.code, hb := b.hb }

/-! ## Histogram (rules R271 to R273) -/

/-- Clear every counter (rule R271). -/
def Huff.clear (b : Huff) : Huff := { b with freq := Trio.empty 32 }

/-- Count one occurrence, saturating (rule R272). -/
def Table.bump (t : Table 32) (i : Nat) : Table 32 :=
  t.set i (BitVec.ofNat 32 (min (wordSpan - 1) ((t.get i).toNat + 1)))

/-- `Tally(x, s)` (rule R272). -/
def Huff.tally (b : Huff) (x : Alphabet) (s : Nat) : Huff :=
  { b with freq := b.freq.put x (Table.bump (b.freq.table x) s) }

/-- The largest index of an increasing list whose entry is at most `v`. -/
def largestAtMost (bases : List Nat) (v : Nat) : Nat := (bases.filter (fun x => decide (x ≤ v))).length - 1

/-- `LenSym(len)` (rule R273). -/
def lenSym (len : Nat) : Nat := 257 + largestAtMost lenBases len

/-- `OffSym(off)` (rule R273). -/
def offSym (off : Nat) : Nat := largestAtMost offBases off

/-- `HbMatch(len, off)`: count both symbols of a match (rule R273). -/
def Huff.tallyMatch (b : Huff) (len off : Nat) : Huff :=
  (b.tally .litlen (lenSym len)).tally .offset (offSym off)

/-! ## Code lengths (rules R274 to R276) -/

/-- An item of package-merge: a weight and the bag of symbols it stands for (rule R276). -/
structure Item where
  weight : Nat
  bag : List Nat
deriving DecidableEq, Repr

/-- Insert an item after every item of no larger weight. -/
def insertItem (it : Item) : List Item → List Item
  | [] => [it]
  | x :: xs => if x.weight ≤ it.weight then x :: insertItem it xs else it :: x :: xs

/-- The leaves: the used symbols by increasing (frequency, symbol); `used` is increasing (rule R276). -/
def leaves (freq : Nat → Nat) (used : List Nat) : List Item :=
  used.foldl (fun acc s => insertItem ⟨freq s, [s]⟩ acc) []

/-- Join items two by two; an odd last item is dropped (rule R276). -/
def packages : List Item → List Item
  | x :: y :: r => ⟨x.weight + y.weight, x.bag ++ y.bag⟩ :: packages r
  | [_] => []
  | [] => []

/-- `Merge(LEAF, pk)`: by increasing weight, leaves first on equal weight (rule R276). `fuel` is the
number of items of both lists. -/
def mergeItems : (fuel : Nat) → List Item → List Item → List Item
  | 0, _, _ => []
  | _ + 1, [], ys => ys
  | _ + 1, xs, [] => xs
  | fuel + 1, x :: xs, y :: ys =>
    if x.weight ≤ y.weight then x :: mergeItems fuel xs (y :: ys) else y :: mergeItems fuel (x :: xs) ys

/-- `repeat n times: cur <- Merge(LEAF, packages of cur)` (rule R276). -/
def mergeRounds (leaf : List Item) : (n : Nat) → List Item → List Item
  | 0, cur => cur
  | n + 1, cur =>
    mergeRounds leaf n (mergeItems (leaf.length + (packages cur).length) leaf (packages cur))

/-- `PackageMerge(used, M)`: every symbol once for each time the first `2n - 2` items hold it (rule R276). -/
def packageMerge (freq : Nat → Nat) (used : List Nat) (maxLen : Nat) : List Nat :=
  ((mergeRounds (leaves freq used) (maxLen - 1) (leaves freq used)).take (2 * used.length - 2)).flatMap Item.bag

/-- The occurrences that make up the code lengths: `FewSymbols` or `PackageMerge` (rules R274 to R276). -/
def lengthOccurrences (freq : Nat → Nat) (used : List Nat) (maxLen : Nat) : List Nat :=
  match used with
  | [] => [0, 1]
  | [s] => [s, if s = 0 then 1 else 0]
  | _ :: _ :: _ => packageMerge freq used maxLen

/-- The used symbols of an alphabet, increasing (rule R274). -/
def usedSymbols (t : Table 32) (n : Nat) : List Nat :=
  (List.range n).filter (fun s => decide (0 < (t.get s).toNat))

/-- `LENS_x` from `FREQ_x`, all slots (rule R274). -/
def lengthsFor (x : Alphabet) (t : Table 32) : List Nat :=
  let occ := lengthOccurrences (fun s => (t.get s).toNat) (usedSymbols t x.nsym) x.maxLen
  (List.range x.slots).map fun s => occ.count s

/-- `Lens(x)` (rule R274). -/
def Huff.buildLens (b : Huff) (x : Alphabet) : Huff :=
  { b with lens := b.lens.put x (Table.ofList 4 (lengthsFor x (b.freq.table x))) }

/-! ## Codewords (rules R280 to R283) -/

/-- The stored codeword of a symbol: cut to its length and bit-reversed (rules R280, R282). -/
def storedCode (len word : Nat) : Nat := if len = 0 then 0 else rev len (word % 2 ^ len)

/-- `CODE_x` from a list of lengths (rule R280). -/
def codesFor (lens : List Nat) : List Nat := List.zipWith storedCode lens (canonical lens)

/-- The code lengths of an alphabet, all slots. -/
def Trio.lengths (t : Trio 4) (x : Alphabet) : List Nat := Table.toList (t.table x) x.slots

/-- `Codes(x)` (rule R280). -/
def Huff.buildCodes (b : Huff) (x : Alphabet) : Huff :=
  { b with code := b.code.put x (Table.ofList 16 (codesFor (b.lens.lengths x))) }

/-- Load the fixed code lengths (rules R283, R365). -/
def Trio.loadFixed (t : Trio 4) : Trio 4 :=
  (t.put .litlen (Table.ofList 4 fixedLitlenLens)).put .offset (Table.ofList 4 fixedOffsetLens)

/-- `Fixed()` (rule R283). -/
def Huff.loadFixed (b : Huff) : Huff :=
  ({ b with lens := b.lens.loadFixed }.buildCodes .litlen).buildCodes .offset

/-! ## Describing a dynamic block's codes (rules R284 to R287) -/

/-- One more than the index of the last non-zero entry, 0 if there is none (rule R285). -/
def usedLength : List Nat → Nat
  | [] => 0
  | v :: vs => if usedLength vs = 0 then (if v = 0 then 0 else 1) else usedLength vs + 1

/-- The runs of equal consecutive entries, as (value, length). -/
def runsOf : List Nat → List (Nat × Nat)
  | [] => []
  | v :: vs =>
    match runsOf vs with
    | [] => [(v, 1)]
    | (w, n) :: r => if w = v then (v, n + 1) :: r else (v, 1) :: (w, n) :: r

/-- The items of a run of zeros, as (symbol, extra) (rule R286). `fuel` is at least the run's length. -/
def zeroItems : (fuel run : Nat) → List (Nat × Nat)
  | 0, _ => []
  | fuel + 1, run =>
    if 11 ≤ run then (18, min run 138 - 11) :: zeroItems fuel (run - min run 138)
    else if 3 ≤ run then [(17, run - 3)]
    else List.replicate run (0, 0)

/-- The items of the rest of a run of `v` after its first entry (rule R286). `fuel` exceeds the rest's length. -/
def repeatItems (v : Nat) : (fuel run : Nat) → List (Nat × Nat)
  | 0, _ => []
  | fuel + 1, run =>
    if 3 ≤ run then (16, min run 6 - 3) :: repeatItems v fuel (run - min run 6)
    else List.replicate run (v, 0)

/-- The items of one run (rule R286). -/
def runItems (r : Nat × Nat) : List (Nat × Nat) :=
  if r.1 = 0 then zeroItems r.2 r.2 else (r.1, 0) :: repeatItems r.1 r.2 (r.2 - 1)

/-- `Rle(seq)` (rule R286). -/
def rle (seq : List Nat) : List (Nat × Nat) := (runsOf seq).flatMap runItems

/-- Write the items to entries `i`, `i + 1`, …; later entries keep their values (rule R284). -/
def writeItems : (i : Nat) → List (Nat × Nat) → Table 16 → Table 16
  | _, [], t => t
  | i, it :: r, t => writeItems (i + 1) r (t.set i (BitVec.ofNat 16 (it.1 + 256 * it.2)))

/-- `HB.nlit` (rules R284, R285). -/
def trimLitlen (lens : List Nat) : Nat := max 257 (usedLength (lens.take 286))

/-- `HB.ndist` (rules R284, R285). -/
def trimOffset (lens : List Nat) : Nat := max 1 (usedLength (lens.take 30))

/-- `HB.npre` (rules R284, R285). -/
def trimPrecode (lens : List Nat) : Nat := max 4 (usedLength (precodeOrder.map fun s => lens.getD s 0))

/-- The length sequence a dynamic header describes (rule R284). -/
def lengthSequence (litlen offset : List Nat) : List Nat :=
  litlen.take (trimLitlen litlen) ++ offset.take (trimOffset offset)

/-- `FREQ_PC` from the items (rule R284). -/
def itemCounts (items : List (Nat × Nat)) : List Nat :=
  (List.range 19).map fun s => (items.map Prod.fst).count s

/-- `Precode()` (rule R284). -/
def Huff.buildPrecode (b : Huff) : Huff :=
  let litlen := b.lens.lengths .litlen
  let offset := b.lens.lengths .offset
  let items := rle (lengthSequence litlen offset)
  let b' := ({ b with freq := b.freq.put .precode (Table.ofList 32 (itemCounts items)) }.buildLens .precode).buildCodes .precode
  { b' with
    hb :=
      { items := writeItems 0 items b.hb.items
        nitems := BitVec.ofNat 9 items.length
        nlit := BitVec.ofNat 9 (trimLitlen litlen)
        ndist := BitVec.ofNat 5 (trimOffset offset)
        npre := BitVec.ofNat 5 (trimPrecode (b'.lens.lengths .precode)) } }

/-! ## Commands -/

/-- HB.CLEAR (rule R271). -/
def execHbClear (s : State) : Host.Outcome State Fault Refusal :=
  withHandle s fun s => (s.withHuff s.huff.clear, .success)

/-- The body of HB.TALLY (rule R272). -/
def hbTallyBody (x : Alphabet) (s : State) : State × Result :=
  if x.nsym ≤ s.port.a0.toNat then (s, .badArg)
  else (s.withHuff (s.huff.tally x s.port.a0.toNat), .success)

/-- HB.TALLY (rule R272). -/
def execHbTally (x : Alphabet) (s : State) : Host.Outcome State Fault Refusal := withHandle s (hbTallyBody x)

/-- Whether length and offset are in the ranges of HB.MATCH (rule R273). -/
def matchOperandsOk (len off : Nat) : Bool :=
  decide (minMatch ≤ len) && decide (len ≤ maxMatch) && decide (1 ≤ off) && decide (off ≤ windowSize)

/-- The body of HB.MATCH (rule R273). -/
def hbMatchBody (s : State) : State × Result :=
  if matchOperandsOk s.port.a0.toNat s.port.a1.toNat then
    (((s.withHuff (s.huff.tallyMatch s.port.a0.toNat s.port.a1.toNat)).setA4 (lenSym s.port.a0.toNat)).setA5
      (offSym s.port.a1.toNat), .success)
  else (s, .badArg)

/-- HB.MATCH (rule R273). -/
def execHbMatch (s : State) : Host.Outcome State Fault Refusal := withHandle s hbMatchBody

/-- HB.LENS (rule R274). -/
def execHbLens (x : Alphabet) (s : State) : Host.Outcome State Fault Refusal :=
  withHandle s fun s => (s.withHuff (s.huff.buildLens x), .success)

/-- HB.CODES (rule R280). -/
def execHbCodes (x : Alphabet) (s : State) : Host.Outcome State Fault Refusal :=
  withHandle s fun s => (s.withHuff (s.huff.buildCodes x), .success)

/-- HB.FIXED (rule R283). -/
def execHbFixed (s : State) : Host.Outcome State Fault Refusal :=
  withHandle s fun s => (s.withHuff s.huff.loadFixed, .success)

/-- HB.PRECODE (rule R284). -/
def execHbPrecode (s : State) : Host.Outcome State Fault Refusal :=
  withHandle s fun s => (s.withHuff s.huff.buildPrecode, .success)

end Sys2Proof.Machine
end

