-- ==== Sys2Proof/Machine/MatchFinder.lean ====
section
/-! DEFINITION. The MF family: the LZ77 match-finder (rules R200 to R213).

The procedures act on the match-finder's own state and read buffer memory; COMPRESS calls the same
ones (`42_compressor.md`). -/

namespace Sys2Proof.Machine

/-! ## Procedures -/

/-- `byte(i)`: byte `i` of the bound input buffer (rule R206). -/
def MatchFinder.byteAt (mf : MatchFinder) (m : Memory) (i : Nat) : Byte := m.read (bufferAddr mf.src i)

/-- `MF.cur = MF.base + MF.pos` (rule R41). -/
def MatchFinder.cur (mf : MatchFinder) : Nat := mf.base.toNat + mf.pos.toNat

/-- `InWindow(v, cur)`: a stored position is usable (rule R203). -/
def inWindow (base : Nat) (v : BitVec 16) (cur : Nat) : Bool :=
  decide ((cur : Int) - 32768 < v.toInt) && decide (v.toInt < (cur : Int)) && decide (0 ≤ (base : Int) + v.toInt)

/-- `Hash3`: 15 bits from three bytes, `b0` at the lowest address (rule R204). -/
def hash3 (b0 b1 b2 : Byte) : Nat :=
  (b0.toNat + 256 * b1.toNat + 65536 * b2.toNat) * hashMult % 4294967296 / 131072

/-- The hash at input index `i`. -/
def MatchFinder.hashAt (mf : MatchFinder) (m : Memory) (i : Nat) : Nat :=
  hash3 (mf.byteAt m i) (mf.byteAt m (i + 1)) (mf.byteAt m (i + 2))

/-- `p mod 32768`, the NEXT slot of a position (rule R43). -/
def nextSlot (v : BitVec 16) : Nat := v.toNat % windowSize

/-- `SatSub(e)`: subtract 32768, saturating at -32768 (rule R209). -/
def satSub (e : BitVec 16) : BitVec 16 := if 0 ≤ e.toInt then e - 0x8000#16 else sentinel

/-- Apply `SatSub` to every slot. An unlisted slot holds the sentinel and keeps it. -/
def Slots.rebase : Slots → Slots
  | [] => []
  | (i, v) :: r => if satSub v = sentinel then Slots.rebase r else (i, satSub v) :: Slots.rebase r

/-- `Slide()` (rule R209). -/
def MatchFinder.slide (mf : MatchFinder) : MatchFinder :=
  { mf with
    head := mf.head.rebase
    next := mf.next.rebase
    base := mf.base + BitVec.ofNat 32 windowSize
    pos := 0 }

/-- `if MF.pos = 32768: Slide()` (rules R206, R207). -/
def MatchFinder.slideIfDue (mf : MatchFinder) : MatchFinder :=
  if mf.pos.toNat = windowSize then mf.slide else mf

/-- Insertion of the current position under hash `h` (rule R205). -/
def MatchFinder.insertAt (mf : MatchFinder) (h : Nat) : MatchFinder :=
  { mf with
    head := mf.head.set h (BitVec.ofNat 16 mf.pos.toNat)
    next := mf.next.set (nextSlot (BitVec.ofNat 16 mf.pos.toNat)) (mf.head.get h) }

/-- `MF.pos <- cur + 1`. -/
def MatchFinder.advance (mf : MatchFinder) : MatchFinder := { mf with pos := mf.pos + 1 }

/-- `MfInit`: bind to a buffer and fill every slot with the sentinel (rule R202). -/
def MatchFinder.init (src len : Word) : MatchFinder := ⟨src, len, 0, 0, [], []⟩

/-- How many bytes at `b` and at `a` agree, at most `n` (the inner loop of rule R206). -/
def MatchFinder.matchLen (mf : MatchFinder) (m : Memory) : (n b a : Nat) → Nat
  | 0, _, _ => 0
  | n + 1, b, a =>
    if mf.byteAt m b = mf.byteAt m a then 1 + MatchFinder.matchLen mf m n (b + 1) (a + 1) else 0

/-- The chain walk of rule R206: `depth` candidates at most, the best `(length, offset)` so far. -/
def MatchFinder.walk (mf : MatchFinder) (m : Memory) (cur maxLen niceEff : Nat) :
    (depth : Nat) → (node : BitVec 16) → (bestLen bestOff : Nat) → Nat × Nat
  | 0, _, bestLen, bestOff => (bestLen, bestOff)
  | depth + 1, node, bestLen, bestOff =>
    if inWindow mf.base.toNat node cur then
      let l := mf.matchLen m maxLen ((mf.base.toNat : Int) + node.toInt).toNat (mf.base.toNat + cur)
      if bestLen < l then
        let off := ((cur : Int) - node.toInt).toNat
        if niceEff ≤ l then (l, off)
        else MatchFinder.walk mf m cur maxLen niceEff depth (mf.next.get (nextSlot node)) l off
      else MatchFinder.walk mf m cur maxLen niceEff depth (mf.next.get (nextSlot node)) bestLen bestOff
    else (bestLen, bestOff)

/-- The search of MF.FIND at a position already slid, with at least three bytes left (rule R206). -/
def MatchFinder.search (mf : MatchFinder) (m : Memory) (depth nice : Nat) : MatchFinder × Nat × Nat :=
  let maxLen := min maxMatch (mf.len.toNat - mf.cur)
  let h := mf.hashAt m mf.cur
  let mf' := mf.insertAt h
  let best := mf'.walk m mf.pos.toNat maxLen (min nice maxLen) depth (mf.head.get h) 2 0
  if minMatch ≤ best.1 then (mf'.advance, best.1, best.2) else (mf'.advance, 0, 0)

/-- The body of MF.FIND after its range check: the new match-finder, the length and the offset (rule R206). -/
def MatchFinder.find (mf : MatchFinder) (m : Memory) (depth nice : Nat) : MatchFinder × Nat × Nat :=
  let mf := mf.slideIfDue
  if min maxMatch (mf.len.toNat - mf.cur) < minMatch then (mf.advance, 0, 0)
  else mf.search m depth nice

/-- One position of MF.SKIP (rule R207). -/
def MatchFinder.skipOne (mf : MatchFinder) (m : Memory) : MatchFinder :=
  let mf := mf.slideIfDue
  if minMatch ≤ mf.len.toNat - mf.cur then (mf.insertAt (mf.hashAt m mf.cur)).advance else mf.advance

/-- The loop of MF.SKIP (rule R207). -/
def MatchFinder.skip (m : Memory) : (count : Nat) → MatchFinder → MatchFinder
  | 0, mf => mf
  | n + 1, mf => MatchFinder.skip m n (mf.skipOne m)

/-! ## Commands -/

/-- The body of MF.INIT (rule R202). -/
def mfInitBody (s : State) : State × Result :=
  if checkBuf s.port.a0 s.port.a1 then
    ({ s with mf := MatchFinder.init s.port.a0 s.port.a1 }, .success)
  else (s, .badArg)

/-- MF.INIT (rule R202). -/
def execMfInit (s : State) : Host.Outcome State Fault Refusal := withHandle s mfInitBody

/-- The body of MF.FIND (rule R206). -/
def mfFindBody (s : State) : State × Result :=
  if s.mf.len.toNat ≤ s.mf.cur then (s, .badArg)
  else
    let r := s.mf.find s.mem s.port.a0.toNat s.port.a1.toNat
    (({ s with mf := r.1 }.setA4 r.2.1).setA5 r.2.2, .success)

/-- MF.FIND (rule R206). -/
def execMfFind (s : State) : Host.Outcome State Fault Refusal := withHandle s mfFindBody

/-- The body of MF.SKIP (rule R207). The range check is on unbounded integers, as R17 has it. -/
def mfSkipBody (s : State) : State × Result :=
  if s.mf.len.toNat < s.mf.cur + s.port.a0.toNat then (s, .badArg)
  else ({ s with mf := MatchFinder.skip s.mem s.port.a0.toNat s.mf }, .success)

/-- MF.SKIP (rule R207). -/
def execMfSkip (s : State) : Host.Outcome State Fault Refusal := withHandle s mfSkipBody

/-- The body of MF.SLIDE (rule R209). -/
def mfSlideBody (s : State) : State × Result :=
  if s.mf.pos.toNat = windowSize then ({ s with mf := s.mf.slide }, .success) else (s, .badArg)

/-- MF.SLIDE (rule R209). -/
def execMfSlide (s : State) : Host.Outcome State Fault Refusal := withHandle s mfSlideBody

end Sys2Proof.Machine
end

