-- ==== Sys2Proof/Machine/Compress.lean ====
section
/-! DEFINITION. The compressor sequencer: COMPRESS and BOUND (rules R230 to R260). -/

namespace Sys2Proof.Machine

/-! ## Parsing (rules R235 to R237) -/

/-- A parse in progress: the match-finder, the tokens of the block, newest first, and the position. -/
structure Parse where
  mf : MatchFinder
  toks : List Token
  pos : Nat
deriving DecidableEq, Repr

/-- `Push(Lit(byte(pos))) ; pos <- pos + 1`. -/
def Parse.literal (p : Parse) (m : Memory) : Parse :=
  { p with toks := .lit (p.mf.byteAt m p.pos) :: p.toks, pos := p.pos + 1 }

/-- `Push(Match(L, off)) ; Skip(k) ; pos <- pos + L` (rules R236, R237). -/
def Parse.take (p : Parse) (m : Memory) (len off skip : Nat) : Parse :=
  { mf := MatchFinder.skip m skip p.mf
    toks := .copy (BitVec.ofNat 9 len) (BitVec.ofNat 15 off) :: p.toks
    pos := p.pos + len }

/-- The lazy step (rule R237). Every deferral lengthens the match, so `fuel` = 256 is enough. -/
def Parse.lazyStep (h : Handle) (m : Memory) : (fuel : Nat) → (len off : Nat) → Parse → Parse
  | 0, _, _, p => p
  | n + 1, len, off, p =>
    if h.nice.toNat ≤ len then p.take m len off (len - 1)
    else
      let r := p.mf.find m h.depth.toNat h.nice.toNat
      if len < r.2.1 then Parse.lazyStep h m n r.2.1 r.2.2 (Parse.literal { p with mf := r.1 } m)
      else Parse.take { p with mf := r.1 } m len off (len - 2)

/-- One pass of the outer loop of `ParseBlock` (rules R235, R236). -/
def Parse.step (h : Handle) (m : Memory) (p : Parse) : Parse :=
  let r := p.mf.find m h.depth.toNat h.nice.toNat
  let p' := { p with mf := r.1 }
  if r.2.1 = 0 then p'.literal m
  else if h.lazy then Parse.lazyStep h m maxMatch r.2.1 r.2.2 p'
  else p'.take m r.2.1 r.2.2 (r.2.1 - 1)

/-- `ParseBlock()`: while input is left and the block covers less than the target (rule R235). Each
pass raises `pos`, so `fuel` = the target is enough. -/
def Parse.block (h : Handle) (m : Memory) (n bstart : Nat) : (fuel : Nat) → Parse → Parse
  | 0, p => p
  | k + 1, p =>
    if p.pos < n ∧ p.pos - bstart < blockTarget then Parse.block h m n bstart k (p.step h m) else p

/-! ## Statistics and cost (rules R238, R240, R241) -/

/-- Count a token (rule R238). -/
def Huff.tallyToken (b : Huff) : Token → Huff
  | .lit v => b.tally .litlen v.toNat
  | .copy len off => b.tallyMatch len.toNat off.toNat

/-- The extra bits of a token (rule R238). -/
def Token.extraBits : Token → Nat
  | .lit _ => 0
  | .copy len off => lenExtra (lenSym len.toNat - 257) + offExtra (offSym off.toNat)

/-- The statistics, the code lengths and the precode of a block (rule R238). -/
def Huff.statistics (b : Huff) (toks : List Token) : Huff :=
  let b := (toks.foldl Huff.tallyToken b.clear).tally .litlen eobSymbol
  ((b.buildLens .litlen).buildLens .offset).buildPrecode

/-- `extra` (rule R238). -/
def extraBitsOf (toks : List Token) : Nat := (toks.map Token.extraBits).sum

/-- The sum over `s < n` of frequency times length (rule R240). -/
def weighted (freq : Table 32) (n : Nat) (lens : List Nat) : Nat :=
  (List.zipWith (· * ·) (Table.toList freq n) lens).sum

/-- ITEMS as (symbol, extra) pairs, the first `HB.nitems` of them (rules R240, R244). -/
def Builder.itemList (hb : Builder) : List (Nat × Nat) :=
  (Table.toList hb.items hb.nitems.toNat).map fun v => (v % 256, v / 256)

/-- `cost_dyn` (rule R240). -/
def Huff.costDynamic (b : Huff) (extra : Nat) : Nat :=
  3 + 14 + 3 * b.hb.npre.toNat
    + (b.hb.itemList.map fun it => (b.lens.lengths .precode).getD it.1 0 + preExtra it.1).sum
    + weighted b.freq.litlen 286 (b.lens.lengths .litlen)
    + weighted b.freq.offset 30 (b.lens.lengths .offset)
    + extra

/-- `cost_fix` (rule R240). -/
def Huff.costFixed (b : Huff) (extra : Nat) : Nat :=
  3 + weighted b.freq.litlen 286 fixedLitlenLens + weighted b.freq.offset 30 fixedOffsetLens + extra

/-- `cost_sto` (rule R240). -/
def costStored (w : Writer) (blen : Nat) : Nat :=
  3 + (8 - (w.nbits.toNat + 3) % 8) % 8 + 32 + 8 * blen

/-! ## Emission (rules R242 to R245) -/

/-- `EmitStored(start, blen, final)` (rule R242). -/
def Sink.emitStored (k : Sink) (src : Word) (start blen : Nat) (final : Bool) : Sink :=
  Sink.putBytes src start blen
    (((((k.put final.toNat 1).put 0 2).align).put blen 16).put (blen ^^^ 0xFFFF) 16)

/-- `Put(CODE_x[s], LENS_x[s])` (rule R245). -/
def Sink.putSymbol (k : Sink) (b : Huff) (x : Alphabet) (s : Nat) : Sink :=
  k.put (Table.get (b.code.table x) s).toNat (Table.get (b.lens.table x) s).toNat

/-- Emit one token (rule R245). -/
def Sink.emitToken (b : Huff) (k : Sink) : Token → Sink
  | .lit v => k.putSymbol b .litlen v.toNat
  | .copy len off =>
    let ls := lenSym len.toNat
    let os := offSym off.toNat
    ((((k.putSymbol b .litlen ls).put (len.toNat - lenBase (ls - 257)) (lenExtra (ls - 257))).putSymbol b .offset os).put
      (off.toNat - offBase os) (offExtra os))

/-- The tokens and the end-of-block symbol (rule R245). -/
def Sink.emitTokens (k : Sink) (b : Huff) (toks : List Token) : Sink :=
  (toks.foldl (Sink.emitToken b) k).putSymbol b .litlen eobSymbol

/-- Emit one item of the length sequence (rule R244). -/
def Sink.emitItem (b : Huff) (k : Sink) (it : Nat × Nat) : Sink :=
  let k' := k.putSymbol b .precode it.1
  if 16 ≤ it.1 then k'.put it.2 (preExtra it.1) else k'

/-- The header of a dynamic block (rule R244). -/
def Sink.emitDynamicHeader (k : Sink) (b : Huff) (final : Bool) : Sink :=
  let k := ((((k.put final.toNat 1).put 2 2).put (b.hb.nlit.toNat - 257) 5).put (b.hb.ndist.toNat - 1) 5).put (b.hb.npre.toNat - 4) 4
  let k := (precodeOrder.take b.hb.npre.toNat).foldl (fun k s => k.put (Table.get b.lens.precode s).toNat 3) k
  b.hb.itemList.foldl (Sink.emitItem b) k

/-! ## The sequencer (rules R233, R234) -/

/-- What COMPRESS works on. -/
structure Deflate where
  mf : MatchFinder
  cp : Sequencer
  huff : Huff
  out : Sink
deriving DecidableEq, Repr

/-- The compressor's part of a state. -/
def State.deflate (s : State) : Deflate := ⟨s.mf, s.cp, s.huff, s.sink⟩

/-- Put the compressor's part back. -/
def State.withDeflate (s : State) (d : Deflate) : State :=
  { (s.withHuff d.huff).withSink d.out with mf := d.mf, cp := d.cp }

/-- `EmitBlock(bstart, bend, final)`: statistics, choice, emission (rules R238 to R245). -/
def Deflate.emitBlock (d : Deflate) (src : Word) (bstart bend : Nat) (final : Bool) : Deflate :=
  let b := d.huff.statistics d.cp.tok
  let extra := extraBitsOf d.cp.tok
  let sto := costStored d.out.bw (bend - bstart)
  let fix := b.costFixed extra
  let dyn := b.costDynamic extra
  if sto ≤ fix ∧ sto ≤ dyn then
    { d with huff := b, out := d.out.emitStored src bstart (bend - bstart) final }
  else if fix ≤ dyn then
    let b' := b.loadFixed
    { d with huff := b', out := ((d.out.put final.toNat 1).put 1 2).emitTokens b' d.cp.tok }
  else
    let b' := (b.buildCodes .litlen).buildCodes .offset
    { d with huff := b', out := (d.out.emitDynamicHeader b final).emitTokens b' d.cp.tok }

/-- The blocks of levels 1 to 9, from position `pos` on (rule R233). Each block but the only block of
an empty input covers at least one byte, so `fuel` blocks are enough when it is the input length plus 1.
DESIGN CHOICE (log entry 24): after COMPRESS `CP.tok` keeps the tokens of the last block; what it holds
between commands is unspecified (U1), and no command shows it. -/
def Deflate.blocks (h : Handle) (src : Word) (n : Nat) : (fuel : Nat) → (pos : Nat) → Deflate → Deflate
  | 0, _, d => d
  | k + 1, pos, d =>
    let p := Parse.block h d.out.mem n pos blockTarget ⟨d.mf, [], pos⟩
    let d' :=
      Deflate.emitBlock { d with mf := p.mf, cp := ⟨p.toks.reverse, BitVec.ofNat 32 pos⟩ } src pos p.pos
        (decide (p.pos = n))
    if p.pos = n then d' else Deflate.blocks h src n k p.pos d'

/-- `StoredOnly(n)`: level 0, from position `pos` on (rule R234). -/
def Sink.storedOnly (src : Word) (n : Nat) : (fuel : Nat) → (pos : Nat) → Sink → Sink
  | 0, _, k => k
  | f + 1, pos, k =>
    let blen := min storedMax (n - pos)
    let k' := k.emitStored src pos blen (decide (pos + blen = n))
    if pos + blen = n then k' else Sink.storedOnly src n f (pos + blen) k'

/-- The stream of COMPRESS, before the final alignment (rule R233). DESIGN CHOICE (log entry 25): at level 0
the match-finder is not bound anew, as the pseudocode of rule R233 and rule R234 have it; rule R453 says
that COMPRESS starts with the body of MF.INIT and excepts no level. -/
def Deflate.stream (h : Handle) (src len : Word) (d : Deflate) : Deflate :=
  if h.level = 0 then { d with out := Sink.storedOnly src len.toNat (len.toNat + 1) 0 d.out }
  else Deflate.blocks h src len.toNat (len.toNat + 1) 0 { d with mf := MatchFinder.init src len }

/-- COMPRESS after its operand checks (rule R233). -/
def Deflate.compress (h : Handle) (p : Port) (d : Deflate) : Deflate :=
  let d := Deflate.stream h p.a0 p.a1 { d with out := { d.out with bw := Writer.init p.a2 p.a3 } }
  { d with out := d.out.align }

/-- The destination after COMPRESS: free values after an overflow when `ERROR_OUTPUT` is
`unspecified` (rule R246; U5). -/
def State.endDeflate (s : State) : State :=
  match s.bw.ovf, s.cfg.errorOutput with
  | true, .unspecified =>
    { s with
      mem := Memory.scramble s.draws s.port.a2 0 s.port.a3.toNat s.mem
      draws := s.draws + 1 }
  | true, .asRuled => s
  | false, _ => s

/-! ## Commands -/

/-- The body of COMPRESS (rule R233). -/
def compressBody (s : State) : State × Result :=
  if checkTwoBufs s.port then
    let d := s.deflate.compress s.handle s.port
    ((s.withDeflate d).endDeflate.setA5 d.out.bw.report, d.out.bw.verdict)
  else (s, .badArg)

/-- COMPRESS (rule R233). -/
def execCompress (s : State) : Host.Outcome State Fault Refusal := withHandle s compressBody

/-- The worst-case output size, saturated (rule R259). -/
def boundOf (n : Nat) : Nat := min (wordSpan - 1) (n + 5 * max 1 (ceilDiv n blockTarget))

/-- BOUND (rule R259). -/
def execBound (s : State) : Host.Outcome State Fault Refusal :=
  withHandle s fun s => (s.setA4 (boundOf s.port.a0.toNat), .success)

end Sys2Proof.Machine
end

