-- ==== Sys2Proof/Machine/BitReader.lean ====
section
/-! DEFINITION. The BR family: the bit reader (rules R340 to R350).

The refillable bit buffer the source describes is hidden state without effect (rule R72): every rule
is stated on `BR.bitpos`. -/

namespace Sys2Proof.Machine

/-! ## Procedures -/

/-- `bit(i)` of the input bit sequence: real bits, then implicit zeros (rule R94). -/
def Reader.bit (r : Reader) (m : Memory) (i : Nat) : Bool :=
  if i < 8 * r.len.toNat then (m.read (bufferAddr r.src (i / 8))).getLsbD (i % 8) else false

/-- The number whose bit `k` is `bit(i + k)`, `k < n` (rule R342). -/
def Reader.field (r : Reader) (m : Memory) : (i n : Nat) → Nat
  | _, 0 => 0
  | i, n + 1 => (r.bit m i).toNat + 2 * Reader.field r m (i + 1) n

/-- `Peek(n)` (rule R342). -/
def Reader.peek (r : Reader) (m : Memory) (n : Nat) : Nat := r.field m r.bitpos.toNat n

/-- `Drop(n)`: `none` is the BAD_DATA of the overread bound, the position unchanged (rule R344). -/
def Reader.drop (r : Reader) (n : Nat) : Option Reader :=
  if r.len.toNat + overreadMaxBytes < ceilDiv (r.bitpos.toNat + n) 8 then none
  else some { r with bitpos := BitVec.ofNat 64 (r.bitpos.toNat + n) }

/-- `Get(n)`: a field, and the reader past it; the reader as it was when `Drop` refuses (rule R346). -/
def Reader.get (r : Reader) (m : Memory) (n : Nat) : Reader × Option Nat :=
  match r.drop n with
  | none => (r, none)
  | some r' => (r', some (r.peek m n))

/-- The bits `BR.ALIGN` drops (rule R347). -/
def Reader.padding (r : Reader) : Nat := (8 - r.bitpos.toNat % 8) % 8

/-- `AlignR` (rule R347). -/
def Reader.align (r : Reader) : Option Reader := r.drop r.padding

/-- The byte index the reader stands at, when it is byte-aligned (rules R348, R375). -/
def Reader.start (r : Reader) : Nat := r.bitpos.toNat / 8

/-- The real input bytes left from a byte index on: `max(0, BR.len - start)` (rules R348, R375). -/
def Reader.left (r : Reader) : Nat := r.len.toNat - r.start

/-- Advance over `n` bytes that were copied (rules R348, R375). -/
def Reader.advanceBytes (r : Reader) (n : Nat) : Reader :=
  { r with bitpos := BitVec.ofNat 64 (r.bitpos.toNat + 8 * n) }

/-- Bytes consumed: `min(BR.len, ceil_div(BR.bitpos, 8))` (rules R363, R378). -/
def Reader.consumed (r : Reader) : Nat := min r.len.toNat (ceilDiv r.bitpos.toNat 8)

/-- `BrInit` (rule R341). -/
def Reader.init (src len : Word) : Reader := ⟨src, len, 0⟩

/-- Copy `n` bytes one at a time in increasing order, from index `i` of one buffer to index `j` of
another, each read seeing all earlier writes (rules R104, R348, R373, R375). -/
def Memory.copyForward (src dst : Word) : (i j n : Nat) → Memory → Memory
  | _, _, 0, m => m
  | i, j, n + 1, m =>
    Memory.copyForward src dst (i + 1) (j + 1) n
      (m.write (bufferAddr dst j) (m.read (bufferAddr src i)))

/-! ## Commands -/

/-- The body of BR.INIT (rule R341). -/
def brInitBody (s : State) : State × Result :=
  if checkBuf s.port.a0 s.port.a1 then
    ({ s with br := Reader.init s.port.a0 s.port.a1 }, .success)
  else (s, .badArg)

/-- BR.INIT (rule R341). -/
def execBrInit (s : State) : Host.Outcome State Fault Refusal := withHandle s brInitBody

/-- The body of BR.PEEK (rule R343). -/
def brPeekBody (s : State) : State × Result :=
  if maxGet < s.port.a0.toNat then (s, .badArg)
  else (s.setA4 (s.br.peek s.mem s.port.a0.toNat), .success)

/-- BR.PEEK (rule R343). -/
def execBrPeek (s : State) : Host.Outcome State Fault Refusal := withHandle s brPeekBody

/-- The body of BR.DROP (rule R345). -/
def brDropBody (s : State) : State × Result :=
  if maxGet < s.port.a0.toNat then (s, .badArg)
  else
    match s.br.drop s.port.a0.toNat with
    | none => (s, .badData)
    | some r => ({ s with br := r }, .success)

/-- BR.DROP (rule R345). -/
def execBrDrop (s : State) : Host.Outcome State Fault Refusal := withHandle s brDropBody

/-- The body of BR.GET (rule R346). -/
def brGetBody (s : State) : State × Result :=
  if maxGet < s.port.a0.toNat then (s, .badArg)
  else
    match s.br.get s.mem s.port.a0.toNat with
    | (_, none) => (s, .badData)
    | (r, some v) => ({ s with br := r }.setA4 v, .success)

/-- BR.GET (rule R346). -/
def execBrGet (s : State) : Host.Outcome State Fault Refusal := withHandle s brGetBody

/-- The body of BR.ALIGN (rule R347). The BAD_DATA of `Drop` cannot occur at a position within the
overread bound. -/
def brAlignBody (s : State) : State × Result :=
  match s.br.align with
  | none => (s, .badData)
  | some r => ({ s with br := r }, .success)

/-- BR.ALIGN (rule R347). -/
def execBrAlign (s : State) : Host.Outcome State Fault Refusal := withHandle s brAlignBody

/-- The body of BR.BYTES (rule R348). -/
def brBytesBody (s : State) : State × Result :=
  if checkBuf s.port.a0 s.port.a1 = false then (s, .badArg)
  else if disjoint s.port.a0 s.port.a1 s.br.src s.br.len = false then (s, .badArg)
  else if s.br.bitpos.toNat % 8 ≠ 0 then (s, .badArg)
  else if s.br.left < s.port.a1.toNat then (s, .shortInput)
  else
    ({ s with
        br := s.br.advanceBytes s.port.a1.toNat
        mem := Memory.copyForward s.br.src s.port.a0 s.br.start 0 s.port.a1.toNat s.mem }, .success)

/-- BR.BYTES (rule R348). -/
def execBrBytes (s : State) : Host.Outcome State Fault Refusal := withHandle s brBytesBody

end Sys2Proof.Machine
end

