-- ==== Sys2Proof/Machine/DecodeTable.lean ====
section
/-! DEFINITION. The DT family: the Huffman fast decode table builder (rules R300 to R309). -/

namespace Sys2Proof.Machine

/-! ## Entries (rule R59) -/

/-- `Entry(kind, nbits, value)`; an INVALID entry is 0 (rule R59). -/
def tableEntry (kind nbits value : Nat) : BitVec 32 := BitVec.ofNat 32 (kind + 16 * nbits + 65536 * value)

/-- KIND of a SYMBOL entry (rule R59). -/
def kindSymbol : Nat := 1

/-- KIND of a SUBTABLE entry (rule R59). -/
def kindSubtable : Nat := 2

/-- `e[1:0]` (rule R59). -/
def entryKind (e : BitVec 32) : Nat := e.toNat % 4

/-- `e[7:4]` (rule R59). -/
def entryBits (e : BitVec 32) : Nat := e.toNat / 16 % 16

/-- `e[31:16]` (rule R59). -/
def entryValue (e : BitVec 32) : Nat := e.toNat / 65536

/-! ## Building (rules R301 to R306) -/

/-- `K`: the Kraft sum in units of `2^-M` (rule R302). -/
def kraft (maxLen : Nat) (lens : List Nat) : Nat :=
  ((lens.filter (fun l => decide (l ≠ 0))).map fun l => 2 ^ (maxLen - l)).sum

/-- `Validate(x)` passes (rules R302, R303). -/
def lengthsValid (maxLen : Nat) (lens : List Nat) : Bool :=
  let cnt := (lens.filter (fun l => decide (l ≠ 0))).length
  let k := kraft maxLen lens
  lens.all (fun l => decide (l ≤ maxLen)) && decide (k ≤ 2 ^ maxLen)
    && (decide (k = 2 ^ maxLen) || decide (cnt = 0) || (decide (cnt = 1) && decide (k = 2 ^ (maxLen - 1))))

/-- A symbol with its codeword. -/
structure Codeword where
  sym : Nat
  len : Nat
  word : Nat
deriving DecidableEq, Repr

/-- The symbols that have a codeword, in increasing order, numbered from `s`. -/
def codewordsFrom : (s : Nat) → (lens words : List Nat) → List Codeword
  | s, l :: ls, w :: ws =>
    if l = 0 then codewordsFrom (s + 1) ls ws else ⟨s, l, w⟩ :: codewordsFrom (s + 1) ls ws
  | _, [], _ => []
  | _, _ :: _, [] => []

/-- Write an entry at `start`, `start + stride`, …, `n` times (rules R304, R305). -/
def fillStride (start stride : Nat) (e : BitVec 32) : (n : Nat) → Table 32 → Table 32
  | 0, t => t
  | n + 1, t => fillStride (start + stride) stride e n (t.set start e)

/-- The entries of one codeword of `len` bits `word` in a table of `2^bits` entries from `base` on:
those whose low `len` index bits are the codeword reversed (rules R304, R305). -/
def fillWord (base bits : Nat) (sym len word : Nat) (t : Table 32) : Table 32 :=
  fillStride (base + rev len word) (2 ^ len) (tableEntry kindSymbol len sym) (2 ^ (bits - len)) t

/-- `FillMain` (rule R304). -/
def fillMain (tb : Nat) (cs : List Codeword) (t : Table 32) : Table 32 :=
  (cs.filter (fun c => decide (c.len ≤ tb))).foldl (fun t c => fillWord 0 tb c.sym c.len c.word t) t

/-- The first `tb` bits of a longer codeword (rule R305). -/
def Codeword.head (tb : Nat) (c : Codeword) : Nat := c.word / 2 ^ (c.len - tb)

/-- Insert a number into an increasing list without repeats. -/
def insertOnce (p : Nat) : List Nat → List Nat
  | [] => [p]
  | q :: qs => if p < q then p :: q :: qs else if p = q then q :: qs else q :: insertOnce p qs

/-- The prefixes that occur, in increasing order (rule R305). -/
def headsOf (tb : Nat) (long : List Codeword) : List Nat :=
  long.foldl (fun ps c => insertOnce (c.head tb) ps) []

/-- `sub`: the index bits of the subtable of a group (rule R305). -/
def subBits (tb : Nat) (group : List Codeword) : Nat := (group.map fun c => c.len - tb).foldl max 0

/-- The subtable of one prefix at `base`, and the entry that points to it (rule R305). -/
def fillOneSub (tb p base : Nat) (group : List Codeword) (t : Table 32) : Table 32 :=
  group.foldl
    (fun t c => fillWord base (subBits tb group) c.sym (c.len - tb) (c.word % 2 ^ (c.len - tb)) t)
    (t.set (rev tb p) (tableEntry kindSubtable (subBits tb group) base))

/-- `FillSub`: subtables in increasing order of their prefixes, from `free` on (rule R305). -/
def fillSubs (tb : Nat) (long : List Codeword) : (ps : List Nat) → (free : Nat) → Table 32 → Table 32
  | [], _, t => t
  | p :: ps, free, t =>
    let group := long.filter (fun c => decide (c.head tb = p))
    fillSubs tb long ps (free + 2 ^ subBits tb group) (fillOneSub tb p free group t)

/-- `FillSub(x, word)` (rule R305). -/
def fillSub (tb : Nat) (cs : List Codeword) (t : Table 32) : Table 32 :=
  let long := cs.filter (fun c => decide (tb < c.len))
  fillSubs tb long (headsOf tb long) (2 ^ tb) t

/-- `Build(x)`: the table of a length set, `none` when `Validate` raises BAD_DATA (rule R301). -/
def buildTable (x : Alphabet) (lens : List Nat) : Option (Table 32) :=
  if lengthsValid x.maxLen lens then
    let cs := codewordsFrom 0 lens (canonical lens)
    some (fillSub x.tableBits cs (fillMain x.tableBits cs []))
  else none

/-! ## Decoding (rules R307, R308) -/

/-- The end of `Decode`: the entry must be SYMBOL, and its bits are dropped (rule R307). -/
def finishDecode (e : BitVec 32) (r : Reader) : Reader × Option Nat :=
  if entryKind e = kindSymbol then
    match r.drop (entryBits e) with
    | none => (r, none)
    | some r' => (r', some (entryValue e))
  else (r, none)

/-- `Decode(x)`: the reader after it, and the symbol or BAD_DATA (rule R307). -/
def decodeSymbol (x : Alphabet) (t : Table 32) (m : Memory) (r : Reader) : Reader × Option Nat :=
  let e := t.get (r.peek m x.tableBits)
  if entryKind e = kindSubtable then
    match r.drop x.tableBits with
    | none => (r, none)
    | some r' =>
      let i := entryValue e + r'.peek m (entryBits e)
      if x.tableSize ≤ i then (r', none) else finishDecode (t.get i) r'
  else finishDecode e r

/-! ## Commands -/

/-- The body of DT.BUILD (rule R301). -/
def dtBuildBody (x : Alphabet) (s : State) : State × Result :=
  match buildTable x (s.lens.lengths x) with
  | none => (s, .badData)
  | some t => ({ s with dtab := s.dtab.put x t }, .success)

/-- DT.BUILD (rule R301). -/
def execDtBuild (x : Alphabet) (s : State) : Host.Outcome State Fault Refusal := withHandle s (dtBuildBody x)

/-- The body of DT.DECODE (rule R307). A failure after the first `Drop` keeps it. -/
def dtDecodeBody (x : Alphabet) (s : State) : State × Result :=
  match decodeSymbol x (s.dtab.table x) s.mem s.br with
  | (r, none) => ({ s with br := r }, .badData)
  | (r, some sym) => ({ s with br := r }.setA4 sym, .success)

/-- DT.DECODE (rule R307). -/
def execDtDecode (x : Alphabet) (s : State) : Host.Outcome State Fault Refusal := withHandle s (dtDecodeBody x)

end Sys2Proof.Machine
end

