-- ==== Sys2Proof/Machine/Stream.lean ====
section
/-! DEFINITION. The stream elements: what each does once its own bits are consumed (rules R364 to
R376).

An error inside a step is not a fault: the decompressor goes to state ERROR and records the code
(rule R377). The operations act on the decompressor's part of the machine. -/

namespace Sys2Proof.Machine

/-- What the decompressor works on: its own state, the bit reader, `LENS_x`, `DTAB_x`, memory, and
the OPEN parameters it reads. -/
structure Inflate where
  cfg : Config
  dx : Decomp
  br : Reader
  lens : Trio 4
  dtab : Trio 32
  mem : Memory
deriving DecidableEq, Repr

/-- The decompressor's part of a state. -/
def State.inflate (s : State) : Inflate := ⟨s.cfg, s.dx, s.br, s.lens, s.dtab, s.mem⟩

/-- Put the decompressor's part back. -/
def State.withInflate (s : State) (d : Inflate) : State :=
  { s with dx := d.dx, br := d.br, lens := d.lens, dtab := d.dtab, mem := d.mem }

/-- `Error(code)`: the step's changes stand, the machine goes to ERROR (rule R377). -/
def Inflate.error (d : Inflate) (r : Result) : Inflate :=
  { d with dx := { d.dx with state := .error, err := r } }

/-- Go on while the machine is not in ERROR. -/
def Inflate.andThen (d : Inflate) (f : Inflate → Inflate) : Inflate :=
  match d.dx.state with
  | .error => d
  | .blockHeader | .buildTables | .decodeLoop | .copyStored | .done => f d

/-- Go to a state. -/
def Inflate.goto (d : Inflate) (q : DxState) : Inflate := { d with dx := { d.dx with state := q } }

/-- The decompressor's sources: fields from its reader, symbols through its decode tables (rules R346, R307). -/
def Inflate.source (d : Inflate) : Source Reader where
  bits n r := r.get d.mem n
  symbol x r := decodeSymbol x (d.dtab.table x) d.mem r

/-- What `OVERREAD_AT_DONE` answers where the input is shorter than the stream needs and nothing else is
wrong: at the end of a stream, and in a stored block's data (rule R376; log entry 23). -/
def overreadResult (cfg : Config) : Result :=
  match cfg.overreadAtDone with
  | .shortInput => .shortInput
  | .badData => .badData

/-- `Finish()` (rule R376). -/
def Inflate.finish (d : Inflate) : Inflate :=
  if 8 * d.br.len.toNat < d.br.bitpos.toNat then d.error (overreadResult d.cfg) else d.goto .done

/-- What follows a block: `Finish()` after the final one, else the next header (rules R372, R375). -/
def Inflate.blockDone (d : Inflate) : Inflate := if d.dx.bfinal then d.finish else d.goto .blockHeader

/-! ## Block header (rule R364) -/

/-- Record BFINAL and BTYPE. -/
def Inflate.header (d : Inflate) (final : Bool) (btype : Nat) : Inflate :=
  { d with dx := { d.dx with bfinal := final, btype := BitVec.ofNat 2 btype } }

/-- BTYPE 0: a stored block's body follows (rule R364). -/
def Inflate.blockStored (d : Inflate) (final : Bool) : Inflate := (d.header final 0).goto .copyStored

/-- BTYPE 1: the fixed tables are built next (rule R364). -/
def Inflate.blockFixed (d : Inflate) (final : Bool) : Inflate := (d.header final 1).goto .buildTables

/-- BTYPE 2: a dynamic header follows (rule R364). -/
def Inflate.blockDynamic (d : Inflate) (final : Bool) : Inflate := (d.header final 2).goto .buildTables

/-- BTYPE 3 is reserved: the fields are recorded, then BAD_DATA (rule R364). -/
def Inflate.blockReserved (d : Inflate) (final : Bool) : Inflate := (d.header final 3).error .badData

/-! ## Stored block (rule R375) -/

/-- The room left in the output buffer. -/
def Inflate.room (d : Inflate) : Nat := d.dx.cap.toNat - d.dx.outpos.toNat

/-- Copy `n` bytes of the input at the reader to the output and advance both (rule R375). -/
def Inflate.copyInput (d : Inflate) (n : Nat) : Inflate :=
  { d with
    mem := Memory.copyForward d.br.src d.dx.dst d.br.start d.dx.outpos.toNat n d.mem
    br := d.br.advanceBytes n
    dx := { d.dx with outpos := d.dx.outpos + BitVec.ofNat 32 n } }

/-- A stored block whose LEN and NLEN are read (rule R375). A block longer than the input is one of the two
cases `OVERREAD_AT_DONE` governs (rule R376; log entry 23). -/
def Inflate.storedBody (d : Inflate) (len nlen : BitVec 16) : Inflate :=
  if len ≠ nlen ^^^ 0xFFFF#16 then d.error .badData
  else if d.br.left < len.toNat then d.error (overreadResult d.cfg)
  else if d.room < len.toNat then d.error .insufficientSpace
  else (d.copyInput len.toNat).blockDone

/-! ## Tables (rules R365 to R369) -/

/-- `Build(x)`: `none` when the length set is refused, and then the table is unchanged (rule R301). -/
def Inflate.build (d : Inflate) (x : Alphabet) : Option Inflate :=
  match buildTable x (d.lens.lengths x) with
  | none => none
  | some t => some { d with dtab := d.dtab.put x t }

/-- `Build(LL) ; Build(OF) ; DX.state <- DECODE_LOOP` (rules R365, R369). -/
def Inflate.buildBoth (d : Inflate) : Inflate :=
  match d.build .litlen with
  | none => d.error .badData
  | some d' =>
    match d'.build .offset with
    | none => d'.error .badData
    | some d'' => d''.goto .decodeLoop

/-- The table build of a fixed block (rule R365). -/
def Inflate.buildFixed (d : Inflate) : Inflate := Inflate.buildBoth { d with lens := d.lens.loadFixed }

/-- `total`: how many lengths a dynamic header declares (rule R368). -/
def Inflate.total (d : Inflate) : Nat := d.dx.nlit.toNat + d.dx.ndist.toNat

/-- `L <- L ++ [v] * r`, or BAD_DATA when the sequence would pass `total` (rule R368). -/
def Inflate.extend (d : Inflate) (v : BitVec 4) (r : Nat) : Inflate :=
  if d.total < d.dx.seq.length + r then d.error .badData
  else { d with dx := { d.dx with seq := d.dx.seq ++ List.replicate r v } }

/-- Precode symbols 0..15: the next length (rules R136, R368). -/
def Inflate.preLen (d : Inflate) (value : BitVec 4) : Inflate := d.extend value 1

/-- Precode symbol 16: repeat the previous length; without one it is BAD_DATA (rules R136, R368). -/
def Inflate.preRep (d : Inflate) (extra : BitVec 2) : Inflate :=
  match d.dx.seq.getLast? with
  | none => d.error .badData
  | some v => d.extend v (3 + extra.toNat)

/-- Precode symbol 17: 3 to 10 zeros (rules R136, R368). -/
def Inflate.preZrep3 (d : Inflate) (extra : BitVec 3) : Inflate := d.extend 0 (3 + extra.toNat)

/-- Precode symbol 18: 11 to 138 zeros (rules R136, R368). -/
def Inflate.preZrep11 (d : Inflate) (extra : BitVec 7) : Inflate := d.extend 0 (11 + extra.toNat)

/-- Execute a precode element (rules R136, R368). Nothing else stands in a length sequence. -/
def Inflate.runPrecode (d : Inflate) (i : Instr) : Inflate :=
  match i with
  | .preLen value => d.preLen value
  | .preRep extra => d.preRep extra
  | .preZrep3 extra => d.preZrep3 extra
  | .preZrep11 extra => d.preZrep11 extra
  | .nop | .create _ | .destroy | .compress | .bound | .decompress | .tread _ | .twrite _
  | .mfInit | .mfFind | .mfSkip | .mfSlide
  | .hbClear | .hbTally _ | .hbMatch | .hbLens _ | .hbCodes _ | .hbFixed | .hbPrecode
  | .dtBuild _ | .dtDecode _
  | .bwInit | .bwPut | .bwAlign | .bwFlush | .bwBytes
  | .brInit | .brPeek | .brDrop | .brGet | .brAlign | .brBytes
  | .dxInit | .dxStep
  | .blockStored _ | .blockFixed _ | .blockDynamic _ | .blockReserved _
  | .storedBody _ _ | .dynamicHeader _ _ _
  | .lit _ | .eob | .copyMatch _ _ _ _ | .llReserved _ | .ofReserved _ => d.error .badData

/-- One element of the length sequence: fetched, then executed (rule R368). -/
def Inflate.precodeStep (d : Inflate) : Inflate :=
  match readPrecode d.source (decide (d.dx.seq ≠ [])) d.br with
  | (r, .error _) => Inflate.error { d with br := r } .badData
  | (r, .ok i) => Inflate.runPrecode { d with br := r } i

/-- `while |L| < total` (rule R368). Every round extends the sequence or ends in ERROR, so `total`
rounds are enough. -/
def Inflate.readLengths : (fuel : Nat) → Inflate → Inflate
  | 0, d => d
  | n + 1, d =>
    if d.total ≤ d.dx.seq.length then d else d.precodeStep.andThen (Inflate.readLengths n)

/-- `LENS_PC[PERM[j]] <- Get(3)` along a part of PERM (rule R367). A refused `Get` ends it. -/
def Inflate.readPrecodeLens : List Nat → Inflate → Inflate
  | [], d => d
  | s :: order, d =>
    match d.br.get d.mem 3 with
    | (r, none) => Inflate.error { d with br := r } .badData
    | (r, some v) =>
      Inflate.readPrecodeLens order
        { d with
          br := r
          lens := { d.lens with precode := d.lens.precode.set s (BitVec.ofNat 4 v) } }

/-- The lengths of the sequence to `LENS_LL` and `LENS_OF`, the slots past them 0 (rule R369). The
sequence, the model's own, is then empty again. -/
def Inflate.loadLengths (d : Inflate) : Inflate :=
  { d with
    lens :=
      { d.lens with
        litlen := Table.ofList 4 ((d.dx.seq.take d.dx.nlit.toNat).map BitVec.toNat)
        offset := Table.ofList 4 ((d.dx.seq.drop d.dx.nlit.toNat).map BitVec.toNat) }
    dx := { d.dx with seq := [] } }

/-- Drop the length sequence of a build that ended in ERROR (the model's own field). -/
def Inflate.dropSeq (d : Inflate) : Inflate := { d with dx := { d.dx with seq := [] } }

/-- The third and fourth parts of a dynamic table build (rules R368, R369). -/
def Inflate.buildDynamic (d : Inflate) : Inflate :=
  ((d.build .precode).elim (d.error .badData) fun d =>
    (Inflate.readLengths d.total d.dropSeq).andThen fun d => d.loadLengths.buildBoth).dropSeq

/-- The declared counts are refused: above 286 or 30 with `STRICT_COUNTS` (rule R366). -/
def Inflate.countsRefused (d : Inflate) : Bool :=
  d.cfg.strictCounts && (decide (286 < d.dx.nlit.toNat) || decide (30 < d.dx.ndist.toNat))

/-- A dynamic header: its counts, the precode, the length sequence, both tables (rules R366 to R369). -/
def Inflate.dynamicHeader (d : Inflate) (hlit hdist : BitVec 5) (hclen : BitVec 4) : Inflate :=
  let d : Inflate :=
    { d with
      dx :=
        { d.dx with
          nlit := BitVec.ofNat 9 (hlit.toNat + 257)
          ndist := BitVec.ofNat 6 (hdist.toNat + 1)
          npre := BitVec.ofNat 5 (hclen.toNat + 4) } }
  if d.countsRefused then d.error .badData
  else
    (Inflate.readPrecodeLens (precodeOrder.take (hclen.toNat + 4))
      { d with lens := { d.lens with precode := [] } }).andThen Inflate.buildDynamic

/-! ## Symbols (rules R371 to R374) -/

/-- `Literal(s)` (rule R371). -/
def Inflate.literal (d : Inflate) (b : Byte) : Inflate :=
  if d.dx.outpos = d.dx.cap then d.error .insufficientSpace
  else
    { d with
      mem := d.mem.write (bufferAddr d.dx.dst d.dx.outpos.toNat) b
      dx := { d.dx with outpos := d.dx.outpos + 1 } }

/-- The length a match's fields give (rules R139, R373). -/
def matchLength (ls lx : BitVec 5) : Nat := lenBase ls.toNat + lx.toNat

/-- The offset a match's fields give (rules R141, R373). -/
def matchOffset (os : BitVec 5) (ox : BitVec 13) : Nat := offBase os.toNat + ox.toNat

/-- The tests and the replay of a match (rules R104, R373). -/
def Inflate.replay (d : Inflate) (len off : Nat) : Inflate :=
  if d.dx.outpos.toNat < off then d.error .badData
  else if d.room < len then d.error .insufficientSpace
  else
    { d with
      mem := Memory.copyForward d.dx.dst d.dx.dst (d.dx.outpos.toNat - off) d.dx.outpos.toNat len d.mem
      dx := { d.dx with outpos := d.dx.outpos + BitVec.ofNat 32 len } }

/-- A match: its length and offset, tested, then replayed (rule R373). -/
def Inflate.copyMatch (d : Inflate) (ls lx os : BitVec 5) (ox : BitVec 13) : Inflate :=
  d.replay (matchLength ls lx) (matchOffset os ox)

/-- A reserved litlen symbol: BAD_DATA, whichever it is (rules R370, R374). -/
def Inflate.llReserved (d : Inflate) (_symbol : BitVec 16) : Inflate := d.error .badData

/-- A reserved offset symbol: BAD_DATA, whichever it is (rules R373, R374). -/
def Inflate.ofReserved (d : Inflate) (_symbol : BitVec 16) : Inflate := d.error .badData

/-- Execute a stream element whose bits are consumed. A command is none, and changes nothing here. -/
def Inflate.run (d : Inflate) (i : Instr) : Inflate :=
  match i with
  | .blockStored final => d.blockStored final
  | .blockFixed final => d.blockFixed final
  | .blockDynamic final => d.blockDynamic final
  | .blockReserved final => d.blockReserved final
  | .storedBody len nlen => d.storedBody len nlen
  | .dynamicHeader hlit hdist hclen => d.dynamicHeader hlit hdist hclen
  | .preLen value => d.preLen value
  | .preRep extra => d.preRep extra
  | .preZrep3 extra => d.preZrep3 extra
  | .preZrep11 extra => d.preZrep11 extra
  | .lit value => d.literal value
  | .eob => d.blockDone
  | .copyMatch ls lx os ox => d.copyMatch ls lx os ox
  | .llReserved symbol => d.llReserved symbol
  | .ofReserved symbol => d.ofReserved symbol
  | .nop | .create _ | .destroy | .compress | .bound | .decompress | .tread _ | .twrite _
  | .mfInit | .mfFind | .mfSkip | .mfSlide
  | .hbClear | .hbTally _ | .hbMatch | .hbLens _ | .hbCodes _ | .hbFixed | .hbPrecode
  | .dtBuild _ | .dtDecode _
  | .bwInit | .bwPut | .bwAlign | .bwFlush | .bwBytes
  | .brInit | .brPeek | .brDrop | .brGet | .brAlign | .brBytes
  | .dxInit | .dxStep => d

/-! ## Meanings -/

/-- BLOCK.STORED (rule R364). -/
def execBlockStored (final : Bool) (s : State) : Host.Outcome State Fault Refusal :=
  .next (s.withInflate (s.inflate.blockStored final))

/-- BLOCK.FIXED (rule R364). -/
def execBlockFixed (final : Bool) (s : State) : Host.Outcome State Fault Refusal :=
  .next (s.withInflate (s.inflate.blockFixed final))

/-- BLOCK.DYNAMIC (rule R364). -/
def execBlockDynamic (final : Bool) (s : State) : Host.Outcome State Fault Refusal :=
  .next (s.withInflate (s.inflate.blockDynamic final))

/-- BLOCK.RESERVED (rule R364). -/
def execBlockReserved (final : Bool) (s : State) : Host.Outcome State Fault Refusal :=
  .next (s.withInflate (s.inflate.blockReserved final))

/-- STORED.BODY (rule R375). -/
def execStoredBody (len : BitVec 16) (nlen : BitVec 16) (s : State) :
    Host.Outcome State Fault Refusal :=
  .next (s.withInflate (s.inflate.storedBody len nlen))

/-- DYNAMIC.HEADER (rules R366 to R369). -/
def execDynamicHeader (hlit : BitVec 5) (hdist : BitVec 5) (hclen : BitVec 4) (s : State) :
    Host.Outcome State Fault Refusal :=
  .next (s.withInflate (s.inflate.dynamicHeader hlit hdist hclen))

/-- PRE.LEN (rule R368). -/
def execPreLen (value : BitVec 4) (s : State) : Host.Outcome State Fault Refusal :=
  .next (s.withInflate (s.inflate.preLen value))

/-- PRE.REP (rule R368). -/
def execPreRep (extra : BitVec 2) (s : State) : Host.Outcome State Fault Refusal :=
  .next (s.withInflate (s.inflate.preRep extra))

/-- PRE.ZREP3 (rule R368). -/
def execPreZrep3 (extra : BitVec 3) (s : State) : Host.Outcome State Fault Refusal :=
  .next (s.withInflate (s.inflate.preZrep3 extra))

/-- PRE.ZREP11 (rule R368). -/
def execPreZrep11 (extra : BitVec 7) (s : State) : Host.Outcome State Fault Refusal :=
  .next (s.withInflate (s.inflate.preZrep11 extra))

/-- LIT (rule R371). -/
def execLit (value : Byte) (s : State) : Host.Outcome State Fault Refusal :=
  .next (s.withInflate (s.inflate.literal value))

/-- EOB (rule R372). -/
def execEob (s : State) : Host.Outcome State Fault Refusal :=
  .next (s.withInflate (s.inflate.blockDone))

/-- MATCH (rule R373). -/
def execCopyMatch (ls : BitVec 5) (lx : BitVec 5) (os : BitVec 5) (ox : BitVec 13) (s : State) :
    Host.Outcome State Fault Refusal :=
  .next (s.withInflate (s.inflate.copyMatch ls lx os ox))

/-- LL.RESERVED (rules R370, R374). -/
def execLlReserved (symbol : BitVec 16) (s : State) : Host.Outcome State Fault Refusal :=
  .next (s.withInflate (s.inflate.llReserved symbol))

/-- OF.RESERVED (rules R373, R374). -/
def execOfReserved (symbol : BitVec 16) (s : State) : Host.Outcome State Fault Refusal :=
  .next (s.withInflate (s.inflate.ofReserved symbol))

end Sys2Proof.Machine
end

