-- ==== Sys2Proof/Machine/Decompress.lean ====
section
/-! DEFINITION. The DX family: the decompressor state machine (rules R360 to R380).

A step fetches one stream element with the bit reader and the decode tables, then executes it; the
table build of a fixed block is the one step that fetches nothing (rule R365). -/

namespace Sys2Proof.Machine

/-! ## Fetching an element -/

/-- Fetch the element the machine's state calls for (rule R362). The element's bits are consumed,
also where the fetch fails (rule R377). In BUILD_TABLES this is the dynamic header; in DONE and
ERROR, where no step is made, it is never asked for. -/
def Inflate.fetch (d : Inflate) : Reader × Except Reject Instr :=
  match d.dx.state with
  | .blockHeader => readHeader d.source d.br
  | .buildTables => readDynamic d.source d.br
  | .decodeLoop => readLitlen d.source d.br
  | .copyStored =>
    match d.br.align with
    | none => (d.br, .error .outOfBits)
    | some r => readStored d.source r
  | .done | .error => (d.br, .error .outOfBits)

/-- Fetch an element and execute it; a failed fetch is BAD_DATA (rule R377). -/
def Inflate.fetchAndRun (d : Inflate) : Inflate :=
  match d.fetch with
  | (r, .error _) => Inflate.error { d with br := r } .badData
  | (r, .ok i) => Inflate.run { d with br := r } i

/-- `Step()` (rule R362): one block header, one table build, one litlen symbol with all that belongs
to it, or one stored block. DONE and ERROR are absorbing. -/
def Inflate.step (d : Inflate) : Inflate :=
  match d.dx.state with
  | .blockHeader => d.fetchAndRun
  | .buildTables => if d.dx.btype = 1 then d.buildFixed else d.fetchAndRun
  | .decodeLoop => d.fetchAndRun
  | .copyStored => d.fetchAndRun
  | .done => d
  | .error => d

/-- `while DX.state != DONE and DX.state != ERROR: Step()`, at most `fuel` steps (rule R363). -/
def Inflate.runAll : (fuel : Nat) → Inflate → Inflate
  | 0, d => d
  | n + 1, d =>
    match d.dx.state with
    | .done => d
    | .error => d
    | .blockHeader | .buildTables | .decodeLoop | .copyStored => Inflate.runAll n d.step

/-- The steps DECOMPRESS makes at most (rules R350, R379). -/
def maxSteps (len : Word) : Nat := 8 * len.toNat + 65

/-- The body of DX.INIT on the decompressor's own state (rule R361). -/
def Decomp.init (dst cap : Word) : Decomp := ⟨.blockHeader, false, 0, .success, dst, cap, 0, 257, 1, 4, []⟩

/-! ## Commands -/

/-- The body of DX.INIT (rule R361). -/
def dxInitBody (s : State) : State × Result :=
  if checkBuf s.port.a0 s.port.a1 then
    ({ s with dx := Decomp.init s.port.a0 s.port.a1 }, .success)
  else (s, .badArg)

/-- DX.INIT (rule R361). -/
def execDxInit (s : State) : Host.Outcome State Fault Refusal := withHandle s dxInitBody

/-- The body of DX.STEP (rule R362). -/
def dxStepBody (s : State) : State × Result :=
  let d := s.inflate.step
  ((s.withInflate d).setA4 d.dx.state.code, d.dx.verdict)

/-- DX.STEP (rule R362). -/
def execDxStep (s : State) : Host.Outcome State Fault Refusal := withHandle s dxStepBody

/-- The decompressor at the start of DECOMPRESS: BR.INIT and DX.INIT (rule R363). -/
def State.startInflate (s : State) : Inflate :=
  { s.inflate with
    br := Reader.init s.port.a0 s.port.a1
    dx := Decomp.init s.port.a2 s.port.a3 }

/-- What DECOMPRESS shows when `ERROR_OUTPUT` is `as_ruled`, or when it succeeds (rule R363). -/
def State.showInflate (s : State) (d : Inflate) : State :=
  ((s.withInflate d).setA5 d.dx.outpos.toNat).setA6 d.br.consumed

/-- What a failed DECOMPRESS shows when `ERROR_OUTPUT` is `unspecified`: the bytes of the destination
and the counts are free values, the counts bounded by capacity and input length (U5). -/
def State.hideInflate (s : State) (d : Inflate) : State :=
  let s' := ((s.withInflate d).setA5 (Config.freeCount s.draws 5 % (s.port.a3.toNat + 1))).setA6
    (Config.freeCount s.draws 6 % (s.port.a1.toNat + 1))
  { s' with
    mem := Memory.scramble s.draws s.port.a2 0 s.port.a3.toNat s'.mem
    draws := s.draws + 1 }

/-- The end of DECOMPRESS (rules R363, R418; U5). -/
def State.endInflate (s : State) (d : Inflate) : State :=
  match d.dx.state, s.cfg.errorOutput with
  | .error, .unspecified => s.hideInflate d
  | .error, .asRuled => s.showInflate d
  | .blockHeader, _ | .buildTables, _ | .decodeLoop, _ | .copyStored, _ | .done, _ => s.showInflate d

/-- The body of DECOMPRESS (rule R363). -/
def decompressBody (s : State) : State × Result :=
  if checkTwoBufs s.port then
    let d := Inflate.runAll (maxSteps s.port.a1) s.startInflate
    (s.endInflate d, d.dx.verdict)
  else (s, .badArg)

/-- DECOMPRESS (rule R363). -/
def execDecompress (s : State) : Host.Outcome State Fault Refusal := withHandle s decompressBody

end Sys2Proof.Machine
end

