-- ==== Sys2Proof/Machine/System.lean ====
section
/-! DEFINITION. The SYS family but for the whole-buffer commands: NOP, CREATE, DESTROY, TREAD, TWRITE
(rules R180 to R194). -/

namespace Sys2Proof.Machine

/-- NOP: nothing, with or without a handle (rule R181). -/
def execNop (s : State) : Host.Outcome State Fault Refusal := complete s .success

/-- The state a successful CREATE leaves, but for RESULT (rules R182, R451). `CP.tok` stays
unspecified; with `CP.ntok` 0 there is no token. -/
def State.created (s : State) (level : BitVec 4) : State :=
  { s with
    handle := ⟨true, level, (levelRow level).lazy, (levelRow level).depth, (levelRow level).nice⟩
    mf := ⟨0, 0, 0, 0, [], []⟩
    cp := ⟨[], 0⟩
    freq := Trio.empty 32
    lens := Trio.empty 4
    code := Trio.empty 16
    hb := ⟨[], 0, 257, 1, 4⟩
    dtab := Trio.empty 32
    bw := Writer.reset
    br := Reader.reset
    dx := ⟨.blockHeader, false, 0, .success, 0, 0, 0, 257, 1, 4, []⟩ }

/-- What a failed CREATE changes: `H.alive` and `H.level` (rule R182). -/
def State.uncreated (s : State) : State := { s with handle := { s.handle with alive := false, level := 0 } }

/-- CREATE (rule R182). -/
def execCreate (level : BitVec 4) (s : State) : Host.Outcome State Fault Refusal :=
  if levelMax < level.toNat then complete s.uncreated .createFailed
  else complete (s.created level) .success

/-- DESTROY (rule R183). -/
def execDestroy (s : State) : Host.Outcome State Fault Refusal :=
  withHandle s fun s => (s.clearUnits, .success)

/-- The body of TREAD (rule R189). -/
def treadBody (space : Space) (s : State) : State × Result :=
  if spaceSize space ≤ s.port.a0.toNat then (s, .badArg)
  else (s.setA4 (readSpace s space s.port.a0.toNat).toNat, .success)

/-- TREAD (rule R189). -/
def execTread (space : Space) (s : State) : Host.Outcome State Fault Refusal :=
  withHandle s (treadBody space)

/-- The body of TWRITE (rule R190). -/
def twriteBody (space : Space) (s : State) : State × Result :=
  if space = .misc then (s, .badArg)
  else if spaceSize space ≤ s.port.a0.toNat then (s, .badArg)
  else if spaceAccepts space s.port.a1 = false then (s, .badArg)
  else (writeSpace s space s.port.a0.toNat s.port.a1, .success)

/-- TWRITE (rule R190). -/
def execTwrite (space : Space) (s : State) : Host.Outcome State Fault Refusal :=
  withHandle s (twriteBody space)

end Sys2Proof.Machine
end

