-- ==== Sys2Proof/Machine/Dispatch.lean ====
section
/-! DEFINITION. The meaning of every instruction, one arm per constructor. -/

namespace Sys2Proof.Machine

/-- Execute one instruction: a command (rule R180), or a stream element whose bits are consumed (rule R362). -/
def exec (i : Instr) (s : State) : Host.Outcome State Fault Refusal :=
  match i with
  | .nop => Sys2Proof.Machine.execNop s
  | .create level => Sys2Proof.Machine.execCreate level s
  | .destroy => Sys2Proof.Machine.execDestroy s
  | .compress => Sys2Proof.Machine.execCompress s
  | .bound => Sys2Proof.Machine.execBound s
  | .decompress => Sys2Proof.Machine.execDecompress s
  | .tread space => Sys2Proof.Machine.execTread space s
  | .twrite space => Sys2Proof.Machine.execTwrite space s
  | .mfInit => Sys2Proof.Machine.execMfInit s
  | .mfFind => Sys2Proof.Machine.execMfFind s
  | .mfSkip => Sys2Proof.Machine.execMfSkip s
  | .mfSlide => Sys2Proof.Machine.execMfSlide s
  | .hbClear => Sys2Proof.Machine.execHbClear s
  | .hbTally x => Sys2Proof.Machine.execHbTally x s
  | .hbMatch => Sys2Proof.Machine.execHbMatch s
  | .hbLens x => Sys2Proof.Machine.execHbLens x s
  | .hbCodes x => Sys2Proof.Machine.execHbCodes x s
  | .hbFixed => Sys2Proof.Machine.execHbFixed s
  | .hbPrecode => Sys2Proof.Machine.execHbPrecode s
  | .dtBuild x => Sys2Proof.Machine.execDtBuild x s
  | .dtDecode x => Sys2Proof.Machine.execDtDecode x s
  | .bwInit => Sys2Proof.Machine.execBwInit s
  | .bwPut => Sys2Proof.Machine.execBwPut s
  | .bwAlign => Sys2Proof.Machine.execBwAlign s
  | .bwFlush => Sys2Proof.Machine.execBwFlush s
  | .bwBytes => Sys2Proof.Machine.execBwBytes s
  | .brInit => Sys2Proof.Machine.execBrInit s
  | .brPeek => Sys2Proof.Machine.execBrPeek s
  | .brDrop => Sys2Proof.Machine.execBrDrop s
  | .brGet => Sys2Proof.Machine.execBrGet s
  | .brAlign => Sys2Proof.Machine.execBrAlign s
  | .brBytes => Sys2Proof.Machine.execBrBytes s
  | .dxInit => Sys2Proof.Machine.execDxInit s
  | .dxStep => Sys2Proof.Machine.execDxStep s
  | .blockStored final => Sys2Proof.Machine.execBlockStored final s
  | .blockFixed final => Sys2Proof.Machine.execBlockFixed final s
  | .blockDynamic final => Sys2Proof.Machine.execBlockDynamic final s
  | .blockReserved final => Sys2Proof.Machine.execBlockReserved final s
  | .storedBody len nlen => Sys2Proof.Machine.execStoredBody len nlen s
  | .dynamicHeader hlit hdist hclen => Sys2Proof.Machine.execDynamicHeader hlit hdist hclen s
  | .preLen value => Sys2Proof.Machine.execPreLen value s
  | .preRep extra => Sys2Proof.Machine.execPreRep extra s
  | .preZrep3 extra => Sys2Proof.Machine.execPreZrep3 extra s
  | .preZrep11 extra => Sys2Proof.Machine.execPreZrep11 extra s
  | .lit value => Sys2Proof.Machine.execLit value s
  | .eob => Sys2Proof.Machine.execEob s
  | .copyMatch ls lx os ox => Sys2Proof.Machine.execCopyMatch ls lx os ox s
  | .llReserved symbol => Sys2Proof.Machine.execLlReserved symbol s
  | .ofReserved symbol => Sys2Proof.Machine.execOfReserved symbol s

end Sys2Proof.Machine
end

