-- ==== Sys2Proof/Machine/Port.lean ====
section
/-! DEFINITION. The host's side of the register port, and where the next instruction is put (rules
R33 to R36, R90, R93). -/

namespace Sys2Proof.Machine

/-- Word index of CMD (rule R34). -/
def cmdIndex : Nat := 8

/-- Word index of STATUS (rule R35). -/
def statusIndex : Nat := 9

/-- The byte address of a word index of the register port in the host's map (rule R93). -/
def portAddress (cfg : Config) (index : Nat) : Word := cfg.regBase + BitVec.ofNat 32 (4 * index)

/-- What a host read of a word index returns; indices 10 and above read 0 (rules R33 to R36). -/
def State.portRead (s : State) (index : Nat) : Word :=
  if index < cmdIndex then s.port.operand index
  else if index = cmdIndex then s.port.cmd
  else if index = statusIndex then s.status
  else 0

/-- A host write to a word index other than CMD: STATUS and indices 10 and above ignore it (rules R33, R35, R36). -/
def State.portWrite (s : State) (index : Nat) (w : Word) : State :=
  if index < cmdIndex then { s with port := s.port.setOperand index w } else s

/-- Store the word written to CMD (rule R34). -/
def State.latchCommand (s : State) (w : Word) : State := { s with port := { s.port with cmd := w } }

/-- A word that spells no command ends with BAD_CMD and changes nothing else (rules R121, R124). -/
def rejectCommand (s : State) : Host.Outcome State Fault Refusal := complete s .badCmd

/-- The word a read returned, kept where a later access can be compared with it (log entry 4). -/
def State.answerRead (s : State) (index : Nat) : State := { s with rdata := s.portRead index }

/-- A host write of one byte of buffer memory (rule R90). -/
def State.pokeByte (s : State) (addr : Word) (b : Byte) : State := { s with mem := s.mem.write addr b }

/-- The command word of DX.STEP (rule R122). -/
def dxStepWord : Word := 0x61#32

/-- The host's next access is a CMD write of `w`. -/
def State.queueCommand (s : State) (w : Word) : State := { s with host := .write cmdIndex w :: s.host }

/-- A live engine whose reader stands at the start of a one-byte buffer holding `b` and whose
decompressor expects a block header: what fetching that header needs (rules R94, R364). -/
def State.queueHeader (s : State) (b : Byte) : State :=
  { s with
    handle := { s.handle with alive := true }
    br := { s.br with len := 1, bitpos := 0 }
    dx := { s.dx with state := .blockHeader }
    mem := s.mem.write s.br.src b }

end Sys2Proof.Machine
end

