-- ==== Sys2Proof/Machine/Step.lean ====
section
/-! DEFINITION. One step: the host's next access to the engine (rules R34, R100; log entry 4). A CMD
write executes its command to completion. -/

namespace Sys2Proof.Machine

/-- A CMD write: the word is stored, decoded and executed (rules R34, R121). -/
def command (w : Word) (s : State) : Host.Outcome State Fault Refusal :=
  match decodeCommand w with
  | .error _ => rejectCommand (s.latchCommand w)
  | .ok i => exec i (s.latchCommand w)

/-- Serve one host access. -/
def serve (op : HostOp) (s : State) : Host.Outcome State Fault Refusal :=
  match op with
  | .write index w => if index = cmdIndex then command w s else .next (s.portWrite index w)
  | .read index => .next (s.answerRead index)
  | .poke address b => .next (s.pokeByte address b)
  | .hardReset => .next s.hardReset
  | .narrowAccess => .refused .narrowPortAccess
  | .contended _ => .fault .interference

/-- One step: the next access of the host; with none to come the engine stays as it is, for it starts
nothing on its own (rules R93, R450). -/
def step (s : State) : Host.Outcome State Fault Refusal :=
  match s.host with
  | [] => .next s
  | op :: rest => serve op { s with host := rest }

/-- The state whose very next step fetches and runs the instruction a table row's word spells. A row of
32 bits is a command word, and the host writes it to CMD. A shorter row is a block header: it is put
at the reader of a live engine that expects one, and the host writes DX.STEP to CMD. -/
def State.withFetchWord (s : State) (nbits w : Nat) : State :=
  if 32 ≤ nbits then s.queueCommand (BitVec.ofNat 32 w)
  else (s.queueHeader (BitVec.ofNat 8 w)).queueCommand dxStepWord

end Sys2Proof.Machine
end

