-- ==== Sys2Proof/Laws/Codes.lean ====
section
/-! SUPPORT. Bits and canonical codes: bit lists and their numbers, the closed form of a canonical
codeword, that canonical codewords fit their lengths and are prefix-free, and that reading a
codeword's bits gives its symbol back. -/

namespace Sys2Proof

/-! ## Bits -/

@[simp] theorem length_bitsOf (n v : Nat) : (bitsOf n v).length = n := by
  induction n generalizing v with
  | zero => rfl
  | succ n ih => simp [bitsOf, ih]

theorem ofBits_bitsOf (n v : Nat) : ofBits (bitsOf n v) = v % 2 ^ n := by
  induction n generalizing v with
  | zero => simp [bitsOf, ofBits, Nat.mod_one]
  | succ n ih =>
    have hb : (decide (v % 2 = 1)).toNat = v % 2 := by
      rcases Nat.mod_two_eq_zero_or_one v with h | h <;> simp [h]
    rw [bitsOf, ofBits, ih, hb, Nat.pow_succ, Nat.mul_comm (2 ^ n) 2, Nat.mod_mul]

theorem bitsOf_mod (n v : Nat) : bitsOf n (v % 2 ^ n) = bitsOf n v := by
  induction n generalizing v with
  | zero => rfl
  | succ n ih =>
    have h1 : v % 2 ^ (n + 1) % 2 = v % 2 := by rw [Nat.pow_succ]; exact Nat.mod_mul_left_mod v _ 2
    have h2 : v % 2 ^ (n + 1) / 2 = v / 2 % 2 ^ n := by
      rw [Nat.pow_succ, Nat.mul_comm (2 ^ n) 2]; exact Nat.mod_mul_right_div_self v 2 (2 ^ n)
    rw [bitsOf, bitsOf, h1, h2, ih]

theorem ofBits_append (a b : List Bool) : ofBits (a ++ b) = ofBits a + 2 ^ a.length * ofBits b := by
  induction a with
  | nil => simp [ofBits]
  | cons x a ih => simp [ofBits, ih, Nat.pow_succ]; ring

/-- The bits of a number most significant first, one bit peeled off the front. -/
theorem bitsOf_reverse_succ (n w : Nat) :
    (bitsOf (n + 1) w).reverse = decide (w / 2 ^ n % 2 = 1) :: (bitsOf n w).reverse := by
  induction n generalizing w with
  | zero => simp [bitsOf]
  | succ n ih =>
    have e : bitsOf (n + 1 + 1) w = decide (w % 2 = 1) :: bitsOf (n + 1) (w / 2) := rfl
    rw [e, List.reverse_cons, ih (w / 2), bitsOf, List.reverse_cons, List.cons_append, Nat.div_div_eq_div_mul,
      Nat.pow_succ, Nat.mul_comm 2 (2 ^ n)]

theorem rev_lt (n v : Nat) : rev n v < 2 ^ n := by
  induction n generalizing v with
  | zero => simp [rev]
  | succ n ih =>
    have := ih (v / 2)
    have hm : v % 2 * 2 ^ n ≤ 2 ^ n := by
      rcases Nat.mod_two_eq_zero_or_one v with h | h <;> simp [h]
    rw [rev, Nat.pow_succ]; omega

/-- The number whose bits are `v`'s, most significant first (rule R15). -/
theorem ofBits_reverse_bitsOf (n v : Nat) : ofBits (bitsOf n v).reverse = rev n v := by
  induction n generalizing v with
  | zero => rfl
  | succ n ih =>
    rw [bitsOf, List.reverse_cons, ofBits_append, ih, List.length_reverse, length_bitsOf]
    have hb : (decide (v % 2 = 1)).toNat = v % 2 := by
      rcases Nat.mod_two_eq_zero_or_one v with h | h <;> simp [h]
    rw [ofBits, ofBits, hb, rev]; ring

theorem bitsOf_ofBits (bs : List Bool) : bitsOf bs.length (ofBits bs) = bs := by
  induction bs with
  | nil => rfl
  | cons b bs ih =>
    have h1 : (b.toNat + 2 * ofBits bs) % 2 = b.toNat := by cases b <;> simp
    have h2 : (b.toNat + 2 * ofBits bs) / 2 = ofBits bs := by cases b <;> simp; omega
    rw [List.length_cons, bitsOf, ofBits, h1, h2, ih]
    cases b <;> rfl

theorem bitsOf_rev (n v : Nat) : bitsOf n (rev n v) = (bitsOf n v).reverse := by
  have := bitsOf_ofBits (bitsOf n v).reverse
  rwa [List.length_reverse, length_bitsOf, ofBits_reverse_bitsOf] at this

/-- Reversing twice gives the low bits back. -/
theorem rev_rev (n v : Nat) : rev n (rev n v) = v % 2 ^ n := by
  rw [← ofBits_reverse_bitsOf, bitsOf_rev, List.reverse_reverse, ofBits_bitsOf]

theorem rev_injective {n a b : Nat} (ha : a < 2 ^ n) (hb : b < 2 ^ n) (h : rev n a = rev n b) : a = b := by
  have := congrArg (rev n) h
  rwa [rev_rev, rev_rev, Nat.mod_eq_of_lt ha, Nat.mod_eq_of_lt hb] at this

/-! ## The closed form of a canonical code (rule R281) -/

/-- `first[l]`: rule R281's recursion, `count[0]` taken as 0. -/
def firstCode (lens : List Nat) : Nat → Nat
  | 0 => 0
  | l + 1 => (firstCode lens l + (if l = 0 then 0 else lens.count l)) * 2

/-- One more than the last codeword of length `l`, as if there were one: `first[l] + count[l]`. -/
def nextCode (lens : List Nat) (l : Nat) : Nat := firstCode lens l + (if l = 0 then 0 else lens.count l)

theorem firstCode_succ (lens : List Nat) (l : Nat) : firstCode lens (l + 1) = 2 * nextCode lens l := by
  rw [firstCode, nextCode, Nat.mul_comm]

theorem nextCode_succ (lens : List Nat) (l : Nat) :
    nextCode lens (l + 1) = 2 * nextCode lens l + lens.count (l + 1) := by
  rw [nextCode, firstCode_succ, if_neg (Nat.succ_ne_zero l)]

theorem getD_firstCodesFrom (lens : List Nat) (n l code prev i : Nat) (hi : i < n)
    (h : firstCode lens (l + 1) = (code + prev) * 2) :
    (firstCodesFrom lens n (l + 1) code prev).getD i 0 = firstCode lens (l + 1 + i) := by
  induction n generalizing l code prev i with
  | zero => omega
  | succ n ih =>
    cases i with
    | zero => simp [firstCodesFrom, h]
    | succ i =>
      have := ih (l + 1) ((code + prev) * 2) (countLen lens (l + 1)) i (by omega)
        (by rw [firstCode_succ, nextCode, if_neg (Nat.succ_ne_zero l), h, countLen, Nat.mul_comm])
      rw [firstCodesFrom, List.getD_cons_succ, this]
      congr 1; omega

theorem getD_firstCodes (lens : List Nat) {l : Nat} (h1 : 1 ≤ l) (h2 : l ≤ 15) :
    (firstCodes lens).getD l 0 = firstCode lens l := by
  obtain ⟨k, rfl⟩ : ∃ k, l = k + 1 := ⟨l - 1, by omega⟩
  have := getD_firstCodesFrom lens 15 0 0 0 k (by omega) (by simp [firstCode])
  simpa [firstCodes, Nat.add_comm 1 k] using this

@[simp] theorem length_firstCodesFrom (lens : List Nat) (n l c p : Nat) :
    (firstCodesFrom lens n l c p).length = n := by
  induction n generalizing l c p with
  | zero => rfl
  | succ n ih => simp [firstCodesFrom, ih]

theorem length_firstCodes (lens : List Nat) : (firstCodes lens).length = 16 := by simp [firstCodes]

@[simp] theorem length_assignCodes (lens next : List Nat) : (assignCodes lens next).length = lens.length := by
  induction lens generalizing next with
  | nil => rfl
  | cons l ls ih => unfold assignCodes; split <;> simp [ih]

@[simp] theorem length_canonical (lens : List Nat) : (canonical lens).length = lens.length :=
  length_assignCodes _ _

/-- Symbol `s` gets the next codeword of its length: the first plus how many before it have that length. -/
theorem getD_assignCodes (lens next : List Nat) {s : Nat} (hs : s < lens.length) (h0 : lens.getD s 0 ≠ 0)
    (hn : lens.getD s 0 < next.length) :
    (assignCodes lens next).getD s 0 = next.getD (lens.getD s 0) 0 + (lens.take s).count (lens.getD s 0) := by
  induction lens generalizing next s with
  | nil => simp at hs
  | cons l ls ih =>
    cases s with
    | zero =>
      simp only [List.getD_cons_zero] at h0 hn ⊢
      simp [assignCodes, h0]
    | succ s =>
      simp only [List.length_cons, Nat.succ_lt_succ_iff, List.getD_cons_succ] at hs h0 hn ⊢
      unfold assignCodes
      by_cases hl : l = 0
      · rw [if_pos hl, List.getD_cons_succ, ih next hs h0 hn, List.take_succ_cons, List.count_cons,
          beq_eq_false_iff_ne.mpr (by rw [hl]; exact Ne.symm h0)]
        simp
      · rw [if_neg hl, List.getD_cons_succ, ih _ hs h0 (by simpa using hn), List.take_succ_cons, List.count_cons]
        by_cases he : l = ls.getD s 0
        · rw [← he] at hn ⊢
          have hset : (next.set l (next.getD l 0 + 1)).getD l 0 = next.getD l 0 + 1 := by
            simp [List.getD, hn]
          rw [hset]; simp; omega
        · have hset : (next.set l (next.getD l 0 + 1)).getD (ls.getD s 0) 0 = next.getD (ls.getD s 0) 0 := by
            rw [List.getD_eq_getElem?_getD, List.getElem?_set_ne he, ← List.getD_eq_getElem?_getD]
          rw [hset, beq_eq_false_iff_ne.mpr he]; simp

/-- The canonical codeword of a symbol (rule R281). -/
theorem getD_canonical {lens : List Nat} {s : Nat} (hs : s < lens.length) (h0 : lens.getD s 0 ≠ 0)
    (h15 : lens.getD s 0 ≤ 15) :
    (canonical lens).getD s 0 = firstCode lens (lens.getD s 0) + (lens.take s).count (lens.getD s 0) := by
  rw [canonical, getD_assignCodes lens _ hs h0 (by rw [length_firstCodes]; omega),
    getD_firstCodes lens (by omega) h15]

theorem count_take_lt {lens : List Nat} {s : Nat} (hs : s < lens.length) :
    (lens.take s).count (lens.getD s 0) < lens.count (lens.getD s 0) := by
  have hg : lens.getD s 0 = lens[s] := by simp [List.getD, hs]
  have h := congrArg (List.count lens[s]) (show lens.take s ++ lens[s] :: lens.drop (s + 1) = lens by simp)
  rw [List.count_append, List.count_cons_self] at h
  rw [hg]; omega

/-- Codewords of length `l` lie below `nextCode l`. -/
theorem canonical_lt_next {lens : List Nat} {s : Nat} (hs : s < lens.length) (h0 : lens.getD s 0 ≠ 0)
    (h15 : lens.getD s 0 ≤ 15) : (canonical lens).getD s 0 < nextCode lens (lens.getD s 0) := by
  rw [getD_canonical hs h0 h15, nextCode, if_neg h0]
  exact Nat.add_lt_add_left (count_take_lt hs) _

theorem nextCode_le {lens : List Nat} {l l' : Nat} (h : l ≤ l') :
    2 ^ (l' - l) * nextCode lens l ≤ nextCode lens l' := by
  induction l' with
  | zero => simp [Nat.le_zero.mp h]
  | succ l' ih =>
    rcases Nat.lt_or_ge l (l' + 1) with hlt | hge
    · have := ih (by omega)
      rw [nextCode_succ, show l' + 1 - l = l' - l + 1 by omega, Nat.pow_succ, Nat.mul_comm (2 ^ (l' - l)) 2, Nat.mul_assoc]
      omega
    · have : l = l' + 1 := by omega
      simp [this]

/-- The first codeword of a longer length starts past every extension of a shorter codeword. -/
theorem firstCode_ge {lens : List Nat} {l l' : Nat} (h : l < l') :
    2 ^ (l' - l) * nextCode lens l ≤ firstCode lens l' := by
  obtain ⟨k, rfl⟩ : ∃ k, l' = k + 1 := ⟨l' - 1, by omega⟩
  have := nextCode_le (lens := lens) (show l ≤ k by omega)
  rw [firstCode_succ, show k + 1 - l = k - l + 1 by omega, Nat.pow_succ, Nat.mul_comm (2 ^ (k - l)) 2, Nat.mul_assoc]
  omega

/-- The canonical code is prefix-free (rule R54): no codeword begins a longer or another equal one. -/
theorem canonical_prefix_free {lens : List Nat} {s s' : Nat} (hs : s < lens.length) (hs' : s' < lens.length)
    (h0 : lens.getD s 0 ≠ 0) (h15' : lens.getD s' 0 ≤ 15) (hle : lens.getD s 0 ≤ lens.getD s' 0)
    (e : (canonical lens).getD s' 0 / 2 ^ (lens.getD s' 0 - lens.getD s 0) = (canonical lens).getD s 0) : s = s' := by
  have h0' : lens.getD s' 0 ≠ 0 := by omega
  have h15 : lens.getD s 0 ≤ 15 := by omega
  rcases Nat.lt_or_ge (lens.getD s 0) (lens.getD s' 0) with hlt | hge
  · exfalso
    have hw := canonical_lt_next hs h0 h15
    have hf := firstCode_ge (lens := lens) hlt
    rw [getD_canonical hs' h0' h15'] at e
    have : nextCode lens (lens.getD s 0) ≤ (firstCode lens (lens.getD s' 0) + (lens.take s').count (lens.getD s' 0))
        / 2 ^ (lens.getD s' 0 - lens.getD s 0) := by
      rw [Nat.le_div_iff_mul_le (Nat.two_pow_pos _), Nat.mul_comm]; omega
    omega
  · have hl : lens.getD s' 0 = lens.getD s 0 := by omega
    rw [hl, Nat.sub_self, Nat.pow_zero, Nat.div_one, getD_canonical hs' h0' h15', getD_canonical hs h0 h15, hl] at e
    have hc : (lens.take s').count (lens.getD s 0) = (lens.take s).count (lens.getD s 0) := by omega
    have mono : ∀ {a b : Nat}, a < b → b ≤ lens.length → lens.getD a 0 = lens.getD s 0 →
        (lens.take a).count (lens.getD s 0) < (lens.take b).count (lens.getD s 0) := by
      intro a b hab hb ha
      have hal : a < (lens.take b).length := by simp; omega
      have hg : (lens.take b).getD a 0 = lens.getD a 0 := by simp [List.getD, hab]
      have := count_take_lt hal
      rw [hg, ha, List.take_take, Nat.min_eq_left (by omega)] at this
      exact this
    rcases Nat.lt_trichotomy s s' with h | h | h
    · have := mono h (by omega) rfl; omega
    · exact h
    · have := mono h (by omega) hl; omega

/-! ## The Kraft sum (rule R302) -/

/-- `K` of rule R302, in units of `2^-M`. -/
def kraftSum (maxLen : Nat) (lens : List Nat) : Nat :=
  (lens.map fun l => if l = 0 then 0 else 2 ^ (maxLen - l)).sum

theorem nextCode_cons (l : Nat) (lens : List Nat) (k : Nat) :
    nextCode (l :: lens) k = nextCode lens k + (if l = 0 ∨ k < l then 0 else 2 ^ (k - l)) := by
  induction k with
  | zero =>
    have : l = 0 ∨ 0 < l := Nat.eq_zero_or_pos l
    simp [nextCode, firstCode, this]
  | succ k ih =>
    rw [nextCode_succ, nextCode_succ, ih, List.count_cons]
    by_cases h0 : l = 0
    · simp [h0]
    · rcases Nat.lt_trichotomy l (k + 1) with h | h | h
      · rw [if_neg (show ¬(l = 0 ∨ k < l) by omega), if_neg (show ¬(l = 0 ∨ k + 1 < l) by omega),
          if_neg (by simp; omega), show k + 1 - l = k - l + 1 by omega, Nat.pow_succ]
        ring
      · subst h
        simp; ring
      · rw [if_pos (show l = 0 ∨ k < l by omega), if_pos (show l = 0 ∨ k + 1 < l by omega), if_neg (by simp; omega)]
        ring

/-- `nextCode` at the longest length is the Kraft sum. -/
theorem nextCode_eq_kraftSum {lens : List Nat} {maxLen : Nat} (h : ∀ l ∈ lens, l ≤ maxLen) :
    nextCode lens maxLen = kraftSum maxLen lens := by
  induction lens with
  | nil =>
    have : ∀ k, nextCode [] k = 0 := fun k => by
      induction k with
      | zero => rfl
      | succ k ih => rw [nextCode_succ, ih]; rfl
    simp [this, kraftSum]
  | cons l ls ih =>
    have hl := h l List.mem_cons_self
    rw [nextCode_cons, ih fun x hx => h x (List.mem_cons_of_mem _ hx), kraftSum, kraftSum, List.map_cons, List.sum_cons]
    by_cases h0 : l = 0
    · simp [h0]
    · rw [if_neg (by omega), if_neg h0]; omega

/-- With a Kraft sum of at most one, a codeword fits its length. -/
theorem canonical_lt {lens : List Nat} {s maxLen : Nat} (hm : ∀ l ∈ lens, l ≤ maxLen)
    (hk : kraftSum maxLen lens ≤ 2 ^ maxLen) (hs : s < lens.length) (h0 : lens.getD s 0 ≠ 0)
    (h15 : lens.getD s 0 ≤ 15) : (canonical lens).getD s 0 < 2 ^ lens.getD s 0 := by
  have hw := canonical_lt_next hs h0 h15
  have hle : lens.getD s 0 ≤ maxLen := hm _ (by
    rw [List.getD_eq_getElem?_getD, List.getElem?_eq_getElem hs]; exact List.getElem_mem hs)
  have hn := nextCode_le (lens := lens) hle
  rw [nextCode_eq_kraftSum hm] at hn
  have : 2 ^ (maxLen - lens.getD s 0) * nextCode lens (lens.getD s 0)
      ≤ 2 ^ (maxLen - lens.getD s 0) * 2 ^ lens.getD s 0 := by
    rw [← Nat.pow_add, Nat.sub_add_cancel hle]; omega
  have := Nat.le_of_mul_le_mul_left this (Nat.two_pow_pos _)
  omega

/-! ## Reading a codeword (rule R143) -/

/-- Length and word of a symbol that `findSymbol` answers. -/
theorem findSymbol_none {l acc : Nat} {lens words : List Nat} {s0 : Nat} (hlen : lens.length = words.length)
    (h : ∀ s, s < lens.length → ¬ (lens.getD s 0 = l ∧ words.getD s 0 = acc)) :
    findSymbol l acc lens words s0 = none := by
  induction lens generalizing words s0 with
  | nil => cases words <;> rfl
  | cons a as ih =>
    cases words with
    | nil => simp at hlen
    | cons w ws =>
      have h0 := h 0 (by simp)
      simp only [List.getD_cons_zero] at h0
      rw [findSymbol, if_neg h0]
      refine ih (by simpa using hlen) fun s hs => ?_
      have := h (s + 1) (by simpa using hs)
      simpa using this

theorem findSymbol_some {l acc : Nat} {lens words : List Nat} {s s0 : Nat} (hlen : lens.length = words.length)
    (hs : s < lens.length) (hl : lens.getD s 0 = l) (hw : words.getD s 0 = acc)
    (h : ∀ s', s' < lens.length → lens.getD s' 0 = l ∧ words.getD s' 0 = acc → s' = s) :
    findSymbol l acc lens words s0 = some (s0 + s) := by
  induction lens generalizing words s s0 with
  | nil => simp at hs
  | cons a as ih =>
    cases words with
    | nil => simp at hlen
    | cons w ws =>
      rw [findSymbol]
      cases s with
      | zero =>
        simp only [List.getD_cons_zero] at hl hw
        rw [if_pos ⟨hl, hw⟩]; simp
      | succ s =>
        have hne : ¬ (a = l ∧ w = acc) := fun hc => by
          have := h 0 (by simp) (by simpa using hc); omega
        rw [if_neg hne, ih (s := s) (by simpa using hlen) (by simpa using hs) (by simpa using hl) (by simpa using hw)
          fun s' hs' hc => by have := h (s' + 1) (by simpa using hs') (by simpa using hc); omega]
        congr 1; omega

theorem readCodeword_bits {lens words : List Nat} {L w s : Nat} {rest : List Bool} (n fuel : Nat) (hn : n ≤ L)
    (hf : n ≤ fuel) (hpos : 0 < n)
    (hnone : ∀ j, 0 < j → j < n → findSymbol (L - j) (w / 2 ^ j) lens words 0 = none)
    (hsome : findSymbol L w lens words 0 = some s) :
    readCodeword lens words fuel (L - n) (w / 2 ^ n) ((bitsOf n w).reverse ++ rest) = (rest, some s) := by
  induction n generalizing fuel with
  | zero => omega
  | succ n ih =>
    obtain ⟨f, rfl⟩ : ∃ f, fuel = f + 1 := ⟨fuel - 1, by omega⟩
    have hacc : 2 * (w / 2 ^ (n + 1)) + (decide (w / 2 ^ n % 2 = 1)).toNat = w / 2 ^ n := by
      have hb : (decide (w / 2 ^ n % 2 = 1)).toNat = w / 2 ^ n % 2 := by
        rcases Nat.mod_two_eq_zero_or_one (w / 2 ^ n) with h | h <;> simp [h]
      rw [hb, Nat.pow_succ, ← Nat.div_div_eq_div_mul]; omega
    rw [bitsOf_reverse_succ, List.cons_append, readCodeword, hacc, show L - (n + 1) + 1 = L - n by omega]
    rcases Nat.eq_zero_or_pos n with h | h
    · subst h; simp [hsome, bitsOf]
    · rw [hnone n h (by omega)]
      exact ih f (by omega) (by omega) h fun j h1 h2 => hnone j h1 (by omega)

/-- A code whose canonical codewords can be told apart and read: no length above 15, Kraft sum at most one. -/
def readable (lens : List Nat) : Prop := (∀ l ∈ lens, l ≤ 15) ∧ kraftSum 15 lens ≤ 2 ^ 15

/-- The bits of a codeword, whatever follows them, read back as its symbol (rules R143, R308). -/
theorem readCodeword_codewordBits {lens : List Nat} (hr : readable lens) {s : Nat} (h0 : lens.getD s 0 ≠ 0)
    (rest : List Bool) :
    readCodeword lens (canonical lens) 15 0 0 (codewordBits lens s ++ rest) = (rest, some s) := by
  have hs : s < lens.length := by
    by_contra hc
    exact h0 (by simp [List.getD, Nat.not_lt.mp hc])
  have hmem : lens.getD s 0 ∈ lens := by
    rw [List.getD_eq_getElem?_getD, List.getElem?_eq_getElem hs]; exact List.getElem_mem hs
  have h15 := hr.1 _ hmem
  have hlt := canonical_lt hr.1 hr.2 hs h0 h15
  have hlen : lens.length = (canonical lens).length := (length_canonical lens).symm
  have hsome : findSymbol (lens.getD s 0) ((canonical lens).getD s 0) lens (canonical lens) 0 = some s := by
    have := findSymbol_some (s0 := 0) hlen hs rfl rfl fun s' hs' hc =>
      (canonical_prefix_free hs hs' h0 (by omega) (by omega) (by rw [hc.1]; simp only [Nat.sub_self, Nat.pow_zero, Nat.div_one]; exact hc.2)).symm
    simpa using this
  have hnone : ∀ j, 0 < j → j < lens.getD s 0 →
      findSymbol (lens.getD s 0 - j) ((canonical lens).getD s 0 / 2 ^ j) lens (canonical lens) 0 = none := by
    intro j h1 h2
    refine findSymbol_none hlen fun s' hs' hc => ?_
    have : s' = s := canonical_prefix_free hs' hs (by omega) h15 (by omega)
      (by rw [hc.1, hc.2]; congr 2; omega)
    subst this; omega
  have := readCodeword_bits (rest := rest) (lens.getD s 0) 15 (Nat.le_refl _) h15 (by omega) hnone hsome
  rwa [Nat.sub_self, Nat.div_eq_of_lt hlt] at this

end Sys2Proof
end

