-- ==== Sys2Proof/Laws/PerInstr.lean ====
section
/-! SUPPORT. One lemma per instruction: the bits `encode` gives it, whatever follows them, are decoded
back to it, with every operand at every value its encoding admits. -/

namespace Sys2Proof.Laws

/-! ## Reading from a list of bits -/

theorem bits_listSource (c : Codes) (n v : Nat) (rest : List Bool) :
    (listSource c).bits n (bitsOf n v ++ rest) = (rest, some (v % 2 ^ n)) := by
  simp [listSource, ofBits_bitsOf]

theorem symbol_listSource {c : Codes} {x : Alphabet} (h : readable (c.lens x)) {s : Nat}
    (h0 : (c.lens x).getD s 0 ≠ 0) (rest : List Bool) :
    (listSource c).symbol x (codewordBits (c.lens x) s ++ rest) = (rest, some s) :=
  readCodeword_codewordBits h h0 rest

theorem decode_command (c : Codes) (w : Word) (rest : List Bool) :
    decode c .command (bitsOf 32 w.toNat ++ rest) = (rest, decodeCommand w) := by
  simp only [decode, bits_listSource, Nat.mod_eq_of_lt w.isLt, BitVec.ofNat_toNat, BitVec.setWidth_eq]

theorem decode_header (c : Codes) (final : Bool) (btype : Nat) (rest : List Bool) :
    decode c .header (headerBits final btype ++ rest) = (rest, .ok (headerInstr (final.toNat + 2 * (btype % 4)))) := by
  have e : headerBits final btype = bitsOf 3 (final.toNat + 2 * btype) := by
    cases final <;> simp [headerBits, bitsOf] <;> omega
  have : (final.toNat + 2 * btype) % 2 ^ 3 = final.toNat + 2 * (btype % 4) := by
    cases final <;> simp <;> omega
  simp only [decode, readHeader, e, bits_listSource, this]

namespace EncodesBack

/-- The bits of a well-formed instruction decode to it, for any codes in which its symbols have codewords. -/
def Statement (i : Instr) : Prop :=
  ∀ (c : Codes) (rest : List Bool), (∀ x, readable (c.lens x)) → c.cover i = true → i.wellFormed = true →
    decode c i.expect (encode c i ++ rest) = (rest, .ok i)

/-! ## Commands -/

/-- A command's bits are its word's, so it decodes back when its word does. -/
theorem of_word {i : Instr} {w : Word} (he : i.expect = .command) (hb : ∀ c, encode c i = bitsOf 32 w.toNat)
    (hw : decodeCommand w = .ok i) : Statement i := fun c rest _ _ _ => by
  rw [he, hb, decode_command, hw]

theorem nop : Statement .nop := of_word (w := commandWord 0x00 0) rfl (fun _ => rfl) (by decide)

theorem create (level : BitVec 4) : Statement (.create level) :=
  of_word (w := commandWord 0x01 level.toNat) rfl (fun _ => rfl) (by revert level; decide)

theorem destroy : Statement .destroy := of_word (w := commandWord 0x02 0) rfl (fun _ => rfl) (by decide)

theorem compress : Statement .compress := of_word (w := commandWord 0x03 0) rfl (fun _ => rfl) (by decide)

theorem bound : Statement .bound := of_word (w := commandWord 0x04 0) rfl (fun _ => rfl) (by decide)

theorem decompress : Statement .decompress := of_word (w := commandWord 0x05 0) rfl (fun _ => rfl) (by decide)

theorem tread (space : Space) : Statement (.tread space) :=
  of_word (w := commandWord 0x06 (selOfSpace space)) rfl (fun _ => rfl) (by cases space <;> decide)

theorem twrite (space : Space) : Statement (.twrite space) :=
  of_word (w := commandWord 0x07 (selOfSpace space)) rfl (fun _ => rfl) (by cases space <;> decide)

theorem mfInit : Statement .mfInit := of_word (w := commandWord 0x10 0) rfl (fun _ => rfl) (by decide)

theorem mfFind : Statement .mfFind := of_word (w := commandWord 0x11 0) rfl (fun _ => rfl) (by decide)

theorem mfSkip : Statement .mfSkip := of_word (w := commandWord 0x12 0) rfl (fun _ => rfl) (by decide)

theorem mfSlide : Statement .mfSlide := of_word (w := commandWord 0x13 0) rfl (fun _ => rfl) (by decide)

theorem hbClear : Statement .hbClear := of_word (w := commandWord 0x20 0) rfl (fun _ => rfl) (by decide)

theorem hbTally (x : Alphabet) : Statement (.hbTally x) :=
  of_word (w := commandWord 0x21 (selOfAlphabet x)) rfl (fun _ => rfl) (by cases x <;> decide)

theorem hbMatch : Statement .hbMatch := of_word (w := commandWord 0x22 0) rfl (fun _ => rfl) (by decide)

theorem hbLens (x : Alphabet) : Statement (.hbLens x) :=
  of_word (w := commandWord 0x23 (selOfAlphabet x)) rfl (fun _ => rfl) (by cases x <;> decide)

theorem hbCodes (x : Alphabet) : Statement (.hbCodes x) :=
  of_word (w := commandWord 0x24 (selOfAlphabet x)) rfl (fun _ => rfl) (by cases x <;> decide)

theorem hbFixed : Statement .hbFixed := of_word (w := commandWord 0x25 0) rfl (fun _ => rfl) (by decide)

theorem hbPrecode : Statement .hbPrecode := of_word (w := commandWord 0x26 0) rfl (fun _ => rfl) (by decide)

theorem dtBuild (x : Alphabet) : Statement (.dtBuild x) :=
  of_word (w := commandWord 0x30 (selOfAlphabet x)) rfl (fun _ => rfl) (by cases x <;> decide)

theorem dtDecode (x : Alphabet) : Statement (.dtDecode x) :=
  of_word (w := commandWord 0x31 (selOfAlphabet x)) rfl (fun _ => rfl) (by cases x <;> decide)

theorem bwInit : Statement .bwInit := of_word (w := commandWord 0x40 0) rfl (fun _ => rfl) (by decide)

theorem bwPut : Statement .bwPut := of_word (w := commandWord 0x41 0) rfl (fun _ => rfl) (by decide)

theorem bwAlign : Statement .bwAlign := of_word (w := commandWord 0x42 0) rfl (fun _ => rfl) (by decide)

theorem bwFlush : Statement .bwFlush := of_word (w := commandWord 0x43 0) rfl (fun _ => rfl) (by decide)

theorem bwBytes : Statement .bwBytes := of_word (w := commandWord 0x44 0) rfl (fun _ => rfl) (by decide)

theorem brInit : Statement .brInit := of_word (w := commandWord 0x50 0) rfl (fun _ => rfl) (by decide)

theorem brPeek : Statement .brPeek := of_word (w := commandWord 0x51 0) rfl (fun _ => rfl) (by decide)

theorem brDrop : Statement .brDrop := of_word (w := commandWord 0x52 0) rfl (fun _ => rfl) (by decide)

theorem brGet : Statement .brGet := of_word (w := commandWord 0x53 0) rfl (fun _ => rfl) (by decide)

theorem brAlign : Statement .brAlign := of_word (w := commandWord 0x54 0) rfl (fun _ => rfl) (by decide)

theorem brBytes : Statement .brBytes := of_word (w := commandWord 0x55 0) rfl (fun _ => rfl) (by decide)

theorem dxInit : Statement .dxInit := of_word (w := commandWord 0x60 0) rfl (fun _ => rfl) (by decide)

theorem dxStep : Statement .dxStep := of_word (w := commandWord 0x61 0) rfl (fun _ => rfl) (by decide)

/-! ## Stream elements of fixed width -/

theorem blockStored (final : Bool) : Statement (.blockStored final) := fun c rest _ _ _ =>
  (decode_header c final 0 rest).trans (by cases final <;> rfl)

theorem blockFixed (final : Bool) : Statement (.blockFixed final) := fun c rest _ _ _ =>
  (decode_header c final 1 rest).trans (by cases final <;> rfl)

theorem blockDynamic (final : Bool) : Statement (.blockDynamic final) := fun c rest _ _ _ =>
  (decode_header c final 2 rest).trans (by cases final <;> rfl)

theorem blockReserved (final : Bool) : Statement (.blockReserved final) := fun c rest _ _ _ =>
  (decode_header c final 3 rest).trans (by cases final <;> rfl)

theorem storedBody (len nlen : BitVec 16) : Statement (.storedBody len nlen) := fun c rest _ _ _ => by
  simp only [Instr.expect, encode, decode, readStored, List.append_assoc, bits_listSource,
    Nat.mod_eq_of_lt len.isLt, Nat.mod_eq_of_lt nlen.isLt, BitVec.ofNat_toNat, BitVec.setWidth_eq]

/-- Three fields side by side are one field. -/
theorem bitsOf_dynamic (hlit hdist : BitVec 5) (hclen : BitVec 4) :
    bitsOf 5 hlit.toNat ++ (bitsOf 5 hdist.toNat ++ bitsOf 4 hclen.toNat)
      = bitsOf 14 (hlit.toNat + 32 * hdist.toNat + 1024 * hclen.toNat) := by
  have e := bitsOf_ofBits (bitsOf 5 hlit.toNat ++ (bitsOf 5 hdist.toNat ++ bitsOf 4 hclen.toNat))
  rw [ofBits_append, ofBits_append, ofBits_bitsOf, ofBits_bitsOf, ofBits_bitsOf, Nat.mod_eq_of_lt hlit.isLt,
    Nat.mod_eq_of_lt hdist.isLt, Nat.mod_eq_of_lt hclen.isLt] at e
  simp only [List.length_append, length_bitsOf] at e
  rw [← e]
  congr 1
  ring

theorem dynamicHeader (hlit hdist : BitVec 5) (hclen : BitVec 4) : Statement (.dynamicHeader hlit hdist hclen) :=
  fun c rest _ _ _ => by
    have h1 := hlit.isLt
    have h2 := hdist.isLt
    have h3 := hclen.isLt
    have hm : (hlit.toNat + 32 * hdist.toNat + 1024 * hclen.toNat) % 2 ^ 14
        = hlit.toNat + 32 * hdist.toNat + 1024 * hclen.toNat := Nat.mod_eq_of_lt (by omega)
    have e1 : BitVec.ofNat 5 (hlit.toNat + 32 * hdist.toNat + 1024 * hclen.toNat) = hlit := by
      apply BitVec.eq_of_toNat_eq; rw [BitVec.toNat_ofNat]; omega
    have e2 : BitVec.ofNat 5 ((hlit.toNat + 32 * hdist.toNat + 1024 * hclen.toNat) / 32) = hdist := by
      apply BitVec.eq_of_toNat_eq; rw [BitVec.toNat_ofNat]; omega
    have e3 : BitVec.ofNat 4 ((hlit.toNat + 32 * hdist.toNat + 1024 * hclen.toNat) / 1024) = hclen := by
      apply BitVec.eq_of_toNat_eq; rw [BitVec.toNat_ofNat]; omega
    simp only [Instr.expect, encode, bitsOf_dynamic, decode, readDynamic, bits_listSource, hm, e1, e2, e3]

/-! ## Stream elements with codewords -/

/-- A covered element's symbols have codewords. -/
theorem of_cover {c : Codes} {i : Instr} (h : c.cover i = true) {x : Alphabet} {s : Nat} (hm : (x, s) ∈ i.symbols) :
    (c.lens x).getD s 0 ≠ 0 := by
  have := List.all_eq_true.mp h (x, s) hm
  simpa using this

theorem symbol_precode {c : Codes} (h : ∀ x, readable (c.lens x)) {s : Nat} (h0 : (c.lens .precode).getD s 0 ≠ 0)
    (rest : List Bool) : (listSource c).symbol .precode (codewordBits c.precode s ++ rest) = (rest, some s) :=
  symbol_listSource (h .precode) h0 rest

theorem symbol_litlen {c : Codes} (h : ∀ x, readable (c.lens x)) {s : Nat} (h0 : (c.lens .litlen).getD s 0 ≠ 0)
    (rest : List Bool) : (listSource c).symbol .litlen (codewordBits c.litlen s ++ rest) = (rest, some s) :=
  symbol_listSource (h .litlen) h0 rest

theorem symbol_offset {c : Codes} (h : ∀ x, readable (c.lens x)) {s : Nat} (h0 : (c.lens .offset).getD s 0 ≠ 0)
    (rest : List Bool) : (listSource c).symbol .offset (codewordBits c.offset s ++ rest) = (rest, some s) :=
  symbol_listSource (h .offset) h0 rest

theorem preLen (value : BitVec 4) : Statement (.preLen value) := fun c rest hr hc _ => by
  have hv : value.toNat ≤ 15 := by have := value.isLt; omega
  simp only [Instr.expect, encode, decode, readPrecode,
    symbol_precode hr (of_cover hc (show (Alphabet.precode, value.toNat) ∈ _ by simp [Instr.symbols])), if_pos hv, BitVec.ofNat_toNat, BitVec.setWidth_eq]

theorem preRep (extra : BitVec 2) : Statement (.preRep extra) := fun c rest hr hc _ => by
  simp only [Instr.expect, encode, decode, readPrecode, List.append_assoc,
    symbol_precode hr (of_cover hc (show (Alphabet.precode, 16) ∈ _ by simp [Instr.symbols])), preExtra]
  simp [bits_listSource, Nat.mod_eq_of_lt extra.isLt]

theorem preZrep3 (extra : BitVec 3) : Statement (.preZrep3 extra) := fun c rest hr hc _ => by
  simp only [Instr.expect, encode, decode, readPrecode, List.append_assoc,
    symbol_precode hr (of_cover hc (show (Alphabet.precode, 17) ∈ _ by simp [Instr.symbols])), preExtra]
  simp [bits_listSource, Nat.mod_eq_of_lt extra.isLt]

theorem preZrep11 (extra : BitVec 7) : Statement (.preZrep11 extra) := fun c rest hr hc _ => by
  simp only [Instr.expect, encode, decode, readPrecode, List.append_assoc,
    symbol_precode hr (of_cover hc (show (Alphabet.precode, 18) ∈ _ by simp [Instr.symbols])), preExtra]
  simp [bits_listSource, Nat.mod_eq_of_lt extra.isLt]

theorem lit (value : Byte) : Statement (.lit value) := fun c rest hr hc _ => by
  have hv : value.toNat ≤ 255 := by have := value.isLt; omega
  simp only [Instr.expect, encode, decode, readLitlen,
    symbol_litlen hr (of_cover hc (show (Alphabet.litlen, value.toNat) ∈ _ by simp [Instr.symbols])), if_pos hv, BitVec.ofNat_toNat, BitVec.setWidth_eq]

theorem eob : Statement .eob := fun c rest hr hc _ => by
  simp [Instr.expect, encode, decode, readLitlen, symbol_litlen hr (of_cover hc (show (Alphabet.litlen, 256) ∈ _ by simp [Instr.symbols]))]

theorem copyMatch (ls lx os : BitVec 5) (ox : BitVec 13) : Statement (.copyMatch ls lx os ox) :=
  fun c rest hr hc hw => by
    simp only [Instr.wellFormed, Bool.and_eq_true, decide_eq_true_eq] at hw
    obtain ⟨⟨⟨h1, h2⟩, h3⟩, h4⟩ := hw
    have e1 : ¬ 257 + ls.toNat ≤ 255 := by omega
    have e2 : ¬ 257 + ls.toNat = 256 := by omega
    have e3 : 257 + ls.toNat ≤ 285 := by omega
    have e4 : ¬ 30 ≤ os.toNat := by omega
    simp only [Instr.expect, encode, decode, readLitlen, List.append_assoc,
      symbol_litlen hr (of_cover hc (show (Alphabet.litlen, 257 + ls.toNat) ∈ _ by simp [Instr.symbols])),
      if_neg e1, if_neg e2, if_pos e3, Nat.add_sub_cancel_left, bits_listSource, readMatchOffset,
      symbol_offset hr (of_cover hc (show (Alphabet.offset, os.toNat) ∈ _ by simp [Instr.symbols])), if_neg e4,
      Nat.mod_eq_of_lt h2, Nat.mod_eq_of_lt h4, BitVec.ofNat_toNat, BitVec.setWidth_eq]

theorem llReserved (symbol : BitVec 16) : Statement (.llReserved symbol) := fun c rest hr hc hw => by
  simp only [Instr.wellFormed, Bool.and_eq_true, decide_eq_true_eq] at hw
  simp only [Instr.expect, encode, decode, readLitlen,
    symbol_litlen hr (of_cover hc (show (Alphabet.litlen, symbol.toNat) ∈ _ by simp [Instr.symbols])), if_neg (show ¬ symbol.toNat ≤ 255 by omega),
    if_neg (show ¬ symbol.toNat = 256 by omega), if_neg (show ¬ symbol.toNat ≤ 285 by omega), BitVec.ofNat_toNat,
    BitVec.setWidth_eq]

theorem ofReserved (symbol : BitVec 16) : Statement (.ofReserved symbol) := fun c rest hr hc hw => by
  simp only [Instr.wellFormed, Bool.and_eq_true, decide_eq_true_eq] at hw
  simp only [Instr.expect, encode, decode, readOffset,
    symbol_offset hr (of_cover hc (show (Alphabet.offset, symbol.toNat) ∈ _ by simp [Instr.symbols])), if_pos hw.1, BitVec.ofNat_toNat, BitVec.setWidth_eq]

end EncodesBack

end Sys2Proof.Laws
end

