-- ==== Sys2Proof/Safety.lean ====
section
/-! DEFINITION. What counts as a safe run: the accesses a host may make, the buffers a command may
write, and the invariants a step keeps. -/

namespace Sys2Proof.Machine

/-! ## Host accesses and commands -/

/-- The access has a meaning: it is a whole-word access (U2) and nothing disturbs it (U4). -/
def HostOp.defined : HostOp → Bool
  | .write _ _ | .read _ | .poke _ _ | .hardReset => true
  | .narrowAccess | .contended _ => false

/-- The instruction is a command, not a stream element (rule R11). -/
def isCommand (i : Instr) : Bool := (encodeCommand i).isSome

/-- The commands that need no handle (rule R123). -/
def needsNoHandle : Instr → Bool
  | .nop | .create _ => true
  | _ => false

/-- A state with a result recorded: what every command ends with (rule R180). -/
def State.ended (s : State) (r : Result) : State := { s with port := { s.port with result := r } }

/-- What rule R450 fixes after a hard reset: every host port register reads 0, every scalar of rules
R38 to R78 is 0, and there is no handle. -/
def hardResetValues (t : State) : Prop :=
  (∀ index, t.portRead index = 0)
    ∧ t.handle = ⟨false, 0, false, 0, 0⟩
    ∧ (t.mf.src = 0 ∧ t.mf.len = 0 ∧ t.mf.base = 0 ∧ t.mf.pos = 0)
    ∧ (t.cp.tok.length = 0 ∧ t.cp.bstart = 0)
    ∧ (t.hb.nitems = 0 ∧ t.hb.nlit = 0 ∧ t.hb.ndist = 0 ∧ t.hb.npre = 0)
    ∧ t.bw = ⟨0, 0, 0, 0, 0, false⟩
    ∧ t.br = ⟨0, 0, 0⟩
    ∧ (t.dx.state = .blockHeader ∧ t.dx.bfinal = false ∧ t.dx.btype = 0 ∧ t.dx.err = .success
        ∧ t.dx.dst = 0 ∧ t.dx.cap = 0 ∧ t.dx.outpos = 0 ∧ t.dx.nlit = 0 ∧ t.dx.ndist = 0 ∧ t.dx.npre = 0)

/-! ## Command words (rules R121 to R124) -/

/-- The SEL value a command word of the instruction holds (rules R82, R123). -/
def selOf : Instr → Nat
  | .create level => level.toNat
  | .tread space | .twrite space => selOfSpace space
  | .hbTally x | .hbLens x | .hbCodes x | .dtBuild x | .dtDecode x => selOfAlphabet x
  | _ => 0

/-- The row of rule R122 as (mask, match). A stream element has none. -/
def opcodeRow : Instr → Option (Word × Word)
  | .nop => some (0xFFFFFFFF#32, 0x00#32)
  | .create _ => some (0xFFFFF0FF#32, 0x01#32)
  | .destroy => some (0xFFFFFFFF#32, 0x02#32)
  | .compress => some (0xFFFFFFFF#32, 0x03#32)
  | .bound => some (0xFFFFFFFF#32, 0x04#32)
  | .decompress => some (0xFFFFFFFF#32, 0x05#32)
  | .tread _ => some (0xFFFFF0FF#32, 0x06#32)
  | .twrite _ => some (0xFFFFF0FF#32, 0x07#32)
  | .mfInit => some (0xFFFFFFFF#32, 0x10#32)
  | .mfFind => some (0xFFFFFFFF#32, 0x11#32)
  | .mfSkip => some (0xFFFFFFFF#32, 0x12#32)
  | .mfSlide => some (0xFFFFFFFF#32, 0x13#32)
  | .hbClear => some (0xFFFFFFFF#32, 0x20#32)
  | .hbTally _ => some (0xFFFFF0FF#32, 0x21#32)
  | .hbMatch => some (0xFFFFFFFF#32, 0x22#32)
  | .hbLens _ => some (0xFFFFF0FF#32, 0x23#32)
  | .hbCodes _ => some (0xFFFFF0FF#32, 0x24#32)
  | .hbFixed => some (0xFFFFFFFF#32, 0x25#32)
  | .hbPrecode => some (0xFFFFFFFF#32, 0x26#32)
  | .dtBuild _ => some (0xFFFFF0FF#32, 0x30#32)
  | .dtDecode _ => some (0xFFFFF0FF#32, 0x31#32)
  | .bwInit => some (0xFFFFFFFF#32, 0x40#32)
  | .bwPut => some (0xFFFFFFFF#32, 0x41#32)
  | .bwAlign => some (0xFFFFFFFF#32, 0x42#32)
  | .bwFlush => some (0xFFFFFFFF#32, 0x43#32)
  | .bwBytes => some (0xFFFFFFFF#32, 0x44#32)
  | .brInit => some (0xFFFFFFFF#32, 0x50#32)
  | .brPeek => some (0xFFFFFFFF#32, 0x51#32)
  | .brDrop => some (0xFFFFFFFF#32, 0x52#32)
  | .brGet => some (0xFFFFFFFF#32, 0x53#32)
  | .brAlign => some (0xFFFFFFFF#32, 0x54#32)
  | .brBytes => some (0xFFFFFFFF#32, 0x55#32)
  | .dxInit => some (0xFFFFFFFF#32, 0x60#32)
  | .dxStep => some (0xFFFFFFFF#32, 0x61#32)
  | _ => none

/-- An OPC value rule R124 lists as illegal. -/
def illegalOpc (opc : Nat) : Prop :=
  (0x08 ≤ opc ∧ opc ≤ 0x0F) ∨ (0x14 ≤ opc ∧ opc ≤ 0x1F) ∨ (0x27 ≤ opc ∧ opc ≤ 0x2F)
    ∨ (0x32 ≤ opc ∧ opc ≤ 0x3F) ∨ (0x45 ≤ opc ∧ opc ≤ 0x4F) ∨ (0x56 ≤ opc ∧ opc ≤ 0x5F) ∨ 0x62 ≤ opc

/-- A SEL value outside rule R123 for a legal OPC: CREATE, TREAD and TWRITE take any, the alphabet
commands 0..2, the others 0. -/
def illegalSel (opc sel : Nat) : Prop :=
  if opc = 0x01 ∨ opc = 0x06 ∨ opc = 0x07 then False
  else if opc = 0x21 ∨ opc = 0x23 ∨ opc = 0x24 ∨ opc = 0x30 ∨ opc = 0x31 then 2 < sel
  else sel ≠ 0

/-- A word that spells no command (rule R124). -/
def illegalWord (w : Word) : Prop :=
  w.toNat / 4096 ≠ 0 ∨ illegalOpc (w.toNat % 256) ∨ illegalSel (w.toNat % 256) (w.toNat / 256 % 16)

/-! ## What an instruction may write (rule R180) -/

/-- The parts of the state an instruction can write. `a0..a3`, `a7`, CMD, the OPEN parameters, the
host's accesses and the last word read are not among them: no instruction writes those. -/
inductive Part where
  | a4
  | a5
  | a6
  | result
  | handle
  | mf
  | cp
  | freq
  | lens
  | code
  | hb
  | dtab
  | bw
  | br
  | dx
  | mem
  | draws
deriving DecidableEq, Repr

/-- The part is the same in two states; for memory, every byte reads the same. -/
def Part.same (p : Part) (s t : State) : Prop :=
  match p with
  | .a4 => t.port.a4 = s.port.a4
  | .a5 => t.port.a5 = s.port.a5
  | .a6 => t.port.a6 = s.port.a6
  | .result => t.port.result = s.port.result
  | .handle => t.handle = s.handle
  | .mf => t.mf = s.mf
  | .cp => t.cp = s.cp
  | .freq => t.freq = s.freq
  | .lens => t.lens = s.lens
  | .code => t.code = s.code
  | .hb => t.hb = s.hb
  | .dtab => t.dtab = s.dtab
  | .bw => t.bw = s.bw
  | .br => t.br = s.br
  | .dx => t.dx = s.dx
  | .mem => ∀ addr, t.mem.read addr = s.mem.read addr
  | .draws => t.draws = s.draws

/-- The part a table space is in (rule R82). -/
def spacePart : Space → List Part
  | .head | .next => [.mf]
  | .freqLL | .freqOF | .freqPC => [.freq]
  | .lensLL | .lensOF | .lensPC => [.lens]
  | .codeLL | .codeOF | .codePC => [.code]
  | .dtabLL | .dtabOF | .dtabPC => [.dtab]
  | .items => [.hb]
  | .misc => []

/-- The parts each instruction's rule names as written. -/
def writes : Instr → List Part
  | .nop => [.result]
  | .create _ => [.result, .handle, .mf, .cp, .freq, .lens, .code, .hb, .dtab, .bw, .br, .dx]
  | .destroy => [.result, .handle, .mf, .cp, .freq, .lens, .code, .hb, .dtab, .bw, .br, .dx, .draws]
  | .compress => [.result, .a5, .mf, .cp, .freq, .lens, .code, .hb, .bw, .mem, .draws]
  | .bound => [.result, .a4]
  | .decompress => [.result, .a5, .a6, .lens, .dtab, .br, .dx, .mem, .draws]
  | .tread _ => [.result, .a4]
  | .twrite space => .result :: spacePart space
  | .mfInit | .mfSkip | .mfSlide => [.result, .mf]
  | .mfFind => [.result, .mf, .a4, .a5]
  | .hbClear | .hbTally _ => [.result, .freq]
  | .hbMatch => [.result, .freq, .a4, .a5]
  | .hbLens _ => [.result, .lens]
  | .hbCodes _ => [.result, .code]
  | .hbFixed => [.result, .lens, .code]
  | .hbPrecode => [.result, .freq, .lens, .code, .hb]
  | .dtBuild _ => [.result, .dtab]
  | .dtDecode _ => [.result, .br, .a4]
  | .bwInit => [.result, .bw]
  | .bwPut | .bwAlign | .bwBytes => [.result, .bw, .mem]
  | .bwFlush => [.result, .bw, .mem, .a5]
  | .brInit | .brDrop | .brAlign => [.result, .br]
  | .brPeek => [.result, .a4]
  | .brGet => [.result, .br, .a4]
  | .brBytes => [.result, .br, .mem]
  | .dxInit => [.result, .dx]
  | .dxStep => [.result, .a4, .lens, .dtab, .br, .dx, .mem]
  | .blockStored _ | .blockFixed _ | .blockDynamic _ | .blockReserved _ => [.dx]
  | .storedBody _ _ => [.br, .dx, .mem]
  | .dynamicHeader _ _ _ => [.lens, .dtab, .br, .dx]
  | .preLen _ | .preRep _ | .preZrep3 _ | .preZrep11 _ => [.dx]
  | .lit _ | .copyMatch _ _ _ _ => [.dx, .mem]
  | .eob | .llReserved _ | .ofReserved _ => [.dx]

/-! ## Which results a command can end with (rules R411 to R415) -/

/-- The operands rule R415 lists under BAD_ARG for the command. -/
def badOperands (i : Instr) (s : State) : Prop :=
  match i with
  | .compress | .decompress =>
    wordSpan < s.port.a0.toNat + s.port.a1.toNat ∨ wordSpan < s.port.a2.toNat + s.port.a3.toNat
      ∨ (s.port.a1 ≠ 0 ∧ s.port.a3 ≠ 0 ∧ s.port.a2.toNat < s.port.a0.toNat + s.port.a1.toNat
          ∧ s.port.a0.toNat < s.port.a2.toNat + s.port.a3.toNat)
  | .mfInit | .bwInit | .brInit | .dxInit => wordSpan < s.port.a0.toNat + s.port.a1.toNat
  | .mfFind => s.mf.len.toNat ≤ s.mf.base.toNat + s.mf.pos.toNat
  | .mfSkip => s.mf.len.toNat < s.mf.base.toNat + s.mf.pos.toNat + s.port.a0.toNat
  | .mfSlide => s.mf.pos ≠ 32768
  | .hbTally x => x.nsym ≤ s.port.a0.toNat
  | .hbMatch => s.port.a0.toNat < 3 ∨ 258 < s.port.a0.toNat ∨ s.port.a1.toNat < 1 ∨ 32768 < s.port.a1.toNat
  | .bwPut => 32 < s.port.a1.toNat ∨ (s.port.a1.toNat < 32 ∧ 2 ^ s.port.a1.toNat ≤ s.port.a0.toNat)
  | .bwBytes =>
    wordSpan < s.port.a0.toNat + s.port.a1.toNat
      ∨ (s.port.a1 ≠ 0 ∧ s.bw.cap ≠ 0 ∧ s.bw.dst.toNat < s.port.a0.toNat + s.port.a1.toNat
          ∧ s.port.a0.toNat < s.bw.dst.toNat + s.bw.cap.toNat)
      ∨ s.bw.nbits ≠ 0
  | .brPeek | .brDrop | .brGet => 32 < s.port.a0.toNat
  | .brBytes =>
    wordSpan < s.port.a0.toNat + s.port.a1.toNat
      ∨ (s.port.a1 ≠ 0 ∧ s.br.len ≠ 0 ∧ s.br.src.toNat < s.port.a0.toNat + s.port.a1.toNat
          ∧ s.port.a0.toNat < s.br.src.toNat + s.br.len.toNat)
      ∨ s.br.bitpos.toNat % 8 ≠ 0
  | .tread space => spaceSize space ≤ s.port.a0.toNat
  | .twrite space =>
    space = .misc ∨ spaceSize space ≤ s.port.a0.toNat ∨ spaceAccepts space s.port.a1 = false
  | _ => False

/-- The results other than NO_HANDLE, BAD_CMD and BAD_ARG a command can end with, as rules R411 to
R414 list what each code is reached from. -/
def mayEnd (i : Instr) (r : Result) : Prop :=
  match r with
  | .success => ∀ level, i = .create level → level.toNat ≤ 9
  | .badData =>
    i = .decompress ∨ i = .dxStep ∨ i = .brDrop ∨ i = .brGet ∨ (∃ x, i = .dtBuild x) ∨ ∃ x, i = .dtDecode x
  | .insufficientSpace =>
    i = .decompress ∨ i = .dxStep ∨ i = .compress ∨ i = .bwPut ∨ i = .bwAlign ∨ i = .bwFlush ∨ i = .bwBytes
  | .shortInput => i = .decompress ∨ i = .dxStep ∨ i = .brBytes
  | .createFailed => ∃ level : BitVec 4, 9 < level.toNat ∧ i = .create level
  | .noHandle | .badCmd | .badArg => False

/-! ## The stream -/

/-- A reader `n` bits further on. -/
def Reader.past (r : Reader) (n : Nat) : Reader := { r with bitpos := BitVec.ofNat 64 (r.bitpos.toNat + n) }

/-- The input bit sequence from the reader's position on begins with the given bits (rule R94). -/
def Reader.holds (r : Reader) (m : Memory) (bs : List Bool) : Prop :=
  ∀ k, k < bs.length → r.bit m (r.bitpos.toNat + k) = bs.getD k false

/-- What the machine expects next in a state, where it reads an element (rules R143, R360). -/
def DxState.expects : DxState → Option Expect
  | .blockHeader => some .header
  | .buildTables => some .dynamic
  | .decodeLoop => some .litlen
  | .copyStored => some .stored
  | .done => none
  | .error => none

/-- Where the next element starts: for a stored block's body, at the next byte boundary (rules R71, R132). -/
def elementStart (s : State) : Reader :=
  if s.dx.state = .copyStored then { s.br with bitpos := BitVec.ofNat 64 ((s.br.bitpos.toNat + 7) / 8 * 8) } else s.br

/-- The next bits of the input, within the overread bound, are those of the element `i`, one that may
stand there, in the codes `c` (rules R143, R308, R344). -/
def elementNext (s : State) (c : Codes) (e : Expect) (i : Instr) : Prop :=
  i.expect = e ∧ c.cover i = true ∧ i.wellFormed = true ∧ (elementStart s).holds s.mem (encode c i)
    ∧ (elementStart s).bitpos.toNat + (encode c i).length ≤ 8 * s.br.len.toNat + 64

/-- A state whose decompressor stopped with BAD_DATA, its reader at `r`, as DX.STEP reports it (rules R362, R377). -/
def stoppedAt (s : State) (r : Reader) : State :=
  State.setA4 { s with br := r, dx := { s.dx with state := .error, err := .badData } } 5

/-- The decode tables in force are those of the given code lengths (rule R301). -/
def tablesBuiltFrom (s : State) (c : Codes) : Prop :=
  c.litlen.length = 288 ∧ c.offset.length = 32
    ∧ buildTable .litlen c.litlen = some s.dtab.litlen ∧ buildTable .offset c.offset = some s.dtab.offset

/-! ## The match-finder (rules R44, R206) -/

/-- How far the bytes at candidate `v` agree with those at position `cur`, at most `maxLen` (rule R206). -/
def MatchFinder.agree (mf : MatchFinder) (m : Memory) (cur maxLen : Nat) (v : BitVec 16) : Nat :=
  mf.matchLen m maxLen ((mf.base.toNat : Int) + v.toInt).toNat (mf.base.toNat + cur)

/-- The candidates a search visits, in the order it visits them: along the chain while they are usable,
`depth` at most, and none after the first that agrees in three bytes and in `nice` (rule R206). -/
def MatchFinder.visited (mf : MatchFinder) (m : Memory) (cur maxLen nice : Nat) :
    (depth : Nat) → (node : BitVec 16) → List (BitVec 16)
  | 0, _ => []
  | depth + 1, node =>
    if inWindow mf.base.toNat node cur then
      node :: (if 3 ≤ mf.agree m cur maxLen node ∧ nice ≤ mf.agree m cur maxLen node then []
        else MatchFinder.visited mf m cur maxLen nice depth (mf.next.get (nextSlot node)))
    else []

/-- Slots name earlier positions, and along a chain positions strictly decrease (rule R44 (b), (d)). -/
def MatchFinder.ordered (mf : MatchFinder) : Prop :=
  mf.pos.toNat ≤ windowSize
    ∧ (∀ h, h < windowSize → (mf.head.get h).toInt < mf.pos.toNat ∧ (mf.next.get h).toInt < mf.pos.toNat)
    ∧ ∀ v : BitVec 16, (mf.pos.toNat : Int) - 32768 < v.toInt → v.toInt < mf.pos.toNat →
        (mf.next.get (nextSlot v)).toInt < v.toInt

/-! ## Tokens (rules R48, R104, R139, R141, R236, R237) -/

/-- What the tokens of a block stand for, after the bytes `acc`: a literal is its byte, a match repeats the
bytes `off` back from where it begins; `none` where a match reaches before the first byte (rules R48,
R104, R239). -/
def expandTokens : (acc : List Byte) → List Token → Option (List Byte)
  | acc, [] => some acc
  | acc, .lit v :: r => expandTokens (acc ++ [v]) r
  | acc, .copy len off :: r =>
    if off.toNat = 0 ∨ acc.length < off.toNat then none
    else
      expandTokens
        (acc ++ (List.range len.toNat).map fun k => acc.getD (acc.length - off.toNat + k % off.toNat) 0) r

/-! ## The Huffman builder (rules R274, R281, R286) -/

/-- The symbol is one the alphabet may use, and it was counted (rule R274). -/
def counted (s : State) (x : Alphabet) (sym : Nat) : Prop := sym < x.nsym ∧ (s.freq.table x).get sym ≠ 0

/-- The first codeword of length `l`: the codewords of every shorter length, doubled up to it (rule R281). -/
def firstOfLength (lens : List Nat) (l : Nat) : Nat :=
  ((List.range l).map fun k => if k = 0 then 0 else lens.count k * 2 ^ (l - k)).sum

/-- What a list of items stands for, after the lengths `acc`; `none` where an item 16 has no length
before it to repeat (rules R136, R137, R286, R368). -/
def expandItems : (acc : List Nat) → (items : List (Nat × Nat)) → Option (List Nat)
  | acc, [] => some acc
  | acc, (v, e) :: r =>
    if v = 16 then
      match acc.getLast? with
      | none => none
      | some w => expandItems (acc ++ List.replicate (3 + e) w) r
    else if v = 17 then expandItems (acc ++ List.replicate (3 + e) 0) r
    else if v = 18 then expandItems (acc ++ List.replicate (11 + e) 0) r
    else expandItems (acc ++ [v]) r

/-- An item a dynamic header can hold (rules R55, R136). -/
def itemLegal (it : Nat × Nat) : Prop := it.1 ≤ 18 ∧ it.2 < 2 ^ preExtra it.1

/-- The length set is accepted (rules R302, R303): no length above the limit, and the code complete, or
without any codeword, or with one codeword of one bit. -/
def acceptedLengths (x : Alphabet) (lens : List Nat) : Prop :=
  (∀ l ∈ lens, l ≤ x.maxLen)
    ∧ (kraft x.maxLen lens = 2 ^ x.maxLen ∨ (∀ l ∈ lens, l = 0)
        ∨ (lens.countP (fun l => decide (l ≠ 0)) = 1 ∧ kraft x.maxLen lens = 2 ^ (x.maxLen - 1)))

/-! ## The writer's output (rules R95, R322 to R326) -/

/-- How many bytes a writer command commits or drops (rules R322, R324 to R326). -/
def bytesSent (i : Instr) (s : State) : Nat :=
  match i with
  | .bwPut => (s.bw.nbits.toNat + s.port.a1.toNat) / 8
  | .bwAlign | .bwFlush => if s.bw.nbits = 0 then 0 else 1
  | .bwBytes => s.port.a1.toNat
  | _ => 0

/-- The output bit sequence: the bits of the bytes committed, then the bits still held. -/
def writtenBits (s : State) : List Bool :=
  (s.mem.bytes s.bw.dst 0 s.bw.nbytes.toNat).flatMap (fun b => bitsOf 8 b.toNat)
    ++ bitsOf s.bw.nbits.toNat s.bw.acc.toNat

/-- What follows a block in a state: the next header, or after the final block DONE, or the error of a
stream that used implicit bits (rules R372, R376). -/
def afterBlock (s : State) : DxState × Result :=
  if s.dx.bfinal = false then (.blockHeader, s.dx.err)
  else if 8 * s.br.len.toNat < s.br.bitpos.toNat then
    (.error, overreadResult s.cfg)
  else (.done, s.dx.err)

/-- The lengths a list of length-sequence elements stands for, after the lengths `acc`; `none` where an
element is none, or repeats a length that is not there (rules R136, R368). -/
def lengthsOf : (acc : List (BitVec 4)) → List Instr → Option (List (BitVec 4))
  | acc, [] => some acc
  | acc, .preLen value :: r => lengthsOf (acc ++ [value]) r
  | acc, .preRep extra :: r =>
    match acc.getLast? with
    | none => none
    | some v => lengthsOf (acc ++ List.replicate (3 + extra.toNat) v) r
  | acc, .preZrep3 extra :: r => lengthsOf (acc ++ List.replicate (3 + extra.toNat) 0) r
  | acc, .preZrep11 extra :: r => lengthsOf (acc ++ List.replicate (11 + extra.toNat) 0) r
  | _, _ :: _ => none

/-- The 3-bit precode lengths of a dynamic header, in PERM order (rule R134). -/
def precodeBits (npre : Nat) (pc : List Nat) : List Bool :=
  (precodeOrder.take npre).flatMap fun s => bitsOf 3 (pc.getD s 0)

/-! ## Buffers -/

/-- `addr` is one of the `len` bytes from `base` on. -/
def inBuffer (base : Word) (len : Nat) (addr : Word) : Prop :=
  base.toNat ≤ addr.toNat ∧ addr.toNat < base.toNat + len

/-- Two memories read the same in a buffer. -/
def agreeOn (m m' : Memory) (base : Word) (len : Nat) : Prop :=
  ∀ addr, inBuffer base len addr → m'.read addr = m.read addr

/-- The input buffer a unit command reads, as (address, length) (rule R91). -/
def inputBuffer (i : Instr) (s : State) : Word × Nat :=
  match i with
  | .mfFind | .mfSkip => (s.mf.src, s.mf.len.toNat)
  | .brPeek | .brDrop | .brGet | .brAlign | .brBytes | .dtDecode _ | .dxStep => (s.br.src, s.br.len.toNat)
  | .bwBytes => (s.port.a0, s.port.a1.toNat)
  | _ => (0, 0)

/-- The part of its destination buffer a unit command reads back: the output so far (rule R91). -/
def historyBuffer (i : Instr) (s : State) : Word × Nat :=
  match i with
  | .dxStep => (s.dx.dst, s.dx.outpos.toNat)
  | _ => (0, 0)

/-- The destination buffer an instruction may write, as (address, capacity) (rule R91). -/
def destination (i : Instr) (s : State) : Word × Nat :=
  match i with
  | .compress | .decompress => (s.port.a2, s.port.a3.toNat)
  | .bwPut | .bwAlign | .bwFlush | .bwBytes => (s.bw.dst, s.bw.cap.toNat)
  | .brBytes => (s.port.a0, s.port.a1.toNat)
  | .dxStep | .lit _ | .copyMatch _ _ _ _ | .storedBody _ _ => (s.dx.dst, s.dx.cap.toNat)
  | _ => (0, 0)

/-- The bound destination buffers lie in the address space, and the output position is in its buffer (rules R77, R186). -/
def buffersFit (s : State) : Prop :=
  s.bw.dst.toNat + s.bw.cap.toNat ≤ wordSpan ∧ s.dx.dst.toNat + s.dx.cap.toNat ≤ wordSpan
    ∧ s.dx.outpos.toNat ≤ s.dx.cap.toNat

/-! ## Invariants (rules R38, R41, R44, R55, R65, R66, R71, R75 to R78) -/

/-- Memory is in its canonical form. -/
def memoryOk (s : State) : Prop := Memory.wf s.mem = true

/-- Every table is in its canonical form and lists no index outside its range. -/
def tablesOk (s : State) : Prop :=
  Slots.wf s.mf.head = true ∧ Slots.wf s.mf.next = true
    ∧ Trio.wf Alphabet.slots s.freq = true ∧ Trio.wf Alphabet.slots s.lens = true
    ∧ Trio.wf Alphabet.slots s.code = true ∧ Trio.wf Alphabet.tableSize s.dtab = true
    ∧ Table.wf 316 s.hb.items = true

/-- The level of a live handle is legal and the parse parameters are its row (rule R38). -/
def handleOk (h : Handle) : Prop :=
  h.alive = true → h.level.toNat ≤ levelMax ∧ (⟨h.lazy, h.depth, h.nice⟩ : LevelRow) = levelRow h.level

/-- The match-finder's position (rules R41, R44 (a)). -/
def matchFinderOk (mf : MatchFinder) : Prop :=
  mf.pos.toNat ≤ windowSize ∧ mf.base.toNat % windowSize = 0 ∧ mf.cur ≤ mf.len.toNat
    ∧ mf.src.toNat + mf.len.toNat ≤ wordSpan

/-- The writer between commands (rules R65, R66, R186, R327). -/
def writerOk (w : Writer) : Prop :=
  w.nbits.toNat < 8 ∧ w.acc.toNat < 2 ^ w.nbits.toNat ∧ w.nbytes.toNat ≤ w.cap.toNat
    ∧ (w.ovf = true → w.nbytes = w.cap) ∧ w.dst.toNat + w.cap.toNat ≤ wordSpan

/-- The reader (rules R71, R186, R344). -/
def readerOk (r : Reader) : Prop :=
  r.bitpos.toNat ≤ 8 * r.len.toNat + 64 ∧ r.src.toNat + r.len.toNat ≤ wordSpan

/-- The decompressor between steps (rules R75 to R77, R186). -/
def decompOk (d : Decomp) : Prop :=
  d.outpos.toNat ≤ d.cap.toNat ∧ d.dst.toNat + d.cap.toNat ≤ wordSpan
    ∧ (d.state = .error → d.err = .badData ∨ d.err = .insufficientSpace ∨ d.err = .shortInput)
    ∧ (d.state ≠ .error → d.err = .success)
    ∧ (d.state = .buildTables → d.btype = 1 ∨ d.btype = 2)
    ∧ d.seq = []

/-- The symbol stream fits its buffer, and a match token's length and offset are in their ranges (rule R48). -/
def tokensOk (c : Sequencer) : Prop :=
  c.tok.length ≤ tokensMax
    ∧ ∀ len off, .copy len off ∈ c.tok → 3 ≤ len.toNat ∧ len.toNat ≤ 258 ∧ 1 ≤ off.toNat ∧ off.toNat ≤ 32767

/-- The declared counts of a live handle (rules R55, R78). -/
def countsOk (s : State) : Prop :=
  s.handle.alive = true →
    (257 ≤ s.hb.nlit.toNat ∧ s.hb.nlit.toNat ≤ 286) ∧ (1 ≤ s.hb.ndist.toNat ∧ s.hb.ndist.toNat ≤ 30)
      ∧ (4 ≤ s.hb.npre.toNat ∧ s.hb.npre.toNat ≤ 19) ∧ s.hb.nitems.toNat ≤ 316
      ∧ (257 ≤ s.dx.nlit.toNat ∧ s.dx.nlit.toNat ≤ 288) ∧ (1 ≤ s.dx.ndist.toNat ∧ s.dx.ndist.toNat ≤ 32)
      ∧ (4 ≤ s.dx.npre.toNat ∧ s.dx.npre.toNat ≤ 19)

end Sys2Proof.Machine
end

