-- ==== Sys2Proof/Certificates/Slice0/Obligations.lean ====
section
/-! DEFINITION. The statements for the provers. `OBLIGATIONS.json` gives each its title, its basis and
the rules it rests on. A witness of every hypothesis stands in `Sys2Proof/Tests/Slice0.lean`. -/

open Sys2Proof Sys2Proof.Machine

/-! ## Encodings -/

/-- Rule R122: a word spells a command when `w & mask = match` for the command's row and the word's SEL
field is the one the command carries. -/
def Obligations.OpcodeMapMatchesMasks : Prop :=
  ∀ (w : Word) (i : Instr), decodeCommand w = .ok i ↔
    ∃ mask code, opcodeRow i = some (mask, code) ∧ w &&& mask = code ∧ w.toNat / 256 % 16 = selOf i

/-- Rules R121, R124: a CMD write of a word in the ranges rule R124 lists answers BAD_CMD and changes
nothing else but CMD; every other word spells a command, so the decoder is total. That the host's next
access is the CMD write stands in the model's own field `host` (log entry 4). -/
def Obligations.IllegalWordsAnswerBadCmd : Prop :=
  ∀ (s : State) (w : Word) (rest : List HostOp), s.host = .write cmdIndex w :: rest →
    (illegalWord w → step s = .next ((State.latchCommand { s with host := rest } w).ended .badCmd))
      ∧ (¬ illegalWord w → ∃ i, decodeCommand w = .ok i)

/-- Rules R96, R122, R131 to R141, R143: the bits of every well-formed instruction, of all 49
constructors with every operand their encoding admits, decode to it, whatever bits follow and whatever
codes are in force that have a codeword for each of its symbols. -/
def Obligations.EveryInstructionDecodesBack : Prop := ∀ i, Sys2Proof.Laws.EncodesBack.Statement i

/-- Words written out by hand from rules R122, R131, R134, R136, R138 to R141 decode to what they spell:
eight command words, a block header, a dynamic header, two elements of a length sequence (in a precode
that gives 18 the codeword 0, 17 the codeword 10, 1 and 16 the codewords 110 and 111), a literal and a
match. -/
def Obligations.HandWrittenWordsDecode : Prop :=
  decodeCommand 0x00000601#32 = .ok (.create 6)
    ∧ decodeCommand 0x00000E06#32 = .ok (.tread .items)
    ∧ decodeCommand 0x00000011#32 = .ok .mfFind
    ∧ decodeCommand 0x00000223#32 = .ok (.hbLens .precode)
    ∧ decodeCommand 0x00000130#32 = .ok (.dtBuild .offset)
    ∧ decodeCommand 0x00000041#32 = .ok .bwPut
    ∧ decodeCommand 0x00000053#32 = .ok .brGet
    ∧ decodeCommand 0x00000061#32 = .ok .dxStep
    ∧ decode Codes.fixed .header [true, true, false] = ([], .ok (.blockFixed true))
    ∧ decode Codes.fixed .litlen [true, false, false, true, false, false, false, true] = ([], .ok (.lit 0x61))
    ∧ decode Codes.fixed .litlen [false, false, false, false, false, false, true, false, false, false, false, false]
        = ([], .ok (.copyMatch 0 0 0 0))
    ∧ decode Codes.fixed .dynamic [true, true, true, false, false, false, true, false, false, false, false, true, true, true]
        = ([], .ok (.dynamicHeader 7 2 14))
    ∧ (let precode : Codes := ⟨[], [], [0, 3, 0, 0, 0, 0, 0, 0, 0, 0, 0, 0, 0, 0, 0, 0, 3, 2, 1]⟩
       decode precode .precode [true, true, true, false, true] = ([], .ok (.preRep 2))
         ∧ decode precode .precode [true, false, true, false, true] = ([], .ok (.preZrep3 5)))

/-! ## Steps -/

/-- Rules R34, R100: a CMD write of a word that spells a command stores the word and executes exactly
that command, to its end, in one step. The host's accesses stand in the model's own field `host` (log
entry 4). -/
def Obligations.StepRunsTheDecodedCommand : Prop :=
  ∀ (s : State) (w : Word) (i : Instr) (rest : List HostOp), s.host = .write cmdIndex w :: rest →
    decodeCommand w = .ok i → step s = exec i (State.latchCommand { s with host := rest } w)

/-- Rules R143, R308, R362, R373, R374, R377: where the input, from the place the machine reads next,
holds the bits of an element its state expects, in the codes its tables were built from and within the
overread bound, DX.STEP consumes those bits, executes exactly that element, and reports the state it
leads to. Where it holds none (no codeword comes next, or the bound is passed on the way) DX.STEP ends
in ERROR with BAD_DATA; and so it does, with the bits consumed, where an offset symbol 30 or 31 follows a
length symbol. -/
def Obligations.DxStepRunsTheFetchedElement : Prop :=
  ∀ (s : State) (c : Codes) (e : Expect), s.handle.alive = true → readerOk s.br →
    s.dx.state.expects = some e → (s.dx.state = .buildTables → s.dx.btype = 2) →
    (s.dx.state = .decodeLoop → tablesBuiltFrom s c) →
    (∀ i, elementNext s c e i →
        ∃ t, exec i { s with br := (elementStart s).past (encode c i).length } = .next t
          ∧ exec .dxStep s = .next ((t.setA4 t.dx.state.code).ended t.dx.verdict))
      ∧ ((∀ i, ¬ elementNext s c e i) → ∃ r, exec .dxStep s = .next ((stoppedAt s r).ended .badData))
      ∧ ∀ (ls : BitVec 5) (lx symbol : Nat), s.dx.state = .decodeLoop → ls.toNat ≤ 28 → 30 ≤ symbol →
          c.litlen.getD (257 + ls.toNat) 0 ≠ 0 → c.offset.getD symbol 0 ≠ 0 →
          let bits := codewordBits c.litlen (257 + ls.toNat) ++ (bitsOf (lenExtra ls.toNat) lx ++ codewordBits c.offset symbol)
          s.br.holds s.mem bits → s.br.bitpos.toNat + bits.length ≤ 8 * s.br.len.toNat + 64 →
          exec .dxStep s = .next ((stoppedAt s (s.br.past bits.length)).ended .badData)

/-- Rules R33 to R36, R90: a host write to a word index other than CMD changes `a0..a7` at that index and
nothing else (STATUS and the reserved indices ignore it); a read answers the register; a host write of
a byte of buffer memory changes that byte. The accesses and the word read stand in the model's own
fields `host` and `rdata` (log entry 4). -/
def Obligations.HostAccessesReadAndWriteThePort : Prop :=
  ∀ (s : State) (index : Nat) (w addr : Word) (b : Byte) (rest : List HostOp),
    (s.host = .write index w :: rest → index ≠ cmdIndex →
        ∃ t, step s = .next t ∧ t = { s with host := rest, port := t.port } ∧ t.port.result = s.port.result
          ∧ ∀ j, t.portRead j = if j = index ∧ index < 8 then w else s.portRead j)
      ∧ (s.host = .read index :: rest → step s = .next { s with host := rest, rdata := s.portRead index })
      ∧ (s.host = .poke addr b :: rest →
          ∃ t, step s = .next t ∧ t = { s with host := rest, mem := t.mem }
            ∧ ∀ a, t.mem.read a = if a = addr then b else s.mem.read a)

/-- Rules R33 to R36: which register each word index reads, and the fields of STATUS, each a live copy
but RESULT, the reserved bits and the reserved indices zero. -/
def Obligations.PortRegistersAndStatusFields : Prop :=
  ∀ s : State,
    (List.range 10).map s.portRead
        = [s.port.a0, s.port.a1, s.port.a2, s.port.a3, s.port.a4, s.port.a5, s.port.a6, s.port.a7, s.port.cmd, s.status]
      ∧ (∀ j, 10 ≤ j → s.portRead j = 0)
      ∧ s.status.toNat % 16 = s.port.result.code
      ∧ s.status.toNat / 16 % 8 = s.dx.state.code
      ∧ s.status.toNat / 128 % 2 = s.handle.alive.toNat
      ∧ s.status.toNat / 256 % 16 = s.handle.level.toNat
      ∧ s.status.toNat / 4096 % 2 = s.bw.ovf.toNat
      ∧ s.status.toNat / 8192 % 2 = s.dx.bfinal.toNat
      ∧ s.status.toNat / 16384 = 0

/-- Rule R450: what a hard reset between commands leaves, and that it does not touch buffer memory. The
same values stand in the state after reset, with no access pending (log entry 4), and every invariant
stated below holds there. -/
def Obligations.HardResetClearsScalars : Prop :=
  (∀ (s : State) (rest : List HostOp), s.host = .hardReset :: rest →
      ∃ t, step s = .next t ∧ hardResetValues t ∧ t.mem = s.mem ∧ t.cfg = s.cfg ∧ t.host = rest)
    ∧ hardResetValues State.reset ∧ State.reset.host = []
    ∧ memoryOk State.reset ∧ tablesOk State.reset ∧ writerOk State.reset.bw ∧ readerOk State.reset.br
    ∧ decompOk State.reset.dx ∧ tokensOk State.reset.cp ∧ matchFinderOk State.reset.mf ∧ handleOk State.reset.handle
    ∧ countsOk State.reset ∧ buffersFit State.reset

/-- Rules R93, R99, R100, R102 (U2, U4): every access the spec defines leads to a next state, which waits
for the access after it; the two it gives no meaning stop under their own names; with no access the
engine stays as it is. The accesses are the model's own field `host`, and the two stops its choice (log
entry 4). -/
def Obligations.EveryDefinedAccessCompletes : Prop :=
  ∀ (s : State) (op : HostOp) (rest : List HostOp),
    (s.host = op :: rest → op.defined = true → ∃ t, step s = .next t ∧ t.host = rest)
      ∧ (s.host = .narrowAccess :: rest → step s = .refused .narrowPortAccess)
      ∧ (∀ w, s.host = .contended w :: rest → step s = .fault .interference)
      ∧ (s.host = [] → step s = .next s)

/-! ## Rules common to every instruction -/

/-- Rules R181, R185: without a handle every command but NOP and CREATE ends with NO_HANDLE and changes
nothing else; NOP ends with SUCCESS and changes nothing else, with or without one. -/
def Obligations.NoHandleAndNopChangeNothing : Prop :=
  ∀ s : State,
    (∀ i, isCommand i = true → needsNoHandle i = false → s.handle.alive = false →
        exec i s = .next (s.ended .noHandle))
      ∧ exec .nop s = .next (s.ended .success)

/-- Rules R210, R411 to R415, R418: a command ends with BAD_ARG where rule R415's table says so, and then
changes nothing else; elsewhere it ends with one of the other results only where its list of causes
reaches. -/
def Obligations.ResultsExactlyWhereListed : Prop :=
  ∀ (i : Instr) (s : State), isCommand i = true → s.handle.alive = true → decompOk s.dx → readerOk s.br →
    (badOperands i s → exec i s = .next (s.ended .badArg))
      ∧ (¬ badOperands i s → ∀ t, exec i s = .next t → mayEnd i t.port.result)

/-- Rules R33, R180, R418: the frame of all 49 instructions. What an instruction's rule does not name
keeps its value, every byte of memory included; `a0..a3`, `a7`, CMD, the OPEN parameters and the
model's own `host` and `rdata` (log entry 4) no instruction writes. That CP.tok keeps its value between
commands is the model's choice (log entry 24). -/
def Obligations.InstructionsWriteOnlyTheirParts : Prop :=
  ∀ (i : Instr) (s t : State), exec i s = .next t →
    (∀ p, p ∉ writes i → p.same s t)
      ∧ t.port.a0 = s.port.a0 ∧ t.port.a1 = s.port.a1 ∧ t.port.a2 = s.port.a2 ∧ t.port.a3 = s.port.a3
      ∧ t.port.a7 = s.port.a7 ∧ t.port.cmd = s.port.cmd ∧ t.cfg = s.cfg ∧ t.host = s.host ∧ t.rdata = s.rdata

/-- Rules R40, R64, R70, R71, R77, R192: a binding changes only where a buffer is bound; elsewhere the
reader and the output only go forward. -/
def Obligations.BindingsStandAndStreamsGoForward : Prop :=
  ∀ (i : Instr) (s t : State), exec i s = .next t → i ≠ .destroy → (∀ level, i ≠ .create level) →
    (i ≠ .mfInit → i ≠ .compress → t.mf.src = s.mf.src ∧ t.mf.len = s.mf.len)
      ∧ (i ≠ .bwInit → i ≠ .compress → t.bw.dst = s.bw.dst ∧ t.bw.cap = s.bw.cap
          ∧ s.bw.nbytes.toNat ≤ t.bw.nbytes.toNat)
      ∧ (i ≠ .brInit → i ≠ .decompress → t.br.src = s.br.src ∧ t.br.len = s.br.len
          ∧ s.br.bitpos.toNat ≤ t.br.bitpos.toNat)
      ∧ (i ≠ .dxInit → i ≠ .decompress → s.dx.outpos.toNat ≤ s.dx.cap.toNat →
          t.dx.dst = s.dx.dst ∧ t.dx.cap = s.dx.cap ∧ s.dx.outpos.toNat ≤ t.dx.outpos.toNat)

/-- Rules R91, R92: whatever the input and the tables hold, no byte outside the destination buffer of the
instruction changes. -/
def Obligations.NoWriteOutsideTheDestination : Prop :=
  ∀ (i : Instr) (s t : State), buffersFit s → exec i s = .next t →
    ∀ addr, ¬ inBuffer (destination i s).1 (destination i s).2 addr → t.mem.read addr = s.mem.read addr

/-- Rules R91, R92, R208: a unit command that reads buffer memory reads nothing outside its input buffer
and, for DX.STEP, the output so far: with any other bytes elsewhere it does the same. One that writes
leaves each byte either the same under both memories or untouched under both. -/
def Obligations.UnitsReadOnlyTheirInput : Prop :=
  ∀ (i : Instr) (s t : State) (m : Memory), agreeOn s.mem m (inputBuffer i s).1 (inputBuffer i s).2 → exec i s = .next t →
    ((i = .mfFind ∨ i = .mfSkip ∨ i = .brPeek ∨ i = .brDrop ∨ i = .brGet ∨ i = .brAlign ∨ ∃ x, i = .dtDecode x) →
        matchFinderOk s.mf → readerOk s.br → exec i { s with mem := m } = .next { t with mem := m })
      ∧ ((i = .brBytes ∨ i = .bwBytes ∨ i = .dxStep) → readerOk s.br → decompOk s.dx →
          agreeOn s.mem m (historyBuffer i s).1 (historyBuffer i s).2 →
          ∃ m', exec i { s with mem := m } = .next { t with mem := m' }
            ∧ ∀ addr, m'.read addr = t.mem.read addr
                ∨ (m'.read addr = m.read addr ∧ t.mem.read addr = s.mem.read addr))

/-! ## SYS -/

/-- Rules R182, R414, R451: a level the engine implements gives a fresh handle with every item of state
at its value; another ends with CREATE_FAILED and no handle. `a0..a7` keep their values. -/
def Obligations.CreateMakesAFreshHandle : Prop :=
  ∀ (s : State) (level : BitVec 4),
    (level.toNat ≤ 9 →
        ∃ t, exec (.create level) s = .next t ∧ t.port = { s.port with result := .success } ∧ t.mem = s.mem
          ∧ t.handle.alive = true ∧ t.handle.level = level
          ∧ (⟨t.handle.lazy, t.handle.depth, t.handle.nice⟩ : LevelRow) = levelRow level
          ∧ (∀ space i, space ≠ .misc → i < spaceSize space →
              readSpace t space i = if space = .head ∨ space = .next then 0xFFFF8000#32 else 0)
          ∧ (t.mf.src = 0 ∧ t.mf.len = 0 ∧ t.mf.base = 0 ∧ t.mf.pos = 0)
          ∧ (t.cp.tok.length = 0 ∧ t.cp.bstart = 0)
          ∧ (t.hb.nitems = 0 ∧ t.hb.nlit = 257 ∧ t.hb.ndist = 1 ∧ t.hb.npre = 4)
          ∧ t.bw = ⟨0, 0, 0, 0, 0, false⟩ ∧ t.br = ⟨0, 0, 0⟩
          ∧ (t.dx.state = .blockHeader ∧ t.dx.bfinal = false ∧ t.dx.btype = 0 ∧ t.dx.err = .success
              ∧ t.dx.dst = 0 ∧ t.dx.cap = 0 ∧ t.dx.outpos = 0 ∧ t.dx.nlit = 257 ∧ t.dx.ndist = 1 ∧ t.dx.npre = 4))
      ∧ (9 < level.toNat →
          exec (.create level) s
            = .next (State.ended { s with handle := { s.handle with alive := false, level := 0 } } .createFailed))

/-- Rules R183, R451: DESTROY leaves no handle and every scalar at its hard-reset value; the port
registers and buffer memory stay. -/
def Obligations.DestroyDropsTheHandle : Prop :=
  ∀ s : State, s.handle.alive = true →
    ∃ t, exec .destroy s = .next t ∧ t.port = { s.port with result := .success } ∧ t.mem = s.mem
      ∧ hardResetValues { t with port := Port.reset }

/-- Rules R82, R83, R189: TREAD answers the entry in `a4` and changes nothing else; which scalar each
index of MISC reads. -/
def Obligations.TreadReturnsTheEntry : Prop :=
  ∀ (s : State) (space : Space), s.handle.alive = true → s.port.a0.toNat < spaceSize space →
    (∃ t, exec (.tread space) s = .next t ∧ t = { s with port := t.port }
        ∧ t.port = { s.port with a4 := readSpace s space s.port.a0.toNat, result := .success })
      ∧ (List.range 31).map (fun k => (readSpace s .misc k).toNat)
          = [s.mf.src.toNat, s.mf.len.toNat, s.mf.base.toNat, s.mf.pos.toNat, s.bw.dst.toNat, s.bw.cap.toNat,
              s.bw.nbytes.toNat, s.bw.nbits.toNat, s.bw.acc.toNat % 4294967296, s.bw.ovf.toNat, s.br.src.toNat,
              s.br.len.toNat, s.br.bitpos.toNat % 4294967296, s.br.bitpos.toNat / 4294967296, s.dx.state.code,
              s.dx.err.code, s.dx.bfinal.toNat, s.dx.btype.toNat, s.dx.dst.toNat, s.dx.cap.toNat, s.dx.outpos.toNat,
              s.hb.nlit.toNat, s.hb.ndist.toNat, s.hb.npre.toNat, s.hb.nitems.toNat, s.handle.lazy.toNat,
              s.handle.depth.toNat, s.handle.nice.toNat, s.dx.nlit.toNat, s.dx.ndist.toNat, s.dx.npre.toNat]

/-- Rules R82, R190: an accepted TWRITE makes that entry read as the value, and every other entry of
every table space reads as before. -/
def Obligations.TwriteChangesOneEntry : Prop :=
  ∀ (s : State) (space : Space), s.handle.alive = true → space ≠ .misc → s.port.a0.toNat < spaceSize space →
    spaceAccepts space s.port.a1 = true →
    ∃ t, exec (.twrite space) s = .next t ∧ t.port = { s.port with result := .success }
      ∧ ∀ space' j, readSpace t space' j
          = if space' = space ∧ j = s.port.a0.toNat then s.port.a1 else readSpace s space' j

/-- Rules R202, R321, R341, R361: each binding command takes the address and the length in `a0`, `a1`
and starts its unit anew, and changes nothing else. -/
def Obligations.InitCommandsBindTheirUnit : Prop :=
  ∀ s : State, s.handle.alive = true → s.port.a0.toNat + s.port.a1.toNat ≤ wordSpan →
    (∃ t : State, exec .mfInit s = .next (t.ended .success) ∧ t = { s with mf := t.mf }
        ∧ t.mf.src = s.port.a0 ∧ t.mf.len = s.port.a1 ∧ t.mf.base = 0 ∧ t.mf.pos = 0
        ∧ ∀ h, (t.mf.head.get h).toInt = -32768 ∧ (t.mf.next.get h).toInt = -32768)
      ∧ exec .bwInit s = .next (State.ended { s with bw := ⟨s.port.a0, s.port.a1, 0, 0, 0, false⟩ } .success)
      ∧ exec .brInit s = .next (State.ended { s with br := ⟨s.port.a0, s.port.a1, 0⟩ } .success)
      ∧ ∃ d, exec .dxInit s = .next (State.ended { s with dx := d } .success)
        ∧ d.dst = s.port.a0 ∧ d.cap = s.port.a1 ∧ d.outpos = 0 ∧ d.state = .blockHeader ∧ d.bfinal = false
        ∧ d.btype = 0 ∧ d.err = .success ∧ d.nlit = 257 ∧ d.ndist = 1 ∧ d.npre = 4

/-! ## MF -/

/-- Rules R200, R206, R208: whatever the tables hold, MF.FIND answers none or a true match inside the
input and the window, and advances by one position. -/
def Obligations.MfFindReportsATrueMatch : Prop :=
  ∀ s : State, s.handle.alive = true → s.mf.pos.toNat ≤ windowSize → s.mf.cur < s.mf.len.toNat →
    ∃ t, exec .mfFind s = .next t ∧ t.port.result = .success ∧ t.mf.cur = s.mf.cur + 1
      ∧ ((t.port.a4 = 0 ∧ t.port.a5 = 0)
          ∨ (3 ≤ t.port.a4.toNat ∧ t.port.a4.toNat ≤ 258 ∧ 1 ≤ t.port.a5.toNat ∧ t.port.a5.toNat ≤ 32767
              ∧ t.port.a5.toNat ≤ s.mf.cur ∧ s.mf.cur + t.port.a4.toNat ≤ s.mf.len.toNat
              ∧ ∀ k, k < t.port.a4.toNat →
                  s.mf.byteAt s.mem (s.mf.cur + k) = s.mf.byteAt s.mem (s.mf.cur + k - t.port.a5.toNat)))

/-- Rules R200, R206, R211: the match is the longest among the candidates the search visits, and among
those of that length the first visited; below three bytes there is none. -/
def Obligations.MfFindTakesLongestFirstVisited : Prop :=
  ∀ s : State, s.handle.alive = true → s.mf.pos.toNat < windowSize → s.mf.cur + 3 ≤ s.mf.len.toNat →
    let maxLen := min 258 (s.mf.len.toNat - s.mf.cur)
    let mf := s.mf.insertAt (s.mf.hashAt s.mem s.mf.cur)
    let agree := mf.agree s.mem s.mf.pos.toNat maxLen
    let visited :=
      mf.visited s.mem s.mf.pos.toNat maxLen (min s.port.a1.toNat maxLen) s.port.a0.toNat
        (s.mf.head.get (s.mf.hashAt s.mem s.mf.cur))
    ∃ t, exec .mfFind s = .next t ∧ t.port.result = .success
      ∧ ((t.port.a4 = 0 ∧ t.port.a5 = 0 ∧ ∀ v ∈ visited, agree v < 3)
          ∨ ∃ before v after, visited = before ++ v :: after ∧ 3 ≤ agree v ∧ t.port.a4.toNat = agree v
              ∧ (t.port.a5.toNat : Int) = s.mf.pos.toNat - v.toInt
              ∧ (∀ u ∈ before, agree u < agree v) ∧ ∀ u ∈ after, agree u ≤ agree v)

/-- Rules R205, R206: MF.FIND inserts its position where three bytes are left, and nothing where not; at
position 32768 it slides first. -/
def Obligations.MfFindInsertsThePosition : Prop :=
  ∀ s : State, s.handle.alive = true → s.mf.cur < s.mf.len.toNat →
    (s.mf.pos.toNat < windowSize →
        ∃ t, exec .mfFind s = .next t ∧ t.mf.base = s.mf.base ∧ t.mf.pos.toNat = s.mf.pos.toNat + 1
          ∧ (s.mf.cur + 3 ≤ s.mf.len.toNat →
              (∀ h, (t.mf.head.get h).toInt
                  = if h = s.mf.hashAt s.mem s.mf.cur then (s.mf.pos.toNat : Int) else (s.mf.head.get h).toInt)
                ∧ ∀ j, t.mf.next.get j
                  = if j = s.mf.pos.toNat then s.mf.head.get (s.mf.hashAt s.mem s.mf.cur) else s.mf.next.get j)
          ∧ (s.mf.len.toNat < s.mf.cur + 3 →
              t.mf.head = s.mf.head ∧ t.mf.next = s.mf.next ∧ t.port.a4 = 0 ∧ t.port.a5 = 0))
      ∧ (s.mf.pos.toNat = windowSize →
          ∃ u, exec .mfSlide s = .next u ∧ u.mf.pos = 0 ∧ exec .mfFind s = exec .mfFind { u with port := s.port })

/-- Rule R207: MF.SKIP of `n` positions leaves what `n` searches of depth 0 leave, and writes no register. -/
def Obligations.MfSkipInsertsLikeEmptySearches : Prop :=
  ∀ (s : State) (nice : Nat), s.handle.alive = true → s.mf.cur + s.port.a0.toNat ≤ s.mf.len.toNat →
    exec .mfSkip s
      = .next (State.ended { s with mf := (fun mf => (MatchFinder.find mf s.mem 0 nice).1)^[s.port.a0.toNat] s.mf } .success)

/-- Rule R209: MF.SLIDE at position 32768 subtracts 32768 from every slot, saturating, and moves the base. -/
def Obligations.MfSlideRebasesEverySlot : Prop :=
  ∀ s : State, s.handle.alive = true → tablesOk s → s.mf.pos.toNat = windowSize →
    ∃ t : State, exec .mfSlide s = .next (t.ended .success) ∧ t = { s with mf := t.mf }
      ∧ t.mf.src = s.mf.src ∧ t.mf.len = s.mf.len ∧ t.mf.base = s.mf.base + 32768 ∧ t.mf.pos = 0
      ∧ ∀ h, (t.mf.head.get h).toInt
            = (if 0 ≤ (s.mf.head.get h).toInt then (s.mf.head.get h).toInt - 32768 else -32768)
          ∧ (t.mf.next.get h).toInt
            = (if 0 ≤ (s.mf.next.get h).toInt then (s.mf.next.get h).toInt - 32768 else -32768)

/-! ## HB -/

/-- Rules R271, R272: HB.CLEAR zeroes every counter; HB.TALLY counts one symbol, saturating. -/
def Obligations.HbClearAndTallyCount : Prop :=
  ∀ s : State, s.handle.alive = true →
    (∃ t, exec .hbClear s = .next t ∧ t.port = { s.port with result := .success }
        ∧ ∀ x j, (t.freq.table x).get j = 0)
      ∧ ∀ x : Alphabet, s.port.a0.toNat < x.nsym →
          ∃ t, exec (.hbTally x) s = .next t ∧ t.port = { s.port with result := .success }
            ∧ ∀ y j, ((t.freq.table y).get j).toNat
                = if y = x ∧ j = s.port.a0.toNat then min 4294967295 (((s.freq.table y).get j).toNat + 1)
                  else ((s.freq.table y).get j).toNat

/-- Rule R273: HB.MATCH answers the largest symbols whose bases do not pass the length and the offset,
counts both, and the extra-bits values fit their widths. -/
def Obligations.HbMatchMapsToBothSymbols : Prop :=
  ∀ s : State, s.handle.alive = true → 3 ≤ s.port.a0.toNat → s.port.a0.toNat ≤ 258 → 1 ≤ s.port.a1.toNat →
    s.port.a1.toNat ≤ 32768 →
    ∃ t ls os, exec .hbMatch s = .next t ∧ t.port.result = .success
      ∧ t.port.a4.toNat = 257 + ls ∧ ls ≤ 28 ∧ lenBase ls ≤ s.port.a0.toNat
      ∧ (∀ j, j ≤ 28 → lenBase j ≤ s.port.a0.toNat → j ≤ ls) ∧ s.port.a0.toNat - lenBase ls < 2 ^ lenExtra ls
      ∧ t.port.a5.toNat = os ∧ os ≤ 29 ∧ offBase os ≤ s.port.a1.toNat
      ∧ (∀ j, j ≤ 29 → offBase j ≤ s.port.a1.toNat → j ≤ os) ∧ s.port.a1.toNat - offBase os < 2 ^ offExtra os
      ∧ ∀ y j, ((t.freq.table y).get j).toNat
          = if (y = .litlen ∧ j = 257 + ls) ∨ (y = .offset ∧ j = os)
            then min 4294967295 (((s.freq.table y).get j).toNat + 1) else ((s.freq.table y).get j).toNat

/-- Rules R274, R275, R277 (a): HB.LENS always succeeds; every counted symbol gets a length from 1 to the
limit, every other 0, but for the filler symbols where fewer than two are counted. -/
def Obligations.HbLensLengthsInRange : Prop :=
  ∀ (s : State) (x : Alphabet), s.handle.alive = true →
    ∃ t, exec (.hbLens x) s = .next t ∧ t.port = { s.port with result := .success }
      ∧ (∀ y, y ≠ x → t.lens.table y = s.lens.table y)
      ∧ (∀ a, counted s x a → 1 ≤ ((t.lens.table x).get a).toNat ∧ ((t.lens.table x).get a).toNat ≤ x.maxLen)
      ∧ (∀ a b, counted s x a → counted s x b → a ≠ b → ∀ c, ¬ counted s x c → (t.lens.table x).get c = 0)
      ∧ (∀ a, counted s x a → (∀ b, counted s x b → b = a) →
          ∀ c, (t.lens.table x).get c = if c = a ∨ c = (if a = 0 then 1 else 0) then 1 else 0)
      ∧ ((∀ b, ¬ counted s x b) → ∀ c, (t.lens.table x).get c = if c ≤ 1 then 1 else 0)

/-- Rules R280 to R282: HB.CODES stores, for every length set, the canonical codeword cut to its length
and bit-reversed: the first of its length plus the number of earlier symbols of that length. -/
def Obligations.HbCodesAreCanonical : Prop :=
  ∀ (s : State) (x : Alphabet), s.handle.alive = true →
    ∃ t, exec (.hbCodes x) s = .next t ∧ t.port = { s.port with result := .success }
      ∧ (∀ y, y ≠ x → t.code.table y = s.code.table y)
      ∧ ∀ a, a < x.slots →
          ((t.code.table x).get a).toNat
            = (let lens := s.lens.lengths x
               let l := lens.getD a 0
               if l = 0 then 0 else rev l ((firstOfLength lens l + (lens.take a).count l) % 2 ^ l))

/-- Rule R54: for an accepted length set no stored codeword is the beginning of another. -/
def Obligations.HbCodesArePrefixFree : Prop :=
  ∀ (s : State) (x : Alphabet), s.handle.alive = true → acceptedLengths x (s.lens.lengths x) →
    ∃ t, exec (.hbCodes x) s = .next t
      ∧ ∀ a b, a < x.slots → b < x.slots → a ≠ b → 0 < (s.lens.lengths x).getD a 0 →
          (s.lens.lengths x).getD a 0 ≤ (s.lens.lengths x).getD b 0 →
          ((t.code.table x).get b).toNat % 2 ^ (s.lens.lengths x).getD a 0 ≠ ((t.code.table x).get a).toNat

/-- Rules R140, R283: HB.FIXED loads the fixed lengths and the codewords RFC 1951 gives them,
bit-reversed; the precode arrays stay. -/
def Obligations.HbFixedLoadsTheFixedCode : Prop :=
  ∀ s : State, s.handle.alive = true →
    ∃ t, exec .hbFixed s = .next t ∧ t.port = { s.port with result := .success }
      ∧ t.lens.precode = s.lens.precode ∧ t.code.precode = s.code.precode
      ∧ (∀ a, a < 288 →
          ((t.lens.litlen.get a).toNat = if a < 144 then 8 else if a < 256 then 9 else if a < 280 then 7 else 8)
            ∧ (t.code.litlen.get a).toNat
                = (if a < 144 then rev 8 (0x30 + a) else if a < 256 then rev 9 (0x190 + (a - 144))
                  else if a < 280 then rev 7 (a - 256) else rev 8 (0xC0 + (a - 280))))
      ∧ ∀ a, a < 32 → (t.lens.offset.get a).toNat = 5 ∧ (t.code.offset.get a).toNat = rev 5 a

/-- Rules R137, R284 to R286: HB.PRECODE declares the least counts that cover every length, and items that
are legal and stand for exactly the length sequence, none repeating a length that is not there; it
counts them and makes the precode from those counts. -/
def Obligations.HbPrecodeDescribesTheLengths : Prop :=
  ∀ s : State, s.handle.alive = true →
    let litlen := s.lens.lengths .litlen
    let offset := s.lens.lengths .offset
    ∃ t items, exec .hbPrecode s = .next t ∧ t.port = { s.port with result := .success }
      ∧ (257 ≤ t.hb.nlit.toNat ∧ t.hb.nlit.toNat ≤ 286
          ∧ (∀ a, t.hb.nlit.toNat ≤ a → a < 286 → litlen.getD a 0 = 0)
          ∧ (257 < t.hb.nlit.toNat → litlen.getD (t.hb.nlit.toNat - 1) 0 ≠ 0))
      ∧ (1 ≤ t.hb.ndist.toNat ∧ t.hb.ndist.toNat ≤ 30
          ∧ (∀ a, t.hb.ndist.toNat ≤ a → a < 30 → offset.getD a 0 = 0)
          ∧ (1 < t.hb.ndist.toNat → offset.getD (t.hb.ndist.toNat - 1) 0 ≠ 0))
      ∧ items.length = t.hb.nitems.toNat ∧ items.length ≤ 316 ∧ (∀ it ∈ items, itemLegal it)
      ∧ expandItems [] items = some (litlen.take t.hb.nlit.toNat ++ offset.take t.hb.ndist.toNat)
      ∧ (∀ k, (t.hb.items.get k).toNat
          = if k < items.length then (items.getD k (0, 0)).1 + 256 * (items.getD k (0, 0)).2
            else (s.hb.items.get k).toNat)
      ∧ (∀ a, (t.freq.precode.get a).toNat = items.countP fun it => decide (it.1 = a))
      ∧ t.freq.litlen = s.freq.litlen ∧ t.freq.offset = s.freq.offset
      ∧ (∃ u v, exec (.hbLens .precode) { s with freq := t.freq } = .next u ∧ exec (.hbCodes .precode) u = .next v
          ∧ t.lens = v.lens ∧ t.code = v.code)
      ∧ (4 ≤ t.hb.npre.toNat ∧ t.hb.npre.toNat ≤ 19
          ∧ (∀ j, t.hb.npre.toNat ≤ j → j < 19 → t.lens.precode.get (precodeOrder.getD j 0) = 0)
          ∧ (4 < t.hb.npre.toNat → t.lens.precode.get (precodeOrder.getD (t.hb.npre.toNat - 1) 0) ≠ 0))

/-! ## DT -/

/-- Rules R301 to R303, R306: DT.BUILD accepts exactly the length sets of rules R302, R303; it replaces
the one table, whose entries all lie inside its store, and refuses the others with BAD_DATA and
nothing changed. -/
def Obligations.DtBuildAcceptsUsableCodes : Prop :=
  ∀ (s : State) (x : Alphabet), s.handle.alive = true →
    (acceptedLengths x (s.lens.lengths x) →
        ∃ table, exec (.dtBuild x) s = .next (State.ended { s with dtab := s.dtab.put x table } .success)
          ∧ Table.wf x.tableSize table = true
          ∧ ((∀ l ∈ s.lens.lengths x, l = 0) → ∀ k, table.get k = 0))
      ∧ (¬ acceptedLengths x (s.lens.lengths x) → exec (.dtBuild x) s = .next (s.ended .badData))

/-- Rules R307, R308: with a table built from a length set, DT.DECODE reads exactly the symbol whose
codeword comes next, first bit most significant, consumes exactly its bits, and answers BAD_DATA where
no codeword comes next or the overread bound is passed. -/
def Obligations.DtDecodeReadsTheNextCodeword : Prop :=
  ∀ (s : State) (x : Alphabet) (lens : List Nat), s.handle.alive = true → lens.length = x.slots →
    buildTable x lens = some (s.dtab.table x) →
    (∀ a, lens.getD a 0 ≠ 0 → s.br.holds s.mem (codewordBits lens a) →
        (s.br.bitpos.toNat + lens.getD a 0 ≤ 8 * s.br.len.toNat + 64 →
            exec (.dtDecode x) s
              = .next (State.ended (State.setA4 { s with br := s.br.past (lens.getD a 0) } a) .success))
          ∧ (8 * s.br.len.toNat + 64 < s.br.bitpos.toNat + lens.getD a 0 →
              ∃ t, exec (.dtDecode x) s = .next t ∧ t.port = { s.port with result := .badData }))
      ∧ ((∀ a, lens.getD a 0 ≠ 0 → ¬ s.br.holds s.mem (codewordBits lens a)) →
          ∃ t, exec (.dtDecode x) s = .next t ∧ t.port = { s.port with result := .badData })

/-- Rules R277 (b), R288, R309: whatever was counted, the code made by HB.LENS is complete, DT.BUILD
accepts it, and the bits BW.PUT sends for any of its symbols decode to that symbol. -/
def Obligations.BuiltCodesDecodeToThemselves : Prop :=
  ∀ (s : State) (x : Alphabet), s.handle.alive = true →
    ∃ s1 s2 s3, exec (.hbLens x) s = .next s1 ∧ exec (.hbCodes x) s1 = .next s2 ∧ exec (.dtBuild x) s2 = .next s3
      ∧ kraft x.maxLen (s1.lens.lengths x) = 2 ^ x.maxLen ∧ s3.port.result = .success
      ∧ ∀ a, ((s3.lens.table x).get a).toNat ≠ 0 →
          s3.br.holds s3.mem (bitsOf ((s3.lens.table x).get a).toNat ((s3.code.table x).get a).toNat) →
          s3.br.bitpos.toNat + ((s3.lens.table x).get a).toNat ≤ 8 * s3.br.len.toNat + 64 →
          exec (.dtDecode x) s3
            = .next (State.ended (State.setA4 { s3 with br := s3.br.past ((s3.lens.table x).get a).toNat } a) .success)

/-! ## BW -/

/-- Rules R95, R322: BW.PUT with room for its whole bytes appends exactly the low bits of its value,
least significant first, and touches no byte before or behind the new ones. -/
def Obligations.BwPutAppendsItsBits : Prop :=
  ∀ s : State, s.handle.alive = true → writerOk s.bw → s.bw.ovf = false → ¬ badOperands .bwPut s →
    s.bw.nbytes.toNat + (s.bw.nbits.toNat + s.port.a1.toNat) / 8 ≤ s.bw.cap.toNat →
    ∃ t, exec .bwPut s = .next t ∧ t.port.result = .success
      ∧ writtenBits t = writtenBits s ++ bitsOf s.port.a1.toNat s.port.a0.toNat
      ∧ t.bw.nbytes.toNat = s.bw.nbytes.toNat + (s.bw.nbits.toNat + s.port.a1.toNat) / 8
      ∧ ∀ addr, ¬ inBuffer (s.bw.dst + s.bw.nbytes) ((s.bw.nbits.toNat + s.port.a1.toNat) / 8) addr →
          t.mem.read addr = s.mem.read addr

/-- Rules R324, R325: BW.ALIGN and BW.FLUSH pad with zero bits to a byte boundary; BW.FLUSH reports the
bytes written in `a5`. -/
def Obligations.BwAlignAndFlushPadWithZeros : Prop :=
  ∀ s : State, s.handle.alive = true → writerOk s.bw → s.bw.ovf = false →
    (s.bw.nbits ≠ 0 → s.bw.nbytes.toNat < s.bw.cap.toNat) →
    ∃ t, exec .bwAlign s = .next t ∧ t.port = { s.port with result := .success } ∧ t.bw.nbits = 0
      ∧ writtenBits t = writtenBits s ++ List.replicate ((8 - s.bw.nbits.toNat) % 8) false
      ∧ (∀ addr, addr ≠ s.bw.dst + s.bw.nbytes → t.mem.read addr = s.mem.read addr)
      ∧ (s.bw.nbits = 0 → t.mem = s.mem)
      ∧ exec .bwFlush s = .next (t.setA5 t.bw.nbytes.toNat)

/-- Rule R326: BW.BYTES on an aligned writer with room appends the bytes of its source. -/
def Obligations.BwBytesAppendsTheSource : Prop :=
  ∀ s : State, s.handle.alive = true → writerOk s.bw → s.bw.ovf = false → ¬ badOperands .bwBytes s →
    s.bw.nbytes.toNat + s.port.a1.toNat ≤ s.bw.cap.toNat →
    ∃ t, exec .bwBytes s = .next t ∧ t.port = { s.port with result := .success } ∧ t.bw.nbits = 0
      ∧ writtenBits t
          = writtenBits s ++ (s.mem.bytes s.port.a0 0 s.port.a1.toNat).flatMap (fun b => bitsOf 8 b.toNat)
      ∧ ∀ addr, ¬ inBuffer (s.bw.dst + s.bw.nbytes) s.port.a1.toNat addr → t.mem.read addr = s.mem.read addr

/-- Rules R66, R323 to R327: BW.PUT, BW.ALIGN, BW.FLUSH and BW.BYTES overflow exactly where the bytes they
send do not fit; from then on every writer command but BW.INIT ends with INSUFFICIENT_SPACE, the
overflow stays, the writer stays full and no byte is written. BW.FLUSH then answers 0 in `a5`. -/
def Obligations.BwOverflowIsSticky : Prop :=
  ∀ (i : Instr) (s : State), (i = .bwPut ∨ i = .bwAlign ∨ i = .bwFlush ∨ i = .bwBytes) → s.handle.alive = true →
    writerOk s.bw → ¬ badOperands i s →
    ∃ t, exec i s = .next t
      ∧ (t.bw.ovf = true ↔ s.bw.ovf = true ∨ s.bw.cap.toNat < s.bw.nbytes.toNat + bytesSent i s)
      ∧ (t.bw.ovf = true →
          t.port.result = .insufficientSpace ∧ t.bw.nbytes = s.bw.cap ∧ (i = .bwFlush → t.port.a5 = 0))
      ∧ (t.bw.ovf = false → t.port.result = .success ∧ t.bw.nbytes.toNat = s.bw.nbytes.toNat + bytesSent i s)
      ∧ (s.bw.ovf = true → ∀ addr, t.mem.read addr = s.mem.read addr)

/-! ## BR -/

/-- Rules R342 to R347: BR.PEEK answers the next bits, the first in bit 0 and zeros above; BR.GET and
BR.DROP consume them, unless that passes the overread bound; BR.ALIGN goes to the next byte boundary. -/
def Obligations.BrCommandsReadTheNextBits : Prop :=
  ∀ s : State, s.handle.alive = true →
    (s.port.a0.toNat ≤ 32 →
        ∃ v : Nat, (∀ k, v.testBit k = (decide (k < s.port.a0.toNat) && s.br.bit s.mem (s.br.bitpos.toNat + k)))
          ∧ v < 2 ^ 32
          ∧ exec .brPeek s = .next ((s.setA4 v).ended .success)
          ∧ (s.br.bitpos.toNat + s.port.a0.toNat ≤ 8 * s.br.len.toNat + 64 →
              exec .brGet s = .next (State.ended (State.setA4 { s with br := s.br.past s.port.a0.toNat } v) .success)
                ∧ exec .brDrop s = .next (State.ended { s with br := s.br.past s.port.a0.toNat } .success))
          ∧ (8 * s.br.len.toNat + 64 < s.br.bitpos.toNat + s.port.a0.toNat →
              exec .brGet s = .next (s.ended .badData) ∧ exec .brDrop s = .next (s.ended .badData)))
      ∧ (readerOk s.br →
          ∃ r, exec .brAlign s = .next (State.ended { s with br := r } .success) ∧ r.src = s.br.src
            ∧ r.len = s.br.len ∧ r.bitpos.toNat % 8 = 0 ∧ s.br.bitpos.toNat ≤ r.bitpos.toNat
            ∧ r.bitpos.toNat < s.br.bitpos.toNat + 8)

/-- Rule R348: BR.BYTES copies whole real input bytes and advances over them; where fewer are left it
ends with SHORT_INPUT and changes nothing. -/
def Obligations.BrBytesCopiesRealInput : Prop :=
  ∀ s : State, s.handle.alive = true → readerOk s.br → ¬ badOperands .brBytes s →
    (s.br.bitpos.toNat / 8 + s.port.a1.toNat ≤ max s.br.len.toNat (s.br.bitpos.toNat / 8) →
        ∃ t, exec .brBytes s = .next t ∧ t.port = { s.port with result := .success }
          ∧ t.br.bitpos.toNat = s.br.bitpos.toNat + 8 * s.port.a1.toNat
          ∧ (∀ k, k < s.port.a1.toNat →
              t.mem.read (bufferAddr s.port.a0 k) = s.mem.read (bufferAddr s.br.src (s.br.bitpos.toNat / 8 + k)))
          ∧ ∀ addr, ¬ inBuffer s.port.a0 s.port.a1.toNat addr → t.mem.read addr = s.mem.read addr)
      ∧ (max s.br.len.toNat (s.br.bitpos.toNat / 8) < s.br.bitpos.toNat / 8 + s.port.a1.toNat →
          exec .brBytes s = .next (s.ended .shortInput))

/-! ## DX and the stream elements -/

/-- Rules R362, R365, R377: DX.STEP where it reads no bit. DONE and ERROR are absorbing: it repeats the
outcome and changes nothing else. The table build of a fixed block loads the fixed lengths, builds both
tables from them and goes to DECODE_LOOP; it cannot fail. -/
def Obligations.DxStepWhereNoBitIsRead : Prop :=
  ∀ s : State, s.handle.alive = true →
    (s.dx.state = .done → exec .dxStep s = .next ((s.setA4 4).ended .success))
      ∧ (s.dx.state = .error → exec .dxStep s = .next ((s.setA4 5).ended s.dx.err))
      ∧ (s.dx.state = .buildTables → s.dx.btype = 1 →
          ∃ t, exec .dxStep s = .next t ∧ t.port = { s.port with a4 := 2, result := .success } ∧ t.br = s.br
            ∧ t.mem = s.mem ∧ t.code = s.code ∧ t.dx = { s.dx with state := .decodeLoop }
            ∧ t.lens.lengths .litlen = fixedLitlenLens ∧ t.lens.lengths .offset = fixedOffsetLens
            ∧ t.lens.precode = s.lens.precode ∧ t.dtab.precode = s.dtab.precode ∧ tablesBuiltFrom t Codes.fixed)

/-- Rules R364, R371, R372, R374, R376: what a block header, a literal, the end of a block and a reserved
symbol do, whole; in particular nothing else changes. -/
def Obligations.ControlElementsAct : Prop :=
  ∀ (s : State) (final : Bool) (value : Byte) (symbol : BitVec 16),
    exec (.blockStored final) s
        = .next { s with dx := { s.dx with bfinal := final, btype := 0, state := .copyStored } }
      ∧ exec (.blockFixed final) s
        = .next { s with dx := { s.dx with bfinal := final, btype := 1, state := .buildTables } }
      ∧ exec (.blockDynamic final) s
        = .next { s with dx := { s.dx with bfinal := final, btype := 2, state := .buildTables } }
      ∧ exec (.blockReserved final) s
        = .next { s with dx := { s.dx with bfinal := final, btype := 3, state := .error, err := .badData } }
      ∧ (s.dx.outpos = s.dx.cap →
          exec (.lit value) s = .next { s with dx := { s.dx with state := .error, err := .insufficientSpace } })
      ∧ (s.dx.outpos ≠ s.dx.cap →
          ∃ t, exec (.lit value) s = .next t
            ∧ t = { s with mem := t.mem, dx := { s.dx with outpos := s.dx.outpos + 1 } }
            ∧ ∀ addr, t.mem.read addr = if addr = s.dx.dst + s.dx.outpos then value else s.mem.read addr)
      ∧ exec .eob s = .next { s with dx := { s.dx with state := (afterBlock s).1, err := (afterBlock s).2 } }
      ∧ exec (.llReserved symbol) s = .next { s with dx := { s.dx with state := .error, err := .badData } }
      ∧ exec (.ofReserved symbol) s = .next { s with dx := { s.dx with state := .error, err := .badData } }

/-- Rules R132, R375, R376: a stored block's three tests in order, and where all pass the copy of its data,
byte for byte, from the reader to the output, and what follows the block. A block longer than the input
is SHORT_INPUT, and BAD_DATA where OVERREAD_AT_DONE is BAD_DATA, as rule R376 says of both its cases (log
entry 23). -/
def Obligations.StoredBodyCopiesVerbatim : Prop :=
  ∀ (s : State) (len nlen : BitVec 16), readerOk s.br → decompOk s.dx →
    disjoint s.br.src s.br.len s.dx.dst s.dx.cap = true →
    (len ≠ nlen ^^^ 0xFFFF#16 →
        exec (.storedBody len nlen) s = .next { s with dx := { s.dx with state := .error, err := .badData } })
      ∧ (len = nlen ^^^ 0xFFFF#16 →
          (s.br.len.toNat - s.br.bitpos.toNat / 8 < len.toNat →
              exec (.storedBody len nlen) s = .next { s with dx := { s.dx with
                state := .error, err := if s.cfg.overreadAtDone = .badData then .badData else .shortInput } })
            ∧ (len.toNat ≤ s.br.len.toNat - s.br.bitpos.toNat / 8 →
                (s.dx.cap.toNat < s.dx.outpos.toNat + len.toNat →
                    exec (.storedBody len nlen) s
                      = .next { s with dx := { s.dx with state := .error, err := .insufficientSpace } })
                  ∧ (s.dx.outpos.toNat + len.toNat ≤ s.dx.cap.toNat →
                      ∃ t, exec (.storedBody len nlen) s = .next t
                        ∧ t.br.bitpos.toNat = s.br.bitpos.toNat + 8 * len.toNat
                        ∧ t.dx.outpos.toNat = s.dx.outpos.toNat + len.toNat
                        ∧ (∀ k, k < len.toNat →
                            t.mem.read (bufferAddr s.dx.dst (s.dx.outpos.toNat + k))
                              = s.mem.read (bufferAddr s.br.src (s.br.bitpos.toNat / 8 + k)))
                        ∧ (∀ addr, ¬ inBuffer (s.dx.dst + s.dx.outpos) len.toNat addr →
                            t.mem.read addr = s.mem.read addr)
                        ∧ t.dx.state = (afterBlock { s with br := t.br }).1
                        ∧ t.dx.err = (afterBlock { s with br := t.br }).2
                        ∧ t.dx.bfinal = s.dx.bfinal ∧ t.dx.btype = s.dx.btype)))

/-- Rules R366 to R369, R377: a dynamic header records its counts; counts above 286 or 30 are refused
under STRICT_COUNTS with nothing else read; otherwise the build ends with both tables built from the
lengths it read, the slots past the counts 0, or in ERROR with BAD_DATA. -/
def Obligations.DynamicHeaderBuildsOrRefuses : Prop :=
  ∀ (s : State) (hlit hdist : BitVec 5) (hclen : BitVec 4), decompOk s.dx → s.dx.state = .buildTables →
    (s.cfg.strictCounts = true → (29 < hlit.toNat ∨ 29 < hdist.toNat) →
        ∃ t, exec (.dynamicHeader hlit hdist hclen) s = .next t ∧ t = { s with dx := t.dx }
          ∧ t.dx.nlit.toNat = hlit.toNat + 257 ∧ t.dx.ndist.toNat = hdist.toNat + 1
          ∧ t.dx.npre.toNat = hclen.toNat + 4 ∧ t.dx.state = .error ∧ t.dx.err = .badData)
      ∧ ((s.cfg.strictCounts = true → hlit.toNat ≤ 29 ∧ hdist.toNat ≤ 29) →
          ∃ t, exec (.dynamicHeader hlit hdist hclen) s = .next t
            ∧ t.dx.nlit.toNat = hlit.toNat + 257 ∧ t.dx.ndist.toNat = hdist.toNat + 1
            ∧ t.dx.npre.toNat = hclen.toNat + 4 ∧ t.dx.outpos = s.dx.outpos
            ∧ ((t.dx.state = .error ∧ t.dx.err = .badData)
                ∨ (t.dx.state = .decodeLoop ∧ t.dx.err = .success
                    ∧ (∀ a, hlit.toNat + 257 ≤ a → t.lens.litlen.get a = 0)
                    ∧ (∀ a, hdist.toNat + 1 ≤ a → t.lens.offset.get a = 0)
                    ∧ buildTable .precode (t.lens.lengths .precode) = some t.dtab.precode
                    ∧ buildTable .litlen (t.lens.lengths .litlen) = some t.dtab.litlen
                    ∧ buildTable .offset (t.lens.lengths .offset) = some t.dtab.offset)))

/-- Rules R134 to R137, R366 to R369: a dynamic header whose bits hold the precode lengths in PERM order,
then elements that stand for a sequence of exactly the declared number of lengths, loads that sequence
into LENS_LL and LENS_OF, builds both tables, and consumes exactly those bits. -/
def Obligations.DynamicHeaderLoadsItsLengths : Prop :=
  ∀ (s : State) (hlit hdist : BitVec 5) (hclen : BitVec 4) (pc : List Nat) (items : List Instr) (ls : List (BitVec 4))
    (tpre tll tof : Table 32),
    decompOk s.dx → s.dx.state = .buildTables → hlit.toNat ≤ 29 → hdist.toNat ≤ 29 →
    pc.length = 19 → (∀ l ∈ pc, l ≤ 7) → (∀ j, hclen.toNat + 4 ≤ j → j < 19 → pc.getD (precodeOrder.getD j 0) 0 = 0) →
    buildTable .precode pc = some tpre → (∀ i ∈ items, Codes.cover ⟨[], [], pc⟩ i = true) →
    lengthsOf [] items = some ls → ls.length = hlit.toNat + 257 + (hdist.toNat + 1) →
    buildTable .litlen ((ls.take (hlit.toNat + 257)).map BitVec.toNat ++ List.replicate (31 - hlit.toNat) 0) = some tll →
    buildTable .offset ((ls.drop (hlit.toNat + 257)).map BitVec.toNat ++ List.replicate (31 - hdist.toNat) 0) = some tof →
    let bits := precodeBits (hclen.toNat + 4) pc ++ items.flatMap (encode ⟨[], [], pc⟩)
    s.br.holds s.mem bits → s.br.bitpos.toNat + bits.length ≤ 8 * s.br.len.toNat + 64 →
    ∃ t, exec (.dynamicHeader hlit hdist hclen) s = .next t ∧ t.dx.state = .decodeLoop
      ∧ t.br = s.br.past bits.length
      ∧ (∀ a, a < hlit.toNat + 257 → t.lens.litlen.get a = ls.getD a 0)
      ∧ (∀ a, a < hdist.toNat + 1 → t.lens.offset.get a = ls.getD (hlit.toNat + 257 + a) 0)
      ∧ t.dtab = ⟨tll, tof, tpre⟩

/-- Rules R136, R368: what each element of the length sequence appends; one that would pass the declared
total, or repeat a length that is not there, is BAD_DATA. The sequence is the model's own field (log
entry 8). -/
def Obligations.PrecodeElementsExtendTheSequence : Prop :=
  (∀ (s : State) (i : Instr) (v : BitVec 4) (n : Nat),
      ((i = .preLen v ∧ n = 1)
        ∨ (∃ extra, i = .preRep extra ∧ s.dx.seq.getLast? = some v ∧ n = 3 + extra.toNat)
        ∨ (∃ extra, i = .preZrep3 extra ∧ v = 0 ∧ n = 3 + extra.toNat)
        ∨ ∃ extra, i = .preZrep11 extra ∧ v = 0 ∧ n = 11 + extra.toNat) →
      (s.dx.seq.length + n ≤ s.dx.nlit.toNat + s.dx.ndist.toNat →
          exec i s = .next { s with dx := { s.dx with seq := s.dx.seq ++ List.replicate n v } })
        ∧ (s.dx.nlit.toNat + s.dx.ndist.toNat < s.dx.seq.length + n →
            exec i s = .next { s with dx := { s.dx with state := .error, err := .badData } }))
    ∧ ∀ (s : State) (extra : BitVec 2), s.dx.seq = [] →
        exec (.preRep extra) s = .next { s with dx := { s.dx with state := .error, err := .badData } }

/-- Rules R104, R139, R141, R373: a match's two tests in order, and where both pass its replay: byte `k`
repeats the last `offset` bytes of the output, also where source and destination overlap. -/
def Obligations.MatchReplaysHistory : Prop :=
  ∀ (s : State) (ls lx os : BitVec 5) (ox : BitVec 13), Instr.wellFormed (.copyMatch ls lx os ox) = true →
    decompOk s.dx →
    let len := lenBase ls.toNat + lx.toNat
    let off := offBase os.toNat + ox.toNat
    (s.dx.outpos.toNat < off →
        exec (.copyMatch ls lx os ox) s = .next { s with dx := { s.dx with state := .error, err := .badData } })
      ∧ (off ≤ s.dx.outpos.toNat → s.dx.cap.toNat < s.dx.outpos.toNat + len →
          exec (.copyMatch ls lx os ox) s
            = .next { s with dx := { s.dx with state := .error, err := .insufficientSpace } })
      ∧ (off ≤ s.dx.outpos.toNat → s.dx.outpos.toNat + len ≤ s.dx.cap.toNat →
          ∃ t, exec (.copyMatch ls lx os ox) s = .next t
            ∧ t = { s with mem := t.mem, dx := { s.dx with outpos := s.dx.outpos + BitVec.ofNat 32 len } }
            ∧ (∀ k, k < len →
                t.mem.read (bufferAddr s.dx.dst (s.dx.outpos.toNat + k))
                  = s.mem.read (bufferAddr s.dx.dst (s.dx.outpos.toNat - off + k % off)))
            ∧ ∀ addr, ¬ inBuffer (s.dx.dst + s.dx.outpos) len addr → t.mem.read addr = s.mem.read addr)

/-- Rules R350, R363, R378, R379: DECOMPRESS always ends, in DONE with SUCCESS or in ERROR with one of
three codes, and reports the bytes produced and consumed (after an error, only where ERROR_OUTPUT is
as_ruled; else they are free within capacity and input length: U5, log entry 6). -/
def Obligations.DecompressAlwaysEnds : Prop :=
  ∀ s : State, s.handle.alive = true → ¬ badOperands .decompress s →
    ∃ t, exec .decompress s = .next t
      ∧ ((t.dx.state = .done ∧ t.port.result = .success)
          ∨ (t.dx.state = .error ∧ t.port.result = t.dx.err
              ∧ (t.dx.err = .badData ∨ t.dx.err = .insufficientSpace ∨ t.dx.err = .shortInput)))
      ∧ (t.port.result = .success ∨ s.cfg.errorOutput = .asRuled →
          t.port.a5 = t.dx.outpos ∧ t.port.a6.toNat = min s.port.a1.toNat (ceilDiv t.br.bitpos.toNat 8))
      ∧ t.port.a5.toNat ≤ s.port.a3.toNat ∧ t.port.a6.toNat ≤ s.port.a1.toNat
      ∧ t.dx.outpos.toNat ≤ s.port.a3.toNat ∧ t.br.bitpos.toNat ≤ 8 * s.port.a1.toNat + 64

/-- Rules R188, R363: DECOMPRESS on two handles with any past, with the same operands, OPEN parameters
and input bytes, ends with the same result, and where the outcome is shown with the same counts and
the same output bytes. -/
def Obligations.DecompressIgnoresHistory : Prop :=
  ∀ s s' : State, s.handle.alive = true → s'.handle.alive = true → ¬ badOperands .decompress s →
    s'.cfg = s.cfg → s'.port.a0 = s.port.a0 → s'.port.a1 = s.port.a1 → s'.port.a2 = s.port.a2 →
    s'.port.a3 = s.port.a3 → agreeOn s.mem s'.mem s.port.a0 s.port.a1.toNat →
    ∃ t t', exec .decompress s = .next t ∧ exec .decompress s' = .next t' ∧ t'.port.result = t.port.result
      ∧ (t.port.result = .success ∨ s.cfg.errorOutput = .asRuled →
          t'.port.a5 = t.port.a5 ∧ t'.port.a6 = t.port.a6
            ∧ agreeOn t.mem t'.mem s.port.a2 t.port.a5.toNat)

/-! ## COMPRESS and BOUND -/

/-- Rule R259: the bound, saturated; it reads nothing but its operand. -/
def Obligations.BoundIsTheStoredSize : Prop :=
  ∀ s : State, s.handle.alive = true →
    ∃ t : State, exec .bound s = .next (t.ended .success) ∧ t = { s with port := { s.port with a4 := t.port.a4 } }
      ∧ t.port.a4.toNat = min 4294967295 (s.port.a0.toNat + 5 * max 1 ((s.port.a0.toNat + 32767) / 32768))

/-- Rules R233, R239 to R241, R246, R259, R260 (b): COMPRESS always ends, with the size of its stream,
which is never 0 and fits the capacity, or with 0 and INSUFFICIENT_SPACE when a byte did not fit. With a
capacity of at least the bound of rule R259 it succeeds, with a size of at most that bound, at every
level. That it ends aligned after an overflow too rests on its running to its end (log entry 12). -/
def Obligations.CompressReportsItsSize : Prop :=
  ∀ s : State, s.handle.alive = true → ¬ badOperands .compress s →
    ∃ t, exec .compress s = .next t ∧ t.bw.nbits = 0
      ∧ ((t.port.result = .success ∧ t.bw.ovf = false ∧ t.port.a5 = t.bw.nbytes ∧ t.port.a5 ≠ 0
            ∧ t.port.a5.toNat ≤ s.port.a3.toNat)
          ∨ (t.port.result = .insufficientSpace ∧ t.bw.ovf = true ∧ t.port.a5 = 0))
      ∧ (s.port.a1.toNat + 5 * max 1 (ceilDiv s.port.a1.toNat 32768) ≤ s.port.a3.toNat →
          t.port.result = .success
            ∧ t.port.a5.toNat ≤ s.port.a1.toNat + 5 * max 1 (ceilDiv s.port.a1.toNat 32768))

/-- Rules R188, R233: COMPRESS on two handles of one level with any past, with the same operands and
input bytes, ends with the same result and size, and where it succeeds with the same stream. -/
def Obligations.CompressIgnoresHistory : Prop :=
  ∀ s s' : State, s.handle.alive = true → s'.handle.alive = true → handleOk s.handle → handleOk s'.handle →
    s'.handle.level = s.handle.level → ¬ badOperands .compress s → s'.port.a0 = s.port.a0 → s'.port.a1 = s.port.a1 →
    s'.port.a2 = s.port.a2 → s'.port.a3 = s.port.a3 → agreeOn s.mem s'.mem s.port.a0 s.port.a1.toNat →
    ∃ t t', exec .compress s = .next t ∧ exec .compress s' = .next t' ∧ t'.port.result = t.port.result
      ∧ t'.port.a5 = t.port.a5
      ∧ (t.port.result = .success → agreeOn t.mem t'.mem s.port.a2 t.port.a5.toNat)

/-- Rules R230, R234 to R237, R239, R242 to R245, R260 (a), (b): at every level, where COMPRESS succeeds, its
stream decompresses to exactly the input: DECOMPRESS on any live handle, with the stream's bytes
anywhere in memory and room for the input, succeeds, reports the input's length and the stream's, and
its output equals the input. At level 0, with capacity for the input and five bytes a block, COMPRESS succeeds with
exactly that size. At levels 1 to 9, whatever the parse parameters and the chains hold, a block goes forward,
covers at most 33280 bytes, ends with the input or once it covers 32768 bytes, and its tokens, at most
33023, expand to exactly the input bytes it covers. -/
def Obligations.CompressedFormStandsForTheInput : Prop :=
  (∀ s : State, s.handle.alive = true → ¬ badOperands .compress s →
    ∃ t, exec .compress s = .next t
      ∧ (t.port.result = .success → ∀ u : State, u.handle.alive = true → ¬ badOperands .decompress u →
          u.port.a1 = t.port.a5 → s.port.a1.toNat ≤ u.port.a3.toNat →
          (∀ k, k < t.port.a5.toNat → u.mem.read (bufferAddr u.port.a0 k) = t.mem.read (bufferAddr s.port.a2 k)) →
          ∃ v, exec .decompress u = .next v ∧ v.port.result = .success ∧ v.port.a5 = s.port.a1 ∧ v.port.a6 = t.port.a5
            ∧ ∀ k, k < s.port.a1.toNat → v.mem.read (bufferAddr u.port.a2 k) = s.mem.read (bufferAddr s.port.a0 k))
      ∧ (s.handle.level = 0 → s.port.a1.toNat + 5 * max 1 (ceilDiv s.port.a1.toNat 65535) ≤ s.port.a3.toNat →
          t.port.result = .success ∧ t.port.a5.toNat = s.port.a1.toNat + 5 * max 1 (ceilDiv s.port.a1.toNat 65535)))
    ∧ ∀ (h : Handle) (m : Memory) (mf : MatchFinder), matchFinderOk mf →
        let p := Parse.block h m mf.len.toNat mf.cur blockTarget ⟨mf, [], mf.cur⟩
        p.mf.cur = p.pos ∧ p.pos ≤ mf.len.toNat ∧ (mf.cur < mf.len.toNat → mf.cur < p.pos)
          ∧ p.pos ≤ mf.cur + 33280 ∧ (p.pos = mf.len.toNat ∨ mf.cur + 32768 ≤ p.pos) ∧ p.toks.length ≤ 33023
          ∧ expandTokens (m.bytes mf.src 0 mf.cur) p.toks.reverse = some (m.bytes mf.src 0 p.pos)

/-! ## Invariants of every step -/

/-- Rules R42 to R58, R90, R306: memory and every table keep their canonical form, and no table holds an
entry past its last index. -/
def Obligations.StepKeepsMemoryAndTables : Prop :=
  ∀ s t : State, step s = .next t → memoryOk s ∧ tablesOk s → memoryOk t ∧ tablesOk t

/-- Rules R65, R66, R327: the writer holds fewer than eight bits, none above them, never passes its
capacity, and is full once it overflowed; through COMPRESS too, where every value put fits its width. -/
def Obligations.StepKeepsWriterPacked : Prop :=
  ∀ s t : State, step s = .next t → writerOk s.bw → writerOk t.bw

/-- Rules R38, R48, R55, R71, R75 to R78, R235, R344: the reader never passes the overread bound; the
decompressor's state, code and counters agree; a live handle's level is legal with its row of the level
table in force; the declared counts stay in their ranges; the symbol stream never passes TOKENS_MAX and
its tokens stay in their ranges, through COMPRESS too. What the stream holds between commands is the
model's choice (log entry 24). -/
def Obligations.StepKeepsStateRanges : Prop :=
  ∀ s t : State, step s = .next t →
    readerOk s.br ∧ decompOk s.dx ∧ handleOk s.handle ∧ countsOk s ∧ tokensOk s.cp →
    readerOk t.br ∧ decompOk t.dx ∧ handleOk t.handle ∧ countsOk t ∧ tokensOk t.cp

/-- Rules R41, R44 (a), R239: the match-finder's position stays inside its input and its base a multiple
of 32768, through COMPRESS too. -/
def Obligations.StepKeepsMatchFinderPosition : Prop :=
  ∀ s t : State, step s = .next t → matchFinderOk s.mf → matchFinderOk t.mf

/-- Rules R44 (b), (d), R458: on a live handle, with HEAD and NEXT in their canonical form (the invariant
StepKeepsMemoryAndTables), slots name earlier positions and chains strictly decrease; only a TWRITE to
HEAD or NEXT can break that. -/
def Obligations.ChainsStayOrdered : Prop :=
  ∀ (i : Instr) (s t : State), tablesOk s → exec i s = .next t → i ≠ .twrite .head → i ≠ .twrite .next →
    (s.handle.alive = true → s.mf.ordered) → (t.handle.alive = true → t.mf.ordered)
end

