-- ==== Sys2Proof/Laws/Cells.lean ====
section
/-! SUPPORT. Laws of the sparse store, and of the memory and tables held in it: what a write leaves
to be read, and that every operation keeps the canonical form. -/

namespace Sys2Proof.Machine

variable {α : Type}

/-! ## Reading after a write -/

@[simp] theorem Cells.get_erase_same (fill : α) (l : List (Nat × α)) (i : Nat) :
    Cells.get fill (Cells.erase i l) i = fill := by
  induction l with
  | nil => rfl
  | cons c r ih =>
    obtain ⟨j, y⟩ := c
    by_cases h : j = i <;> simp [Cells.erase, Cells.get, h, ih]

theorem Cells.get_erase_ne (fill : α) (l : List (Nat × α)) {i j : Nat} (h : j ≠ i) :
    Cells.get fill (Cells.erase i l) j = Cells.get fill l j := by
  induction l with
  | nil => rfl
  | cons c r ih =>
    obtain ⟨k, y⟩ := c
    by_cases hk : k = i
    · simp [Cells.erase, Cells.get, hk, ih, Ne.symm h]
    · simp [Cells.erase, Cells.get, hk, ih]

/-- Inserting an index the list does not hold. -/
theorem Cells.get_insert_erase (fill x : α) (l : List (Nat × α)) (i j : Nat) :
    Cells.get fill (Cells.insert i x (Cells.erase i l)) j
      = if j = i then x else Cells.get fill l j := by
  induction l with
  | nil =>
    by_cases h : j = i
    · simp [Cells.erase, Cells.insert, Cells.get, h]
    · simp [Cells.erase, Cells.insert, Cells.get, h, Ne.symm h]
  | cons c r ih =>
    obtain ⟨k, y⟩ := c
    by_cases hk : k = i
    · subst hk
      by_cases h : j = k
      · subst h; simpa [Cells.erase] using ih
      · simp [Cells.erase, Cells.get, ih, h, Ne.symm h]
    · by_cases hlt : i < k
      · simp only [Cells.erase, hk, if_false, Cells.insert, hlt, if_true, Cells.get]
        by_cases h : j = i
        · simp [h]
        · simp [h, Ne.symm h, Cells.get_erase_ne fill r h]
      · simp only [Cells.erase, hk, if_false, Cells.insert, hlt, Cells.get, ih]
        by_cases h : k = j
        · subst h; simp [hk]
        · simp [h]

/-- What is read after a write: the value there, the old value elsewhere. -/
theorem Cells.get_set [DecidableEq α] (fill : α) (l : List (Nat × α)) (i j : Nat) (x : α) :
    Cells.get fill (Cells.set fill l i x) j = if j = i then x else Cells.get fill l j := by
  by_cases hx : x = fill
  · by_cases h : j = i
    · simp [Cells.set, hx, h]
    · simp [Cells.set, hx, h, Cells.get_erase_ne fill l h]
  · simp [Cells.set, hx, Cells.get_insert_erase]

/-- What is read from a store made of consecutive entries. -/
theorem Cells.get_ofDense [DecidableEq α] (fill : α) (xs : List α) (i j : Nat) :
    Cells.get fill (Cells.ofDense fill i xs) j = if i ≤ j then xs.getD (j - i) fill else fill := by
  induction xs generalizing i with
  | nil => simp [Cells.ofDense, Cells.get]
  | cons x r ih =>
    have step : Cells.get fill (Cells.ofDense fill (i + 1) r) j
        = if i + 1 ≤ j then r.getD (j - (i + 1)) fill else fill := ih (i + 1)
    rcases Nat.lt_trichotomy j i with h | h | h
    · by_cases hx : x = fill <;>
        simp [Cells.ofDense, Cells.get, hx, step, Nat.not_le.mpr h, show ¬ i + 1 ≤ j by omega, show i ≠ j by omega]
    · subst h
      by_cases hx : x = fill <;> simp [Cells.ofDense, Cells.get, hx, step]
    · have e : j - i = (j - (i + 1)) + 1 := by omega
      by_cases hx : x = fill <;>
        simp [Cells.ofDense, Cells.get, hx, step, show i ≤ j by omega, show i + 1 ≤ j by omega, show i ≠ j by omega, e]

/-! ## The canonical form -/

theorem Cells.wfFrom_weaken [DecidableEq α] {fill : α} {bound lo lo' : Nat} {l : List (Nat × α)}
    (h : Cells.wfFrom fill bound lo l = true) (hle : lo' ≤ lo) : Cells.wfFrom fill bound lo' l = true := by
  cases l with
  | nil => rfl
  | cons c r =>
    obtain ⟨j, x⟩ := c
    simp only [Cells.wfFrom, Bool.and_eq_true, decide_eq_true_eq] at h ⊢
    exact ⟨⟨⟨by omega, h.1.1.2⟩, h.1.2⟩, h.2⟩

theorem Cells.wfFrom_erase [DecidableEq α] {fill : α} {bound lo : Nat} {l : List (Nat × α)} (i : Nat)
    (h : Cells.wfFrom fill bound lo l = true) : Cells.wfFrom fill bound lo (Cells.erase i l) = true := by
  induction l generalizing lo with
  | nil => rfl
  | cons c r ih =>
    obtain ⟨j, x⟩ := c
    simp only [Cells.wfFrom, Bool.and_eq_true, decide_eq_true_eq] at h
    by_cases hj : j = i
    · simpa [Cells.erase, hj] using Cells.wfFrom_weaken (ih h.2) (by omega : lo ≤ j + 1)
    · simp only [Cells.erase, hj, if_false, Cells.wfFrom, Bool.and_eq_true, decide_eq_true_eq]
      exact ⟨h.1, ih h.2⟩

theorem Cells.wfFrom_insert_erase [DecidableEq α] {fill x : α} {bound lo i : Nat} {l : List (Nat × α)}
    (h : Cells.wfFrom fill bound lo l = true) (hlo : lo ≤ i) (hi : i < bound) (hx : x ≠ fill) :
    Cells.wfFrom fill bound lo (Cells.insert i x (Cells.erase i l)) = true := by
  induction l generalizing lo with
  | nil => simp [Cells.erase, Cells.insert, Cells.wfFrom, hlo, hi, hx]
  | cons c r ih =>
    obtain ⟨j, y⟩ := c
    simp only [Cells.wfFrom, Bool.and_eq_true, decide_eq_true_eq] at h
    by_cases hj : j = i
    · simp only [Cells.erase, hj, if_true]
      exact ih (Cells.wfFrom_weaken h.2 (by omega)) hlo
    · by_cases hlt : i < j
      · simp only [Cells.erase, hj, if_false, Cells.insert, hlt, if_true, Cells.wfFrom, Bool.and_eq_true,
          decide_eq_true_eq]
        exact ⟨⟨⟨hlo, hi⟩, hx⟩, ⟨⟨by omega, h.1.1.2⟩, h.1.2⟩, Cells.wfFrom_erase i h.2⟩
      · simp only [Cells.erase, hj, if_false, Cells.insert, hlt, Cells.wfFrom, Bool.and_eq_true,
          decide_eq_true_eq]
        exact ⟨h.1, ih h.2 (by omega)⟩

/-- A write inside the range keeps the canonical form. -/
theorem Cells.wfFrom_set [DecidableEq α] {fill : α} {bound : Nat} {l : List (Nat × α)} {i : Nat} (x : α)
    (h : Cells.wfFrom fill bound 0 l = true) (hi : i < bound) :
    Cells.wfFrom fill bound 0 (Cells.set fill l i x) = true := by
  by_cases hx : x = fill
  · simpa [Cells.set, hx] using Cells.wfFrom_erase i h
  · simpa [Cells.set, hx] using Cells.wfFrom_insert_erase h (Nat.zero_le i) hi hx

/-- Consecutive entries inside the range are in canonical form. -/
theorem Cells.wfFrom_ofDense [DecidableEq α] (fill : α) {bound i : Nat} (xs : List α)
    (h : i + xs.length ≤ bound) : Cells.wfFrom fill bound i (Cells.ofDense fill i xs) = true := by
  induction xs generalizing i with
  | nil => rfl
  | cons x r ih =>
    simp only [List.length_cons] at h
    have hr := ih (i := i + 1) (by omega)
    by_cases hx : x = fill
    · simpa [Cells.ofDense, hx] using Cells.wfFrom_weaken hr (by omega : i ≤ i + 1)
    · simpa [Cells.ofDense, hx, Cells.wfFrom, hr] using (by omega : i < bound)

/-- In canonical form an index below the start is not listed. -/
theorem Cells.get_of_lt [DecidableEq α] {fill : α} {bound lo j : Nat} {l : List (Nat × α)}
    (h : Cells.wfFrom fill bound lo l = true) (hj : j < lo) : Cells.get fill l j = fill := by
  induction l generalizing lo with
  | nil => rfl
  | cons c r ih =>
    obtain ⟨k, x⟩ := c
    simp only [Cells.wfFrom, Bool.and_eq_true, decide_eq_true_eq] at h
    simp [Cells.get, show k ≠ j by omega, ih h.2 (by omega)]

/-- Canonical stores that read alike are equal. -/
theorem Cells.ext [DecidableEq α] {fill : α} {bound lo : Nat} {l l' : List (Nat × α)}
    (h : Cells.wfFrom fill bound lo l = true) (h' : Cells.wfFrom fill bound lo l' = true)
    (e : ∀ i, Cells.get fill l i = Cells.get fill l' i) : l = l' := by
  induction l generalizing l' lo with
  | nil =>
    cases l' with
    | nil => rfl
    | cons c' r' =>
      obtain ⟨j, x⟩ := c'
      simp only [Cells.wfFrom, Bool.and_eq_true, decide_eq_true_eq] at h'
      exact absurd (by simpa [Cells.get] using (e j).symm) h'.1.2
  | cons c r ih =>
    obtain ⟨j, x⟩ := c
    have hc := h
    simp only [Cells.wfFrom, Bool.and_eq_true, decide_eq_true_eq] at h
    cases l' with
    | nil => exact absurd (by simpa [Cells.get] using e j) h.1.2
    | cons c' r' =>
      obtain ⟨k, y⟩ := c'
      have hc' := h'
      simp only [Cells.wfFrom, Bool.and_eq_true, decide_eq_true_eq] at h'
      have hjk : j = k := by
        rcases Nat.lt_trichotomy j k with hlt | heq | hgt
        · have := e j
          simp [Cells.get, show k ≠ j by omega, Cells.get_of_lt h'.2 (by omega : j < k + 1)] at this
          exact absurd this h.1.2
        · exact heq
        · have := e k
          simp [Cells.get, show j ≠ k by omega, Cells.get_of_lt h.2 (by omega : k < j + 1)] at this
          exact absurd this.symm h'.1.2
      subst hjk
      have hxy : x = y := by simpa [Cells.get] using e j
      subst hxy
      rw [ih h.2 h'.2 fun i => ?_]
      by_cases hi : j = i
      · subst hi
        rw [Cells.get_of_lt h.2 (Nat.lt_succ_self j), Cells.get_of_lt h'.2 (Nat.lt_succ_self j)]
      · simpa [Cells.get, hi] using e i

/-! ## Memory -/

theorem Memory.read_write (m : Memory) (a b : Word) (v : Byte) :
    (m.write a v).read b = if b = a then v else m.read b := by
  simp only [Memory.read, Memory.write, Cells.get_set]
  by_cases h : b = a
  · simp [h]
  · have : b.toNat ≠ a.toNat := fun e => h (BitVec.eq_of_toNat_eq e)
    simp [h, this]

@[simp] theorem Memory.read_write_same (m : Memory) (a : Word) (v : Byte) : (m.write a v).read a = v := by
  simp [Memory.read_write]

theorem Memory.read_write_ne (m : Memory) {a b : Word} (v : Byte) (h : b ≠ a) :
    (m.write a v).read b = m.read b := by simp [Memory.read_write, h]

theorem Memory.wf_write {m : Memory} (h : Memory.wf m = true) (a : Word) (v : Byte) :
    Memory.wf (m.write a v) = true :=
  Cells.wfFrom_set v h a.isLt

theorem Memory.wf_scramble (draw : Nat) (base : Word) (i n : Nat) {m : Memory} (h : Memory.wf m = true) :
    Memory.wf (Memory.scramble draw base i n m) = true := by
  induction n generalizing i m with
  | zero => exact h
  | succ n ih => exact ih (i + 1) (Memory.wf_write h _ _)

/-! ## Tables -/

theorem Table.get_set {w : Nat} (t : Table w) (i j : Nat) (v : BitVec w) :
    (t.set i v).get j = if j = i then v else t.get j := Cells.get_set 0 t i j v

theorem Slots.get_set (t : Slots) (i j : Nat) (v : BitVec 16) :
    (t.set i v).get j = if j = i then v else t.get j := Cells.get_set sentinel t i j v

theorem Table.get_ofList {w : Nat} (vs : List Nat) (i : Nat) :
    (Table.ofList w vs).get i = BitVec.ofNat w (vs.getD i 0) := by
  rw [Table.ofList, Table.get, Cells.get_ofDense]
  rcases Nat.lt_or_ge i vs.length with h | h <;> simp [h]

theorem Table.wf_set {w n i : Nat} {t : Table w} (v : BitVec w) (h : Table.wf n t = true) (hi : i < n) :
    Table.wf n (t.set i v) = true := Cells.wfFrom_set v h hi

theorem Slots.wf_set {t : Slots} {i : Nat} (v : BitVec 16) (h : Slots.wf t = true) (hi : i < windowSize) :
    Slots.wf (t.set i v) = true := Cells.wfFrom_set v h hi

theorem Table.wf_ofList (w : Nat) {n : Nat} (vs : List Nat) (h : vs.length ≤ n) :
    Table.wf n (Table.ofList w vs) = true := Cells.wfFrom_ofDense 0 _ (by simpa using h)

@[simp] theorem Table.length_toList {w : Nat} (t : Table w) (n : Nat) : (t.toList n).length = n := by
  simp [Table.toList]

theorem Table.getD_toList {w : Nat} (t : Table w) (n i : Nat) :
    (t.toList n).getD i 0 = if i < n then (t.get i).toNat else 0 := by
  rcases Nat.lt_or_ge i n with h | h
  · simp [Table.toList, h]
  · simp [Table.toList, Nat.not_lt.mpr h]

@[simp] theorem Trio.table_put_same {w : Nat} (t : Trio w) (x : Alphabet) (v : Table w) :
    (t.put x v).table x = v := by cases x <;> rfl

theorem Trio.table_put_ne {w : Nat} (t : Trio w) {x y : Alphabet} (v : Table w) (h : y ≠ x) :
    (t.put x v).table y = t.table y := by cases x <;> cases y <;> first | rfl | exact absurd rfl h

theorem Trio.wf_iff {w : Nat} (n : Alphabet → Nat) (t : Trio w) :
    Trio.wf n t = true ↔ ∀ x, Table.wf (n x) (t.table x) = true := by
  refine ⟨fun h x => ?_, fun h => ?_⟩
  · simp only [Trio.wf, Bool.and_eq_true] at h
    cases x
    · exact h.1.1
    · exact h.1.2
    · exact h.2
  · simpa only [Trio.wf, Bool.and_eq_true] using ⟨⟨h .litlen, h .offset⟩, h .precode⟩

theorem Trio.wf_put {w : Nat} {n : Alphabet → Nat} {t : Trio w} {x : Alphabet} {v : Table w}
    (h : Trio.wf n t = true) (hv : Table.wf (n x) v = true) : Trio.wf n (t.put x v) = true := by
  rw [Trio.wf_iff] at h ⊢
  intro y
  by_cases e : y = x
  · subst e; simpa using hv
  · simpa [Trio.table_put_ne t v e] using h y

@[simp] theorem Trio.wf_empty {w : Nat} (n : Alphabet → Nat) : Trio.wf n (Trio.empty w) = true := rfl

theorem Table.wf_freeTable (draw space w n : Nat) : Table.wf n (freeTable draw space w n) = true :=
  Cells.wfFrom_ofDense 0 _ (by simp)

theorem Slots.wf_freeSlots (draw space : Nat) : Slots.wf (freeSlots draw space) = true :=
  Cells.wfFrom_ofDense sentinel _ (by simp)

end Sys2Proof.Machine
end

