-- ==== Sys2Proof/Laws/State.lean ====
section
/-! SUPPORT. What each update of the state leaves in each field: one lemma a field, true by `rfl`, so
that no later proof unfolds a record update. -/

namespace Sys2Proof.Machine

/-! ## `setA4` -/

@[simp] theorem State.setA4_handle (s : State) (v : Nat) : (s.setA4 v).handle = s.handle := rfl
@[simp] theorem State.setA4_mf (s : State) (v : Nat) : (s.setA4 v).mf = s.mf := rfl
@[simp] theorem State.setA4_cp (s : State) (v : Nat) : (s.setA4 v).cp = s.cp := rfl
@[simp] theorem State.setA4_freq (s : State) (v : Nat) : (s.setA4 v).freq = s.freq := rfl
@[simp] theorem State.setA4_lens (s : State) (v : Nat) : (s.setA4 v).lens = s.lens := rfl
@[simp] theorem State.setA4_code (s : State) (v : Nat) : (s.setA4 v).code = s.code := rfl
@[simp] theorem State.setA4_hb (s : State) (v : Nat) : (s.setA4 v).hb = s.hb := rfl
@[simp] theorem State.setA4_dtab (s : State) (v : Nat) : (s.setA4 v).dtab = s.dtab := rfl
@[simp] theorem State.setA4_bw (s : State) (v : Nat) : (s.setA4 v).bw = s.bw := rfl
@[simp] theorem State.setA4_br (s : State) (v : Nat) : (s.setA4 v).br = s.br := rfl
@[simp] theorem State.setA4_dx (s : State) (v : Nat) : (s.setA4 v).dx = s.dx := rfl
@[simp] theorem State.setA4_mem (s : State) (v : Nat) : (s.setA4 v).mem = s.mem := rfl
@[simp] theorem State.setA4_cfg (s : State) (v : Nat) : (s.setA4 v).cfg = s.cfg := rfl
@[simp] theorem State.setA4_host (s : State) (v : Nat) : (s.setA4 v).host = s.host := rfl
@[simp] theorem State.setA4_rdata (s : State) (v : Nat) : (s.setA4 v).rdata = s.rdata := rfl
@[simp] theorem State.setA4_draws (s : State) (v : Nat) : (s.setA4 v).draws = s.draws := rfl
@[simp] theorem State.setA4_a0 (s : State) (v : Nat) : (s.setA4 v).port.a0 = s.port.a0 := rfl
@[simp] theorem State.setA4_a1 (s : State) (v : Nat) : (s.setA4 v).port.a1 = s.port.a1 := rfl
@[simp] theorem State.setA4_a2 (s : State) (v : Nat) : (s.setA4 v).port.a2 = s.port.a2 := rfl
@[simp] theorem State.setA4_a3 (s : State) (v : Nat) : (s.setA4 v).port.a3 = s.port.a3 := rfl
@[simp] theorem State.setA4_a4 (s : State) (v : Nat) : (s.setA4 v).port.a4 = BitVec.ofNat 32 v := rfl
@[simp] theorem State.setA4_a5 (s : State) (v : Nat) : (s.setA4 v).port.a5 = s.port.a5 := rfl
@[simp] theorem State.setA4_a6 (s : State) (v : Nat) : (s.setA4 v).port.a6 = s.port.a6 := rfl
@[simp] theorem State.setA4_a7 (s : State) (v : Nat) : (s.setA4 v).port.a7 = s.port.a7 := rfl
@[simp] theorem State.setA4_cmd (s : State) (v : Nat) : (s.setA4 v).port.cmd = s.port.cmd := rfl
@[simp] theorem State.setA4_result (s : State) (v : Nat) : (s.setA4 v).port.result = s.port.result := rfl

/-! ## `setA5` -/

@[simp] theorem State.setA5_handle (s : State) (v : Nat) : (s.setA5 v).handle = s.handle := rfl
@[simp] theorem State.setA5_mf (s : State) (v : Nat) : (s.setA5 v).mf = s.mf := rfl
@[simp] theorem State.setA5_cp (s : State) (v : Nat) : (s.setA5 v).cp = s.cp := rfl
@[simp] theorem State.setA5_freq (s : State) (v : Nat) : (s.setA5 v).freq = s.freq := rfl
@[simp] theorem State.setA5_lens (s : State) (v : Nat) : (s.setA5 v).lens = s.lens := rfl
@[simp] theorem State.setA5_code (s : State) (v : Nat) : (s.setA5 v).code = s.code := rfl
@[simp] theorem State.setA5_hb (s : State) (v : Nat) : (s.setA5 v).hb = s.hb := rfl
@[simp] theorem State.setA5_dtab (s : State) (v : Nat) : (s.setA5 v).dtab = s.dtab := rfl
@[simp] theorem State.setA5_bw (s : State) (v : Nat) : (s.setA5 v).bw = s.bw := rfl
@[simp] theorem State.setA5_br (s : State) (v : Nat) : (s.setA5 v).br = s.br := rfl
@[simp] theorem State.setA5_dx (s : State) (v : Nat) : (s.setA5 v).dx = s.dx := rfl
@[simp] theorem State.setA5_mem (s : State) (v : Nat) : (s.setA5 v).mem = s.mem := rfl
@[simp] theorem State.setA5_cfg (s : State) (v : Nat) : (s.setA5 v).cfg = s.cfg := rfl
@[simp] theorem State.setA5_host (s : State) (v : Nat) : (s.setA5 v).host = s.host := rfl
@[simp] theorem State.setA5_rdata (s : State) (v : Nat) : (s.setA5 v).rdata = s.rdata := rfl
@[simp] theorem State.setA5_draws (s : State) (v : Nat) : (s.setA5 v).draws = s.draws := rfl
@[simp] theorem State.setA5_a0 (s : State) (v : Nat) : (s.setA5 v).port.a0 = s.port.a0 := rfl
@[simp] theorem State.setA5_a1 (s : State) (v : Nat) : (s.setA5 v).port.a1 = s.port.a1 := rfl
@[simp] theorem State.setA5_a2 (s : State) (v : Nat) : (s.setA5 v).port.a2 = s.port.a2 := rfl
@[simp] theorem State.setA5_a3 (s : State) (v : Nat) : (s.setA5 v).port.a3 = s.port.a3 := rfl
@[simp] theorem State.setA5_a4 (s : State) (v : Nat) : (s.setA5 v).port.a4 = s.port.a4 := rfl
@[simp] theorem State.setA5_a5 (s : State) (v : Nat) : (s.setA5 v).port.a5 = BitVec.ofNat 32 v := rfl
@[simp] theorem State.setA5_a6 (s : State) (v : Nat) : (s.setA5 v).port.a6 = s.port.a6 := rfl
@[simp] theorem State.setA5_a7 (s : State) (v : Nat) : (s.setA5 v).port.a7 = s.port.a7 := rfl
@[simp] theorem State.setA5_cmd (s : State) (v : Nat) : (s.setA5 v).port.cmd = s.port.cmd := rfl
@[simp] theorem State.setA5_result (s : State) (v : Nat) : (s.setA5 v).port.result = s.port.result := rfl

/-! ## `setA6` -/

@[simp] theorem State.setA6_handle (s : State) (v : Nat) : (s.setA6 v).handle = s.handle := rfl
@[simp] theorem State.setA6_mf (s : State) (v : Nat) : (s.setA6 v).mf = s.mf := rfl
@[simp] theorem State.setA6_cp (s : State) (v : Nat) : (s.setA6 v).cp = s.cp := rfl
@[simp] theorem State.setA6_freq (s : State) (v : Nat) : (s.setA6 v).freq = s.freq := rfl
@[simp] theorem State.setA6_lens (s : State) (v : Nat) : (s.setA6 v).lens = s.lens := rfl
@[simp] theorem State.setA6_code (s : State) (v : Nat) : (s.setA6 v).code = s.code := rfl
@[simp] theorem State.setA6_hb (s : State) (v : Nat) : (s.setA6 v).hb = s.hb := rfl
@[simp] theorem State.setA6_dtab (s : State) (v : Nat) : (s.setA6 v).dtab = s.dtab := rfl
@[simp] theorem State.setA6_bw (s : State) (v : Nat) : (s.setA6 v).bw = s.bw := rfl
@[simp] theorem State.setA6_br (s : State) (v : Nat) : (s.setA6 v).br = s.br := rfl
@[simp] theorem State.setA6_dx (s : State) (v : Nat) : (s.setA6 v).dx = s.dx := rfl
@[simp] theorem State.setA6_mem (s : State) (v : Nat) : (s.setA6 v).mem = s.mem := rfl
@[simp] theorem State.setA6_cfg (s : State) (v : Nat) : (s.setA6 v).cfg = s.cfg := rfl
@[simp] theorem State.setA6_host (s : State) (v : Nat) : (s.setA6 v).host = s.host := rfl
@[simp] theorem State.setA6_rdata (s : State) (v : Nat) : (s.setA6 v).rdata = s.rdata := rfl
@[simp] theorem State.setA6_draws (s : State) (v : Nat) : (s.setA6 v).draws = s.draws := rfl
@[simp] theorem State.setA6_a0 (s : State) (v : Nat) : (s.setA6 v).port.a0 = s.port.a0 := rfl
@[simp] theorem State.setA6_a1 (s : State) (v : Nat) : (s.setA6 v).port.a1 = s.port.a1 := rfl
@[simp] theorem State.setA6_a2 (s : State) (v : Nat) : (s.setA6 v).port.a2 = s.port.a2 := rfl
@[simp] theorem State.setA6_a3 (s : State) (v : Nat) : (s.setA6 v).port.a3 = s.port.a3 := rfl
@[simp] theorem State.setA6_a4 (s : State) (v : Nat) : (s.setA6 v).port.a4 = s.port.a4 := rfl
@[simp] theorem State.setA6_a5 (s : State) (v : Nat) : (s.setA6 v).port.a5 = s.port.a5 := rfl
@[simp] theorem State.setA6_a6 (s : State) (v : Nat) : (s.setA6 v).port.a6 = BitVec.ofNat 32 v := rfl
@[simp] theorem State.setA6_a7 (s : State) (v : Nat) : (s.setA6 v).port.a7 = s.port.a7 := rfl
@[simp] theorem State.setA6_cmd (s : State) (v : Nat) : (s.setA6 v).port.cmd = s.port.cmd := rfl
@[simp] theorem State.setA6_result (s : State) (v : Nat) : (s.setA6 v).port.result = s.port.result := rfl

/-! ## `State.withSink` -/

@[simp] theorem State.withSink_port (s : State) (k : Sink) : (s.withSink k).port = s.port := rfl
@[simp] theorem State.withSink_handle (s : State) (k : Sink) : (s.withSink k).handle = s.handle := rfl
@[simp] theorem State.withSink_mf (s : State) (k : Sink) : (s.withSink k).mf = s.mf := rfl
@[simp] theorem State.withSink_cp (s : State) (k : Sink) : (s.withSink k).cp = s.cp := rfl
@[simp] theorem State.withSink_freq (s : State) (k : Sink) : (s.withSink k).freq = s.freq := rfl
@[simp] theorem State.withSink_lens (s : State) (k : Sink) : (s.withSink k).lens = s.lens := rfl
@[simp] theorem State.withSink_code (s : State) (k : Sink) : (s.withSink k).code = s.code := rfl
@[simp] theorem State.withSink_hb (s : State) (k : Sink) : (s.withSink k).hb = s.hb := rfl
@[simp] theorem State.withSink_dtab (s : State) (k : Sink) : (s.withSink k).dtab = s.dtab := rfl
@[simp] theorem State.withSink_bw (s : State) (k : Sink) : (s.withSink k).bw = k.bw := rfl
@[simp] theorem State.withSink_br (s : State) (k : Sink) : (s.withSink k).br = s.br := rfl
@[simp] theorem State.withSink_dx (s : State) (k : Sink) : (s.withSink k).dx = s.dx := rfl
@[simp] theorem State.withSink_mem (s : State) (k : Sink) : (s.withSink k).mem = k.mem := rfl
@[simp] theorem State.withSink_cfg (s : State) (k : Sink) : (s.withSink k).cfg = s.cfg := rfl
@[simp] theorem State.withSink_host (s : State) (k : Sink) : (s.withSink k).host = s.host := rfl
@[simp] theorem State.withSink_rdata (s : State) (k : Sink) : (s.withSink k).rdata = s.rdata := rfl
@[simp] theorem State.withSink_draws (s : State) (k : Sink) : (s.withSink k).draws = s.draws := rfl

/-! ## `State.withHuff` -/

@[simp] theorem State.withHuff_port (s : State) (b : Huff) : (s.withHuff b).port = s.port := rfl
@[simp] theorem State.withHuff_handle (s : State) (b : Huff) : (s.withHuff b).handle = s.handle := rfl
@[simp] theorem State.withHuff_mf (s : State) (b : Huff) : (s.withHuff b).mf = s.mf := rfl
@[simp] theorem State.withHuff_cp (s : State) (b : Huff) : (s.withHuff b).cp = s.cp := rfl
@[simp] theorem State.withHuff_freq (s : State) (b : Huff) : (s.withHuff b).freq = b.freq := rfl
@[simp] theorem State.withHuff_lens (s : State) (b : Huff) : (s.withHuff b).lens = b.lens := rfl
@[simp] theorem State.withHuff_code (s : State) (b : Huff) : (s.withHuff b).code = b.code := rfl
@[simp] theorem State.withHuff_hb (s : State) (b : Huff) : (s.withHuff b).hb = b.hb := rfl
@[simp] theorem State.withHuff_dtab (s : State) (b : Huff) : (s.withHuff b).dtab = s.dtab := rfl
@[simp] theorem State.withHuff_bw (s : State) (b : Huff) : (s.withHuff b).bw = s.bw := rfl
@[simp] theorem State.withHuff_br (s : State) (b : Huff) : (s.withHuff b).br = s.br := rfl
@[simp] theorem State.withHuff_dx (s : State) (b : Huff) : (s.withHuff b).dx = s.dx := rfl
@[simp] theorem State.withHuff_mem (s : State) (b : Huff) : (s.withHuff b).mem = s.mem := rfl
@[simp] theorem State.withHuff_cfg (s : State) (b : Huff) : (s.withHuff b).cfg = s.cfg := rfl
@[simp] theorem State.withHuff_host (s : State) (b : Huff) : (s.withHuff b).host = s.host := rfl
@[simp] theorem State.withHuff_rdata (s : State) (b : Huff) : (s.withHuff b).rdata = s.rdata := rfl
@[simp] theorem State.withHuff_draws (s : State) (b : Huff) : (s.withHuff b).draws = s.draws := rfl

/-! ## `State.withInflate` -/

@[simp] theorem State.withInflate_port (s : State) (d : Inflate) : (s.withInflate d).port = s.port := rfl
@[simp] theorem State.withInflate_handle (s : State) (d : Inflate) : (s.withInflate d).handle = s.handle := rfl
@[simp] theorem State.withInflate_mf (s : State) (d : Inflate) : (s.withInflate d).mf = s.mf := rfl
@[simp] theorem State.withInflate_cp (s : State) (d : Inflate) : (s.withInflate d).cp = s.cp := rfl
@[simp] theorem State.withInflate_freq (s : State) (d : Inflate) : (s.withInflate d).freq = s.freq := rfl
@[simp] theorem State.withInflate_lens (s : State) (d : Inflate) : (s.withInflate d).lens = d.lens := rfl
@[simp] theorem State.withInflate_code (s : State) (d : Inflate) : (s.withInflate d).code = s.code := rfl
@[simp] theorem State.withInflate_hb (s : State) (d : Inflate) : (s.withInflate d).hb = s.hb := rfl
@[simp] theorem State.withInflate_dtab (s : State) (d : Inflate) : (s.withInflate d).dtab = d.dtab := rfl
@[simp] theorem State.withInflate_bw (s : State) (d : Inflate) : (s.withInflate d).bw = s.bw := rfl
@[simp] theorem State.withInflate_br (s : State) (d : Inflate) : (s.withInflate d).br = d.br := rfl
@[simp] theorem State.withInflate_dx (s : State) (d : Inflate) : (s.withInflate d).dx = d.dx := rfl
@[simp] theorem State.withInflate_mem (s : State) (d : Inflate) : (s.withInflate d).mem = d.mem := rfl
@[simp] theorem State.withInflate_cfg (s : State) (d : Inflate) : (s.withInflate d).cfg = s.cfg := rfl
@[simp] theorem State.withInflate_host (s : State) (d : Inflate) : (s.withInflate d).host = s.host := rfl
@[simp] theorem State.withInflate_rdata (s : State) (d : Inflate) : (s.withInflate d).rdata = s.rdata := rfl
@[simp] theorem State.withInflate_draws (s : State) (d : Inflate) : (s.withInflate d).draws = s.draws := rfl

/-! ## `State.withDeflate` -/

@[simp] theorem State.withDeflate_port (s : State) (d : Deflate) : (s.withDeflate d).port = s.port := rfl
@[simp] theorem State.withDeflate_handle (s : State) (d : Deflate) : (s.withDeflate d).handle = s.handle := rfl
@[simp] theorem State.withDeflate_mf (s : State) (d : Deflate) : (s.withDeflate d).mf = d.mf := rfl
@[simp] theorem State.withDeflate_cp (s : State) (d : Deflate) : (s.withDeflate d).cp = d.cp := rfl
@[simp] theorem State.withDeflate_freq (s : State) (d : Deflate) : (s.withDeflate d).freq = d.huff.freq := rfl
@[simp] theorem State.withDeflate_lens (s : State) (d : Deflate) : (s.withDeflate d).lens = d.huff.lens := rfl
@[simp] theorem State.withDeflate_code (s : State) (d : Deflate) : (s.withDeflate d).code = d.huff.code := rfl
@[simp] theorem State.withDeflate_hb (s : State) (d : Deflate) : (s.withDeflate d).hb = d.huff.hb := rfl
@[simp] theorem State.withDeflate_dtab (s : State) (d : Deflate) : (s.withDeflate d).dtab = s.dtab := rfl
@[simp] theorem State.withDeflate_bw (s : State) (d : Deflate) : (s.withDeflate d).bw = d.out.bw := rfl
@[simp] theorem State.withDeflate_br (s : State) (d : Deflate) : (s.withDeflate d).br = s.br := rfl
@[simp] theorem State.withDeflate_dx (s : State) (d : Deflate) : (s.withDeflate d).dx = s.dx := rfl
@[simp] theorem State.withDeflate_mem (s : State) (d : Deflate) : (s.withDeflate d).mem = d.out.mem := rfl
@[simp] theorem State.withDeflate_cfg (s : State) (d : Deflate) : (s.withDeflate d).cfg = s.cfg := rfl
@[simp] theorem State.withDeflate_host (s : State) (d : Deflate) : (s.withDeflate d).host = s.host := rfl
@[simp] theorem State.withDeflate_rdata (s : State) (d : Deflate) : (s.withDeflate d).rdata = s.rdata := rfl
@[simp] theorem State.withDeflate_draws (s : State) (d : Deflate) : (s.withDeflate d).draws = s.draws := rfl

/-! ## `State.latchCommand` -/

@[simp] theorem State.latchCommand_port (s : State) (w : Word) : (s.latchCommand w).port = { s.port with cmd := w } := rfl
@[simp] theorem State.latchCommand_handle (s : State) (w : Word) : (s.latchCommand w).handle = s.handle := rfl
@[simp] theorem State.latchCommand_mf (s : State) (w : Word) : (s.latchCommand w).mf = s.mf := rfl
@[simp] theorem State.latchCommand_cp (s : State) (w : Word) : (s.latchCommand w).cp = s.cp := rfl
@[simp] theorem State.latchCommand_freq (s : State) (w : Word) : (s.latchCommand w).freq = s.freq := rfl
@[simp] theorem State.latchCommand_lens (s : State) (w : Word) : (s.latchCommand w).lens = s.lens := rfl
@[simp] theorem State.latchCommand_code (s : State) (w : Word) : (s.latchCommand w).code = s.code := rfl
@[simp] theorem State.latchCommand_hb (s : State) (w : Word) : (s.latchCommand w).hb = s.hb := rfl
@[simp] theorem State.latchCommand_dtab (s : State) (w : Word) : (s.latchCommand w).dtab = s.dtab := rfl
@[simp] theorem State.latchCommand_bw (s : State) (w : Word) : (s.latchCommand w).bw = s.bw := rfl
@[simp] theorem State.latchCommand_br (s : State) (w : Word) : (s.latchCommand w).br = s.br := rfl
@[simp] theorem State.latchCommand_dx (s : State) (w : Word) : (s.latchCommand w).dx = s.dx := rfl
@[simp] theorem State.latchCommand_mem (s : State) (w : Word) : (s.latchCommand w).mem = s.mem := rfl
@[simp] theorem State.latchCommand_cfg (s : State) (w : Word) : (s.latchCommand w).cfg = s.cfg := rfl
@[simp] theorem State.latchCommand_host (s : State) (w : Word) : (s.latchCommand w).host = s.host := rfl
@[simp] theorem State.latchCommand_rdata (s : State) (w : Word) : (s.latchCommand w).rdata = s.rdata := rfl
@[simp] theorem State.latchCommand_draws (s : State) (w : Word) : (s.latchCommand w).draws = s.draws := rfl

/-! ## `State.clearUnits` -/

@[simp] theorem State.clearUnits_port (s : State) : (s.clearUnits).port = s.port := rfl
@[simp] theorem State.clearUnits_handle (s : State) : (s.clearUnits).handle = Handle.reset := rfl
@[simp] theorem State.clearUnits_mf (s : State) : (s.clearUnits).mf = MatchFinder.cleared (freeSlots s.draws 0) (freeSlots s.draws 1) := rfl
@[simp] theorem State.clearUnits_cp (s : State) : (s.clearUnits).cp = Sequencer.reset := rfl
@[simp] theorem State.clearUnits_freq (s : State) : (s.clearUnits).freq = freeTrio s.draws 2 32 Alphabet.slots := rfl
@[simp] theorem State.clearUnits_lens (s : State) : (s.clearUnits).lens = freeTrio s.draws 5 4 Alphabet.slots := rfl
@[simp] theorem State.clearUnits_code (s : State) : (s.clearUnits).code = freeTrio s.draws 8 16 Alphabet.slots := rfl
@[simp] theorem State.clearUnits_hb (s : State) : (s.clearUnits).hb = Builder.cleared (freeTable s.draws 14 16 316) := rfl
@[simp] theorem State.clearUnits_dtab (s : State) : (s.clearUnits).dtab = freeTrio s.draws 11 32 Alphabet.tableSize := rfl
@[simp] theorem State.clearUnits_bw (s : State) : (s.clearUnits).bw = Writer.reset := rfl
@[simp] theorem State.clearUnits_br (s : State) : (s.clearUnits).br = Reader.reset := rfl
@[simp] theorem State.clearUnits_dx (s : State) : (s.clearUnits).dx = Decomp.reset := rfl
@[simp] theorem State.clearUnits_mem (s : State) : (s.clearUnits).mem = s.mem := rfl
@[simp] theorem State.clearUnits_cfg (s : State) : (s.clearUnits).cfg = s.cfg := rfl
@[simp] theorem State.clearUnits_host (s : State) : (s.clearUnits).host = s.host := rfl
@[simp] theorem State.clearUnits_rdata (s : State) : (s.clearUnits).rdata = s.rdata := rfl
@[simp] theorem State.clearUnits_draws (s : State) : (s.clearUnits).draws = s.draws + 1 := rfl

/-! ## Views -/

@[simp] theorem State.sink_bw (s : State) : s.sink.bw = s.bw := rfl
@[simp] theorem State.sink_mem (s : State) : s.sink.mem = s.mem := rfl
@[simp] theorem State.huff_freq (s : State) : s.huff.freq = s.freq := rfl
@[simp] theorem State.huff_lens (s : State) : s.huff.lens = s.lens := rfl
@[simp] theorem State.huff_code (s : State) : s.huff.code = s.code := rfl
@[simp] theorem State.huff_hb (s : State) : s.huff.hb = s.hb := rfl
@[simp] theorem State.inflate_cfg (s : State) : s.inflate.cfg = s.cfg := rfl
@[simp] theorem State.inflate_dx (s : State) : s.inflate.dx = s.dx := rfl
@[simp] theorem State.inflate_br (s : State) : s.inflate.br = s.br := rfl
@[simp] theorem State.inflate_lens (s : State) : s.inflate.lens = s.lens := rfl
@[simp] theorem State.inflate_dtab (s : State) : s.inflate.dtab = s.dtab := rfl
@[simp] theorem State.inflate_mem (s : State) : s.inflate.mem = s.mem := rfl

/-! ## The end of a command -/

/-- A command's epilogue changes STATUS.RESULT alone. -/
theorem complete_eq (s : State) (r : Result) :
    complete s r = .next { s with port := { s.port with result := r } } := rfl

/-- The next state of a completed command. -/
@[simp] theorem complete_next (s t : State) (r : Result) :
    complete s r = .next t ↔ { s with port := { s.port with result := r } } = t := by
  simp [complete]

/-- With a handle the body runs. -/
theorem withHandle_alive {s : State} (h : s.handle.alive = true) (body : State → State × Result) :
    withHandle s body = complete (body s).1 (body s).2 := by simp [withHandle, h]

/-- Without a handle a command ends with NO_HANDLE. -/
theorem withHandle_dead {s : State} (h : s.handle.alive = false) (body : State → State × Result) :
    withHandle s body = complete s .noHandle := by simp [withHandle, h]

/-- All a command that needs a handle can do. -/
theorem withHandle_next {s t : State} {body : State → State × Result} (h : withHandle s body = .next t) :
    (s.handle.alive = true ∧ t = { (body s).1 with port := { (body s).1.port with result := (body s).2 } })
      ∨ (s.handle.alive = false ∧ t = { s with port := { s.port with result := .noHandle } }) := by
  cases ha : s.handle.alive
  · exact .inr ⟨rfl, by rw [withHandle_dead ha] at h; exact ((complete_next _ _ _).mp h).symm⟩
  · exact .inl ⟨rfl, by rw [withHandle_alive ha] at h; exact ((complete_next _ _ _).mp h).symm⟩

end Sys2Proof.Machine
end

