-- ==== Sys2Proof/Laws/Writer.lean ====
section
/-! SUPPORT. What the writer's procedures can do: where they write, what they keep, and what bytes a
whole-byte drain commits. -/

namespace Sys2Proof.Machine

/-! ## Addresses -/

theorem bufferAddr_toNat {base : Word} {i : Nat} (h : base.toNat + i < wordSpan) :
    (bufferAddr base i).toNat = base.toNat + i := by
  have hb := base.isLt
  simp only [wordSpan] at h
  simp only [bufferAddr, BitVec.toNat_add, BitVec.toNat_ofNat]
  omega

theorem bufferAddr_inj {base : Word} {i j : Nat} (hi : base.toNat + i < wordSpan)
    (hj : base.toNat + j < wordSpan) : bufferAddr base i = bufferAddr base j ↔ i = j := by
  constructor
  · intro h
    have := congrArg BitVec.toNat h
    rw [bufferAddr_toNat hi, bufferAddr_toNat hj] at this
    omega
  · rintro rfl; rfl

theorem inBuffer_bufferAddr {base : Word} {len i : Nat} (h : base.toNat + len ≤ wordSpan) (hi : i < len) :
    inBuffer base len (bufferAddr base i) := by
  have := bufferAddr_toNat (base := base) (i := i) (by omega)
  simp only [inBuffer, this]; omega

theorem word_succ_toNat {w c : Word} (h : w.toNat < c.toNat) : (w + 1).toNat = w.toNat + 1 := by
  have := c.isLt
  have one : (1 : Word).toNat = 1 := rfl
  rw [BitVec.toNat_add, one]
  omega

/-! ## Everything a writer procedure can do -/

/-- `k'` is `k` after some commits: the binding stands, an overflow stays, bytes only grow, and
memory changes in the destination only. -/
structure Sink.Extends (k k' : Sink) : Prop where
  dst : k'.bw.dst = k.bw.dst
  cap : k'.bw.cap = k.bw.cap
  ovf : k.bw.ovf = true → k'.bw.ovf = true
  nbytes_le : k.bw.nbytes.toNat ≤ k'.bw.nbytes.toNat
  mem_wf : Memory.wf k.mem = true → Memory.wf k'.mem = true
  fits : k.bw.nbytes.toNat ≤ k.bw.cap.toNat → k'.bw.nbytes.toNat ≤ k'.bw.cap.toNat
  full : (k.bw.ovf = true → k.bw.nbytes = k.bw.cap) → k.bw.nbytes.toNat ≤ k.bw.cap.toNat →
    k'.bw.ovf = true → k'.bw.nbytes = k'.bw.cap
  frame : k.bw.dst.toNat + k.bw.cap.toNat ≤ wordSpan →
    ∀ a, ¬ inBuffer k.bw.dst k.bw.cap.toNat a → k'.mem.read a = k.mem.read a

theorem Sink.Extends.refl (k : Sink) : Sink.Extends k k :=
  ⟨rfl, rfl, id, Nat.le_refl _, id, id, fun h _ => h, fun _ _ _ => rfl⟩

theorem Sink.Extends.trans {k k' k'' : Sink} (h : Sink.Extends k k') (g : Sink.Extends k' k'') :
    Sink.Extends k k'' where
  dst := g.dst.trans h.dst
  cap := g.cap.trans h.cap
  ovf := fun o => g.ovf (h.ovf o)
  nbytes_le := Nat.le_trans h.nbytes_le g.nbytes_le
  mem_wf := fun m => g.mem_wf (h.mem_wf m)
  fits := fun f => g.fits (h.fits f)
  full := fun f l => g.full (h.full f l) (h.fits l)
  frame := fun b a ha => by
    rw [g.frame (by rw [h.dst, h.cap]; exact b) a (by rw [h.dst, h.cap]; exact ha), h.frame b a ha]

/-- A change of the accumulator alone. -/
theorem Sink.Extends.pending (k : Sink) (acc : BitVec 64) (nbits : BitVec 7) :
    Sink.Extends k { k with bw := { k.bw with acc := acc, nbits := nbits } } :=
  ⟨rfl, rfl, id, Nat.le_refl _, id, id, fun h _ => h, fun _ _ _ => rfl⟩

theorem Sink.putByte_room {k : Sink} (h : k.bw.nbytes.toNat < k.bw.cap.toNat) (b : Byte) :
    k.putByte b = ⟨{ k.bw with nbytes := k.bw.nbytes + 1 },
      k.mem.write (bufferAddr k.bw.dst k.bw.nbytes.toNat) b⟩ := by simp [Sink.putByte, h]

theorem Sink.putByte_full {k : Sink} (h : k.bw.cap.toNat ≤ k.bw.nbytes.toNat) (b : Byte) :
    k.putByte b = ⟨{ k.bw with ovf := true }, k.mem⟩ := by simp [Sink.putByte, Nat.not_lt.mpr h]

@[simp] theorem Sink.putByte_acc (k : Sink) (b : Byte) : (k.putByte b).bw.acc = k.bw.acc := by
  rcases Nat.lt_or_ge k.bw.nbytes.toNat k.bw.cap.toNat with h | h
  · simp [Sink.putByte_room h]
  · simp [Sink.putByte_full h]

@[simp] theorem Sink.putByte_nbits (k : Sink) (b : Byte) : (k.putByte b).bw.nbits = k.bw.nbits := by
  rcases Nat.lt_or_ge k.bw.nbytes.toNat k.bw.cap.toNat with h | h
  · simp [Sink.putByte_room h]
  · simp [Sink.putByte_full h]

theorem Sink.extends_putByte (k : Sink) (b : Byte) : Sink.Extends k (k.putByte b) := by
  rcases Nat.lt_or_ge k.bw.nbytes.toNat k.bw.cap.toNat with h | h
  · rw [Sink.putByte_room h]
    have hs := word_succ_toNat h
    refine ⟨rfl, rfl, id, by simp only [hs]; omega, fun m => Memory.wf_write m _ _, fun _ => by simp only [hs]; omega,
      fun f _ o => absurd (congrArg BitVec.toNat (f o)) (by omega), fun hb a ha => Memory.read_write_ne _ _ ?_⟩
    rintro rfl
    exact ha (inBuffer_bufferAddr hb h)
  · rw [Sink.putByte_full h]
    exact ⟨rfl, rfl, fun _ => rfl, Nat.le_refl _, id, id,
      fun _ l _ => BitVec.eq_of_toNat_eq (Nat.le_antisymm l h), fun _ _ _ => rfl⟩

theorem Sink.extends_drain (n : Nat) (k : Sink) : Sink.Extends k (Sink.drain n k) := by
  induction n generalizing k with
  | zero => exact Sink.Extends.refl k
  | succ n ih =>
    exact ((Sink.extends_putByte k _).trans (Sink.Extends.pending _ _ _)).trans (ih _)

theorem Sink.extends_put (k : Sink) (v n : Nat) : Sink.Extends k (k.put v n) :=
  ((Sink.Extends.pending k _ k.bw.nbits).trans (Sink.extends_drain _ _)).trans (Sink.Extends.pending _ _ _)

theorem Sink.extends_align (k : Sink) : Sink.Extends k k.align := by
  unfold Sink.align
  split
  · exact (Sink.extends_putByte k _).trans (Sink.Extends.pending _ _ _)
  · exact Sink.Extends.refl k

theorem Sink.extends_putBytes (base : Word) (i n : Nat) (k : Sink) :
    Sink.Extends k (Sink.putBytes base i n k) := by
  induction n generalizing i k with
  | zero => exact Sink.Extends.refl k
  | succ n ih => exact (Sink.extends_putByte k _).trans (ih _ _)

/-! ## Pending bits -/

@[simp] theorem Sink.drain_nbits (n : Nat) (k : Sink) : (Sink.drain n k).bw.nbits = k.bw.nbits := by
  induction n generalizing k with
  | zero => rfl
  | succ n ih => simp [Sink.drain, ih]

theorem Sink.drain_acc (n : Nat) (k : Sink) : (Sink.drain n k).bw.acc = k.bw.acc >>> (8 * n) := by
  induction n generalizing k with
  | zero => simp [Sink.drain]
  | succ n ih => simp [Sink.drain, ih, ← BitVec.shiftRight_add, Nat.mul_add, Nat.add_comm]

theorem Sink.put_nbits (k : Sink) (v n : Nat) :
    (k.put v n).bw.nbits.toNat = (k.bw.nbits.toNat + n) % 8 := by
  simp only [Sink.put, BitVec.toNat_ofNat]; omega

/-- The accumulator after `Put`: what is left of the old bits and the new ones above them. -/
theorem Sink.put_acc (k : Sink) (v n : Nat) :
    (k.put v n).bw.acc
      = (k.bw.acc ||| (BitVec.ofNat 64 v <<< k.bw.nbits.toNat)) >>> (8 * ((k.bw.nbits.toNat + n) / 8)) := by
  simp [Sink.put, Sink.drain_acc]

/-- Fewer bits than a byte are held, and no stray bit above them (rule R65). -/
def Writer.packed (w : Writer) : Prop := w.nbits.toNat < 8 ∧ w.acc.toNat < 2 ^ w.nbits.toNat

theorem Sink.packed_put {k : Sink} {v n : Nat} (h : k.bw.packed) (hn : n ≤ 32) (hv : v < 2 ^ n) :
    (k.put v n).bw.packed := by
  obtain ⟨h8, ha⟩ := h
  refine ⟨by rw [Sink.put_nbits]; omega, ?_⟩
  rw [Sink.put_acc, Sink.put_nbits, BitVec.toNat_ushiftRight, Nat.shiftRight_eq_div_pow]
  have hlt : (k.bw.acc ||| (BitVec.ofNat 64 v <<< k.bw.nbits.toNat)).toNat < 2 ^ (k.bw.nbits.toNat + n) := by
    rw [BitVec.toNat_or]
    refine Nat.or_lt_two_pow (Nat.lt_of_lt_of_le ha (Nat.pow_le_pow_right (by decide) (by omega))) ?_
    rw [BitVec.toNat_shiftLeft, BitVec.toNat_ofNat, Nat.shiftLeft_eq]
    calc v % 2 ^ 64 * 2 ^ k.bw.nbits.toNat % 2 ^ 64 ≤ v * 2 ^ k.bw.nbits.toNat :=
          Nat.le_trans (Nat.mod_le _ _) (Nat.mul_le_mul_right _ (Nat.mod_le _ _))
      _ < 2 ^ n * 2 ^ k.bw.nbits.toNat := Nat.mul_lt_mul_of_pos_right hv (Nat.two_pow_pos _)
      _ = 2 ^ (k.bw.nbits.toNat + n) := by rw [← Nat.pow_add, Nat.add_comm]
  rw [Nat.div_lt_iff_lt_mul (Nat.two_pow_pos _), ← Nat.pow_add]
  exact Nat.lt_of_lt_of_le hlt (Nat.pow_le_pow_right (by decide) (by omega))

theorem Sink.packed_align {k : Sink} (h : k.bw.packed) : k.align.bw.packed := by
  unfold Sink.align
  split
  · exact ⟨by simp, by simp⟩
  · exact h

@[simp] theorem Sink.packed_putByte (k : Sink) (b : Byte) : (k.putByte b).bw.packed ↔ k.bw.packed := by
  simp [Writer.packed]

theorem Sink.packed_putBytes (base : Word) (i n : Nat) {k : Sink} (h : k.bw.packed) :
    (Sink.putBytes base i n k).bw.packed := by
  induction n generalizing i k with
  | zero => exact h
  | succ n ih => exact ih _ ((Sink.packed_putByte k _).mpr h)

/-! ## Overflow -/

/-- A full writer commits nothing more (rule R327). -/
theorem Sink.drain_overflowed {k : Sink} (hf : k.bw.nbytes = k.bw.cap) (ho : k.bw.ovf = true) (n : Nat) :
    (Sink.drain n k).mem = k.mem ∧ (Sink.drain n k).bw.nbytes = k.bw.nbytes := by
  induction n generalizing k with
  | zero => exact ⟨rfl, rfl⟩
  | succ n ih =>
    have e := Sink.putByte_full (k := k) (by rw [hf]) (k.bw.acc.setWidth 8)
    simp only [Sink.drain, e]
    obtain ⟨h1, h2⟩ := @ih ⟨{ k.bw with acc := k.bw.acc >>> 8, ovf := true }, k.mem⟩ hf rfl
    exact ⟨h1, h2⟩

/-! ## The bytes a drain commits -/

theorem Sink.drain_room {n : Nat} {k : Sink} (h : k.bw.nbytes.toNat + n ≤ k.bw.cap.toNat) :
    (Sink.drain n k).bw.nbytes.toNat = k.bw.nbytes.toNat + n ∧ (Sink.drain n k).bw.ovf = k.bw.ovf := by
  induction n generalizing k with
  | zero => exact ⟨rfl, rfl⟩
  | succ n ih =>
    have hlt : k.bw.nbytes.toNat < k.bw.cap.toNat := by omega
    have e := Sink.putByte_room hlt (k.bw.acc.setWidth 8)
    have hs := word_succ_toNat hlt
    simp only [Sink.drain, e]
    obtain ⟨h1, h2⟩ := @ih ⟨{ k.bw with nbytes := k.bw.nbytes + 1, acc := k.bw.acc >>> 8 },
      k.mem.write (bufferAddr k.bw.dst k.bw.nbytes.toNat) (k.bw.acc.setWidth 8)⟩ (by simp only [hs]; omega)
    exact ⟨by rw [h1]; simp only [hs]; omega, h2⟩

/-- Byte `j` of the destination after a drain that fits: one of the accumulator's bytes, or the old byte. -/
theorem Sink.drain_read {n : Nat} {k : Sink} (h : k.bw.nbytes.toNat + n ≤ k.bw.cap.toNat)
    (hb : k.bw.dst.toNat + k.bw.cap.toNat ≤ wordSpan) {j : Nat} (hj : j < k.bw.cap.toNat) :
    (Sink.drain n k).mem.read (bufferAddr k.bw.dst j)
      = if k.bw.nbytes.toNat ≤ j ∧ j < k.bw.nbytes.toNat + n
        then (k.bw.acc >>> (8 * (j - k.bw.nbytes.toNat))).setWidth 8
        else k.mem.read (bufferAddr k.bw.dst j) := by
  induction n generalizing k with
  | zero =>
    simp [Sink.drain]
  | succ n ih =>
    have hlt : k.bw.nbytes.toNat < k.bw.cap.toNat := by omega
    have e := Sink.putByte_room hlt (k.bw.acc.setWidth 8)
    have hs := word_succ_toNat hlt
    simp only [Sink.drain, e]
    have := @ih ⟨{ k.bw with nbytes := k.bw.nbytes + 1, acc := k.bw.acc >>> 8 },
      k.mem.write (bufferAddr k.bw.dst k.bw.nbytes.toNat) (k.bw.acc.setWidth 8)⟩ (by simp only [hs]; omega) hb hj
    rw [this]
    simp only [hs]
    rcases Nat.lt_trichotomy j k.bw.nbytes.toNat with hl | he | hg
    · have hne : bufferAddr k.bw.dst j ≠ bufferAddr k.bw.dst k.bw.nbytes.toNat := by
        rw [ne_eq, bufferAddr_inj (by omega) (by omega)]; omega
      rw [if_neg (by omega), if_neg (by omega), Memory.read_write_ne _ _ hne]
    · subst he
      rw [if_neg (by omega), if_pos (by omega)]
      simp
    · have hne : bufferAddr k.bw.dst j ≠ bufferAddr k.bw.dst k.bw.nbytes.toNat := by
        rw [ne_eq, bufferAddr_inj (by omega) (by omega)]; omega
      by_cases hin : j < k.bw.nbytes.toNat + (n + 1)
      · rw [if_pos (by omega), if_pos (by omega), ← BitVec.shiftRight_add]
        congr 2
        omega
      · rw [if_neg (by omega), if_neg (by omega), Memory.read_write_ne _ _ hne]

end Sys2Proof.Machine
end

