-- ==== Sys2Proof/Laws/MatchFinder.lean ====
section
/-! SUPPORT. What the match-finder's procedures can do: a reported match is verified, one position is
passed at a time, the slots keep their form. -/

namespace Sys2Proof.Machine

/-! ## Comparing and walking -/

theorem MatchFinder.matchLen_spec (mf : MatchFinder) (m : Memory) (n b a : Nat) :
    mf.matchLen m n b a ≤ n ∧ ∀ k, k < mf.matchLen m n b a → mf.byteAt m (b + k) = mf.byteAt m (a + k) := by
  induction n generalizing b a with
  | zero => simp [MatchFinder.matchLen]
  | succ n ih =>
    unfold MatchFinder.matchLen
    split
    · rename_i heq
      obtain ⟨hle, hb⟩ := ih (b + 1) (a + 1)
      refine ⟨by omega, fun k hk => ?_⟩
      cases k with
      | zero => exact heq
      | succ k =>
        have := hb k (by omega)
        rwa [show b + (k + 1) = b + 1 + k by omega, show a + (k + 1) = a + 1 + k by omega]
    · simp

/-- A verified candidate at input index `base + cur` (rule R200). -/
def MatchFinder.verified (mf : MatchFinder) (m : Memory) (cur maxLen : Nat) (r : Nat × Nat) : Prop :=
  r.1 ≤ maxLen ∧ 1 ≤ r.2 ∧ r.2 ≤ 32767 ∧ r.2 ≤ mf.base.toNat + cur
    ∧ ∀ k, k < r.1 → mf.byteAt m (mf.base.toNat + cur + k) = mf.byteAt m (mf.base.toNat + cur + k - r.2)

theorem inWindow_spec {base cur : Nat} {v : BitVec 16} (h : inWindow base v cur = true) :
    (cur : Int) - 32768 < v.toInt ∧ v.toInt < (cur : Int) ∧ 0 ≤ (base : Int) + v.toInt := by
  simpa [inWindow, and_assoc] using h

/-- The walk answers what it was given, or something longer that is verified (rules R206, R208). -/
theorem MatchFinder.walk_spec (mf : MatchFinder) (m : Memory) (cur maxLen nice depth : Nat) (node : BitVec 16)
    (bl bo : Nat) :
    mf.walk m cur maxLen nice depth node bl bo = (bl, bo)
      ∨ (bl < (mf.walk m cur maxLen nice depth node bl bo).1
          ∧ mf.verified m cur maxLen (mf.walk m cur maxLen nice depth node bl bo)) := by
  induction depth generalizing node bl bo with
  | zero => exact .inl rfl
  | succ depth ih =>
    unfold MatchFinder.walk
    split
    · rename_i hw
      obtain ⟨hlo, hhi, hbase⟩ := inWindow_spec hw
      simp only []
      obtain ⟨hle, hbytes⟩ := mf.matchLen_spec m maxLen ((mf.base.toNat : Int) + node.toInt).toNat
        (mf.base.toNat + cur)
      have hv : mf.verified m cur maxLen (mf.matchLen m maxLen ((mf.base.toNat : Int) + node.toInt).toNat
          (mf.base.toNat + cur), ((cur : Int) - node.toInt).toNat) := by
        refine ⟨hle, by simp only []; omega, by simp only []; omega, by simp only []; omega, fun k hk => ?_⟩
        have := hbytes k hk
        rw [← this]
        congr 1
        simp only []; omega
      split
      · rename_i hlt
        split
        · exact .inr ⟨hlt, hv⟩
        · rcases ih (mf.next.get (nextSlot node)) _ _ with h | h
          · rw [h]; exact .inr ⟨hlt, hv⟩
          · exact .inr ⟨Nat.lt_trans hlt h.1, h.2⟩
      · exact ih _ _ _
    · exact .inl rfl

/-! ## Sliding -/

theorem satSub_sentinel : satSub sentinel = sentinel := by decide

/-- Every slot after a slide is its saturated old value (rule R209). -/
theorem Slots.get_rebase {t : Slots} {bound lo : Nat} (h : Cells.wfFrom sentinel bound lo t = true) (i : Nat) :
    t.rebase.get i = satSub (t.get i) := by
  induction t generalizing lo with
  | nil => exact satSub_sentinel.symm
  | cons c r ih =>
    obtain ⟨j, v⟩ := c
    simp only [Cells.wfFrom, Bool.and_eq_true, decide_eq_true_eq] at h
    have hr := ih h.2
    unfold Slots.rebase
    by_cases hs : satSub v = sentinel
    · rw [if_pos hs]
      by_cases hj : j = i
      · subst hj
        rw [hr]
        have : Slots.get r j = sentinel := Cells.get_of_lt h.2 (Nat.lt_succ_self j)
        rw [this, satSub_sentinel]
        simp [Slots.get, Cells.get, hs]
      · rw [hr]; simp [Slots.get, Cells.get, hj]
    · rw [if_neg hs]
      by_cases hj : j = i
      · simp [Slots.get, Cells.get, hj]
      · simpa [Slots.get, Cells.get, hj] using hr

theorem Slots.wfFrom_rebase {t : Slots} {bound lo : Nat} (h : Cells.wfFrom sentinel bound lo t = true) :
    Cells.wfFrom sentinel bound lo t.rebase = true := by
  induction t generalizing lo with
  | nil => rfl
  | cons c r ih =>
    obtain ⟨j, v⟩ := c
    simp only [Cells.wfFrom, Bool.and_eq_true, decide_eq_true_eq] at h
    unfold Slots.rebase
    by_cases hs : satSub v = sentinel
    · rw [if_pos hs]; exact Cells.wfFrom_weaken (ih h.2) (by omega)
    · rw [if_neg hs]
      simp only [Cells.wfFrom, Bool.and_eq_true, decide_eq_true_eq]
      exact ⟨⟨h.1.1, hs⟩, ih h.2⟩

/-! ## Positions -/

theorem hash3_lt (a b c : Byte) : hash3 a b c < windowSize := by
  unfold hash3 windowSize
  rw [Nat.div_lt_iff_lt_mul (by decide)]
  exact Nat.mod_lt _ (by decide)

theorem nextSlot_lt (v : BitVec 16) : nextSlot v < windowSize := Nat.mod_lt _ (by decide)

/-- `mf'` is `mf` past `n` positions of the same buffer. -/
structure MatchFinder.Passes (n : Nat) (mf mf' : MatchFinder) : Prop where
  src : mf'.src = mf.src
  len : mf'.len = mf.len
  cur : mf.cur + n ≤ mf.len.toNat → mf.pos.toNat ≤ windowSize → mf'.cur = mf.cur + n
  pos : mf.pos.toNat ≤ windowSize → mf'.pos.toNat ≤ windowSize
  base : mf.base.toNat % windowSize = 0 → mf'.base.toNat % windowSize = 0
  head : Slots.wf mf.head = true → Slots.wf mf'.head = true
  next : Slots.wf mf.next = true → Slots.wf mf'.next = true

theorem MatchFinder.Passes.refl (mf : MatchFinder) : MatchFinder.Passes 0 mf mf :=
  ⟨rfl, rfl, fun _ _ => rfl, id, id, id, id⟩

theorem MatchFinder.Passes.trans {a b : Nat} {x y z : MatchFinder} (h : MatchFinder.Passes a x y)
    (g : MatchFinder.Passes b y z) : MatchFinder.Passes (a + b) x z where
  src := g.src.trans h.src
  len := g.len.trans h.len
  cur := fun l p => by
    have e := h.cur (by omega) p
    rw [g.cur (by rw [e, h.len]; omega) (h.pos p), e]; omega
  pos := fun p => g.pos (h.pos p)
  base := fun p => g.base (h.base p)
  head := fun p => g.head (h.head p)
  next := fun p => g.next (h.next p)

@[simp] theorem MatchFinder.slide_src (mf : MatchFinder) : mf.slide.src = mf.src := by
  simp only [MatchFinder.slide]
@[simp] theorem MatchFinder.slide_len (mf : MatchFinder) : mf.slide.len = mf.len := by
  simp only [MatchFinder.slide]
@[simp] theorem MatchFinder.slide_head (mf : MatchFinder) : mf.slide.head = mf.head.rebase := by
  simp only [MatchFinder.slide]
@[simp] theorem MatchFinder.slide_next (mf : MatchFinder) : mf.slide.next = mf.next.rebase := by
  simp only [MatchFinder.slide]
@[simp] theorem MatchFinder.slide_pos (mf : MatchFinder) : mf.slide.pos.toNat = 0 := by
  simp only [MatchFinder.slide]; rfl
theorem MatchFinder.slide_base (mf : MatchFinder) :
    mf.slide.base.toNat = (mf.base.toNat + 32768) % 4294967296 := by
  simp only [MatchFinder.slide, BitVec.toNat_add, BitVec.toNat_ofNat, windowSize]

theorem MatchFinder.passes_slide {mf : MatchFinder} (hp : mf.pos.toNat = windowSize) :
    MatchFinder.Passes 0 mf mf.slide where
  src := mf.slide_src
  len := mf.slide_len
  cur := fun hl _ => by
    have := mf.len.isLt
    have hw : windowSize = 32768 := rfl
    rw [MatchFinder.cur, hp, hw] at hl
    rw [MatchFinder.cur, MatchFinder.cur, MatchFinder.slide_base, MatchFinder.slide_pos, hp, hw]
    omega
  pos := fun _ => by rw [MatchFinder.slide_pos]; exact Nat.zero_le _
  base := fun hb => by
    have hw : windowSize = 32768 := rfl
    rw [hw] at hb
    rw [MatchFinder.slide_base, hw]; omega
  head := fun h => by rw [MatchFinder.slide_head]; exact Slots.wfFrom_rebase h
  next := fun h => by rw [MatchFinder.slide_next]; exact Slots.wfFrom_rebase h

theorem MatchFinder.passes_slideIfDue (mf : MatchFinder) : MatchFinder.Passes 0 mf mf.slideIfDue := by
  unfold MatchFinder.slideIfDue
  split
  · exact MatchFinder.passes_slide ‹_›
  · exact MatchFinder.Passes.refl mf

/-- After the slide that may be due, the position is below 32768 (rule R206). -/
theorem MatchFinder.pos_slideIfDue {mf : MatchFinder} (h : mf.pos.toNat ≤ windowSize) :
    mf.slideIfDue.pos.toNat < windowSize := by
  unfold MatchFinder.slideIfDue
  split
  · exact (by decide : 0 < windowSize)
  · exact Nat.lt_of_le_of_ne h ‹_›

theorem MatchFinder.passes_advance {mf : MatchFinder} (h : mf.pos.toNat < windowSize) :
    MatchFinder.Passes 1 mf mf.advance := by
  have hw : windowSize = 32768 := rfl
  have hp : (mf.pos + 1).toNat = mf.pos.toNat + 1 := by
    have one : (1 : BitVec 17).toNat = 1 := rfl
    rw [BitVec.toNat_add, one]; omega
  refine ⟨rfl, rfl, fun _ _ => ?_, fun _ => ?_, id, id, id⟩
  · simp only [MatchFinder.cur, MatchFinder.advance, hp]; omega
  · simp only [MatchFinder.advance, hp]; omega

theorem MatchFinder.passes_insertAt (mf : MatchFinder) {h : Nat} (hh : h < windowSize) :
    MatchFinder.Passes 0 mf (mf.insertAt h) :=
  ⟨rfl, rfl, fun _ _ => rfl, id, id, fun w => Slots.wf_set _ w hh, fun w => Slots.wf_set _ w (nextSlot_lt _)⟩

theorem MatchFinder.hashAt_lt (mf : MatchFinder) (m : Memory) (i : Nat) : mf.hashAt m i < windowSize := hash3_lt _ _ _

theorem MatchFinder.passes_search {mf : MatchFinder} (m : Memory) (depth nice : Nat)
    (h : mf.pos.toNat < windowSize) : MatchFinder.Passes 1 mf (mf.search m depth nice).1 := by
  have hp : MatchFinder.Passes 1 mf (mf.insertAt (mf.hashAt m mf.cur)).advance := by
    simpa using (mf.passes_insertAt (mf.hashAt_lt m mf.cur)).trans (MatchFinder.passes_advance h)
  unfold MatchFinder.search
  simp only []
  split <;> exact hp

theorem MatchFinder.passes_find {mf : MatchFinder} (m : Memory) (depth nice : Nat)
    (h : mf.pos.toNat ≤ windowSize) : MatchFinder.Passes 1 mf (mf.find m depth nice).1 := by
  unfold MatchFinder.find
  simp only []
  split
  · simpa using mf.passes_slideIfDue.trans (MatchFinder.passes_advance (MatchFinder.pos_slideIfDue h))
  · simpa using mf.passes_slideIfDue.trans (MatchFinder.passes_search m depth nice (MatchFinder.pos_slideIfDue h))

theorem MatchFinder.passes_skipOne {mf : MatchFinder} (m : Memory) (h : mf.pos.toNat ≤ windowSize) :
    MatchFinder.Passes 1 mf (mf.skipOne m) := by
  have hlt := MatchFinder.pos_slideIfDue h
  unfold MatchFinder.skipOne
  simp only []
  split
  · have := (mf.slideIfDue.passes_insertAt (mf.slideIfDue.hashAt_lt m mf.slideIfDue.cur)).trans
      (MatchFinder.passes_advance hlt)
    simpa using mf.passes_slideIfDue.trans this
  · simpa using mf.passes_slideIfDue.trans (MatchFinder.passes_advance hlt)

theorem MatchFinder.passes_skip {mf : MatchFinder} (m : Memory) (n : Nat) (h : mf.pos.toNat ≤ windowSize) :
    MatchFinder.Passes n mf (MatchFinder.skip m n mf) := by
  induction n generalizing mf with
  | zero => exact MatchFinder.Passes.refl mf
  | succ n ih =>
    have h1 := MatchFinder.passes_skipOne m h
    have := h1.trans (ih (h1.pos h))
    rwa [Nat.add_comm 1 n] at this

/-! ## The match a search reports (rule R200) -/

theorem MatchFinder.search_spec {mf : MatchFinder} (m : Memory) (depth nice : Nat)
    (hc : minMatch ≤ mf.len.toNat - mf.cur) :
    ((mf.search m depth nice).2 = (0, 0))
      ∨ (3 ≤ (mf.search m depth nice).2.1 ∧ (mf.search m depth nice).2.1 ≤ 258
          ∧ mf.cur + (mf.search m depth nice).2.1 ≤ mf.len.toNat
          ∧ 1 ≤ (mf.search m depth nice).2.2 ∧ (mf.search m depth nice).2.2 ≤ 32767
          ∧ (mf.search m depth nice).2.2 ≤ mf.cur
          ∧ ∀ k, k < (mf.search m depth nice).2.1 →
              mf.byteAt m (mf.cur + k) = mf.byteAt m (mf.cur + k - (mf.search m depth nice).2.2)) := by
  unfold MatchFinder.search
  simp only []
  split
  · rename_i hlen
    right
    have hw := (mf.insertAt (mf.hashAt m mf.cur)).walk_spec m mf.pos.toNat (min maxMatch (mf.len.toNat - mf.cur))
      (min nice (min maxMatch (mf.len.toNat - mf.cur))) depth (mf.head.get (mf.hashAt m mf.cur)) 2 0
    have hmin : minMatch = 3 := rfl
    have hmax : maxMatch = 258 := rfl
    rcases hw with h | ⟨_, hle, h1, h2, h3, hb⟩
    · rw [h] at hlen; simp [hmin] at hlen
    · exact ⟨hlen, by simp only []; omega, by simp only []; omega, h1, h2, h3, hb⟩
  · exact .inl rfl

/-- What MF.FIND reports (rules R200, R206): nothing, or a true match of the bytes. -/
theorem MatchFinder.find_spec {mf : MatchFinder} (m : Memory) (depth nice : Nat)
    (hp : mf.pos.toNat ≤ windowSize) (hc : mf.cur < mf.len.toNat) :
    ((mf.find m depth nice).2 = (0, 0))
      ∨ (3 ≤ (mf.find m depth nice).2.1 ∧ (mf.find m depth nice).2.1 ≤ 258
          ∧ mf.cur + (mf.find m depth nice).2.1 ≤ mf.len.toNat
          ∧ 1 ≤ (mf.find m depth nice).2.2 ∧ (mf.find m depth nice).2.2 ≤ 32767
          ∧ (mf.find m depth nice).2.2 ≤ mf.cur
          ∧ ∀ k, k < (mf.find m depth nice).2.1 →
              mf.byteAt m (mf.cur + k) = mf.byteAt m (mf.cur + k - (mf.find m depth nice).2.2)) := by
  have hs := mf.passes_slideIfDue
  have hcur := hs.cur (by omega) hp
  have hby : ∀ i, mf.slideIfDue.byteAt m i = mf.byteAt m i := fun i => by simp [MatchFinder.byteAt, hs.src]
  unfold MatchFinder.find
  simp only []
  split
  · exact .inl rfl
  · rename_i hn
    have hmin : minMatch = 3 := rfl
    have hmax : maxMatch = 258 := rfl
    have := MatchFinder.search_spec (mf := mf.slideIfDue) m depth nice (by omega)
    rw [hcur, hs.len] at this
    simpa [hby] using this

end Sys2Proof.Machine
end

