-- ==== Sys2Proof/Laws/Parse.lean ====
section
/-! SUPPORT. What parsing a block can do (rules R235 to R237, R239): it goes forward, stays inside the input,
keeps the match-finder at its position, closes the block as rule R235 has it, fills the token buffer
with at most 33023 tokens in their ranges, and its tokens stand for the bytes it covers. -/

namespace Sys2Proof.Machine

/-- A match token's fields are in their ranges (rule R48). -/
def Token.inRange : Token → Prop
  | .lit _ => True
  | .copy len off => 3 ≤ len.toNat ∧ len.toNat ≤ 258 ∧ 1 ≤ off.toNat ∧ off.toNat ≤ 32767

/-- A parse of the input bound in `mf` whose match-finder stands `ahead` positions past the parse. -/
structure Parse.At (mf : MatchFinder) (ahead : Nat) (p : Parse) : Prop where
  src : p.mf.src = mf.src
  len : p.mf.len = mf.len
  window : p.mf.pos.toNat ≤ windowSize
  cur : p.mf.cur = p.pos + ahead
  inside : p.pos ≤ mf.len.toNat
  tokens : ∀ t ∈ p.toks, t.inRange

/-- `p'` is `p` some positions further on, each new token over at least one of them, at most `c` tokens, and
every token but the last over one position. -/
structure Parse.Goes (c : Nat) (p p' : Parse) : Prop where
  pos : p.pos < p'.pos
  toks : p.toks.length ≤ p'.toks.length
  each : p'.toks.length + p.pos ≤ p.toks.length + p'.pos
  most : p'.toks.length ≤ p.toks.length + c
  span : p'.pos ≤ p.pos + c + 257

theorem Parse.at_find {mf : MatchFinder} {k : Nat} {p : Parse} (h : Parse.At mf k p) (hk : p.pos + k < mf.len.toNat)
    (m : Memory) (depth nice : Nat) : Parse.At mf (k + 1) { p with mf := (p.mf.find m depth nice).1 } := by
  have g := MatchFinder.passes_find m depth nice h.window
  have e := g.cur (by rw [h.cur, h.len]; omega) h.window
  exact ⟨g.src.trans h.src, g.len.trans h.len, g.pos h.window, by show _ = p.pos + (k + 1); rw [e, h.cur]; omega, h.inside, h.tokens⟩

theorem Parse.at_literal {mf : MatchFinder} {k : Nat} {p : Parse} (h : Parse.At mf (k + 1) p) (hp : p.pos < mf.len.toNat)
    (m : Memory) : Parse.At mf k (p.literal m) ∧ Parse.Goes 1 p (p.literal m) := by
  refine ⟨⟨h.src, h.len, h.window, ?_, hp, fun t ht => ?_⟩, ⟨?_, ?_, ?_, ?_, ?_⟩⟩
  · show p.mf.cur = p.pos + 1 + k
    rw [h.cur]; omega
  · rcases List.mem_cons.mp ht with rfl | ht
    · trivial
    · exact h.tokens t ht
  all_goals simp only [Parse.literal, List.length_cons]; omega

theorem Parse.at_take {mf : MatchFinder} {k len off skip : Nat} {p : Parse} (h : Parse.At mf k p) (hk : k + skip = len)
    (h3 : 3 ≤ len) (h258 : len ≤ 258) (h1 : 1 ≤ off) (ho : off ≤ 32767) (hp : p.pos + len ≤ mf.len.toNat) (m : Memory) :
    Parse.At mf 0 (p.take m len off skip) ∧ Parse.Goes 1 p (p.take m len off skip) := by
  have g := MatchFinder.passes_skip m skip h.window
  have e := g.cur (by rw [h.cur, h.len]; omega) h.window
  refine ⟨⟨g.src.trans h.src, g.len.trans h.len, g.pos h.window, ?_, hp, fun t ht => ?_⟩, ⟨?_, ?_, ?_, ?_, ?_⟩⟩
  · show (MatchFinder.skip m skip p.mf).cur = p.pos + len + 0
    rw [e, h.cur]; omega
  · rcases List.mem_cons.mp ht with rfl | ht
    · simp only [Token.inRange, BitVec.toNat_ofNat]; omega
    · exact h.tokens t ht
  all_goals simp only [Parse.take, List.length_cons]; omega

/-- The lazy step ends within its fuel, with one token for each position it defers and one match. -/
theorem Parse.lazyStep_spec {mf : MatchFinder} (hd : Handle) (m : Memory) (fuel len off : Nat) {p : Parse}
    (h : Parse.At mf 1 p) (h3 : 3 ≤ len) (h258 : len ≤ 258) (h1 : 1 ≤ off) (ho : off ≤ 32767)
    (hp : p.pos + len ≤ mf.len.toNat) (hf : 259 ≤ fuel + len) :
    Parse.At mf 0 (Parse.lazyStep hd m fuel len off p) ∧ Parse.Goes (259 - len) p (Parse.lazyStep hd m fuel len off p) := by
  induction fuel generalizing len off p with
  | zero => omega
  | succ n ih =>
    have one : ∀ {q q' : Parse} {c : Nat}, 1 ≤ c → Parse.Goes 1 q q' → Parse.Goes c q q' :=
      fun hc g => ⟨g.pos, g.toks, g.each, by have := g.most; omega, by have := g.span; omega⟩
    unfold Parse.lazyStep
    split
    · obtain ⟨a, g⟩ := Parse.at_take h (show 1 + (len - 1) = len by omega) h3 h258 h1 ho hp m
      exact ⟨a, one (by omega) g⟩
    · have hfind := Parse.at_find h (by omega) m hd.depth.toNat hd.nice.toNat
      have hspec := MatchFinder.find_spec (mf := p.mf) m hd.depth.toNat hd.nice.toNat h.window (by rw [h.cur, h.len]; omega)
      simp only []
      split
      · rename_i hlt
        rcases hspec with h0 | ⟨f1, f2, f3, f4, f5, -⟩
        · rw [h0] at hlt; simp at hlt
        · obtain ⟨a, g⟩ := Parse.at_literal hfind (by show p.pos < _; omega) m
          rw [h.cur, h.len] at f3
          obtain ⟨a', g'⟩ := ih (p.mf.find m hd.depth.toNat hd.nice.toNat).2.1 (p.mf.find m hd.depth.toNat hd.nice.toNat).2.2
            a f1 f2 f4 f5 f3 (by omega)
          refine ⟨a', ⟨Nat.lt_trans g.pos g'.pos, Nat.le_trans g.toks g'.toks, ?_, ?_, ?_⟩⟩
          · have := g.each; have := g'.each; simp only [] at *; omega
          · have := g.most; have := g'.most; simp only [] at *; omega
          · have := g'.span; simp only [Parse.literal] at *; omega
      · obtain ⟨a, g⟩ := Parse.at_take hfind (show 1 + 1 + (len - 2) = len by omega) h3 h258 h1 ho hp m
        exact ⟨a, one (by omega) ⟨g.pos, g.toks, g.each, g.most, g.span⟩⟩

/-- One pass of the outer loop: at least one position, at most 256 tokens (rules R236, R237, R239). -/
theorem Parse.step_spec {mf : MatchFinder} (hd : Handle) (m : Memory) {p : Parse} (h : Parse.At mf 0 p)
    (hp : p.pos < mf.len.toNat) : Parse.At mf 0 (p.step hd m) ∧ Parse.Goes 256 p (p.step hd m) := by
  have hfind := Parse.at_find h (by omega) m hd.depth.toNat hd.nice.toNat
  have hspec := MatchFinder.find_spec (mf := p.mf) m hd.depth.toNat hd.nice.toNat h.window (by rw [h.cur, h.len]; omega)
  unfold Parse.step
  simp only []
  split
  · obtain ⟨a, g⟩ := Parse.at_literal hfind hp m
    exact ⟨a, ⟨g.pos, g.toks, g.each, Nat.le_trans g.most (by simp), Nat.le_trans g.span (by simp)⟩⟩
  · rename_i h0
    rcases hspec with e | ⟨f1, f2, f3, f4, f5, -⟩
    · rw [e] at h0; exact absurd rfl h0
    · rw [h.cur, h.len] at f3
      split
      · obtain ⟨a, g⟩ := Parse.lazyStep_spec hd m maxMatch (p.mf.find m hd.depth.toNat hd.nice.toNat).2.1
          (p.mf.find m hd.depth.toNat hd.nice.toNat).2.2 hfind f1 f2 f4 f5 f3 (by simp only [maxMatch]; omega)
        exact ⟨a, ⟨g.pos, g.toks, g.each, Nat.le_trans g.most (by simp only []; omega), Nat.le_trans g.span (by simp only []; omega)⟩⟩
      · obtain ⟨a, g⟩ := Parse.at_take hfind
          (show 0 + 1 + ((p.mf.find m hd.depth.toNat hd.nice.toNat).2.1 - 1) = _ by omega) f1 f2 f4 f5 f3 m
        exact ⟨a, ⟨g.pos, g.toks, g.each, Nat.le_trans g.most (by simp), Nat.le_trans g.span (by simp)⟩⟩

/-- A block: it ends with the input or once it covers the target; it covers at most 33280 bytes and holds at
most 33023 tokens (rule R235). -/
theorem Parse.block_spec {mf : MatchFinder} (hd : Handle) (m : Memory) (bstart fuel : Nat) {p : Parse} (h : Parse.At mf 0 p)
    (hs : bstart + p.toks.length ≤ p.pos) (hn : p.toks.length ≤ 33023) (hf : bstart + blockTarget ≤ fuel + p.pos) :
    let q := Parse.block hd m mf.len.toNat bstart fuel p
    Parse.At mf 0 q ∧ p.pos ≤ q.pos ∧ q.toks.length ≤ 33023 ∧ q.pos ≤ max p.pos (bstart + 33280)
      ∧ (q.pos = mf.len.toNat ∨ bstart + blockTarget ≤ q.pos) := by
  have ht : blockTarget = 32768 := rfl
  induction fuel generalizing p with
  | zero => exact ⟨h, Nat.le_refl _, hn, Nat.le_max_left _ _, .inr (by show _ ≤ p.pos; omega)⟩
  | succ k ih =>
    intro q
    show Parse.At mf 0 q ∧ _
    have e : q = Parse.block hd m mf.len.toNat bstart (k + 1) p := rfl
    unfold Parse.block at e
    by_cases hc : p.pos < mf.len.toNat ∧ p.pos - bstart < blockTarget
    · rw [if_pos hc] at e
      obtain ⟨a, g⟩ := Parse.step_spec hd m h hc.1
      have g1 := g.pos
      have g2 := g.each
      have g3 := g.most
      have g4 := g.span
      obtain ⟨i1, i2, i3, i4, i5⟩ := ih a (by omega) (by omega) (by omega)
      rw [e]
      exact ⟨i1, by omega, i3, by omega, i5⟩
    · rw [if_neg hc] at e
      rw [e]
      exact ⟨h, Nat.le_refl _, hn, Nat.le_max_left _ _, by have := h.inside; omega⟩

/-- A block that begins before the end of the input covers at least one byte (rule R239). -/
theorem Parse.block_forward {mf : MatchFinder} (hd : Handle) (m : Memory) {p : Parse} (h : Parse.At mf 0 p)
    (h0 : p.toks = []) (hp : p.pos < mf.len.toNat) : p.pos < (Parse.block hd m mf.len.toNat p.pos blockTarget p).pos := by
  obtain ⟨-, hle, -, -, hend⟩ := Parse.block_spec hd m p.pos blockTarget h (by simp [h0]) (by simp [h0]) (by omega)
  have ht : blockTarget = 32768 := rfl
  rcases hend with hend | hend <;> omega

/-! ## The tokens stand for the input (rules R236, R237, R239) -/

theorem Memory.length_bytes (m : Memory) (base : Word) (i n : Nat) : (m.bytes base i n).length = n := by
  induction n generalizing i with
  | zero => rfl
  | succ n ih => simp [Memory.bytes, ih]

theorem Memory.bytes_add (m : Memory) (base : Word) (i a b : Nat) :
    m.bytes base i (a + b) = m.bytes base i a ++ m.bytes base (i + a) b := by
  induction a generalizing i with
  | zero => simp [Memory.bytes]
  | succ a ih => rw [show a + 1 + b = a + b + 1 by omega, Memory.bytes, ih, Memory.bytes, show i + 1 + a = i + (a + 1) by omega]; rfl

theorem Memory.getD_bytes (m : Memory) (base : Word) (i n k : Nat) (h : k < n) :
    (m.bytes base i n).getD k 0 = m.read (bufferAddr base (i + k)) := by
  induction n generalizing i k with
  | zero => omega
  | succ n ih =>
    cases k with
    | zero => rfl
    | succ k =>
      have := ih (i + 1) k (by omega)
      rw [show i + (k + 1) = i + 1 + k by omega, ← this]
      rfl

theorem expandTokens_append (acc : List Byte) (a b : List Token) :
    expandTokens acc (a ++ b) = (expandTokens acc a).bind fun acc => expandTokens acc b := by
  induction a generalizing acc with
  | nil => rfl
  | cons t a ih =>
    cases t with
    | lit v => simp only [List.cons_append, expandTokens, ih]
    | copy len off =>
      simp only [List.cons_append, expandTokens]
      split
      · rfl
      · exact ih _

/-- The tokens of the parse stand for the input from index `b` to its position. -/
def Parse.Spells (src : Word) (m : Memory) (b : Nat) (p : Parse) : Prop :=
  expandTokens (m.bytes src 0 b) p.toks.reverse = some (m.bytes src 0 p.pos)

theorem Parse.spells_literal {src : Word} {m : Memory} {b : Nat} {p : Parse} (h : Parse.Spells src m b p) (hs : p.mf.src = src) :
    Parse.Spells src m b (p.literal m) := by
  show expandTokens _ (Token.lit (p.mf.byteAt m p.pos) :: p.toks).reverse = some (m.bytes src 0 (p.pos + 1))
  rw [List.reverse_cons, expandTokens_append, h, Memory.bytes_add, MatchFinder.byteAt, hs]
  simp [expandTokens, Memory.bytes]

/-- A match whose bytes agree with those `off` back repeats them, also where it overlaps itself. -/
theorem replayed_byte {f : Nat → Byte} {pos len off : Nat} (h1 : 1 ≤ off) (ho : off ≤ pos)
    (hb : ∀ k, k < len → f (pos + k) = f (pos + k - off)) {k : Nat} (hk : k < len) : f (pos - off + k % off) = f (pos + k) := by
  induction k using Nat.strongRecOn with
  | ind k ih =>
    rcases Nat.lt_or_ge k off with hlt | hge
    · rw [Nat.mod_eq_of_lt hlt, hb k hk, show pos - off + k = pos + k - off by omega]
    · rw [hb k hk, show pos + k - off = pos + (k - off) by omega, ← ih (k - off) (by omega) (by omega),
        ← Nat.mod_eq_sub_mod hge]

theorem Parse.spells_take {src : Word} {m : Memory} {b len off : Nat} {p : Parse} (h : Parse.Spells src m b p)
    (hs : p.mf.src = src) (h258 : len ≤ 258) (h1 : 1 ≤ off) (ho : off ≤ 32767) (hle : off ≤ p.pos)
    (hb : ∀ k, k < len → p.mf.byteAt m (p.pos + k) = p.mf.byteAt m (p.pos + k - off)) (skip : Nat) :
    Parse.Spells src m b (p.take m len off skip) := by
  have el : (BitVec.ofNat 9 len).toNat = len := by rw [BitVec.toNat_ofNat]; omega
  have eo : (BitVec.ofNat 15 off).toNat = off := by rw [BitVec.toNat_ofNat]; omega
  show expandTokens _ (Token.copy (BitVec.ofNat 9 len) (BitVec.ofNat 15 off) :: p.toks).reverse = some (m.bytes src 0 (p.pos + len))
  rw [List.reverse_cons, expandTokens_append, h]
  simp only [Option.bind_some, expandTokens, el, eo]
  rw [if_neg (by rw [Memory.length_bytes]; omega), Memory.bytes_add, Memory.length_bytes]
  congr 2
  apply List.ext_getElem
  · simp [Memory.length_bytes]
  · intro k hk _
    simp only [List.length_map, List.length_range] at hk
    have hm : k % off < off := Nat.mod_lt _ (by omega)
    rw [List.getElem_map, List.getElem_range, Memory.getD_bytes _ _ _ _ _ (by omega), Nat.zero_add]
    have e := Memory.getD_bytes m src (0 + p.pos) len k hk
    rw [List.getD_eq_getElem _ _ (by rw [Memory.length_bytes]; exact hk), Nat.zero_add] at e
    simp only [Nat.zero_add] at e ⊢
    rw [e]
    simp only [MatchFinder.byteAt, hs] at hb
    exact replayed_byte (f := fun i => m.read (bufferAddr src i)) h1 hle hb hk

theorem Parse.lazyStep_spells {mf : MatchFinder} (hd : Handle) (m : Memory) (b fuel len off : Nat) {p : Parse}
    (h : Parse.At mf 1 p) (hs : Parse.Spells mf.src m b p) (h3 : 3 ≤ len) (h258 : len ≤ 258) (h1 : 1 ≤ off)
    (ho : off ≤ 32767) (hle : off ≤ p.pos) (hp : p.pos + len ≤ mf.len.toNat)
    (hb : ∀ k, k < len → p.mf.byteAt m (p.pos + k) = p.mf.byteAt m (p.pos + k - off)) :
    Parse.Spells mf.src m b (Parse.lazyStep hd m fuel len off p) := by
  induction fuel generalizing len off p with
  | zero => exact hs
  | succ n ih =>
    unfold Parse.lazyStep
    split
    · exact Parse.spells_take hs h.src h258 h1 ho hle hb _
    · have hfind := Parse.at_find h (by omega) m hd.depth.toNat hd.nice.toNat
      have hspec := MatchFinder.find_spec (mf := p.mf) m hd.depth.toNat hd.nice.toNat h.window (by rw [h.cur, h.len]; omega)
      have same : ∀ i, (p.mf.find m hd.depth.toNat hd.nice.toNat).1.byteAt m i = p.mf.byteAt m i := fun i => by
        rw [MatchFinder.byteAt, hfind.src, ← h.src, MatchFinder.byteAt]
      simp only []
      split
      · rename_i hlt
        rcases hspec with h0 | ⟨f1, f2, f3, f4, f5, f6, f7⟩
        · rw [h0] at hlt; simp at hlt
        · rw [h.cur] at f6 f7
          rw [h.cur, h.len] at f3
          refine ih _ _ (Parse.at_literal hfind (by show p.pos < _; omega) m).1
            (Parse.spells_literal (by exact hs) hfind.src) f1 f2 f4 f5 f6 f3 fun k hk => ?_
          show (p.mf.find m hd.depth.toNat hd.nice.toNat).1.byteAt m (p.pos + 1 + k)
            = (p.mf.find m hd.depth.toNat hd.nice.toNat).1.byteAt m (p.pos + 1 + k - _)
          rw [same, same]
          exact f7 k hk
      · refine Parse.spells_take (by exact hs) hfind.src h258 h1 ho hle (fun k hk => ?_) _
        rw [same, same]
        exact hb k hk

theorem Parse.step_spells {mf : MatchFinder} (hd : Handle) (m : Memory) (b : Nat) {p : Parse} (h : Parse.At mf 0 p)
    (hs : Parse.Spells mf.src m b p) (hp : p.pos < mf.len.toNat) : Parse.Spells mf.src m b (p.step hd m) := by
  have hfind := Parse.at_find h (by omega) m hd.depth.toNat hd.nice.toNat
  have hspec := MatchFinder.find_spec (mf := p.mf) m hd.depth.toNat hd.nice.toNat h.window (by rw [h.cur, h.len]; omega)
  have same : ∀ i, (p.mf.find m hd.depth.toNat hd.nice.toNat).1.byteAt m i = p.mf.byteAt m i := fun i => by
    rw [MatchFinder.byteAt, hfind.src, ← h.src, MatchFinder.byteAt]
  unfold Parse.step
  simp only []
  split
  · exact Parse.spells_literal (by exact hs) hfind.src
  · rename_i h0
    rcases hspec with e | ⟨f1, f2, f3, f4, f5, f6, f7⟩
    · rw [e] at h0; exact absurd rfl h0
    · rw [h.cur] at f6 f7
      rw [h.cur, h.len] at f3
      have bytes : ∀ k, k < (p.mf.find m hd.depth.toNat hd.nice.toNat).2.1 →
          (p.mf.find m hd.depth.toNat hd.nice.toNat).1.byteAt m (p.pos + k)
            = (p.mf.find m hd.depth.toNat hd.nice.toNat).1.byteAt m (p.pos + k - (p.mf.find m hd.depth.toNat hd.nice.toNat).2.2) :=
        fun k hk => by rw [same, same]; exact f7 k hk
      split
      · exact Parse.lazyStep_spells hd m b maxMatch _ _ hfind (by exact hs) f1 f2 f4 f5 f6 f3 bytes
      · exact Parse.spells_take (by exact hs) hfind.src f2 f4 f5 f6 bytes _

/-- The tokens a block parses stand for exactly the input bytes it covers (rules R230, R236, R237, R239). -/
theorem Parse.block_spells {mf : MatchFinder} (hd : Handle) (m : Memory) (b bstart fuel : Nat) {p : Parse} (h : Parse.At mf 0 p)
    (hs : Parse.Spells mf.src m b p) : Parse.Spells mf.src m b (Parse.block hd m mf.len.toNat bstart fuel p) := by
  induction fuel generalizing p with
  | zero => exact hs
  | succ k ih =>
    unfold Parse.block
    split
    · rename_i hc
      exact ih (Parse.step_spec hd m h hc.1).1 (Parse.step_spells hd m b h hs hc.1)
    · exact hs

end Sys2Proof.Machine
end

