-- ==== Sys2Proof/Laws/BlockSize.lean ====
section
/-! SUPPORT. What a block adds to the output (rules R240 to R245, R260 (b)): each cost is the number of bits
its emission appends, so no block ends later than its stored form would. -/

namespace Sys2Proof.Machine

/-! ## Appending with room -/

/-- The bits the writer has taken: its bytes and the bits it holds. -/
def Sink.held (k : Sink) : Nat := 8 * k.bw.nbytes.toNat + k.bw.nbits.toNat

/-- `k'` is `k` after `n` more bits: it still holds fewer than eight, and with room for the whole bytes it
has all of them and no overflow. -/
structure Sink.Appends (n : Nat) (k k' : Sink) : Prop where
  cap : k'.bw.cap = k.bw.cap
  bits : k.bw.nbits.toNat < 8 → k'.bw.nbits.toNat < 8
  room : k.bw.nbits.toNat < 8 → (k.held + n) / 8 ≤ k.bw.cap.toNat → k'.bw.ovf = k.bw.ovf ∧ k'.held = k.held + n

theorem Sink.Appends.refl (k : Sink) : Sink.Appends 0 k k := ⟨rfl, id, fun _ _ => ⟨rfl, rfl⟩⟩

theorem Sink.Appends.trans {a b : Nat} {k k' k'' : Sink} (h : Sink.Appends a k k') (g : Sink.Appends b k' k'') :
    Sink.Appends (a + b) k k'' := by
  refine ⟨g.cap.trans h.cap, fun hn => g.bits (h.bits hn), fun hn hr => ?_⟩
  obtain ⟨h1, h2⟩ := h.room hn (by omega)
  obtain ⟨g1, g2⟩ := g.room (h.bits hn) (by rw [h2, h.cap]; omega)
  exact ⟨g1.trans h1, by omega⟩

theorem Sink.Appends.congr {a b : Nat} {k k' : Sink} (h : Sink.Appends a k k') (e : a = b) : Sink.Appends b k k' := e ▸ h

theorem Sink.appends_put (k : Sink) (v n : Nat) : Sink.Appends n k (k.put v n) := by
  refine ⟨(Sink.extends_put k v n).cap, fun _ => by rw [Sink.put_nbits]; omega, fun hn hr => ?_⟩
  simp only [Sink.held] at hr
  have := Sink.drain_room (n := (k.bw.nbits.toNat + n) / 8)
    (k := { k with bw := { k.bw with acc := k.bw.acc ||| (BitVec.ofNat 64 v <<< k.bw.nbits.toNat) } }) (by simp only []; omega)
  refine ⟨this.2, ?_⟩
  have e : (k.put v n).bw.nbytes.toNat = k.bw.nbytes.toNat + (k.bw.nbits.toNat + n) / 8 := this.1
  rw [Sink.held, Sink.put_nbits, e, Sink.held]
  omega

theorem Sink.appends_align {k : Sink} (hn : k.bw.nbits.toNat < 8) :
    Sink.Appends ((8 - k.bw.nbits.toNat) % 8) k k.align ∧ k.align.bw.nbits.toNat = 0 := by
  unfold Sink.align
  by_cases h : 0 < k.bw.nbits.toNat
  · rw [if_pos h]
    refine ⟨⟨(Sink.extends_putByte k _).cap, fun _ => by simp, fun _ hr => ?_⟩, rfl⟩
    simp only [Sink.held] at hr
    have hlt : k.bw.nbytes.toNat < k.bw.cap.toNat := by omega
    have hs := word_succ_toNat hlt
    rw [Sink.putByte_room hlt]
    refine ⟨rfl, ?_⟩
    show 8 * (k.bw.nbytes + 1).toNat + 0 = _
    rw [hs, Sink.held]
    omega
  · rw [if_neg h]
    have h0 : k.bw.nbits.toNat = 0 := by omega
    exact ⟨(Sink.Appends.refl k).congr (by rw [h0]), h0⟩

theorem Sink.appends_putBytes (base : Word) (i n : Nat) (k : Sink) :
    Sink.Appends (8 * n) k (Sink.putBytes base i n k) := by
  induction n generalizing i k with
  | zero => exact Sink.Appends.refl k
  | succ n ih =>
    unfold Sink.putBytes
    have g := ih (i + 1) (k.putByte (k.mem.read (bufferAddr base i)))
    refine ⟨g.cap.trans (Sink.extends_putByte k _).cap, fun hn => g.bits (by rw [Sink.putByte_nbits]; exact hn), fun hn hr => ?_⟩
    simp only [Sink.held] at hr
    have hlt : k.bw.nbytes.toNat < k.bw.cap.toNat := by omega
    have hs := word_succ_toNat hlt
    have e := Sink.putByte_room hlt (k.mem.read (bufferAddr base i))
    have held : (k.putByte (k.mem.read (bufferAddr base i))).held = k.held + 8 := by
      rw [e]; simp only [Sink.held, hs]; omega
    have cap : (k.putByte (k.mem.read (bufferAddr base i))).bw.cap = k.bw.cap := by rw [e]
    have ovf : (k.putByte (k.mem.read (bufferAddr base i))).bw.ovf = k.bw.ovf := by rw [e]
    obtain ⟨g1, g2⟩ := g.room (by rw [Sink.putByte_nbits]; exact hn) (by rw [held, cap]; simp only [Sink.held]; omega)
    exact ⟨g1.trans ovf, by rw [g2, held]; omega⟩

/-- A stored block appends `cost_sto` bits and ends on a byte boundary (rules R240, R242). -/
theorem Sink.appends_emitStored {k : Sink} (h : k.bw.nbits.toNat < 8) (src : Word) (start blen : Nat) (final : Bool) :
    Sink.Appends (costStored k.bw blen) k (k.emitStored src start blen final) := by
  have h1 := (Sink.appends_put k final.toNat 1).trans (Sink.appends_put _ 0 2)
  have n1 : ((k.put final.toNat 1).put 0 2).bw.nbits.toNat = (k.bw.nbits.toNat + 3) % 8 := by
    rw [Sink.put_nbits, Sink.put_nbits]; omega
  obtain ⟨h2, -⟩ := Sink.appends_align (k := (k.put final.toNat 1).put 0 2) (by omega)
  have h3 := (Sink.appends_put ((k.put final.toNat 1).put 0 2).align blen 16).trans (Sink.appends_put _ (blen ^^^ 0xFFFF) 16)
  have h4 := Sink.appends_putBytes src start blen
    ((((k.put final.toNat 1).put 0 2).align.put blen 16).put (blen ^^^ 0xFFFF) 16)
  refine (((h1.trans h2).trans h3).trans h4).congr ?_
  rw [n1, costStored]

/-! ## Symbols and their bits -/

/-- The litlen symbol of a token (rule R245). -/
def Token.litlen : Token → Nat
  | .lit v => v.toNat
  | .copy len _ => lenSym len.toNat

/-- The offset symbol of a token; a literal has none (rule R245). -/
def Token.offset : Token → List Nat
  | .lit _ => []
  | .copy _ off => [offSym off.toNat]

/-- The length a table gives a symbol. -/
def lenOf (t : Table 4) (s : Nat) : Nat := (t.get s).toNat

/-- The bits of a token in given code lengths (rule R245). -/
def Token.size (lens : Trio 4) (t : Token) : Nat :=
  lenOf lens.litlen t.litlen + (t.offset.map (lenOf lens.offset)).sum + t.extraBits

theorem Sink.appends_emitToken (b : Huff) (k : Sink) (t : Token) :
    Sink.Appends (t.size b.lens) k (k.emitToken b t) := by
  cases t with
  | lit v => exact (Sink.appends_put k _ _).congr (by simp [Token.size, Token.offset, Token.extraBits, Token.litlen, lenOf, Trio.table])
  | copy len off =>
    refine ((((Sink.appends_put k _ _).trans (Sink.appends_put _ _ _)).trans (Sink.appends_put _ _ _)).trans
      (Sink.appends_put _ _ _)).congr ?_
    simp only [Token.size, Token.offset, Token.extraBits, Token.litlen, lenOf, Trio.table, List.map_cons, List.map_nil,
      List.sum_cons, List.sum_nil]
    omega

theorem Sink.appends_foldl {α : Type} (f : Sink → α → Sink) (size : α → Nat) (h : ∀ k a, Sink.Appends (size a) k (f k a))
    (l : List α) (k : Sink) : Sink.Appends (l.map size).sum k (l.foldl f k) := by
  induction l generalizing k with
  | nil => exact Sink.Appends.refl k
  | cons a l ih => exact ((h k a).trans (ih _)).congr (by simp)

/-- The tokens and the end-of-block symbol (rule R245). -/
theorem Sink.appends_emitTokens (k : Sink) (b : Huff) (toks : List Token) :
    Sink.Appends ((toks.map (Token.size b.lens)).sum + lenOf b.lens.litlen eobSymbol) k (k.emitTokens b toks) :=
  (Sink.appends_foldl _ _ (Sink.appends_emitToken b) toks k).trans (Sink.appends_put _ _ _)

theorem usedLength_le (l : List Nat) : usedLength l ≤ l.length := by
  induction l with
  | nil => exact Nat.le_refl _
  | cons v vs ih =>
    unfold usedLength
    split
    · split <;> simp
    · simp only [List.length_cons]; omega

theorem trimPrecode_le (lens : List Nat) : trimPrecode lens ≤ 19 := by
  have := usedLength_le (precodeOrder.map fun s => lens.getD s 0)
  have e : (precodeOrder.map fun s => lens.getD s 0).length = 19 := by simp [precodeOrder]
  unfold trimPrecode
  omega

/-- The header of a dynamic block (rules R240, R244). -/
theorem Sink.appends_emitDynamicHeader (k : Sink) (b : Huff) (final : Bool) (hp : b.hb.npre.toNat ≤ 19) :
    Sink.Appends (3 + 14 + 3 * b.hb.npre.toNat
      + (b.hb.itemList.map fun it => lenOf b.lens.precode it.1 + preExtra it.1).sum) k (k.emitDynamicHeader b final) := by
  have h1 := ((((Sink.appends_put k final.toNat 1).trans (Sink.appends_put _ 2 2)).trans
    (Sink.appends_put _ (b.hb.nlit.toNat - 257) 5)).trans (Sink.appends_put _ (b.hb.ndist.toNat - 1) 5)).trans
    (Sink.appends_put _ (b.hb.npre.toNat - 4) 4)
  have h2 := Sink.appends_foldl (fun (k : Sink) (s : Nat) => k.put (Table.get b.lens.precode s).toNat 3) (fun _ => 3)
    (fun k s => Sink.appends_put k _ _) (precodeOrder.take b.hb.npre.toNat)
    (((((k.put final.toNat 1).put 2 2).put (b.hb.nlit.toNat - 257) 5).put (b.hb.ndist.toNat - 1) 5).put (b.hb.npre.toNat - 4) 4)
  have item : ∀ (k : Sink) (it : Nat × Nat),
      Sink.Appends (lenOf b.lens.precode it.1 + preExtra it.1) k (Sink.emitItem b k it) := fun k it => by
    unfold Sink.emitItem
    simp only []
    split
    · exact (Sink.appends_put k _ _).trans (Sink.appends_put _ _ _)
    · refine (Sink.appends_put k _ _).congr ?_
      have e : preExtra it.1 = 0 := by
        unfold preExtra
        rw [if_neg (by omega), if_neg (by omega), if_neg (by omega)]
      rw [e]
      rfl
  refine ((h1.trans h2).trans (Sink.appends_foldl _ _ item b.hb.itemList _)).congr ?_
  have e : ((precodeOrder.take b.hb.npre.toNat).map fun _ => 3).sum = 3 * b.hb.npre.toNat := by
    rw [List.map_const', List.sum_replicate, List.length_take, show precodeOrder.length = 19 from rfl]
    simp only [smul_eq_mul]
    omega
  rw [e]

/-! ## Counting symbols -/

/-- A weighted sum of lengths over counts is the sum of the lengths of what was counted (rule R240). -/
theorem sum_counts (n : Nat) (freq : Nat → Nat) (lens : List Nat) (syms : List Nat) (hl : n ≤ lens.length)
    (hs : ∀ s ∈ syms, s < n) (hf : ∀ s, s < n → freq s = syms.count s) :
    (List.zipWith (· * ·) ((List.range n).map freq) lens).sum = (syms.map fun s => lens.getD s 0).sum := by
  have e : List.zipWith (· * ·) ((List.range n).map freq) lens = (List.range n).map fun s => syms.count s * lens.getD s 0 := by
    apply List.ext_getElem
    · simp; omega
    · intro i h1 h2
      simp only [List.length_map, List.length_range] at h2
      simp [hf i h2, show i < lens.length by omega]
  rw [e]
  clear e hf
  induction syms with
  | nil => simp
  | cons a l ih =>
    have ha := hs a List.mem_cons_self
    have h1 : ∀ (m : Nat), ((List.range m).map fun s => (a :: l).count s * lens.getD s 0).sum
        = (if a < m then lens.getD a 0 else 0) + ((List.range m).map fun s => l.count s * lens.getD s 0).sum := fun m => by
      induction m with
      | zero => simp
      | succ m ih =>
        simp only [List.range_succ, List.map_append, List.sum_append, List.map_cons, List.map_nil, List.sum_cons,
          List.sum_nil, Nat.add_zero] at ih ⊢
        rw [ih]
        rcases Nat.lt_trichotomy a m with h | h | h
        · rw [List.count_cons_of_ne (by omega), if_pos h, if_pos (show a < m + 1 by omega)]; omega
        · subst h
          rw [List.count_cons_self, Nat.add_mul, if_neg (Nat.lt_irrefl a), if_pos (Nat.lt_succ_self a)]; omega
        · rw [List.count_cons_of_ne (by omega), if_neg (show ¬ a < m by omega), if_neg (show ¬ a < m + 1 by omega)]; omega
    rw [h1, if_pos ha, ih fun s hs' => hs s (List.mem_cons_of_mem _ hs')]
    simp

theorem Table.get_bump (t : Table 32) (i j : Nat) (h : (t.get i).toNat + 1 < wordSpan) :
    ((Table.bump t i).get j).toNat = (t.get j).toNat + if j = i then 1 else 0 := by
  have hw : wordSpan = 4294967296 := rfl
  rw [Table.bump, Table.get_set]
  split
  · rename_i e
    subst e
    rw [BitVec.toNat_ofNat, Nat.mod_eq_of_lt (by omega)]
    omega
  · omega

theorem lenSym_le (len : Nat) : lenSym len ≤ 285 := by
  have h := List.length_filter_le (fun x => decide (x ≤ len)) lenBases
  have e : lenBases.length = 29 := rfl
  unfold lenSym largestAtMost
  omega

theorem offSym_le (off : Nat) : offSym off ≤ 29 := by
  have h := List.length_filter_le (fun x => decide (x ≤ off)) offBases
  have e : offBases.length = 30 := rfl
  unfold offSym largestAtMost
  omega

theorem Token.litlen_lt (t : Token) : t.litlen < 286 := by
  cases t with
  | lit v => have := v.isLt; simp only [Token.litlen]; omega
  | copy len off => have := lenSym_le len.toNat; simp only [Token.litlen]; omega

theorem Token.offset_lt {t : Token} {s : Nat} (h : s ∈ t.offset) : s < 30 := by
  cases t with
  | lit v => simp [Token.offset] at h
  | copy len off =>
    have := offSym_le off.toNat
    simp only [Token.offset, List.mem_singleton] at h
    omega

theorem Huff.tallyToken_litlen (b : Huff) (t : Token) :
    (b.tallyToken t).freq.litlen = Table.bump b.freq.litlen t.litlen ∧ (b.tallyToken t).lens = b.lens := by
  cases t <;> exact ⟨rfl, rfl⟩

/-- The counters after a block's tokens, none saturated (rules R238, R272). -/
theorem Huff.foldl_tallyToken (toks : List Token) (b : Huff) (hl : ∀ s, (b.freq.litlen.get s).toNat + toks.length < wordSpan)
    (ho : ∀ s, (b.freq.offset.get s).toNat + toks.length < wordSpan) :
    (∀ s, ((toks.foldl Huff.tallyToken b).freq.litlen.get s).toNat
        = (b.freq.litlen.get s).toNat + (toks.map Token.litlen).count s)
      ∧ ∀ s, ((toks.foldl Huff.tallyToken b).freq.offset.get s).toNat
        = (b.freq.offset.get s).toNat + (toks.flatMap Token.offset).count s := by
  induction toks generalizing b with
  | nil => exact ⟨fun s => by simp, fun s => by simp⟩
  | cons t toks ih =>
    simp only [List.length_cons] at hl ho
    have el : ∀ s, ((b.tallyToken t).freq.litlen.get s).toNat = (b.freq.litlen.get s).toNat + if s = t.litlen then 1 else 0 :=
      fun s => by
        rw [(b.tallyToken_litlen t).1, Table.get_bump _ _ _ (by have := hl t.litlen; omega)]
    have eo : ∀ s, ((b.tallyToken t).freq.offset.get s).toNat = (b.freq.offset.get s).toNat + t.offset.count s := fun s => by
      cases t with
      | lit v => simp [Huff.tallyToken, Huff.tally, Token.offset, Trio.put]
      | copy len off =>
        show ((Table.bump b.freq.offset (offSym off.toNat)).get s).toNat = _
        rw [Table.get_bump _ _ _ (by have := ho (offSym off.toNat); omega), Token.offset, List.count_singleton]
        by_cases e : s = offSym off.toNat
        · simp [e]
        · rw [if_neg e, if_neg (by simpa using fun h : offSym off.toNat = s => e h.symm)]
    have c1 : ∀ s, t.offset.count s ≤ 1 := fun s => by
      have := List.count_le_length (a := s) (l := t.offset)
      cases t <;> simp only [Token.offset, List.length_nil, List.length_singleton] at this ⊢ <;> omega
    obtain ⟨i1, i2⟩ := ih (b.tallyToken t) (fun s => by rw [el]; have := hl s; split <;> omega)
      (fun s => by rw [eo]; have := ho s; have := c1 s; omega)
    refine ⟨fun s => ?_, fun s => ?_⟩
    · rw [List.foldl_cons, i1, el, List.map_cons, List.count_cons]
      by_cases e : s = t.litlen
      · rw [if_pos e, if_pos (by simpa using e.symm)]; omega
      · rw [if_neg e, if_neg (by simpa using fun h : t.litlen = s => e h.symm)]; omega
    · rw [List.foldl_cons, i2, eo, List.flatMap_cons, List.count_append]; omega

/-! ## The costs are exact (rule R240) -/

@[simp] theorem Huff.buildCodes_lens (b : Huff) (x : Alphabet) : (b.buildCodes x).lens = b.lens := rfl

/-- The precode lengths are those built from some counts (rule R284). -/
theorem Huff.buildPrecode_lens (b : Huff) :
    ∃ t, b.buildPrecode.lens.precode = Table.ofList 4 (lengthsFor .precode t) := by
  unfold Huff.buildPrecode
  simp only [Huff.buildCodes_lens]
  unfold Huff.buildLens
  exact ⟨_, Trio.table_put_same _ .precode _⟩

/-- The statistics of a block count its symbols and its end, and leave a precode description in range (rule R238). -/
theorem Huff.statistics_spec (b : Huff) {toks : List Token} (hn : toks.length ≤ tokensMax) :
    (∀ s, ((b.statistics toks).freq.litlen.get s).toNat = (toks.map Token.litlen ++ [eobSymbol]).count s)
      ∧ (∀ s, ((b.statistics toks).freq.offset.get s).toNat = (toks.flatMap Token.offset).count s)
      ∧ (b.statistics toks).hb.npre.toNat ≤ 19
      ∧ ∀ s, ((b.statistics toks).lens.lengths .precode).getD s 0 = lenOf (b.statistics toks).lens.precode s := by
  have hw : wordSpan = 4294967296 := rfl
  have ht : tokensMax = 33024 := rfl
  have zero : ∀ s, ((b.clear.freq.litlen.get s).toNat = 0 ∧ (b.clear.freq.offset.get s).toNat = 0) := fun s => ⟨rfl, rfl⟩
  obtain ⟨h1, h2⟩ := Huff.foldl_tallyToken toks b.clear (fun s => by rw [(zero s).1]; omega) (fun s => by rw [(zero s).2]; omega)
  refine ⟨fun s => ?_, fun s => ?_, ?_, fun s => ?_⟩
  · show ((Table.bump (toks.foldl Huff.tallyToken b.clear).freq.litlen eobSymbol).get s).toNat = _
    have c : (toks.map Token.litlen).count eobSymbol ≤ toks.length := by
      simpa using List.count_le_length (a := eobSymbol) (l := toks.map Token.litlen)
    rw [Table.get_bump _ _ _ (by rw [h1, (zero _).1]; omega), h1, (zero s).1, List.count_append, List.count_singleton]
    by_cases e : s = eobSymbol
    · rw [if_pos e, if_pos (by simpa using e.symm)]; omega
    · rw [if_neg e, if_neg (by simpa using fun h : eobSymbol = s => e h.symm)]; omega
  · show ((toks.foldl Huff.tallyToken b.clear).freq.offset.get s).toNat = _
    rw [h2, (zero s).2, Nat.zero_add]
  · show (BitVec.ofNat 5 (trimPrecode _)).toNat ≤ 19
    rw [BitVec.toNat_ofNat]
    exact Nat.le_trans (Nat.mod_le _ _) (trimPrecode_le _)
  · rw [lenOf, Trio.lengths, Table.getD_toList]
    split
    · rfl
    · rename_i hs
      obtain ⟨t, e⟩ := Huff.buildPrecode_lens
        (((((toks.foldl Huff.tallyToken b.clear).tally .litlen eobSymbol).buildLens .litlen).buildLens .offset))
      rw [show (b.statistics toks).lens.precode = Table.ofList 4 (lengthsFor .precode t) from e, Table.get_ofList,
        List.getD_eq_default]
      · rfl
      · have e : Alphabet.precode.slots = 19 := rfl
        rw [lengthsFor, List.length_map, List.length_range]
        exact Nat.not_lt.mp hs

theorem sum_append_sizes (lens : Trio 4) (toks : List Token) :
    (toks.map (Token.size lens)).sum
      = ((toks.map Token.litlen).map (lenOf lens.litlen)).sum + ((toks.flatMap Token.offset).map (lenOf lens.offset)).sum
        + extraBitsOf toks := by
  induction toks with
  | nil => rfl
  | cons t toks ih =>
    simp only [List.map_cons, List.sum_cons, List.flatMap_cons, List.map_append, List.sum_append, extraBitsOf, Token.size] at ih ⊢
    omega

/-- The symbol part of a cost, in code lengths `ll` and `of` that a table of lengths holds. -/
theorem weighted_symbols {f : Trio 32} {toks : List Token} {lens : Trio 4} {ll ofs : List Nat}
    (hl : ∀ s, (f.litlen.get s).toNat = (toks.map Token.litlen ++ [eobSymbol]).count s)
    (ho : ∀ s, (f.offset.get s).toNat = (toks.flatMap Token.offset).count s)
    (nl : 286 ≤ ll.length) (no : 30 ≤ ofs.length) (el : ∀ s, s < 286 → ll.getD s 0 = lenOf lens.litlen s)
    (eo : ∀ s, s < 30 → ofs.getD s 0 = lenOf lens.offset s) :
    weighted f.litlen 286 ll + weighted f.offset 30 ofs + extraBitsOf toks
      = (toks.map (Token.size lens)).sum + lenOf lens.litlen eobSymbol := by
  have ml : ∀ s ∈ toks.map Token.litlen ++ [eobSymbol], s < 286 := fun s hs => by
    rcases List.mem_append.mp hs with hs | hs
    · obtain ⟨t, -, rfl⟩ := List.mem_map.mp hs; exact t.litlen_lt
    · rw [List.mem_singleton.mp hs]; decide
  have mo : ∀ s ∈ toks.flatMap Token.offset, s < 30 := fun s hs => by
    obtain ⟨t, -, h⟩ := List.mem_flatMap.mp hs; exact Token.offset_lt h
  unfold weighted
  rw [show Table.toList f.litlen 286 = (List.range 286).map fun i => (f.litlen.get i).toNat from rfl,
    show Table.toList f.offset 30 = (List.range 30).map fun i => (f.offset.get i).toNat from rfl,
    sum_counts 286 _ ll _ nl ml fun s _ => hl s, sum_counts 30 _ ofs _ no mo fun s _ => ho s,
    List.map_congr_left fun s hs => el s (ml s hs), List.map_congr_left fun s hs => eo s (mo s hs), sum_append_sizes,
    List.map_append, List.sum_append]
  simp only [List.map_cons, List.map_nil, List.sum_cons, List.sum_nil]
  omega

theorem lenOf_fixed :
    (∀ s, s < 286 → fixedLitlenLens.getD s 0 = lenOf (Table.ofList 4 fixedLitlenLens) s)
      ∧ ∀ s, s < 30 → fixedOffsetLens.getD s 0 = lenOf (Table.ofList 4 fixedOffsetLens) s := by
  have small : ∀ l : List Nat, (∀ v ∈ l, v < 16) → ∀ s, l.getD s 0 = lenOf (Table.ofList 4 l) s := fun l hl s => by
    rw [lenOf, Table.get_ofList, BitVec.toNat_ofNat]
    rcases Nat.lt_or_ge s l.length with h | h
    · rw [Nat.mod_eq_of_lt]
      have := hl _ (List.getElem_mem h)
      simpa [h] using this
    · simp [h]
  exact ⟨fun s _ => small _ (by decide +kernel) s, fun s _ => small _ (by decide +kernel) s⟩

/-- A block appends the least of the three costs, so at most `cost_sto` (rules R240, R241). -/
theorem Deflate.emitBlock_size (d : Deflate) (src : Word) (bstart bend : Nat) (final : Bool) (hn : d.out.bw.nbits.toNat < 8)
    (ht : d.cp.tok.length ≤ tokensMax) :
    ∃ n, n ≤ costStored d.out.bw (bend - bstart) ∧ Sink.Appends n d.out (d.emitBlock src bstart bend final).out := by
  obtain ⟨hl, ho, hp, hpc⟩ := Huff.statistics_spec d.huff ht
  unfold Deflate.emitBlock
  simp only []
  split
  · exact ⟨_, Nat.le_refl _, Sink.appends_emitStored hn src bstart (bend - bstart) final⟩
  · split
    · rename_i h1 h2
      refine ⟨(d.huff.statistics d.cp.tok).costFixed (extraBitsOf d.cp.tok), by omega, ?_⟩
      refine (((Sink.appends_put d.out final.toNat 1).trans (Sink.appends_put _ 1 2)).trans
        (Sink.appends_emitTokens _ _ d.cp.tok)).congr ?_
      have e := weighted_symbols (lens := (d.huff.statistics d.cp.tok).loadFixed.lens) hl ho (ll := fixedLitlenLens)
        (ofs := fixedOffsetLens) (by decide +kernel) (by decide +kernel) lenOf_fixed.1 lenOf_fixed.2
      rw [← e, Huff.costFixed]
      omega
    · rename_i h1 h2
      refine ⟨(d.huff.statistics d.cp.tok).costDynamic (extraBitsOf d.cp.tok), by omega, ?_⟩
      refine ((Sink.appends_emitDynamicHeader d.out _ final hp).trans (Sink.appends_emitTokens _ _ d.cp.tok)).congr ?_
      have e := weighted_symbols (lens := (d.huff.statistics d.cp.tok).lens) hl ho
        (ll := (d.huff.statistics d.cp.tok).lens.lengths .litlen) (ofs := (d.huff.statistics d.cp.tok).lens.lengths .offset)
        (by rw [Trio.lengths, Table.length_toList]; decide) (by rw [Trio.lengths, Table.length_toList]; decide)
        (fun s hs => by rw [Trio.lengths, Table.getD_toList, if_pos (by simp only [Alphabet.slots]; omega)]; rfl)
        (fun s hs => by rw [Trio.lengths, Table.getD_toList, if_pos (by simp only [Alphabet.slots]; omega)]; rfl)
      rw [Huff.buildCodes_lens, Huff.buildCodes_lens, ← e, Huff.costDynamic]
      simp only [hpc]
      omega

/-- The bytes begun after a block: at most five and the block's input more than before it (rule R260 (b)). -/
theorem costStored_bytes (k : Sink) (blen n : Nat) (h : n ≤ costStored k.bw blen) :
    ceilDiv (k.held + n) 8 ≤ ceilDiv k.held 8 + 5 + blen := by
  unfold costStored at h
  unfold ceilDiv Sink.held
  omega

/-! ## The blocks of a stream (rules R233, R239, R260 (b)) -/

theorem Deflate.emitBlock_cp (d : Deflate) (src : Word) (bstart bend : Nat) (final : Bool) :
    (d.emitBlock src bstart bend final).cp = d.cp ∧ (d.emitBlock src bstart bend final).mf = d.mf := by
  unfold Deflate.emitBlock
  simp only []
  split
  · exact ⟨rfl, rfl⟩
  · split <;> exact ⟨rfl, rfl⟩

/-- The blocks from a position on: they end with a symbol stream in its ranges, and with room for the input
left and five bytes a block they end without overflow and no longer than that. -/
theorem Deflate.blocks_spec (h : Handle) (src : Word) (n fuel pos : Nat) (d : Deflate) (hlen : d.mf.len.toNat = n)
    (hcur : d.mf.cur = pos) (hwin : d.mf.pos.toNat ≤ windowSize) (hp : pos < n ∨ pos = n) (hf : n < fuel + pos)
    (hn : d.out.bw.nbits.toNat < 8) :
    let r := Deflate.blocks h src n fuel pos d
    tokensOk r.cp ∧ r.out.bw.cap = d.out.bw.cap
      ∧ (d.out.bw.ovf = false →
          ceilDiv d.out.held 8 + (n - pos) + 5 * max 1 (ceilDiv (n - pos) 32768) ≤ d.out.bw.cap.toNat →
          r.out.bw.ovf = false ∧ r.out.bw.nbits.toNat < 8
            ∧ ceilDiv r.out.held 8 ≤ ceilDiv d.out.held 8 + (n - pos) + 5 * max 1 (ceilDiv (n - pos) 32768)) := by
  induction fuel generalizing pos d with
  | zero => omega
  | succ k ih =>
    have ht : blockTarget = 32768 := rfl
    have hat : Parse.At d.mf 0 ⟨d.mf, [], pos⟩ := ⟨rfl, rfl, hwin, hcur, by simp only []; omega, by simp⟩
    obtain ⟨hq, hle, htok, -, hend⟩ := Parse.block_spec (mf := d.mf) h d.out.mem pos blockTarget hat (by simp) (by simp)
      (by simp only []; omega)
    rw [hlen] at hq hle htok hend
    set q := Parse.block h d.out.mem n pos blockTarget ⟨d.mf, [], pos⟩ with eq
    have hle' : pos ≤ q.pos := hle
    have hin : q.pos ≤ n := hlen ▸ hq.inside
    have hfwd : pos < n → pos < q.pos := fun hlt => by rcases hend with e | e <;> omega
    set b : Deflate := { d with mf := q.mf, cp := ⟨q.toks.reverse, BitVec.ofNat 32 pos⟩ } with eb
    have hmax : tokensMax = 33024 := rfl
    obtain ⟨c, hc, ha⟩ := Deflate.emitBlock_size b src pos q.pos (decide (q.pos = n)) hn
      (by show q.toks.reverse.length ≤ _; rw [List.length_reverse]; omega)
    obtain ⟨ecp, emf⟩ := Deflate.emitBlock_cp b src pos q.pos (decide (q.pos = n))
    set e := b.emitBlock src pos q.pos (decide (q.pos = n)) with ee
    have bytes := costStored_bytes b.out (q.pos - pos) c hc
    have up : ∀ x y : Nat, ceilDiv x 8 ≤ y → x / 8 ≤ y := fun x y g => by unfold ceilDiv at g; omega
    have hroom := ha.room hn
    have hcap : e.out.bw.cap = d.out.bw.cap := ha.cap
    have hout : b.out = d.out := rfl
    rw [hout] at bytes hroom
    have hdef : Deflate.blocks h src n (k + 1) pos d = if q.pos = n then e else Deflate.blocks h src n k q.pos e := rfl
    intro r
    have hr : r = if q.pos = n then e else Deflate.blocks h src n k q.pos e := hdef
    by_cases hfin : q.pos = n
    · rw [if_pos hfin] at hr
      rw [hr]
      refine ⟨?_, hcap, fun ho hsize => ?_⟩
      · rw [ecp]
        refine ⟨by show q.toks.reverse.length ≤ _; rw [List.length_reverse]; omega, fun len off hm => ?_⟩
        exact hq.tokens _ (List.mem_reverse.mp hm)
      · obtain ⟨g1, g3⟩ := hroom (up _ _ (by omega))
        exact ⟨g1.trans ho, ha.bits hn, by rw [g3]; omega⟩
    · rw [if_neg hfin] at hr
      have htarget : pos + 32768 ≤ q.pos := by rcases hend with g | g <;> omega
      have key : ceilDiv (n - pos) 32768 ≥ 1 + max 1 (ceilDiv (n - q.pos) 32768) := by unfold ceilDiv; omega
      by_cases hsize : ceilDiv d.out.held 8 + (n - pos) + 5 * max 1 (ceilDiv (n - pos) 32768) ≤ d.out.bw.cap.toNat
      · obtain ⟨g1, g3⟩ := hroom (up _ _ (by omega))
        obtain ⟨i1, i2, i3⟩ := ih q.pos e (by rw [emf]; show q.mf.len.toNat = n; rw [hq.len, hlen])
          (by rw [emf]; exact hq.cur) (by rw [emf]; exact hq.window) (by omega) (by omega) (ha.bits hn)
        rw [hr]
        refine ⟨i1, i2.trans hcap, fun ho _ => ?_⟩
        obtain ⟨j1, j2, j3⟩ := i3 (g1.trans ho) (by rw [g3, hcap]; omega)
        exact ⟨j1, j2, by rw [g3] at j3; omega⟩
      · obtain ⟨i1, i2, -⟩ := ih q.pos e (by rw [emf]; show q.mf.len.toNat = n; rw [hq.len, hlen])
          (by rw [emf]; exact hq.cur) (by rw [emf]; exact hq.window) (by omega) (by omega)
          (ha.bits hn)
        rw [hr]
        exact ⟨i1, i2.trans hcap, fun _ g => absurd g hsize⟩

end Sys2Proof.Machine
end

