-- ==== Sys2Proof/Laws/Reader.lean ====
section
/-! SUPPORT. What the reader's primitives can do, and the forward copy. -/

namespace Sys2Proof.Machine

/-! ## Fields -/

theorem bit_toNat_lt (b : Bool) : b.toNat < 2 := by cases b <;> decide

theorem Reader.field_lt (r : Reader) (m : Memory) (i n : Nat) : r.field m i n < 2 ^ n := by
  induction n generalizing i with
  | zero => simp [Reader.field]
  | succ n ih =>
    have := ih (i + 1)
    have := bit_toNat_lt (r.bit m i)
    rw [Reader.field, Nat.pow_succ]; omega

/-- Bit `k` of a field is bit `i + k` of the input bit sequence (rule R342). -/
theorem Reader.field_testBit (r : Reader) (m : Memory) (i n k : Nat) :
    (r.field m i n).testBit k = (decide (k < n) && r.bit m (i + k)) := by
  induction n generalizing i k with
  | zero => simp [Reader.field]
  | succ n ih =>
    cases k with
    | zero =>
      cases h : r.bit m i <;> simp [Reader.field, h, Nat.testBit_zero, Nat.add_mul_mod_self_left]
    | succ k =>
      have hdiv : (r.field m i (n + 1)) / 2 = r.field m (i + 1) n := by
        have := bit_toNat_lt (r.bit m i)
        rw [Reader.field]; omega
      rw [Nat.testBit_succ, hdiv, ih (i + 1) k]
      simp [Nat.add_assoc, Nat.add_comm 1 k]

/-- A field depends on the input bit sequence alone. -/
theorem Reader.field_congr {r r' : Reader} {m m' : Memory} {i j n : Nat}
    (h : ∀ k, k < n → r.bit m (i + k) = r'.bit m' (j + k)) : r.field m i n = r'.field m' j n := by
  induction n generalizing i j with
  | zero => rfl
  | succ n ih =>
    rw [Reader.field, Reader.field]
    have h0 := h 0 (Nat.zero_lt_succ n)
    simp only [Nat.add_zero] at h0
    rw [h0, ih (i := i + 1) (j := j + 1) fun k hk => ?_]
    have := h (k + 1) (Nat.succ_lt_succ hk)
    rwa [Nat.add_comm k 1, ← Nat.add_assoc, ← Nat.add_assoc] at this

theorem Reader.peek_lt (r : Reader) (m : Memory) (n : Nat) : r.peek m n < 2 ^ n := r.field_lt m _ n

/-! ## Dropping bits -/

theorem ceilDiv_le_iff (a b : Nat) : ceilDiv a 8 ≤ b ↔ a ≤ 8 * b := by
  unfold ceilDiv; omega

/-- `Drop` succeeds exactly within the overread bound (rule R344). -/
theorem Reader.drop_eq (r : Reader) (n : Nat) :
    r.drop n = if r.bitpos.toNat + n ≤ 8 * r.len.toNat + 64
      then some { r with bitpos := BitVec.ofNat 64 (r.bitpos.toNat + n) } else none := by
  have h : (r.len.toNat + overreadMaxBytes < ceilDiv (r.bitpos.toNat + n) 8)
      ↔ ¬ (r.bitpos.toNat + n ≤ 8 * r.len.toNat + 64) := by
    rw [← Nat.not_le, ceilDiv_le_iff, overreadMaxBytes]; omega
  unfold Reader.drop
  by_cases hc : r.bitpos.toNat + n ≤ 8 * r.len.toNat + 64
  · rw [if_neg (by rw [h]; exact not_not_intro hc), if_pos hc]
  · rw [if_pos (h.mpr hc), if_neg hc]

/-- The position after bits within the overread bound does not wrap (rule R17 (f)). -/
theorem Reader.bitpos_ofNat {n : Nat} (len : Word) (h : n ≤ 8 * len.toNat + 64) :
    (BitVec.ofNat 64 n).toNat = n := by
  have := len.isLt
  rw [BitVec.toNat_ofNat, Nat.mod_eq_of_lt]; omega

/-- `r'` is `r` after bits were consumed: the binding stands, the position only grows and stays
within the overread bound. -/
structure Reader.Advances (r r' : Reader) : Prop where
  src : r'.src = r.src
  len : r'.len = r.len
  le : r.bitpos.toNat ≤ 8 * r.len.toNat + 64 → r.bitpos.toNat ≤ r'.bitpos.toNat
  bound : r.bitpos.toNat ≤ 8 * r.len.toNat + 64 → r'.bitpos.toNat ≤ 8 * r.len.toNat + 64

theorem Reader.Advances.refl (r : Reader) : Reader.Advances r r := ⟨rfl, rfl, fun _ => Nat.le_refl _, id⟩

theorem Reader.Advances.trans {r r' r'' : Reader} (h : Reader.Advances r r') (g : Reader.Advances r' r'') :
    Reader.Advances r r'' where
  src := g.src.trans h.src
  len := g.len.trans h.len
  le := fun b => Nat.le_trans (h.le b) (g.le (by rw [h.len]; exact h.bound b))
  bound := fun b => by rw [← h.len]; exact g.bound (by rw [h.len]; exact h.bound b)

theorem Reader.drop_some {r r' : Reader} {n : Nat} (h : r.drop n = some r') :
    r.bitpos.toNat + n ≤ 8 * r.len.toNat + 64 ∧ r'.src = r.src ∧ r'.len = r.len
      ∧ r'.bitpos.toNat = r.bitpos.toNat + n := by
  rw [Reader.drop_eq] at h
  by_cases hc : r.bitpos.toNat + n ≤ 8 * r.len.toNat + 64
  · rw [if_pos hc, Option.some.injEq] at h
    subst h
    exact ⟨hc, rfl, rfl, Reader.bitpos_ofNat r.len hc⟩
  · simp [hc] at h

theorem Reader.advances_drop {r r' : Reader} {n : Nat} (h : r.drop n = some r') : Reader.Advances r r' := by
  obtain ⟨hb, hs, hl, hp⟩ := Reader.drop_some h
  exact ⟨hs, hl, fun _ => by omega, fun _ => by omega⟩

theorem Reader.advances_get (r : Reader) (m : Memory) (n : Nat) : Reader.Advances r (r.get m n).1 := by
  unfold Reader.get
  split
  · exact Reader.Advances.refl r
  · exact Reader.advances_drop ‹_›

/-- What `Get` answers (rule R346). -/
theorem Reader.get_eq (r : Reader) (m : Memory) (n : Nat) :
    r.get m n = if r.bitpos.toNat + n ≤ 8 * r.len.toNat + 64
      then ({ r with bitpos := BitVec.ofNat 64 (r.bitpos.toNat + n) }, some (r.peek m n)) else (r, none) := by
  rw [Reader.get, Reader.drop_eq]
  by_cases hc : r.bitpos.toNat + n ≤ 8 * r.len.toNat + 64 <;> simp [hc]

/-! ## The forward copy (rule R104) -/

theorem Memory.wf_copyForward (src dst : Word) (i j n : Nat) {m : Memory} (h : Memory.wf m = true) :
    Memory.wf (Memory.copyForward src dst i j n m) = true := by
  induction n generalizing i j m with
  | zero => exact h
  | succ n ih => exact ih _ _ (Memory.wf_write h _ _)

/-- Bytes outside the copied range keep their values. -/
theorem Memory.copyForward_frame {src dst : Word} {i j n : Nat} {m : Memory} {a : Word}
    (h : ∀ k, k < n → a ≠ bufferAddr dst (j + k)) :
    (Memory.copyForward src dst i j n m).read a = m.read a := by
  induction n generalizing i j m with
  | zero => rfl
  | succ n ih =>
    rw [Memory.copyForward, ih fun k hk => ?_]
    · exact Memory.read_write_ne _ _ (h 0 (Nat.zero_lt_succ n))
    · have := h (k + 1) (Nat.succ_lt_succ hk)
      rwa [Nat.add_comm k 1, ← Nat.add_assoc] at this

/-- A copy between disjoint ranges copies verbatim. -/
theorem Memory.copyForward_disjoint {src dst : Word} {i j n : Nat} {m : Memory}
    (hd : dst.toNat + (j + n) ≤ wordSpan)
    (h : ∀ k k', k < n → k' < n → bufferAddr src (i + k) ≠ bufferAddr dst (j + k')) {k : Nat} (hk : k < n) :
    (Memory.copyForward src dst i j n m).read (bufferAddr dst (j + k)) = m.read (bufferAddr src (i + k)) := by
  induction n generalizing i j m k with
  | zero => omega
  | succ n ih =>
    rw [Memory.copyForward]
    cases k with
    | zero =>
      rw [Memory.copyForward_frame fun k hk' => by rw [ne_eq, bufferAddr_inj (by omega) (by omega)]; omega]
      simp
    | succ k =>
      have := @ih (i + 1) (j + 1) (m.write (bufferAddr dst j) (m.read (bufferAddr src i))) (by omega)
        (fun a b ha hb => by
          have := h (a + 1) (b + 1) (by omega) (by omega)
          rwa [show i + 1 + a = i + (a + 1) by omega, show j + 1 + b = j + (b + 1) by omega]) k (by omega)
      rw [show j + (k + 1) = j + 1 + k by omega, show i + (k + 1) = i + 1 + k by omega, this]
      refine Memory.read_write_ne _ _ ?_
      have := h (k + 1) 0 (by omega) (by omega)
      rwa [show i + 1 + k = i + (k + 1) by omega, show j = j + 0 by omega]

/-- A copy within one buffer from an earlier index: every byte equals the byte at its distance before
it, also where the ranges overlap (rule R104). -/
theorem Memory.copyForward_self {dst : Word} {i j n : Nat} {m : Memory} (hd : dst.toNat + (j + n) ≤ wordSpan)
    (h : i < j) {k : Nat} (hk : k < n) :
    (Memory.copyForward dst dst i j n m).read (bufferAddr dst (j + k))
      = (Memory.copyForward dst dst i j n m).read (bufferAddr dst (i + k)) := by
  induction n generalizing i j m k with
  | zero => omega
  | succ n ih =>
    rw [Memory.copyForward]
    cases k with
    | zero =>
      rw [Memory.copyForward_frame fun k hk' => by rw [ne_eq, bufferAddr_inj (by omega) (by omega)]; omega,
        Memory.copyForward_frame fun k hk' => by rw [ne_eq, bufferAddr_inj (by omega) (by omega)]; omega]
      simp [Memory.read_write]
    | succ k =>
      have := @ih (i + 1) (j + 1) (m.write (bufferAddr dst j) (m.read (bufferAddr dst i))) (by omega) (by omega) k
        (by omega)
      rwa [show j + (k + 1) = j + 1 + k by omega, show i + (k + 1) = i + 1 + k by omega]

/-- A forward copy in two memories that read the same wherever it reads what it did not write: each byte
ends the same in both, or untouched in both (rules R91, R104). -/
theorem Memory.copyForward_agree {src dst : Word} {i j n : Nat} {m m' : Memory}
    (h : ∀ k, k < n → m'.read (bufferAddr src (i + k)) = m.read (bufferAddr src (i + k))
      ∨ ∃ l, l < k ∧ bufferAddr src (i + k) = bufferAddr dst (j + l)) (a : Word) :
    (Memory.copyForward src dst i j n m').read a = (Memory.copyForward src dst i j n m).read a
      ∨ ((Memory.copyForward src dst i j n m').read a = m'.read a ∧ (Memory.copyForward src dst i j n m).read a = m.read a) := by
  induction n generalizing i j m m' with
  | zero => exact .inr ⟨rfl, rfl⟩
  | succ n ih =>
    have h0 : m'.read (bufferAddr src i) = m.read (bufferAddr src i) := by
      rcases h 0 (Nat.succ_pos n) with h | ⟨l, hl, -⟩
      · exact h
      · omega
    have step : ∀ b, m'.read b = m.read b ∨ b = bufferAddr dst j →
        (m'.write (bufferAddr dst j) (m'.read (bufferAddr src i))).read b
          = (m.write (bufferAddr dst j) (m.read (bufferAddr src i))).read b := fun b hb => by
      rw [Memory.read_write, Memory.read_write, h0]
      split
      · rfl
      · exact hb.resolve_right ‹_›
    have next : ∀ k, k < n →
        (m'.write (bufferAddr dst j) (m'.read (bufferAddr src i))).read (bufferAddr src (i + 1 + k))
            = (m.write (bufferAddr dst j) (m.read (bufferAddr src i))).read (bufferAddr src (i + 1 + k))
          ∨ ∃ l, l < k ∧ bufferAddr src (i + 1 + k) = bufferAddr dst (j + 1 + l) := fun k hk => by
      have e : i + 1 + k = i + (k + 1) := by omega
      rw [e]
      rcases h (k + 1) (by omega) with h | ⟨l, hl, h⟩
      · exact .inl (step _ (.inl h))
      · cases l with
        | zero => exact .inl (step _ (.inr h))
        | succ l => exact .inr ⟨l, by omega, by rw [h]; congr 1; omega⟩
    unfold Memory.copyForward
    rcases ih next with g | ⟨g1, g2⟩
    · exact .inl g
    · by_cases ha : a = bufferAddr dst j
      · exact .inl (by rw [g1, g2]; exact step a (.inr ha))
      · exact .inr ⟨by rw [g1, Memory.read_write_ne _ _ ha], by rw [g2, Memory.read_write_ne _ _ ha]⟩

end Sys2Proof.Machine
end

