-- ==== Sys2Proof/Laws/DecodeTable.lean ====
section
/-! SUPPORT. What each entry of a built decode table is (rules R304, R305), for any prefix-free list of
codewords. -/

namespace Sys2Proof.Machine

/-! ## Reversed numbers -/

theorem rev_mod {n k : Nat} (w : Nat) (h : k ≤ n) : rev n w % 2 ^ k = rev k (w / 2 ^ (n - k)) := by
  induction n generalizing w with
  | zero => obtain rfl : k = 0 := by omega
            simp [rev]
  | succ n ih =>
    rcases Nat.lt_or_ge n k with hk | hk
    · obtain rfl : k = n + 1 := by omega
      simp [Nat.mod_eq_of_lt (rev_lt (n + 1) w)]
    · have hd : 2 ^ k ∣ w % 2 * 2 ^ n := Dvd.dvd.mul_left (Nat.pow_dvd_pow 2 hk) _
      rw [rev, Nat.add_mod, Nat.mod_eq_zero_of_dvd hd, Nat.zero_add, Nat.mod_mod, ih (w / 2) hk,
        Nat.div_div_eq_div_mul, show n + 1 - k = n - k + 1 by omega, Nat.pow_succ, Nat.mul_comm 2]

theorem rev_div {n k : Nat} (w : Nat) (h : k ≤ n) : rev n w / 2 ^ k = rev (n - k) (w % 2 ^ (n - k)) := by
  induction n generalizing w with
  | zero => obtain rfl : k = 0 := by omega
            simp [rev]
  | succ n ih =>
    rcases Nat.lt_or_ge n k with hk | hk
    · obtain rfl : k = n + 1 := by omega
      rw [Nat.div_eq_of_lt (rev_lt (n + 1) w), Nat.sub_self]; rfl
    · have hd : 2 ^ k ∣ w % 2 * 2 ^ n := Dvd.dvd.mul_left (Nat.pow_dvd_pow 2 hk) _
      have e1 : w % 2 ^ (n - k + 1) % 2 = w % 2 := by rw [Nat.pow_succ]; exact Nat.mod_mul_left_mod w _ 2
      have e2 : w % 2 ^ (n - k + 1) / 2 = w / 2 % 2 ^ (n - k) := by
        rw [Nat.pow_succ, Nat.mul_comm]; exact Nat.mod_mul_right_div_self w 2 _
      rw [rev, Nat.add_div_of_dvd_right hd, Nat.mul_div_assoc _ (Nat.pow_dvd_pow 2 hk),
        Nat.pow_div hk (by decide), ih (w / 2) hk, show n + 1 - k = n - k + 1 by omega, rev, e1, e2]

/-! ## Entries (rule R59) -/

theorem toNat_tableEntry {k n v : Nat} (hk : k < 4) (hn : n < 16) (hv : v < 65536) :
    (tableEntry k n v).toNat = k + 16 * n + 65536 * v := by
  rw [tableEntry, BitVec.toNat_ofNat, Nat.mod_eq_of_lt]; omega

theorem entryKind_tableEntry {k n v : Nat} (hk : k < 4) (hn : n < 16) (hv : v < 65536) :
    entryKind (tableEntry k n v) = k := by rw [entryKind, toNat_tableEntry hk hn hv]; omega

theorem entryBits_tableEntry {k n v : Nat} (hk : k < 4) (hn : n < 16) (hv : v < 65536) :
    entryBits (tableEntry k n v) = n := by rw [entryBits, toNat_tableEntry hk hn hv]; omega

theorem entryValue_tableEntry {k n v : Nat} (hk : k < 4) (hn : n < 16) (hv : v < 65536) :
    entryValue (tableEntry k n v) = v := by rw [entryValue, toNat_tableEntry hk hn hv]; omega

/-! ## Filling -/

theorem get_fillStride (start stride : Nat) (e : BitVec 32) (n : Nat) (t : Table 32) (j : Nat) :
    (fillStride start stride e n t).get j = if ∃ k, k < n ∧ j = start + k * stride then e else t.get j := by
  induction n generalizing start t with
  | zero => simp [fillStride]
  | succ n ih =>
    rw [fillStride, ih, Table.get_set]
    by_cases h : ∃ k, k < n ∧ j = start + stride + k * stride
    · obtain ⟨k, hk, rfl⟩ := h
      rw [if_pos ⟨k, hk, rfl⟩, if_pos ⟨k + 1, by omega, by ring⟩]
    · rw [if_neg h]
      by_cases h0 : j = start
      · rw [if_pos h0, if_pos ⟨0, by omega, by omega⟩]
      · rw [if_neg h0, if_neg]
        rintro ⟨k, hk, rfl⟩
        cases k with
        | zero => exact h0 (by omega)
        | succ k => exact h ⟨k, by omega, by ring⟩

/-- An index lies in the part of a table that a codeword fills. -/
def fills (base bits len word j : Nat) : Prop :=
  base ≤ j ∧ j < base + 2 ^ bits ∧ (j - base) % 2 ^ len = rev len word

theorem get_fillWord {base bits len : Nat} (sym word : Nat) (t : Table 32) (j : Nat) (hl : len ≤ bits) :
    (fills base bits len word j → (fillWord base bits sym len word t).get j = tableEntry kindSymbol len sym)
      ∧ (¬ fills base bits len word j → (fillWord base bits sym len word t).get j = t.get j) := by
  have hr := rev_lt len word
  have hp : 2 ^ bits = 2 ^ (bits - len) * 2 ^ len := by rw [← Nat.pow_add, Nat.sub_add_cancel hl]
  rw [fillWord, get_fillStride]
  refine ⟨fun ⟨h1, h2, h3⟩ => if_pos ⟨(j - base) / 2 ^ len, ?_, ?_⟩, fun h => if_neg fun ⟨k, hk, e⟩ => h ?_⟩
  · rw [Nat.div_lt_iff_lt_mul (Nat.two_pow_pos _), ← hp]; omega
  · have := Nat.div_add_mod (j - base) (2 ^ len)
    rw [Nat.mul_comm] at this; omega
  · have hk' : (k + 1) * 2 ^ len ≤ 2 ^ bits := by rw [hp]; exact Nat.mul_le_mul_right _ hk
    rw [Nat.add_mul, Nat.one_mul] at hk'
    refine ⟨by omega, by omega, ?_⟩
    rw [show j - base = rev len word + k * 2 ^ len by omega, Nat.add_mul_mod_self_right, Nat.mod_eq_of_lt hr]

/-- Filling a list of codewords, as lengths and words given by two functions. -/
def fillAll (base bits : Nat) (flen fword : Codeword → Nat) (cs : List Codeword) (t : Table 32) : Table 32 :=
  cs.foldl (fun t c => fillWord base bits c.sym (flen c) (fword c) t) t

theorem get_fillAll_miss {base bits : Nat} {flen fword : Codeword → Nat} {cs : List Codeword} (t : Table 32) {j : Nat}
    (hl : ∀ c ∈ cs, flen c ≤ bits) (h : ∀ c ∈ cs, ¬ fills base bits (flen c) (fword c) j) :
    (fillAll base bits flen fword cs t).get j = t.get j := by
  induction cs generalizing t with
  | nil => rfl
  | cons c cs ih =>
    have e := ih (fillWord base bits c.sym (flen c) (fword c) t) (fun x hx => hl x (.tail _ hx)) (fun x hx => h x (.tail _ hx))
    rw [show fillAll base bits flen fword (c :: cs) t
      = fillAll base bits flen fword cs (fillWord base bits c.sym (flen c) (fword c) t) from rfl, e]
    exact (get_fillWord _ _ _ _ (hl c (.head _))).2 (h c (.head _))

theorem get_fillAll_hit {base bits : Nat} {flen fword : Codeword → Nat} {cs : List Codeword} (t : Table 32) {j : Nat}
    {c0 : Codeword} (hl : ∀ c ∈ cs, flen c ≤ bits) (hm : c0 ∈ cs) (h0 : fills base bits (flen c0) (fword c0) j)
    (hu : ∀ c ∈ cs, fills base bits (flen c) (fword c) j → c = c0) :
    (fillAll base bits flen fword cs t).get j = tableEntry kindSymbol (flen c0) c0.sym := by
  induction cs generalizing t with
  | nil => cases hm
  | cons c cs ih =>
    rw [show fillAll base bits flen fword (c :: cs) t
      = fillAll base bits flen fword cs (fillWord base bits c.sym (flen c) (fword c) t) from rfl]
    by_cases hin : c0 ∈ cs
    · exact ih _ (fun x hx => hl x (.tail _ hx)) hin (fun x hx => hu x (.tail _ hx))
    · obtain rfl : c0 = c := by
        cases hm with
        | head => rfl
        | tail _ h => exact absurd h hin
      rw [get_fillAll_miss _ (fun x hx => hl x (.tail _ hx)) fun x hx hf => hin (by rw [← hu x (.tail _ hx) hf]; exact hx)]
      exact (get_fillWord _ _ _ _ (hl c0 (.head _))).1 h0

/-! ## Prefix-free lists of codewords -/

/-- Codewords of 1 to 15 bits, none of which begins another; symbols fit an entry. -/
structure PrefixFree (cs : List Codeword) : Prop where
  pos : ∀ c ∈ cs, 1 ≤ c.len
  le : ∀ c ∈ cs, c.len ≤ 15
  fits : ∀ c ∈ cs, c.word < 2 ^ c.len
  sym : ∀ c ∈ cs, c.sym < 65536
  free : ∀ c ∈ cs, ∀ c' ∈ cs, c.len ≤ c'.len → c'.word / 2 ^ (c'.len - c.len) = c.word → c = c'

/-- The next stream bits, as a number with the first bit lowest, begin with the codeword. -/
def Codeword.matches (c : Codeword) (v : Nat) : Prop := v % 2 ^ c.len = rev c.len c.word

theorem div_pow_lt {a n k : Nat} (h : a < 2 ^ n) (hk : k ≤ n) : a / 2 ^ (n - k) < 2 ^ k := by
  rw [Nat.div_lt_iff_lt_mul (Nat.two_pow_pos _), ← Nat.pow_add, Nat.add_sub_cancel' hk]; exact h

/-- At most one codeword matches. -/
theorem PrefixFree.unique {cs : List Codeword} (h : PrefixFree cs) {c c' : Codeword} (hc : c ∈ cs) (hc' : c' ∈ cs) {v : Nat}
    (m : c.matches v) (m' : c'.matches v) : c = c' := by
  have key : ∀ {a b : Codeword}, a ∈ cs → b ∈ cs → a.matches v → b.matches v → a.len ≤ b.len → a = b := by
    intro a b ha hb ma mb hle
    refine h.free a ha b hb hle ?_
    have e : rev a.len a.word = rev a.len (b.word / 2 ^ (b.len - a.len)) := by
      rw [← ma, ← rev_mod b.word hle, ← mb, Nat.mod_mod_of_dvd _ (Nat.pow_dvd_pow 2 hle)]
    exact (rev_injective (h.fits a ha) (div_pow_lt (h.fits b hb) hle) e).symm
  rcases Nat.le_total c.len c'.len with hle | hle
  · exact key hc hc' m m' hle
  · exact (key hc' hc m' m hle).symm

/-- A match of a codeword longer than `tb` begins with its head's bits. -/
theorem Codeword.matches_head {c : Codeword} {v tb : Nat} (h : tb ≤ c.len) (m : c.matches v) :
    v % 2 ^ tb = rev tb (c.head tb) := by
  rw [Codeword.head, ← rev_mod c.word h, ← m, Nat.mod_mod_of_dvd _ (Nat.pow_dvd_pow 2 h)]

/-- A match of a longer codeword, split at `tb` bits. -/
theorem Codeword.matches_split {c : Codeword} {v tb : Nat} (h : tb ≤ c.len) :
    c.matches v ↔ v % 2 ^ tb = rev tb (c.head tb)
      ∧ v / 2 ^ tb % 2 ^ (c.len - tb) = rev (c.len - tb) (c.word % 2 ^ (c.len - tb)) := by
  have hp : 2 ^ c.len = 2 ^ tb * 2 ^ (c.len - tb) := by rw [← Nat.pow_add, Nat.add_sub_cancel' h]
  have ht : rev c.len c.word = rev tb (c.head tb) + 2 ^ tb * rev (c.len - tb) (c.word % 2 ^ (c.len - tb)) := by
    rw [Codeword.head, ← rev_mod c.word h, ← rev_div c.word h]
    exact (Nat.mod_add_div _ _).symm
  have hv : v % 2 ^ c.len = v % 2 ^ tb + 2 ^ tb * (v / 2 ^ tb % 2 ^ (c.len - tb)) := by rw [hp, Nat.mod_mul]
  have l1 := Nat.mod_lt v (Nat.two_pow_pos tb)
  have l2 := rev_lt tb (c.head tb)
  rw [Codeword.matches, hv, ht]
  constructor
  · intro e
    have e1 := congrArg (· % 2 ^ tb) e
    have e2 := congrArg (· / 2 ^ tb) e
    simp only [Nat.add_mul_mod_self_left, Nat.mod_eq_of_lt l1, Nat.mod_eq_of_lt l2] at e1
    simp only [Nat.add_mul_div_left _ _ (Nat.two_pow_pos tb), Nat.div_eq_of_lt l1, Nat.div_eq_of_lt l2, Nat.zero_add] at e2
    exact ⟨e1, e2⟩
  · rintro ⟨e1, e2⟩; rw [e1, e2]

/-! ## The main table (rule R304) -/

theorem fillMain_eq (tb : Nat) (cs : List Codeword) (t : Table 32) :
    fillMain tb cs t = fillAll 0 tb Codeword.len Codeword.word (cs.filter fun c => decide (c.len ≤ tb)) t := rfl

theorem mem_short {tb : Nat} {cs : List Codeword} {c : Codeword} :
    c ∈ cs.filter (fun c => decide (c.len ≤ tb)) ↔ c ∈ cs ∧ c.len ≤ tb := by simp

theorem fills_main {tb j : Nat} {c : Codeword} (hj : j < 2 ^ tb) :
    fills 0 tb c.len c.word j ↔ c.matches j := by
  simp [fills, Codeword.matches, hj]

theorem get_fillMain_hit {tb j : Nat} {cs : List Codeword} (h : PrefixFree cs) (t : Table 32) (hj : j < 2 ^ tb)
    {c : Codeword} (hc : c ∈ cs) (hl : c.len ≤ tb) (m : c.matches j) :
    (fillMain tb cs t).get j = tableEntry kindSymbol c.len c.sym := by
  rw [fillMain_eq]
  exact get_fillAll_hit t (fun x hx => (mem_short.mp hx).2) (mem_short.mpr ⟨hc, hl⟩) ((fills_main hj).mpr m)
    fun x hx hf => h.unique (mem_short.mp hx).1 hc ((fills_main hj).mp hf) m

theorem get_fillMain_miss {tb j : Nat} {cs : List Codeword} (t : Table 32)
    (h : j < 2 ^ tb → ∀ c ∈ cs, c.len ≤ tb → ¬ c.matches j) : (fillMain tb cs t).get j = t.get j := by
  rw [fillMain_eq]
  refine get_fillAll_miss t (fun x hx => (mem_short.mp hx).2) fun x hx hf => ?_
  have hj : j < 2 ^ tb := by simpa using hf.2.1
  exact h hj x (mem_short.mp hx).1 (mem_short.mp hx).2 ((fills_main hj).mp hf)

/-! ## Subtables (rule R305) -/

/-- The group of a prefix. -/
def groupOf (tb : Nat) (long : List Codeword) (p : Nat) : List Codeword := long.filter fun c => decide (c.head tb = p)

theorem mem_groupOf {tb p : Nat} {long : List Codeword} {c : Codeword} :
    c ∈ groupOf tb long p ↔ c ∈ long ∧ c.head tb = p := by simp [groupOf]

theorem foldl_max_ge (l : List Nat) (a : Nat) : a ≤ l.foldl max a ∧ ∀ x ∈ l, x ≤ l.foldl max a := by
  induction l generalizing a with
  | nil => simp
  | cons y l ih =>
    obtain ⟨h1, h2⟩ := ih (max a y)
    refine ⟨by rw [List.foldl_cons]; omega, fun x hx => ?_⟩
    rw [List.foldl_cons]
    cases hx with
    | head => omega
    | tail _ hx => exact h2 x hx

theorem foldl_max_mem (l : List Nat) (a : Nat) : l.foldl max a = a ∨ l.foldl max a ∈ l := by
  induction l generalizing a with
  | nil => simp
  | cons y l ih =>
    rw [List.foldl_cons]
    rcases ih (max a y) with h | h
    · rw [h]
      rcases Nat.le_total a y with hle | hle
      · right; simp [Nat.max_eq_right hle]
      · left; exact Nat.max_eq_left hle
    · right; exact .tail _ h

theorem subBits_ge {tb : Nat} {g : List Codeword} {c : Codeword} (h : c ∈ g) : c.len - tb ≤ subBits tb g :=
  (foldl_max_ge _ 0).2 _ (List.mem_map_of_mem h)

theorem subBits_le {tb n : Nat} {g : List Codeword} (h : ∀ c ∈ g, c.len ≤ n) : subBits tb g ≤ n - tb := by
  rcases foldl_max_mem (g.map fun c => c.len - tb) 0 with e | e
  · rw [subBits, e]; omega
  · obtain ⟨c, hc, he⟩ := List.mem_map.mp e
    have := h c hc
    rw [subBits, ← he]; omega

theorem fillOneSub_eq (tb p base : Nat) (g : List Codeword) (t : Table 32) :
    fillOneSub tb p base g t = fillAll base (subBits tb g) (fun c => c.len - tb) (fun c => c.word % 2 ^ (c.len - tb)) g
      (t.set (rev tb p) (tableEntry kindSubtable (subBits tb g) base)) := rfl

/-- Outside its own range, a subtable changes the entry that points to it only. -/
theorem get_fillOneSub_frame {tb p base j : Nat} {g : List Codeword} (t : Table 32)
    (hj : j < base ∨ base + 2 ^ subBits tb g ≤ j) :
    (fillOneSub tb p base g t).get j
      = if j = rev tb p then tableEntry kindSubtable (subBits tb g) base else t.get j := by
  rw [fillOneSub_eq, get_fillAll_miss _ (fun c hc => subBits_ge hc) fun c _ hf => ?_, Table.get_set]
  have := hf.1
  have := hf.2.1
  omega

/-- Where the subtables of a list of prefixes end. -/
def subsEnd (tb : Nat) (long : List Codeword) : (ps : List Nat) → (free : Nat) → Nat
  | [], free => free
  | p :: ps, free => subsEnd tb long ps (free + 2 ^ subBits tb (groupOf tb long p))

theorem subsEnd_ge (tb : Nat) (long : List Codeword) (ps : List Nat) (free : Nat) : free ≤ subsEnd tb long ps free := by
  induction ps generalizing free with
  | nil => exact Nat.le_refl _
  | cons p ps ih => exact Nat.le_trans (Nat.le_add_right _ _) (ih _)

theorem fillSubs_cons (tb : Nat) (long : List Codeword) (p : Nat) (ps : List Nat) (free : Nat) (t : Table 32) :
    fillSubs tb long (p :: ps) free t
      = fillSubs tb long ps (free + 2 ^ subBits tb (groupOf tb long p)) (fillOneSub tb p free (groupOf tb long p) t) := rfl

/-- Subtables from `free` on change nothing below `free` but the entries that point to them. -/
theorem get_fillSubs_frame {tb j free : Nat} {long : List Codeword} {ps : List Nat} (t : Table 32) (hj : j < free)
    (hp : ∀ p ∈ ps, j ≠ rev tb p) : (fillSubs tb long ps free t).get j = t.get j := by
  induction ps generalizing free t with
  | nil => rfl
  | cons p ps ih =>
    rw [fillSubs_cons, ih _ (Nat.lt_add_right _ hj) (fun q hq => hp q (.tail _ hq)), get_fillOneSub_frame t (.inl hj),
      if_neg (hp p (.head _))]

/-- The subtable of a prefix, and the entry that points to it. -/
theorem get_fillSubs_hit {tb free p : Nat} {long : List Codeword} {ps : List Nat} (t : Table 32)
    (hf : 2 ^ tb ≤ free) (hlt : ∀ q ∈ ps, q < 2 ^ tb) (hnd : ps.Nodup) (hp : p ∈ ps) (ht : ∀ j, free ≤ j → t.get j = 0) :
    ∃ base, free ≤ base ∧ base + 2 ^ subBits tb (groupOf tb long p) ≤ subsEnd tb long ps free
      ∧ (fillSubs tb long ps free t).get (rev tb p) = tableEntry kindSubtable (subBits tb (groupOf tb long p)) base
      ∧ ∀ j, base ≤ j → j < base + 2 ^ subBits tb (groupOf tb long p) →
        ∃ t', t'.get j = 0 ∧ (fillSubs tb long ps free t).get j
          = (fillAll base (subBits tb (groupOf tb long p)) (fun c => c.len - tb) (fun c => c.word % 2 ^ (c.len - tb))
              (groupOf tb long p) t').get j := by
  induction ps generalizing free t with
  | nil => cases hp
  | cons q ps ih =>
    rw [List.nodup_cons] at hnd
    have hq := Nat.two_pow_pos (subBits tb (groupOf tb long q))
    by_cases hin : p ∈ ps
    · obtain ⟨base, h1, h2, h3, h4⟩ := ih (free := free + 2 ^ subBits tb (groupOf tb long q))
        (fillOneSub tb q free (groupOf tb long q) t) (by omega) (fun x hx => hlt x (.tail _ hx)) hnd.2 hin fun j hj => by
          have := rev_lt tb q
          rw [get_fillOneSub_frame t (.inr hj), if_neg (by omega), ht j (by omega)]
      exact ⟨base, by omega, h2, h3, h4⟩
    · obtain rfl : p = q := by
        cases hp with
        | head => rfl
        | tail _ h => exact absurd h hin
      have hr := rev_lt tb p
      have hn : free < free + 2 ^ subBits tb (groupOf tb long p) := by omega
      have hb : ∀ x ∈ ps, x < 2 ^ tb := fun x hx => hlt x (.tail _ hx)
      refine ⟨free, Nat.le_refl _, subsEnd_ge _ _ _ _, ?_, fun j h1 h2 => ?_⟩
      · rw [fillSubs_cons, get_fillSubs_frame _ (by omega) fun x hx e => ?_, get_fillOneSub_frame t (.inl (by omega)),
          if_pos rfl]
        exact hin (by rw [rev_injective (hlt p (.head _)) (hb x hx) e]; exact hx)
      · refine ⟨t.set (rev tb p) (tableEntry kindSubtable (subBits tb (groupOf tb long p)) free), ?_, ?_⟩
        · rw [Table.get_set, if_neg (by omega), ht j h1]
        · rw [fillSubs_cons, get_fillSubs_frame _ (by omega) fun x hx e => ?_, fillOneSub_eq]
          have := rev_lt tb x
          omega

theorem insertOnce_spec {p : Nat} {l : List Nat} (h : l.Pairwise (· < ·)) :
    (insertOnce p l).Pairwise (· < ·) ∧ ∀ x, x ∈ insertOnce p l ↔ x = p ∨ x ∈ l := by
  induction l with
  | nil => simp [insertOnce]
  | cons q l ih =>
    rw [List.pairwise_cons] at h
    obtain ⟨i1, i2⟩ := ih h.2
    unfold insertOnce
    split
    · rename_i hlt
      refine ⟨List.pairwise_cons.mpr ⟨fun x hx => ?_, List.pairwise_cons.mpr h⟩, by simp⟩
      cases hx with
      | head => exact hlt
      | tail _ hx => have := h.1 x hx; omega
    · split
      · rename_i _ he
        refine ⟨List.pairwise_cons.mpr h, fun x => ?_⟩
        simp [he]
      · refine ⟨List.pairwise_cons.mpr ⟨fun x hx => ?_, i1⟩, fun x => ?_⟩
        · rcases (i2 x).mp hx with rfl | hx
          · omega
          · exact h.1 x hx
        · simp only [List.mem_cons, i2]; tauto

theorem headsOf_spec (tb : Nat) (long : List Codeword) :
    (headsOf tb long).Pairwise (· < ·) ∧ ∀ p, p ∈ headsOf tb long ↔ ∃ c ∈ long, c.head tb = p := by
  have key : ∀ (ps : List Nat), ps.Pairwise (· < ·) →
      (long.foldl (fun ps c => insertOnce (c.head tb) ps) ps).Pairwise (· < ·)
        ∧ ∀ p, p ∈ long.foldl (fun ps c => insertOnce (c.head tb) ps) ps ↔ p ∈ ps ∨ ∃ c ∈ long, c.head tb = p := by
    induction long with
    | nil => intro ps h; simp [h]
    | cons c long ih =>
      intro ps h
      obtain ⟨a1, a2⟩ := insertOnce_spec (p := c.head tb) h
      obtain ⟨b1, b2⟩ := ih _ a1
      refine ⟨b1, fun p => ?_⟩
      rw [List.foldl_cons, b2, a2]
      simp only [List.mem_cons, exists_eq_or_imp]
      constructor
      · rintro ((rfl | h) | h)
        · exact .inr (.inl rfl)
        · exact .inl h
        · exact .inr (.inr h)
      · rintro (h | rfl | h)
        · exact .inl (.inr h)
        · exact .inl (.inl rfl)
        · exact .inr h
  have := key [] List.Pairwise.nil
  simpa [headsOf] using this

theorem nodup_headsOf (tb : Nat) (long : List Codeword) : (headsOf tb long).Nodup :=
  (headsOf_spec tb long).1.imp fun h => Nat.ne_of_lt h

end Sys2Proof.Machine
end

