-- ==== Sys2Proof/Laws/DecodeSymbol.lean ====
section
/-! SUPPORT. A built table fits its store (rule R306), and decoding with it finds the codeword the stream
begins with (rule R308). -/

namespace Sys2Proof.Machine

/-! ## From code lengths to codewords -/

theorem kraft_eq (maxLen : Nat) (lens : List Nat) : kraft maxLen lens = kraftSum maxLen lens := by
  induction lens with
  | nil => rfl
  | cons l ls ih =>
    simp only [kraft, kraftSum] at ih ⊢
    by_cases h : l = 0
    · simp [h, ← ih]
    · simp [h, ← ih]

theorem mem_codewordsFrom {s0 : Nat} {lens words : List Nat} (h : lens.length = words.length) {c : Codeword} :
    c ∈ codewordsFrom s0 lens words
      ↔ ∃ s, s < lens.length ∧ lens.getD s 0 ≠ 0 ∧ c = ⟨s0 + s, lens.getD s 0, words.getD s 0⟩ := by
  induction lens generalizing s0 words with
  | nil => cases words <;> simp [codewordsFrom]
  | cons l ls ih =>
    cases words with
    | nil => simp at h
    | cons w ws =>
      have hi := ih (s0 := s0 + 1) (words := ws) (by simpa using h)
      have shift : (∃ s, s < ls.length ∧ ls.getD s 0 ≠ 0 ∧ c = ⟨s0 + 1 + s, ls.getD s 0, ws.getD s 0⟩)
          ↔ ∃ s, s + 1 < (l :: ls).length ∧ (l :: ls).getD (s + 1) 0 ≠ 0
            ∧ c = ⟨s0 + (s + 1), (l :: ls).getD (s + 1) 0, (w :: ws).getD (s + 1) 0⟩ := by
        simp only [List.length_cons, Nat.succ_lt_succ_iff, List.getD_cons_succ, Nat.add_assoc, Nat.add_comm 1]
      have peel : (∃ s, s < (l :: ls).length ∧ (l :: ls).getD s 0 ≠ 0
            ∧ c = ⟨s0 + s, (l :: ls).getD s 0, (w :: ws).getD s 0⟩)
          ↔ (l ≠ 0 ∧ c = ⟨s0, l, w⟩) ∨ ∃ s, s + 1 < (l :: ls).length ∧ (l :: ls).getD (s + 1) 0 ≠ 0
            ∧ c = ⟨s0 + (s + 1), (l :: ls).getD (s + 1) 0, (w :: ws).getD (s + 1) 0⟩ := by
        constructor
        · rintro ⟨s, h1, h2, h3⟩
          cases s with
          | zero => exact .inl ⟨by simpa using h2, by simpa using h3⟩
          | succ s => exact .inr ⟨s, h1, h2, h3⟩
        · rintro (⟨h1, h2⟩ | ⟨s, h1, h2, h3⟩)
          · exact ⟨0, by simp, by simpa using h1, by simpa using h2⟩
          · exact ⟨s + 1, h1, h2, h3⟩
      rw [peel, ← shift, ← hi]
      by_cases h0 : l = 0
      · simp [codewordsFrom, h0]
      · simp [codewordsFrom, h0]

theorem length_codewordsFrom_le (s0 : Nat) (lens words : List Nat) : (codewordsFrom s0 lens words).length ≤ lens.length := by
  induction lens generalizing s0 words with
  | nil => cases words <;> simp [codewordsFrom]
  | cons l ls ih =>
    cases words with
    | nil => simp [codewordsFrom]
    | cons w ws =>
      have := ih (s0 + 1) ws
      unfold codewordsFrom
      split <;> simp <;> omega

/-- The symbols of the codewords increase. -/
theorem pairwise_codewordsFrom (s0 : Nat) (lens words : List Nat) :
    (codewordsFrom s0 lens words).Pairwise (fun a b => a.sym < b.sym) ∧ ∀ c ∈ codewordsFrom s0 lens words, s0 ≤ c.sym := by
  induction lens generalizing s0 words with
  | nil => cases words <;> simp [codewordsFrom]
  | cons l ls ih =>
    cases words with
    | nil => simp [codewordsFrom]
    | cons w ws =>
      obtain ⟨h1, h2⟩ := ih (s0 + 1) ws
      unfold codewordsFrom
      split
      · exact ⟨h1, fun c hc => by have := h2 c hc; omega⟩
      · refine ⟨List.pairwise_cons.mpr ⟨fun c hc => ?_, h1⟩, fun c hc => ?_⟩
        · have := h2 c hc; show s0 < c.sym; omega
        · cases hc with
          | head => exact Nat.le_refl _
          | tail _ hc => have := h2 c hc; omega

/-- The codewords of a length set. -/
def codewordsOf (lens : List Nat) : List Codeword := codewordsFrom 0 lens (canonical lens)

theorem mem_codewordsOf {lens : List Nat} {c : Codeword} :
    c ∈ codewordsOf lens ↔ ∃ s, s < lens.length ∧ lens.getD s 0 ≠ 0 ∧ c = ⟨s, lens.getD s 0, (canonical lens).getD s 0⟩ := by
  rw [codewordsOf, mem_codewordsFrom (length_canonical lens).symm]
  simp

theorem nodup_codewordsOf (lens : List Nat) : (codewordsOf lens).Nodup :=
  (pairwise_codewordsFrom 0 lens _).1.imp fun h e => by rw [e] at h; omega

/-- The codewords of a length set that is not over-subscribed are prefix-free (rules R54, R302). -/
theorem prefixFree_codewordsOf {lens : List Nat} {maxLen : Nat} (hm : ∀ l ∈ lens, l ≤ maxLen) (h15 : maxLen ≤ 15)
    (hk : kraftSum maxLen lens ≤ 2 ^ maxLen) (hn : lens.length ≤ 65536) : PrefixFree (codewordsOf lens) := by
  have hle : ∀ {s}, s < lens.length → lens.getD s 0 ≤ 15 := fun {s} hs => by
    have : lens.getD s 0 ∈ lens := by rw [List.getD_eq_getElem?_getD, List.getElem?_eq_getElem hs]; exact List.getElem_mem hs
    exact Nat.le_trans (hm _ this) h15
  refine ⟨fun c hc => ?_, fun c hc => ?_, fun c hc => ?_, fun c hc => ?_, fun c hc c' hc' hl e => ?_⟩ <;>
    obtain ⟨s, hs, h0, rfl⟩ := mem_codewordsOf.mp hc
  · exact Nat.pos_of_ne_zero h0
  · exact hle hs
  · exact canonical_lt hm hk hs h0 (hle hs)
  · show s < 65536; omega
  · obtain ⟨s', hs', h0', rfl⟩ := mem_codewordsOf.mp hc'
    obtain rfl := canonical_prefix_free hs hs' h0 (hle hs') hl e
    rfl

/-! ## A complete group has enough leaves -/

theorem kraftSum_scale {ls : List Nat} {m n : Nat} (h : ∀ l ∈ ls, l ≤ m) (hmn : m ≤ n) :
    kraftSum n ls = 2 ^ (n - m) * kraftSum m ls := by
  induction ls with
  | nil => simp [kraftSum]
  | cons l ls ih =>
    have hl := h l (.head _)
    have := ih fun x hx => h x (.tail _ hx)
    simp only [kraftSum, List.map_cons, List.sum_cons] at this ⊢
    rw [this, Nat.mul_add]
    congr 1
    split
    · simp
    · rw [← Nat.pow_add]; congr 1; omega

theorem countP_succ (ls : List Nat) (d : Nat) :
    ls.countP (fun l => decide (1 ≤ l ∧ l ≤ d + 1)) = ls.countP (fun l => decide (1 ≤ l ∧ l ≤ d)) + ls.count (d + 1) := by
  induction ls with
  | nil => rfl
  | cons l ls ih =>
    rw [List.countP_cons, List.countP_cons, List.count_cons, ih]
    rcases Nat.lt_trichotomy l (d + 1) with h | h | h
    · have e : ¬ (l == d + 1) = true := by simp; omega
      by_cases h1 : 1 ≤ l
      · simp [h1, show l ≤ d + 1 by omega, show l ≤ d by omega, show ¬ l = d + 1 by omega]; omega
      · simp [h1, show ¬ l = d + 1 by omega]
    · subst h; simp; omega
    · simp [show ¬ l ≤ d + 1 by omega, show ¬ l ≤ d by omega, show ¬ l = d + 1 by omega]

/-- A complete code whose longest codeword has `m` bits has at least `m + 1` codewords (rule R306). -/
theorem leaves_of_complete {ls : List Nat} {m : Nat} (h : ∀ l ∈ ls, 1 ≤ l ∧ l ≤ m) (hm : m ∈ ls)
    (hk : kraftSum m ls = 2 ^ m) : m + 1 ≤ ls.length := by
  have hn : nextCode ls m = 2 ^ m := by rw [nextCode_eq_kraftSum fun l hl => (h l hl).2, hk]
  have h1 : 1 ≤ m := (h m hm).1
  have hlt : ∀ d, d < m → nextCode ls d < 2 ^ d := by
    intro d hd
    obtain ⟨k, rfl⟩ : ∃ k, m = k + 1 := ⟨m - 1, by omega⟩
    have hle := nextCode_le (lens := ls) (show d ≤ k by omega)
    have hc : 1 ≤ ls.count (k + 1) := List.count_pos_iff.mpr hm
    rw [nextCode_succ] at hn
    have hp : 2 ^ (k + 1) = 2 * (2 ^ (k - d) * 2 ^ d) := by
      rw [← Nat.pow_add, Nat.sub_add_cancel (by omega), Nat.pow_succ, Nat.mul_comm]
    have : 2 ^ (k - d) * nextCode ls d < 2 ^ (k - d) * 2 ^ d := by omega
    exact Nat.lt_of_mul_lt_mul_left this
  have key : ∀ d, d ≤ m → d + 1 + nextCode ls d ≤ ls.countP (fun l => decide (1 ≤ l ∧ l ≤ d)) + 2 ^ d := by
    intro d
    induction d with
    | zero => intro _; simp [nextCode, firstCode]
    | succ d ih =>
      intro hd
      have i := ih (by omega)
      have l := hlt d (by omega)
      rw [nextCode_succ, countP_succ, Nat.pow_succ]; omega
  have := key m (Nat.le_refl _)
  have hl := List.countP_le_length (p := fun l => decide (1 ≤ l ∧ l ≤ m)) (l := ls)
  omega

/-! ## Every prefix of a complete code has a complete group -/

/-- The numbers of `n` bits that begin with a codeword. -/
def Codeword.block (n : Nat) (c : Codeword) : Finset Nat :=
  (Finset.range (2 ^ n)).filter fun x => x / 2 ^ (n - c.len) = c.word

theorem card_prefix {n k p : Nat} (hk : k ≤ n) (hp : p < 2 ^ k) :
    ((Finset.range (2 ^ n)).filter fun x => x / 2 ^ (n - k) = p).card = 2 ^ (n - k) := by
  have hpos := Nat.two_pow_pos (n - k)
  have e : ((Finset.range (2 ^ n)).filter fun x => x / 2 ^ (n - k) = p)
      = Finset.Ico (p * 2 ^ (n - k)) ((p + 1) * 2 ^ (n - k)) := by
    ext x
    simp only [Finset.mem_filter, Finset.mem_range, Finset.mem_Ico]
    have hb : (p + 1) * 2 ^ (n - k) ≤ 2 ^ n := by
      calc (p + 1) * 2 ^ (n - k) ≤ 2 ^ k * 2 ^ (n - k) := Nat.mul_le_mul_right _ hp
        _ = 2 ^ n := by rw [← Nat.pow_add, Nat.add_sub_cancel' hk]
    constructor
    · rintro ⟨_, rfl⟩
      exact ⟨Nat.div_mul_le_self x _, by rw [Nat.mul_comm]; exact Nat.lt_mul_div_succ x hpos⟩
    · rintro ⟨h1, h2⟩
      refine ⟨by omega, ?_⟩
      have a := (Nat.le_div_iff_mul_le hpos).mpr h1
      have b := (Nat.div_lt_iff_lt_mul hpos).mpr h2
      omega
  rw [e, Nat.card_Ico, Nat.add_mul, Nat.one_mul, Nat.add_sub_cancel_left]

theorem div_div_pow {n l l' x : Nat} (h : l ≤ l') (h' : l' ≤ n) :
    x / 2 ^ (n - l') / 2 ^ (l' - l) = x / 2 ^ (n - l) := by
  rw [Nat.div_div_eq_div_mul, ← Nat.pow_add]; congr 2; omega

/-- Two codewords that begin the same number are one. -/
theorem PrefixFree.block_unique {cs : List Codeword} (h : PrefixFree cs) {c c' : Codeword} (hc : c ∈ cs) (hc' : c' ∈ cs)
    {x : Nat} (m : x ∈ c.block 15) (m' : x ∈ c'.block 15) : c = c' := by
  simp only [Codeword.block, Finset.mem_filter] at m m'
  rcases Nat.le_total c.len c'.len with hle | hle
  · exact h.free c hc c' hc' hle (by rw [← m'.2, div_div_pow hle (h.le c' hc'), m.2])
  · exact (h.free c' hc' c hc hle (by rw [← m.2, div_div_pow hle (h.le c hc), m'.2])).symm

theorem card_blocks {cs gs : List Codeword} (h : PrefixFree cs) (hg : ∀ c ∈ gs, c ∈ cs) (hnd : gs.Nodup) :
    (gs.toFinset.biUnion (Codeword.block 15)).card = (gs.map fun c => 2 ^ (15 - c.len)).sum := by
  rw [Finset.card_biUnion fun a ha b hb hab => Finset.disjoint_left.mpr fun x hx hx' =>
      hab (h.block_unique (hg a (List.mem_toFinset.mp ha)) (hg b (List.mem_toFinset.mp hb)) hx hx'),
    Finset.sum_congr rfl fun c hc => by
      have hc := hg c (List.mem_toFinset.mp hc)
      exact card_prefix (h.le c hc) (h.fits c hc), List.sum_toFinset _ hnd]

/-- Under each prefix of a complete code the codewords are complete (rule R306). -/
theorem complete_group {cs : List Codeword} (h : PrefixFree cs) (hnd : cs.Nodup)
    (hk : (cs.map fun c => 2 ^ (15 - c.len)).sum = 2 ^ 15) {tb p : Nat} (ht : tb ≤ 15) {c0 : Codeword} (hc0 : c0 ∈ cs)
    (hlong : tb < c0.len) (hp : c0.head tb = p) :
    ((groupOf tb (cs.filter fun c => decide (tb < c.len)) p).map fun c => 2 ^ (15 - c.len)).sum = 2 ^ (15 - tb) := by
  set gs := groupOf tb (cs.filter fun c => decide (tb < c.len)) p with hgs
  have hmem : ∀ c, c ∈ gs ↔ c ∈ cs ∧ tb < c.len ∧ c.head tb = p := fun c => by
    rw [hgs, mem_groupOf, List.mem_filter, decide_eq_true_eq]; tauto
  have hall : cs.toFinset.biUnion (Codeword.block 15) = Finset.range (2 ^ 15) := by
    refine Finset.eq_of_subset_of_card_le (fun x hx => ?_) ?_
    · obtain ⟨c, _, hc⟩ := Finset.mem_biUnion.mp hx
      exact (Finset.mem_filter.mp hc).1
    · rw [card_blocks h (fun _ => id) hnd, hk, Finset.card_range]
  have hpl : p < 2 ^ tb := by rw [← hp]; exact div_pow_lt (h.fits c0 hc0) (by omega)
  have hU : gs.toFinset.biUnion (Codeword.block 15) = (Finset.range (2 ^ 15)).filter fun x => x / 2 ^ (15 - tb) = p := by
    ext x
    rw [Finset.mem_biUnion, Finset.mem_filter]
    constructor
    · rintro ⟨c, hc, hx⟩
      obtain ⟨h1, h2, h3⟩ := (hmem c).mp (List.mem_toFinset.mp hc)
      obtain ⟨hr, hx⟩ := Finset.mem_filter.mp hx
      exact ⟨hr, by rw [← div_div_pow (Nat.le_of_lt h2) (h.le c h1), hx, ← h3]; rfl⟩
    · rintro ⟨hr, hx⟩
      rw [← hall] at hr
      obtain ⟨c, hc, hxc⟩ := Finset.mem_biUnion.mp hr
      have hc := List.mem_toFinset.mp hc
      have hw := (Finset.mem_filter.mp hxc).2
      by_cases hl : tb < c.len
      · refine ⟨c, List.mem_toFinset.mpr ((hmem c).mpr ⟨hc, hl, ?_⟩), hxc⟩
        rw [Codeword.head, ← hw, div_div_pow (Nat.le_of_lt hl) (h.le c hc), hx]
      · exfalso
        have hle : c.len ≤ tb := by omega
        have e : c = c0 := by
          refine h.free c hc c0 hc0 (by omega) ?_
          rw [← hw, ← div_div_pow hle ht, hx, ← hp, Codeword.head, div_div_pow hle (by omega)]
        rw [e] at hl; exact hl hlong
  rw [← card_blocks h (fun c hc => ((hmem c).mp hc).1) (hnd.filter _ |>.filter _), hU, card_prefix ht hpl]

/-! ## The stores are large enough (rule R306) -/

theorem subsEnd_eq (tb : Nat) (long : List Codeword) (ps : List Nat) (free : Nat) :
    subsEnd tb long ps free = free + (ps.map fun p => 2 ^ subBits tb (groupOf tb long p)).sum := by
  induction ps generalizing free with
  | nil => rfl
  | cons p ps ih => rw [subsEnd, ih, List.map_cons, List.sum_cons, Nat.add_assoc]

theorem sum_ite_le {ps : List Nat} (h : ps.Nodup) (a : Nat) : (ps.map fun p => if a = p then 1 else 0).sum ≤ 1 := by
  induction ps with
  | nil => simp
  | cons p ps ih =>
    rw [List.nodup_cons] at h
    rw [List.map_cons, List.sum_cons]
    by_cases e : a = p
    · have : (ps.map fun p => if a = p then 1 else 0).sum = 0 := by
        rw [List.sum_eq_zero]
        intro x hx
        obtain ⟨q, hq, rfl⟩ := List.mem_map.mp hx
        rw [if_neg]; rintro rfl; exact h.1 (e ▸ hq)
      rw [if_pos e, this]
    · rw [if_neg e]; have := ih h.2; omega

theorem sum_groups_le (tb : Nat) (long : List Codeword) {ps : List Nat} (h : ps.Nodup) :
    (ps.map fun p => (groupOf tb long p).length).sum ≤ long.length := by
  induction long with
  | nil => simp [groupOf]
  | cons c long ih =>
    have e : (ps.map fun p => (groupOf tb (c :: long) p).length).sum
        = (ps.map fun p => (groupOf tb long p).length).sum + (ps.map fun p => if c.head tb = p then 1 else 0).sum := by
      rw [← List.sum_map_add]
      congr 1
      refine List.map_congr_left fun p _ => ?_
      by_cases hp : c.head tb = p <;> simp [groupOf, hp]
    have := sum_ite_le h (c.head tb)
    rw [e, List.length_cons]; omega

theorem sum_subs_le {tb a b : Nat} {long : List Codeword} {ps : List Nat}
    (h : ∀ p ∈ ps, a * 2 ^ subBits tb (groupOf tb long p) ≤ b * (groupOf tb long p).length) :
    a * (ps.map fun p => 2 ^ subBits tb (groupOf tb long p)).sum ≤ b * (ps.map fun p => (groupOf tb long p).length).sum := by
  induction ps with
  | nil => simp
  | cons p ps ih =>
    have h1 := h p (.head _)
    have h2 := ih fun q hq => h q (.tail _ hq)
    simp only [List.map_cons, List.sum_cons, Nat.mul_add]; omega

theorem sum_pow_eq_kraftSum {lens : List Nat} {maxLen : Nat} (words : List Nat) (s0 : Nat) (h : lens.length = words.length) :
    ((codewordsFrom s0 lens words).map fun c => 2 ^ (maxLen - c.len)).sum = kraftSum maxLen lens := by
  induction lens generalizing s0 words with
  | nil => cases words <;> rfl
  | cons l ls ih =>
    cases words with
    | nil => simp at h
    | cons w ws =>
      have := ih ws (s0 + 1) (by simpa using h)
      rw [kraftSum, List.map_cons, List.sum_cons]
      unfold codewordsFrom
      split
      · rw [this, Nat.zero_add]; rfl
      · rw [List.map_cons, List.sum_cons, this]; rfl

/-- Under a prefix of a complete code, `2^sub` entries serve at least `sub + 1` symbols (rule R306). -/
theorem group_leaves {cs : List Codeword} (h : PrefixFree cs) (hnd : cs.Nodup)
    (hk : (cs.map fun c => 2 ^ (15 - c.len)).sum = 2 ^ 15) {tb p : Nat} (ht : tb ≤ 15)
    (hp : p ∈ headsOf tb (cs.filter fun c => decide (tb < c.len))) :
    subBits tb (groupOf tb (cs.filter fun c => decide (tb < c.len)) p) + 1
      ≤ (groupOf tb (cs.filter fun c => decide (tb < c.len)) p).length := by
  obtain ⟨c0, hc0, hh⟩ := ((headsOf_spec tb _).2 p).mp hp
  obtain ⟨hc, hl⟩ := List.mem_filter.mp hc0
  have hg := complete_group h hnd hk ht hc (by simpa using hl) hh
  set gs := groupOf tb (cs.filter fun c => decide (tb < c.len)) p with hgs
  have hmem : ∀ c ∈ gs, c ∈ cs ∧ tb < c.len := fun c hm => by
    obtain ⟨h1, _⟩ := mem_groupOf.mp hm
    obtain ⟨h2, h3⟩ := List.mem_filter.mp h1
    exact ⟨h2, by simpa using h3⟩
  have h0 : c0 ∈ gs := mem_groupOf.mpr ⟨hc0, hh⟩
  have hle : subBits tb gs ≤ 15 - tb := subBits_le fun c hc => h.le c (hmem c hc).1
  have hbnd : ∀ l ∈ gs.map fun c => c.len - tb, 1 ≤ l ∧ l ≤ subBits tb gs := fun l hl => by
    obtain ⟨c, hc, rfl⟩ := List.mem_map.mp hl
    have := (hmem c hc).2
    exact ⟨by omega, subBits_ge hc⟩
  have hin : subBits tb gs ∈ gs.map fun c => c.len - tb := by
    rcases foldl_max_mem (gs.map fun c => c.len - tb) 0 with e | e
    · exfalso
      have a := (hbnd _ (List.mem_map_of_mem h0)).1
      have b := (hbnd _ (List.mem_map_of_mem h0)).2
      rw [subBits, e] at b; omega
    · exact e
  have hks : kraftSum (15 - tb) (gs.map fun c => c.len - tb) = 2 ^ (15 - tb) := by
    rw [← hg, kraftSum, List.map_map]
    congr 1
    refine List.map_congr_left fun c hc => ?_
    have h1 := (hmem c hc).2
    have h2 := h.le c (hmem c hc).1
    simp only [Function.comp, if_neg (show ¬ c.len - tb = 0 by omega)]
    congr 1; omega
  have hkm : kraftSum (subBits tb gs) (gs.map fun c => c.len - tb) = 2 ^ subBits tb gs := by
    rw [kraftSum_scale (fun l hl => (hbnd l hl).2) hle] at hks
    have : 2 ^ (15 - tb) = 2 ^ (15 - tb - subBits tb gs) * 2 ^ subBits tb gs := by
      rw [← Nat.pow_add, Nat.sub_add_cancel hle]
    rw [this] at hks
    exact Nat.eq_of_mul_eq_mul_left (Nat.two_pow_pos _) hks
  have := leaves_of_complete hbnd hin hkm
  rwa [List.length_map] at this

/-- The codewords of an alphabet longer than its main table's index. -/
def longOf (x : Alphabet) (lens : List Nat) : List Codeword :=
  (codewordsOf lens).filter fun c => decide (x.tableBits < c.len)

/-- What `Validate` passes (rule R302). -/
structure Valid (x : Alphabet) (lens : List Nat) : Prop where
  length : lens.length = x.slots
  le : ∀ l ∈ lens, l ≤ x.maxLen
  sum : kraftSum x.maxLen lens ≤ 2 ^ x.maxLen
  shape : kraftSum x.maxLen lens = 2 ^ x.maxLen ∨ ∀ c ∈ codewordsOf lens, c.len = 1

theorem maxLen_le (x : Alphabet) : x.maxLen ≤ 15 := by cases x <;> decide

theorem Valid.prefixFree {x : Alphabet} {lens : List Nat} (h : Valid x lens) : PrefixFree (codewordsOf lens) :=
  prefixFree_codewordsOf h.le (maxLen_le x) h.sum (by rw [h.length]; cases x <;> decide)

theorem Valid.len_le {x : Alphabet} {lens : List Nat} (h : Valid x lens) {c : Codeword} (hc : c ∈ codewordsOf lens) :
    c.len ≤ x.maxLen := by
  obtain ⟨s, hs, _, rfl⟩ := mem_codewordsOf.mp hc
  refine h.le _ ?_
  rw [List.getD_eq_getElem?_getD, List.getElem?_eq_getElem hs]; exact List.getElem_mem hs

/-- The subtables end within the store (rule R306). -/
theorem Valid.subsEnd_le {x : Alphabet} {lens : List Nat} (h : Valid x lens) :
    subsEnd x.tableBits (longOf x lens) (headsOf x.tableBits (longOf x lens)) (2 ^ x.tableBits) ≤ x.tableSize := by
  have hpf := h.prefixFree
  have hnd := nodup_codewordsOf lens
  have hlen : (longOf x lens).length ≤ x.slots := by
    rw [← h.length]
    exact Nat.le_trans (List.length_filter_le _ _) (length_codewordsFrom_le 0 lens _)
  rw [subsEnd_eq]
  have hgrp := sum_groups_le x.tableBits (longOf x lens) (nodup_headsOf x.tableBits (longOf x lens))
  have hsub : ∀ {a b n : Nat}, n = x.maxLen - x.tableBits → x.maxLen = 15 → (∀ k, k ≤ n → a * 2 ^ k ≤ b * (k + 1)) →
      a * ((headsOf x.tableBits (longOf x lens)).map fun p => 2 ^ subBits x.tableBits (groupOf x.tableBits (longOf x lens) p)).sum
        ≤ b * (longOf x lens).length := by
    intro a b n hn h15 hk
    refine Nat.le_trans (sum_subs_le (b := b) fun p hp => ?_) (Nat.mul_le_mul_left b hgrp)
    rcases h.shape with hfull | hone
    · rw [h15] at hfull
      have hl := group_leaves hpf hnd (by
        rw [codewordsOf, sum_pow_eq_kraftSum _ 0 (length_canonical lens).symm, hfull]) (by rw [← h15]; cases x <;> decide) hp
      have hb : subBits x.tableBits (groupOf x.tableBits (longOf x lens) p) ≤ n := by
        rw [hn]
        exact subBits_le fun c hc => h.len_le (List.mem_filter.mp (mem_groupOf.mp hc).1).1
      exact Nat.le_trans (hk _ hb) (Nat.mul_le_mul_left b hl)
    · exfalso
      obtain ⟨c, hc, _⟩ := ((headsOf_spec _ _).2 p).mp hp
      obtain ⟨hc, hl⟩ := List.mem_filter.mp hc
      have hl : x.tableBits < c.len := by simpa using hl
      rw [hone c hc] at hl
      cases x <;> exact absurd hl (by decide)
  cases x with
  | litlen =>
    have := hsub (a := 6) (b := 32) (n := 5) rfl rfl (by decide)
    have hlen : (longOf .litlen lens).length ≤ 288 := hlen
    simp only [Alphabet.tableBits, Alphabet.tableSize] at this hlen ⊢; omega
  | offset =>
    have := hsub (a := 8) (b := 128) (n := 7) rfl rfl (by decide)
    have hlen : (longOf .offset lens).length ≤ 32 := hlen
    simp only [Alphabet.tableBits, Alphabet.tableSize] at this hlen ⊢; omega
  | precode =>
    have hnil : longOf .precode lens = [] := by
      rw [longOf, List.filter_eq_nil_iff]
      intro c hc
      have h7 : c.len ≤ 7 := h.len_le hc
      exact fun hl => absurd (of_decide_eq_true hl : 7 < c.len) (by omega)
    rw [hnil]; decide

/-! ## What `buildTable` answers (rules R301 to R303) -/

/-- The validation is rule R302's, and the two accepted incomplete sets are rule R303's. -/
theorem valid_of_lengthsValid {x : Alphabet} {lens : List Nat} (hn : lens.length = x.slots)
    (h : lengthsValid x.maxLen lens = true) : Valid x lens := by
  simp only [lengthsValid, Bool.and_eq_true, Bool.or_eq_true, decide_eq_true_eq, List.all_eq_true, kraft_eq] at h
  obtain ⟨⟨h1, h2⟩, h3⟩ := h
  refine ⟨hn, h1, h2, ?_⟩
  rcases h3 with (h3 | h3) | ⟨h3, h4⟩
  · exact .inl h3
  · right
    intro c hc
    obtain ⟨s, hs, h0, rfl⟩ := mem_codewordsOf.mp hc
    exfalso
    have hm : lens.getD s 0 ∈ lens.filter fun l => decide (l ≠ 0) := by
      refine List.mem_filter.mpr ⟨?_, by simpa using h0⟩
      rw [List.getD_eq_getElem?_getD, List.getElem?_eq_getElem hs]; exact List.getElem_mem hs
    rw [List.length_eq_zero_iff.mp h3] at hm
    cases hm
  · right
    intro c hc
    obtain ⟨s, hs, h0, rfl⟩ := mem_codewordsOf.mp hc
    have hm : lens.getD s 0 ∈ lens.filter fun l => decide (l ≠ 0) := by
      refine List.mem_filter.mpr ⟨?_, by simpa using h0⟩
      rw [List.getD_eq_getElem?_getD, List.getElem?_eq_getElem hs]; exact List.getElem_mem hs
    obtain ⟨l, hl⟩ := List.length_eq_one_iff.mp h3
    rw [hl, List.mem_singleton] at hm
    rw [← kraft_eq, kraft, hl, List.map_singleton, List.sum_singleton] at h4
    have hle : l ≤ x.maxLen := h1 l (by
      have : l ∈ lens.filter fun l => decide (l ≠ 0) := by rw [hl]; exact .head _
      exact (List.mem_filter.mp this).1)
    have := Nat.pow_right_injective (Nat.le_refl 2) h4
    have hpos : 1 ≤ x.maxLen := by cases x <;> decide
    show lens.getD s 0 = 1
    have : 0 < l := by omega
    omega

theorem buildTable_eq {x : Alphabet} {lens : List Nat} {t : Table 32} (h : buildTable x lens = some t) :
    lengthsValid x.maxLen lens = true
      ∧ t = fillSubs x.tableBits (longOf x lens) (headsOf x.tableBits (longOf x lens)) (2 ^ x.tableBits)
          (fillMain x.tableBits (codewordsOf lens) []) := by
  unfold buildTable at h
  split at h
  · rename_i hv
    exact ⟨hv, (Option.some.inj h).symm⟩
  · cases h

/-- A short codeword's entries. -/
theorem buildTable_short {x : Alphabet} {lens : List Nat} {t : Table 32} (hn : lens.length = x.slots)
    (h : buildTable x lens = some t) {c : Codeword} (hc : c ∈ codewordsOf lens) (hl : c.len ≤ x.tableBits) {j : Nat}
    (hj : j < 2 ^ x.tableBits) (m : c.matches j) : t.get j = tableEntry kindSymbol c.len c.sym := by
  obtain ⟨hv, rfl⟩ := buildTable_eq h
  have V := valid_of_lengthsValid hn hv
  rw [get_fillSubs_frame _ hj fun p hp e => ?_]
  · exact get_fillMain_hit V.prefixFree [] hj hc hl m
  · obtain ⟨c', hc', rfl⟩ := ((headsOf_spec _ _).2 p).mp hp
    obtain ⟨hc', hl'⟩ := List.mem_filter.mp hc'
    have hl' : x.tableBits < c'.len := by simpa using hl'
    have e' : c = c' := by
      refine V.prefixFree.free c hc c' hc' (by omega) ?_
      have hw := div_pow_lt (V.prefixFree.fits c' hc') (Nat.le_of_lt hl')
      have e2 : rev c.len c.word = rev c.len (c'.head x.tableBits / 2 ^ (x.tableBits - c.len)) := by
        rw [← m, e, rev_mod _ hl]
      have e3 := rev_injective (V.prefixFree.fits c hc) (div_pow_lt hw hl) e2
      rw [e3]
      show c'.word / 2 ^ (c'.len - c.len) = c'.word / 2 ^ (c'.len - x.tableBits) / 2 ^ (x.tableBits - c.len)
      rw [Nat.div_div_eq_div_mul, ← Nat.pow_add]
      congr 2; omega
    rw [e'] at hl; omega

/-- A longer codeword's entries: the pointer, and the entries of the subtable it points to. -/
theorem buildTable_long {x : Alphabet} {lens : List Nat} {t : Table 32} (hn : lens.length = x.slots)
    (h : buildTable x lens = some t) {c : Codeword} (hc : c ∈ codewordsOf lens) (hl : x.tableBits < c.len) :
    ∃ base sub, sub < 16 ∧ sub ≤ 15 - x.tableBits ∧ base + 2 ^ sub ≤ x.tableSize
      ∧ t.get (rev x.tableBits (c.head x.tableBits)) = tableEntry kindSubtable sub base
      ∧ (∀ c' ∈ codewordsOf lens, x.tableBits < c'.len → c'.head x.tableBits = c.head x.tableBits →
        c'.len - x.tableBits ≤ sub)
      ∧ ∀ i, i < 2 ^ sub →
        (∀ c' ∈ codewordsOf lens, x.tableBits < c'.len → c'.head x.tableBits = c.head x.tableBits →
          i % 2 ^ (c'.len - x.tableBits) = rev (c'.len - x.tableBits) (c'.word % 2 ^ (c'.len - x.tableBits)) →
          t.get (base + i) = tableEntry kindSymbol (c'.len - x.tableBits) c'.sym)
        ∧ ((∀ c' ∈ codewordsOf lens, x.tableBits < c'.len → c'.head x.tableBits = c.head x.tableBits →
          i % 2 ^ (c'.len - x.tableBits) ≠ rev (c'.len - x.tableBits) (c'.word % 2 ^ (c'.len - x.tableBits))) →
          t.get (base + i) = 0) := by
  obtain ⟨hv, rfl⟩ := buildTable_eq h
  have V := valid_of_lengthsValid hn hv
  have hpf := V.prefixFree
  have hcl : c ∈ longOf x lens := List.mem_filter.mpr ⟨hc, by simpa using hl⟩
  have hin : c.head x.tableBits ∈ headsOf x.tableBits (longOf x lens) := ((headsOf_spec _ _).2 _).mpr ⟨c, hcl, rfl⟩
  obtain ⟨base, h1, h2, h3, h4⟩ := get_fillSubs_hit (fillMain x.tableBits (codewordsOf lens) []) (Nat.le_refl _)
    (fun q hq => by
      obtain ⟨c', hc', rfl⟩ := ((headsOf_spec _ _).2 q).mp hq
      obtain ⟨hc', hl'⟩ := List.mem_filter.mp hc'
      have hl' : x.tableBits < c'.len := by simpa using hl'
      exact div_pow_lt (hpf.fits c' hc') (Nat.le_of_lt hl'))
    (nodup_headsOf _ _) hin
    (fun j hj => by rw [get_fillMain_miss _ fun hlt => by omega]; rfl)
  have hsub : subBits x.tableBits (groupOf x.tableBits (longOf x lens) (c.head x.tableBits)) ≤ 15 - x.tableBits :=
    subBits_le fun c' hc' => hpf.le c' (List.mem_filter.mp (mem_groupOf.mp hc').1).1
  have hgm : ∀ c', c' ∈ groupOf x.tableBits (longOf x lens) (c.head x.tableBits)
      ↔ c' ∈ codewordsOf lens ∧ x.tableBits < c'.len ∧ c'.head x.tableBits = c.head x.tableBits := fun c' => by
    rw [mem_groupOf, longOf, List.mem_filter, decide_eq_true_eq]; tauto
  refine ⟨base, _, ?_, hsub, Nat.le_trans h2 V.subsEnd_le, h3,
    fun c' g1 g2 g3 => subBits_ge ((hgm c').mpr ⟨g1, g2, g3⟩), fun i hi => ?_⟩
  · have : 1 ≤ x.tableBits := by cases x <;> decide
    omega
  · obtain ⟨t', ht', e⟩ := h4 (base + i) (by omega) (by omega)
    have hf : ∀ c' : Codeword, fills base (subBits x.tableBits (groupOf x.tableBits (longOf x lens) (c.head x.tableBits)))
        (c'.len - x.tableBits) (c'.word % 2 ^ (c'.len - x.tableBits)) (base + i)
        ↔ i % 2 ^ (c'.len - x.tableBits) = rev (c'.len - x.tableBits) (c'.word % 2 ^ (c'.len - x.tableBits)) := fun c' => by
      rw [fills, Nat.add_sub_cancel_left]
      exact ⟨fun hh => hh.2.2, fun hh => ⟨by omega, by omega, hh⟩⟩
    have hlen : ∀ c' ∈ groupOf x.tableBits (longOf x lens) (c.head x.tableBits), c'.len - x.tableBits
        ≤ subBits x.tableBits (groupOf x.tableBits (longOf x lens) (c.head x.tableBits)) := fun c' hc' => subBits_ge hc'
    refine ⟨fun c' hc' hl' hh hm => ?_, fun hno => ?_⟩
    · rw [e, get_fillAll_hit (c0 := c') t' hlen ((hgm c').mpr ⟨hc', hl', hh⟩) ((hf c').mpr hm) fun c'' hc'' hf'' => ?_]
      obtain ⟨g1, g2, g3⟩ := (hgm c'').mp hc''
      have key : ∀ d : Codeword, x.tableBits < d.len → d.head x.tableBits = c.head x.tableBits →
          i % 2 ^ (d.len - x.tableBits) = rev (d.len - x.tableBits) (d.word % 2 ^ (d.len - x.tableBits)) →
          d.matches (rev x.tableBits (c.head x.tableBits) + 2 ^ x.tableBits * i) := fun d hd hdh hdm => by
        rw [Codeword.matches_split (Nat.le_of_lt hd), Nat.add_mul_mod_self_left, Nat.mod_eq_of_lt (rev_lt _ _),
          Nat.add_mul_div_left _ _ (Nat.two_pow_pos _), Nat.div_eq_of_lt (rev_lt _ _), Nat.zero_add, hdh]
        exact ⟨rfl, hdm⟩
      exact hpf.unique g1 hc' (key c'' g2 g3 ((hf c'').mp hf'')) (key c' hl' hh hm)
    · rw [e, get_fillAll_miss t' hlen fun c' hc' hf' => ?_, ht']
      obtain ⟨g1, g2, g3⟩ := (hgm c').mp hc'
      exact hno c' g1 g2 g3 ((hf c').mp hf')

/-- An entry no codeword reaches. -/
theorem buildTable_none {x : Alphabet} {lens : List Nat} {t : Table 32} (h : buildTable x lens = some t) {j : Nat}
    (hj : j < 2 ^ x.tableBits) (h1 : ∀ c ∈ codewordsOf lens, c.len ≤ x.tableBits → ¬ c.matches j)
    (h2 : ∀ c ∈ codewordsOf lens, x.tableBits < c.len → j ≠ rev x.tableBits (c.head x.tableBits)) : t.get j = 0 := by
  obtain ⟨_, rfl⟩ := buildTable_eq h
  rw [get_fillSubs_frame _ hj fun p hp => ?_, get_fillMain_miss _ fun _ c hc hl => h1 c hc hl]
  · rfl
  · obtain ⟨c, hc, rfl⟩ := ((headsOf_spec _ _).2 p).mp hp
    obtain ⟨hc, hl⟩ := List.mem_filter.mp hc
    exact h2 c hc (by simpa using hl)

/-! ## Decoding (rule R308) -/

theorem Reader.field_mod (r : Reader) (m : Memory) (i : Nat) {k n : Nat} (h : k ≤ n) :
    r.field m i n % 2 ^ k = r.field m i k := by
  refine Nat.eq_of_testBit_eq fun j => ?_
  rw [Nat.testBit_mod_two_pow, Reader.field_testBit, Reader.field_testBit]
  by_cases hj : j < k
  · simp [hj, show j < n by omega]
  · simp [hj]

theorem Reader.field_div (r : Reader) (m : Memory) (i : Nat) {k n : Nat} (h : k ≤ n) :
    r.field m i n / 2 ^ k = r.field m (i + k) (n - k) := by
  refine Nat.eq_of_testBit_eq fun j => ?_
  rw [Nat.testBit_div_two_pow, Reader.field_testBit, Reader.field_testBit, Nat.add_assoc, Nat.add_comm k j]
  congr 1
  exact decide_eq_decide.mpr (by omega)

theorem tableBits_le (x : Alphabet) : x.tableBits ≤ 15 := by cases x <;> decide

theorem tableSize_le (x : Alphabet) : x.tableSize ≤ 65536 := by cases x <;> decide

theorem Valid.sym_lt {x : Alphabet} {lens : List Nat} (h : Valid x lens) {c : Codeword} (hc : c ∈ codewordsOf lens) :
    c.sym < 65536 := h.prefixFree.sym c hc

theorem finishDecode_symbol {n v : Nat} (hn : n < 16) (hv : v < 65536) (r : Reader) :
    finishDecode (tableEntry kindSymbol n v) r
      = if r.bitpos.toNat + n ≤ 8 * r.len.toNat + 64
        then ({ r with bitpos := BitVec.ofNat 64 (r.bitpos.toNat + n) }, some v) else (r, none) := by
  have hk : kindSymbol < 4 := by decide
  rw [finishDecode, entryKind_tableEntry hk hn hv, if_pos rfl, entryBits_tableEntry hk hn hv,
    entryValue_tableEntry hk hn hv, Reader.drop_eq]
  by_cases hb : r.bitpos.toNat + n ≤ 8 * r.len.toNat + 64
  · rw [if_pos hb, if_pos hb]
  · rw [if_neg hb, if_neg hb]

theorem finishDecode_zero (r : Reader) : finishDecode 0 r = (r, none) := rfl

/-- The next 15 bits of a reader, first bit lowest. -/
def Reader.ahead (r : Reader) (m : Memory) : Nat := r.field m r.bitpos.toNat 15

/-- Decoding at a pointer entry goes on in the subtable. -/
theorem decodeSymbol_pointer {x : Alphabet} {t : Table 32} {m : Memory} {r : Reader} {sub base : Nat}
    (hs : sub < 16) (hb : base < 65536) (he : t.get (r.peek m x.tableBits) = tableEntry kindSubtable sub base) :
    decodeSymbol x t m r = (match r.drop x.tableBits with
      | none => (r, none)
      | some r' =>
        if x.tableSize ≤ base + r'.peek m sub then (r', none) else finishDecode (t.get (base + r'.peek m sub)) r') := by
  have hk : kindSubtable < 4 := by decide
  unfold decodeSymbol
  rw [he]
  simp only [entryKind_tableEntry hk hs hb, entryValue_tableEntry hk hs hb, entryBits_tableEntry hk hs hb]
  rfl

/-- What the subtable is asked for: the bits after the main table's. -/
theorem peek_dropped {r r' : Reader} {m : Memory} {k n : Nat} (hd : r.drop k = some r') (hk : k ≤ 15) (hn : n ≤ 15 - k) :
    r'.peek m n = r.ahead m / 2 ^ k % 2 ^ n := by
  obtain ⟨_, hsrc, hlen, hbp⟩ := Reader.drop_some hd
  rw [Reader.ahead, Reader.field_div r m _ hk, Reader.field_mod r m _ hn, Reader.peek, hbp]
  exact Reader.field_congr fun j _ => by unfold Reader.bit; rw [hsrc, hlen]

/-- The stream begins with a codeword: its symbol is decoded and its bits are consumed, unless that
passes the overread bound (rule R308). -/
theorem decodeSymbol_hit {x : Alphabet} {lens : List Nat} {t : Table 32} (hn : lens.length = x.slots)
    (h : buildTable x lens = some t) (m : Memory) (r : Reader) {c : Codeword} (hc : c ∈ codewordsOf lens)
    (hm : c.matches (r.ahead m)) :
    (r.bitpos.toNat + c.len ≤ 8 * r.len.toNat + 64 →
        decodeSymbol x t m r = ({ r with bitpos := BitVec.ofNat 64 (r.bitpos.toNat + c.len) }, some c.sym))
      ∧ (¬ r.bitpos.toNat + c.len ≤ 8 * r.len.toNat + 64 → (decodeSymbol x t m r).2 = none) := by
  have V := valid_of_lengthsValid hn (buildTable_eq h).1
  have hpf := V.prefixFree
  have h15 := hpf.le c hc
  have hpk : r.peek m x.tableBits = r.ahead m % 2 ^ x.tableBits := (Reader.field_mod r m _ (tableBits_le x)).symm
  have hlt : r.peek m x.tableBits < 2 ^ x.tableBits := Reader.peek_lt r m _
  have hk1 : kindSymbol < 4 := by decide
  by_cases hl : c.len ≤ x.tableBits
  · have hm' : c.matches (r.peek m x.tableBits) := by
      rw [Codeword.matches, hpk, Nat.mod_mod_of_dvd _ (Nat.pow_dvd_pow 2 hl)]; exact hm
    have he := buildTable_short hn h hc hl hlt hm'
    have hs := V.sym_lt hc
    have hd : decodeSymbol x t m r = finishDecode (tableEntry kindSymbol c.len c.sym) r := by
      unfold decodeSymbol
      rw [he]
      simp only [entryKind_tableEntry hk1 (show c.len < 16 by omega) hs]
      rfl
    rw [hd, finishDecode_symbol (by omega) hs]
    exact ⟨fun hb => if_pos hb, fun hb => by rw [if_neg hb]⟩
  · have hl : x.tableBits < c.len := by omega
    obtain ⟨hm1, hm2⟩ := (Codeword.matches_split (Nat.le_of_lt hl)).mp hm
    obtain ⟨base, sub, hs16, hs, hend, hptr, hsl, hent⟩ := buildTable_long hn h hc hl
    have htop := tableSize_le x
    have hpos := Nat.two_pow_pos sub
    rw [decodeSymbol_pointer hs16 (show base < 65536 by omega) (by rw [hpk, hm1, hptr])]
    cases hdr : r.drop x.tableBits with
    | none =>
      rw [Reader.drop_eq] at hdr
      split at hdr
      · cases hdr
      · exact ⟨fun hb => by omega, fun _ => rfl⟩
    | some r' =>
      obtain ⟨_, hsrc, hlen, hbp⟩ := Reader.drop_some hdr
      have hp' : r'.peek m sub = r.ahead m / 2 ^ x.tableBits % 2 ^ sub := peek_dropped hdr (tableBits_le x) hs
      have hplt : r'.peek m sub < 2 ^ sub := Reader.peek_lt r' m sub
      have hle : c.len - x.tableBits ≤ sub := hsl c hc hl rfl
      have hmm : r'.peek m sub % 2 ^ (c.len - x.tableBits)
          = rev (c.len - x.tableBits) (c.word % 2 ^ (c.len - x.tableBits)) := by
        rw [hp', Nat.mod_mod_of_dvd _ (Nat.pow_dvd_pow 2 hle)]; exact hm2
      have he := (hent _ hplt).1 c hc hl rfl hmm
      simp only []
      rw [if_neg (by omega), he, finishDecode_symbol (by omega) (V.sym_lt hc), hlen, hbp,
        show r.bitpos.toNat + x.tableBits + (c.len - x.tableBits) = r.bitpos.toNat + c.len by omega]
      refine ⟨fun hb => ?_, fun hb => by rw [if_neg hb]⟩
      rw [if_pos hb, hsrc]

/-- The stream begins with no codeword: BAD_DATA (rule R308). -/
theorem decodeSymbol_miss {x : Alphabet} {lens : List Nat} {t : Table 32} (hn : lens.length = x.slots)
    (h : buildTable x lens = some t) (m : Memory) (r : Reader) (hm : ∀ c ∈ codewordsOf lens, ¬ c.matches (r.ahead m)) :
    (decodeSymbol x t m r).2 = none := by
  have hpk : r.peek m x.tableBits = r.ahead m % 2 ^ x.tableBits := (Reader.field_mod r m _ (tableBits_le x)).symm
  have hlt : r.peek m x.tableBits < 2 ^ x.tableBits := Reader.peek_lt r m _
  by_cases hp : ∃ c ∈ codewordsOf lens, x.tableBits < c.len ∧ r.peek m x.tableBits = rev x.tableBits (c.head x.tableBits)
  · obtain ⟨c, hc, hl, he⟩ := hp
    obtain ⟨base, sub, hs16, hs, hend, hptr, hsl, hent⟩ := buildTable_long hn h hc hl
    have htop := tableSize_le x
    have hpos := Nat.two_pow_pos sub
    rw [decodeSymbol_pointer hs16 (show base < 65536 by omega) (by rw [he, hptr])]
    cases hdr : r.drop x.tableBits with
    | none => rfl
    | some r' =>
      have hp' : r'.peek m sub = r.ahead m / 2 ^ x.tableBits % 2 ^ sub := peek_dropped hdr (tableBits_le x) hs
      have hplt : r'.peek m sub < 2 ^ sub := Reader.peek_lt r' m sub
      simp only []
      rw [if_neg (by omega), (hent _ hplt).2 fun c' g1 g2 g3 g4 => hm c' g1 ?_, finishDecode_zero]
      rw [Codeword.matches_split (Nat.le_of_lt g2), g3, ← hpk, he]
      rw [hp', Nat.mod_mod_of_dvd _ (Nat.pow_dvd_pow 2 (hsl c' g1 g2 g3))] at g4
      exact ⟨rfl, g4⟩
  · have hz : t.get (r.peek m x.tableBits) = 0 := by
      refine buildTable_none h hlt (fun c hc hl hmm => hm c hc ?_) fun c hc hl he => hp ⟨c, hc, hl, he⟩
      rwa [Codeword.matches, hpk, Nat.mod_mod_of_dvd _ (Nat.pow_dvd_pow 2 hl)] at hmm
    unfold decodeSymbol
    rw [hz]
    rfl

/-! ## A built table lists nothing outside its store -/

theorem wf_fillStride {bound start stride n : Nat} {e : BitVec 32} {t : Table 32} (h : Table.wf bound t = true)
    (hb : ∀ k, k < n → start + k * stride < bound) : Table.wf bound (fillStride start stride e n t) = true := by
  induction n generalizing start t with
  | zero => exact h
  | succ n ih =>
    rw [fillStride]
    refine ih (Table.wf_set _ h (by have := hb 0 (by omega); omega)) fun k hk => ?_
    have := hb (k + 1) (by omega)
    rw [Nat.add_mul] at this; omega

theorem wf_fillWord {bound base bits sym len word : Nat} {t : Table 32} (h : Table.wf bound t = true) (hl : len ≤ bits)
    (hb : base + 2 ^ bits ≤ bound) : Table.wf bound (fillWord base bits sym len word t) = true := by
  refine wf_fillStride h fun k hk => ?_
  have hr := rev_lt len word
  have : (k + 1) * 2 ^ len ≤ 2 ^ (bits - len) * 2 ^ len := Nat.mul_le_mul_right _ hk
  rw [← Nat.pow_add, Nat.sub_add_cancel hl, Nat.add_mul] at this
  omega

theorem wf_fillAll {bound base bits : Nat} {flen fword : Codeword → Nat} {cs : List Codeword} {t : Table 32}
    (h : Table.wf bound t = true) (hl : ∀ c ∈ cs, flen c ≤ bits) (hb : base + 2 ^ bits ≤ bound) :
    Table.wf bound (fillAll base bits flen fword cs t) = true := by
  induction cs generalizing t with
  | nil => exact h
  | cons c cs ih =>
    exact ih (wf_fillWord h (hl c (.head _)) hb) fun x hx => hl x (.tail _ hx)

theorem wf_fillSubs {bound tb free : Nat} {long : List Codeword} {ps : List Nat} {t : Table 32}
    (h : Table.wf bound t = true) (htb : 2 ^ tb ≤ bound) (hb : subsEnd tb long ps free ≤ bound) :
    Table.wf bound (fillSubs tb long ps free t) = true := by
  induction ps generalizing free t with
  | nil => exact h
  | cons p ps ih =>
    rw [fillSubs_cons]
    refine ih ?_ hb
    have he := subsEnd_ge tb long ps (free + 2 ^ subBits tb (groupOf tb long p))
    rw [subsEnd] at hb
    rw [fillOneSub_eq]
    exact wf_fillAll (Table.wf_set _ h (Nat.lt_of_lt_of_le (rev_lt tb p) htb)) (fun c hc => subBits_ge hc) (by omega)

/-- A built table lies in its store (rule R306). -/
theorem wf_buildTable {x : Alphabet} {lens : List Nat} {t : Table 32} (hn : lens.length = x.slots)
    (h : buildTable x lens = some t) : Table.wf x.tableSize t = true := by
  obtain ⟨hv, rfl⟩ := buildTable_eq h
  have hs := (valid_of_lengthsValid hn hv).subsEnd_le
  have htb : 2 ^ x.tableBits ≤ x.tableSize := by cases x <;> decide
  refine wf_fillSubs ?_ htb hs
  rw [fillMain_eq]
  exact wf_fillAll rfl (fun c hc => (mem_short.mp hc).2) (by omega)

theorem length_lengths (t : Trio 4) (x : Alphabet) : (t.lengths x).length = x.slots := Table.length_toList _ _

end Sys2Proof.Machine
end

