-- ==== Sys2Proof/Laws/Inflate.lean ====
section
/-! SUPPORT. What the decompressor's operations can do: which bits they consume, which bytes they
write, and how an error is recorded. -/

namespace Sys2Proof.Machine

/-! ## Fetching -/

theorem Reader.advances_finishDecode (e : BitVec 32) (r : Reader) : Reader.Advances r (finishDecode e r).1 := by
  unfold finishDecode
  split
  · split
    · exact Reader.Advances.refl r
    · exact Reader.advances_drop ‹_›
  · exact Reader.Advances.refl r

theorem Reader.advances_decodeSymbol (x : Alphabet) (t : Table 32) (m : Memory) (r : Reader) :
    Reader.Advances r (decodeSymbol x t m r).1 := by
  unfold decodeSymbol
  simp only []
  split
  · split
    · exact Reader.Advances.refl r
    · rename_i r' hr
      split
      · exact Reader.advances_drop hr
      · exact (Reader.advances_drop hr).trans (Reader.advances_finishDecode _ _)
  · exact Reader.advances_finishDecode _ _

/-- Every position a source yields is related to the one it was asked at. -/
structure SourceRel {σ : Type} (src : Source σ) (R : σ → σ → Prop) : Prop where
  refl : ∀ st, R st st
  trans : ∀ a b c, R a b → R b c → R a c
  bits : ∀ n st, R st (src.bits n st).1
  symbol : ∀ x st, R st (src.symbol x st).1

namespace SourceRel

variable {σ : Type} {src : Source σ} {R : σ → σ → Prop}

theorem bits_of (h : SourceRel src R) {n : Nat} {st st' : σ} {o : Option Nat} (e : src.bits n st = (st', o)) :
    R st st' := by have := h.bits n st; rwa [e] at this

theorem symbol_of (h : SourceRel src R) {x : Alphabet} {st st' : σ} {o : Option Nat}
    (e : src.symbol x st = (st', o)) : R st st' := by have := h.symbol x st; rwa [e] at this

theorem readHeader (h : SourceRel src R) (st : σ) : R st (readHeader src st).1 := by
  unfold Sys2Proof.readHeader
  split <;> exact h.bits_of ‹_›

theorem readStored (h : SourceRel src R) (st : σ) : R st (readStored src st).1 := by
  unfold Sys2Proof.readStored
  split
  · exact h.bits_of ‹_›
  · have h1 := h.bits_of ‹_›
    split <;> exact h.trans _ _ _ h1 (h.bits_of ‹_›)

theorem readDynamic (h : SourceRel src R) (st : σ) : R st (readDynamic src st).1 := by
  unfold Sys2Proof.readDynamic
  split <;> exact h.bits_of ‹_›

theorem readPrecode (h : SourceRel src R) (p : Bool) (st : σ) : R st (readPrecode src p st).1 := by
  unfold Sys2Proof.readPrecode
  split
  · exact h.symbol_of ‹_›
  · have h1 := h.symbol_of ‹_›
    split
    · exact h1
    · split
      · exact h1
      · split
        · exact h1
        · split
          · exact h.trans _ _ _ h1 (h.bits_of ‹_›)
          · have h2 := h.bits_of ‹_›
            split
            · exact h.trans _ _ _ h1 h2
            · split <;> exact h.trans _ _ _ h1 h2

theorem readMatchOffset (h : SourceRel src R) (ls lx : Nat) (st : σ) : R st (readMatchOffset src ls lx st).1 := by
  unfold Sys2Proof.readMatchOffset
  split
  · exact h.symbol_of ‹_›
  · have h1 := h.symbol_of ‹_›
    split
    · exact h1
    · split <;> exact h.trans _ _ _ h1 (h.bits_of ‹_›)

theorem readMatchOffset_of (h : SourceRel src R) {ls lx : Nat} {st st' : σ} {o : Except Reject Instr}
    (e : Sys2Proof.readMatchOffset src ls lx st = (st', o)) : R st st' := by
  have := h.readMatchOffset ls lx st
  rwa [e] at this

theorem readLitlen (h : SourceRel src R) (st : σ) : R st (readLitlen src st).1 := by
  unfold Sys2Proof.readLitlen
  split
  · exact h.symbol_of ‹_›
  · have h1 := h.symbol_of ‹_›
    split
    · exact h1
    · split
      · exact h1
      · split
        · split
          · exact h.trans _ _ _ h1 (h.bits_of ‹_›)
          · exact h.trans _ _ _ h1 (h.trans _ _ _ (h.bits_of ‹_›) (h.readMatchOffset _ _ _))
        · exact h1

end SourceRel

theorem Inflate.source_advances (d : Inflate) : SourceRel d.source Reader.Advances where
  refl := Reader.Advances.refl
  trans := fun _ _ _ => Reader.Advances.trans
  bits := fun n r => Reader.advances_get r d.mem n
  symbol := fun x r => Reader.advances_decodeSymbol x _ d.mem r

theorem Reader.advances_align {r r' : Reader} (h : r.align = some r') : Reader.Advances r r' :=
  Reader.advances_drop h

theorem Inflate.advances_fetch (d : Inflate) : Reader.Advances d.br d.fetch.1 := by
  unfold Inflate.fetch
  split
  · exact d.source_advances.readHeader _
  · exact d.source_advances.readDynamic _
  · exact d.source_advances.readLitlen _
  · split
    · exact Reader.Advances.refl _
    · exact (Reader.advances_align ‹_›).trans (d.source_advances.readStored _)
  · exact Reader.Advances.refl _
  · exact Reader.Advances.refl _

/-! ## Everything an operation can do -/

/-- `d'` is `d` after some of a step: the bindings and the OPEN parameters stand, the positions only
grow, and memory changes only in the output buffer at or after the old output position. -/
structure Inflate.Extends (d d' : Inflate) : Prop where
  cfg : d'.cfg = d.cfg
  dst : d'.dx.dst = d.dx.dst
  cap : d'.dx.cap = d.dx.cap
  reader : Reader.Advances d.br d'.br
  outpos_le : d.dx.outpos.toNat ≤ d.dx.cap.toNat → d.dx.outpos.toNat ≤ d'.dx.outpos.toNat
  outpos_fits : d.dx.outpos.toNat ≤ d.dx.cap.toNat → d'.dx.outpos.toNat ≤ d.dx.cap.toNat
  mem_wf : Memory.wf d.mem = true → Memory.wf d'.mem = true
  lens_wf : Trio.wf Alphabet.slots d.lens = true → Trio.wf Alphabet.slots d'.lens = true
  dtab_wf : Trio.wf Alphabet.tableSize d.dtab = true → Trio.wf Alphabet.tableSize d'.dtab = true
  frame : d.dx.dst.toNat + d.dx.cap.toNat ≤ wordSpan → d.dx.outpos.toNat ≤ d.dx.cap.toNat →
    ∀ a, (∀ k, d.dx.outpos.toNat ≤ k → k < d.dx.cap.toNat → a ≠ bufferAddr d.dx.dst k) →
      d'.mem.read a = d.mem.read a

theorem Inflate.Extends.refl (d : Inflate) : Inflate.Extends d d :=
  ⟨rfl, rfl, rfl, Reader.Advances.refl _, fun _ => Nat.le_refl _, id, id, id, id, fun _ _ _ _ => rfl⟩

theorem Inflate.Extends.trans {d d' d'' : Inflate} (h : Inflate.Extends d d') (g : Inflate.Extends d' d'') :
    Inflate.Extends d d'' where
  cfg := g.cfg.trans h.cfg
  dst := g.dst.trans h.dst
  cap := g.cap.trans h.cap
  reader := h.reader.trans g.reader
  outpos_le := fun o => Nat.le_trans (h.outpos_le o) (g.outpos_le (by rw [h.cap]; exact h.outpos_fits o))
  outpos_fits := fun o => by rw [← h.cap]; exact g.outpos_fits (by rw [h.cap]; exact h.outpos_fits o)
  mem_wf := fun m => g.mem_wf (h.mem_wf m)
  lens_wf := fun m => g.lens_wf (h.lens_wf m)
  dtab_wf := fun m => g.dtab_wf (h.dtab_wf m)
  frame := fun b o a ha => by
    rw [g.frame (by rw [h.dst, h.cap]; exact b) (by rw [h.cap]; exact h.outpos_fits o) a
      (by rw [h.dst, h.cap]; exact fun k hk => ha k (Nat.le_trans (h.outpos_le o) hk)), h.frame b o a ha]

/-- An operation that changes the control state, the counts, the tables or the sequence only. -/
theorem Inflate.Extends.control {d d' : Inflate} (cfg : d'.cfg = d.cfg) (dst : d'.dx.dst = d.dx.dst)
    (cap : d'.dx.cap = d.dx.cap) (br : Reader.Advances d.br d'.br) (out : d'.dx.outpos = d.dx.outpos)
    (mem : d'.mem = d.mem)
    (dtab : Trio.wf Alphabet.tableSize d.dtab = true → Trio.wf Alphabet.tableSize d'.dtab = true)
    (lens : Trio.wf Alphabet.slots d.lens = true → Trio.wf Alphabet.slots d'.lens = true) :
    Inflate.Extends d d' :=
  ⟨cfg, dst, cap, br, fun _ => by rw [out], fun o => by rw [out]; exact o, fun m => by rw [mem]; exact m, lens, dtab,
    fun _ _ _ _ => by rw [mem]⟩

theorem Inflate.extends_br (d : Inflate) {r : Reader} (h : Reader.Advances d.br r) :
    Inflate.Extends d { d with br := r } := .control rfl rfl rfl h rfl rfl id id

theorem Inflate.extends_error (d : Inflate) (r : Result) : Inflate.Extends d (d.error r) :=
  .control rfl rfl rfl (.refl _) rfl rfl id id

theorem Inflate.extends_goto (d : Inflate) (q : DxState) : Inflate.Extends d (d.goto q) :=
  .control rfl rfl rfl (.refl _) rfl rfl id id

theorem Inflate.extends_header (d : Inflate) (final : Bool) (b : Nat) : Inflate.Extends d (d.header final b) :=
  .control rfl rfl rfl (.refl _) rfl rfl id id

theorem Inflate.extends_finish (d : Inflate) : Inflate.Extends d d.finish := by
  unfold Inflate.finish
  split
  · exact d.extends_error _
  · exact d.extends_goto _

theorem Inflate.extends_blockDone (d : Inflate) : Inflate.Extends d d.blockDone := by
  unfold Inflate.blockDone
  split
  · exact d.extends_finish
  · exact d.extends_goto _

theorem Inflate.extends_andThen {d : Inflate} {f : Inflate → Inflate} (h : Inflate.Extends d (f d)) :
    Inflate.Extends d (d.andThen f) := by
  unfold Inflate.andThen
  split <;> first | exact Inflate.Extends.refl d | exact h

/-- Going on after an operation. -/
theorem Inflate.Extends.andThen {d d' : Inflate} {f : Inflate → Inflate} (h : Inflate.Extends d d')
    (hf : Inflate.Extends d' (f d')) : Inflate.Extends d (d'.andThen f) :=
  h.trans (Inflate.extends_andThen hf)

theorem Inflate.extends_build {d d' : Inflate} {x : Alphabet} (h : d.build x = some d') : Inflate.Extends d d' := by
  unfold Inflate.build at h
  split at h
  · simp at h
  · rename_i htab
    simp only [Option.some.injEq] at h
    subst h
    exact .control rfl rfl rfl (.refl _) rfl rfl (fun w => Trio.wf_put w (wf_buildTable (length_lengths _ _) htab)) id

theorem Inflate.extends_buildBoth (d : Inflate) : Inflate.Extends d d.buildBoth := by
  unfold Inflate.buildBoth
  split
  · exact d.extends_error _
  · have h1 := Inflate.extends_build ‹_›
    split
    · exact h1.trans (Inflate.extends_error _ _)
    · exact (h1.trans (Inflate.extends_build ‹_›)).trans (Inflate.extends_goto _ _)

theorem length_fixedLitlenLens : fixedLitlenLens.length = 288 := by
  simp only [fixedLitlenLens, List.length_append, List.length_replicate]

theorem length_fixedOffsetLens : fixedOffsetLens.length = 32 := by
  simp only [fixedOffsetLens, List.length_replicate]

theorem Trio.wf_loadFixed {t : Trio 4} (h : Trio.wf Alphabet.slots t = true) :
    Trio.wf Alphabet.slots t.loadFixed = true :=
  Trio.wf_put (Trio.wf_put h (Table.wf_ofList 4 fixedLitlenLens (Nat.le_of_eq length_fixedLitlenLens)))
    (Table.wf_ofList 4 fixedOffsetLens (Nat.le_of_eq length_fixedOffsetLens))

theorem Inflate.extends_buildFixed (d : Inflate) : Inflate.Extends d d.buildFixed :=
  (Inflate.Extends.control (d := d) (d' := { d with lens := d.lens.loadFixed }) rfl rfl rfl (.refl _) rfl rfl
    id Trio.wf_loadFixed).trans (Inflate.extends_buildBoth _)

theorem Inflate.extends_extend (d : Inflate) (v : BitVec 4) (r : Nat) : Inflate.Extends d (d.extend v r) := by
  unfold Inflate.extend
  split
  · exact d.extends_error _
  · exact .control rfl rfl rfl (.refl _) rfl rfl id id

theorem Inflate.extends_preRep (d : Inflate) (e : BitVec 2) : Inflate.Extends d (d.preRep e) := by
  unfold Inflate.preRep
  split
  · exact d.extends_error _
  · exact d.extends_extend _ _

theorem Inflate.extends_runPrecode (d : Inflate) (i : Instr) : Inflate.Extends d (d.runPrecode i) := by
  cases i <;>
    first
      | exact d.extends_extend _ _
      | exact d.extends_preRep _
      | exact d.extends_error _

theorem Inflate.extends_precodeStep (d : Inflate) : Inflate.Extends d d.precodeStep := by
  have h := d.source_advances.readPrecode (decide (d.dx.seq ≠ [])) d.br
  unfold Inflate.precodeStep
  split
  · rename_i e; rw [e] at h
    exact (d.extends_br h).trans (Inflate.extends_error _ _)
  · rename_i e; rw [e] at h
    exact (d.extends_br h).trans (Inflate.extends_runPrecode _ _)

theorem Inflate.extends_readLengths (n : Nat) (d : Inflate) : Inflate.Extends d (Inflate.readLengths n d) := by
  induction n generalizing d with
  | zero => exact Inflate.Extends.refl d
  | succ n ih =>
    unfold Inflate.readLengths
    split
    · exact Inflate.Extends.refl d
    · exact d.extends_precodeStep.andThen (ih _)

theorem Inflate.extends_readPrecodeLens (order : List Nat) (ho : ∀ s ∈ order, s < 19) (d : Inflate) :
    Inflate.Extends d (Inflate.readPrecodeLens order d) := by
  induction order generalizing d with
  | nil => exact Inflate.Extends.refl d
  | cons s order ih =>
    have h := Reader.advances_get d.br d.mem 3
    unfold Inflate.readPrecodeLens
    split
    · rename_i e; rw [e] at h
      exact (d.extends_br h).trans (Inflate.extends_error _ _)
    · rename_i v e; rw [e] at h
      refine Inflate.Extends.trans ?_ (ih (fun s hs => ho s (List.mem_cons_of_mem _ hs)) _)
      refine .control rfl rfl rfl h rfl rfl id fun w => ?_
      exact Trio.wf_put (x := .precode) w (Table.wf_set _ ((Trio.wf_iff _ _).mp w .precode) (ho s List.mem_cons_self))

/-- Reading the precode's lengths leaves the decompressor's own fields but for the state and the error. -/
theorem Inflate.readPrecodeLens_counts (order : List Nat) (d : Inflate) :
    (Inflate.readPrecodeLens order d).dx.nlit = d.dx.nlit ∧ (Inflate.readPrecodeLens order d).dx.ndist = d.dx.ndist
      ∧ (Inflate.readPrecodeLens order d).dx.npre = d.dx.npre ∧ (Inflate.readPrecodeLens order d).dx.seq = d.dx.seq := by
  induction order generalizing d with
  | nil => exact ⟨rfl, rfl, rfl, rfl⟩
  | cons s order ih =>
    unfold Inflate.readPrecodeLens
    split
    · exact ⟨rfl, rfl, rfl, rfl⟩
    · exact ih _

theorem Inflate.extends_dropSeq (d : Inflate) : Inflate.Extends d d.dropSeq :=
  .control rfl rfl rfl (.refl _) rfl rfl id id

theorem Inflate.countsRefused_eq (d : Inflate) : d.countsRefused =
    (d.cfg.strictCounts && (decide (286 < d.dx.nlit.toNat) || decide (30 < d.dx.ndist.toNat))) := rfl

/-- What the sequence holds never passes the declared total (rule R368). -/
theorem Inflate.extend_total (d : Inflate) (v : BitVec 4) (r : Nat) :
    (d.extend v r).total = d.total ∧ (d.dx.seq.length ≤ d.total → (d.extend v r).dx.seq.length ≤ d.total)
      ∧ (d.extend v r).dx.nlit = d.dx.nlit ∧ (d.extend v r).dx.ndist = d.dx.ndist := by
  unfold Inflate.extend
  split
  · exact ⟨rfl, id, rfl, rfl⟩
  · refine ⟨rfl, fun _ => ?_, rfl, rfl⟩
    simp only [List.length_append, List.length_replicate]; omega

/-- The counts stand and the sequence stays within the total. -/
structure Inflate.Counted (d d' : Inflate) : Prop where
  nlit : d'.dx.nlit = d.dx.nlit
  ndist : d'.dx.ndist = d.dx.ndist
  npre : d'.dx.npre = d.dx.npre
  seq : d.dx.seq.length ≤ d.total → d'.dx.seq.length ≤ d.total

theorem Inflate.Counted.refl (d : Inflate) : Inflate.Counted d d := ⟨rfl, rfl, rfl, id⟩

theorem Inflate.Counted.trans {d d' d'' : Inflate} (h : Inflate.Counted d d') (g : Inflate.Counted d' d'') :
    Inflate.Counted d d'' where
  nlit := g.nlit.trans h.nlit
  ndist := g.ndist.trans h.ndist
  npre := g.npre.trans h.npre
  seq := fun b => by
    have ht : d'.total = d.total := by simp [Inflate.total, h.nlit, h.ndist]
    rw [← ht]; exact g.seq (by rw [ht]; exact h.seq b)

theorem Inflate.counted_extend (d : Inflate) (v : BitVec 4) (r : Nat) : Inflate.Counted d (d.extend v r) := by
  obtain ⟨_, hs, hn, hd⟩ := d.extend_total v r
  refine ⟨hn, hd, ?_, hs⟩
  unfold Inflate.extend; split <;> rfl

theorem Inflate.counted_runPrecode (d : Inflate) (i : Instr) : Inflate.Counted d (d.runPrecode i) := by
  have hrep : ∀ e, Inflate.Counted d (d.preRep e) := fun e => by
    unfold Inflate.preRep
    split
    · exact ⟨rfl, rfl, rfl, id⟩
    · exact d.counted_extend _ _
  cases i <;>
    first
      | exact d.counted_extend _ _
      | exact hrep _
      | exact ⟨rfl, rfl, rfl, id⟩

theorem Inflate.counted_precodeStep (d : Inflate) : Inflate.Counted d d.precodeStep := by
  unfold Inflate.precodeStep
  split
  · exact ⟨rfl, rfl, rfl, id⟩
  · rename_i r i _
    have h : Inflate.Counted d { d with br := r } := ⟨rfl, rfl, rfl, id⟩
    exact h.trans (Inflate.counted_runPrecode _ _)

theorem Inflate.counted_readLengths (n : Nat) (d : Inflate) : Inflate.Counted d (Inflate.readLengths n d) := by
  induction n generalizing d with
  | zero => exact Inflate.Counted.refl d
  | succ n ih =>
    unfold Inflate.readLengths
    split
    · exact Inflate.Counted.refl d
    · refine d.counted_precodeStep.trans ?_
      unfold Inflate.andThen
      split <;> first | exact Inflate.Counted.refl _ | exact ih _

/-- The length arrays of a dynamic block keep their form: at most 288 and 32 lengths are declared. -/
theorem Inflate.extends_loadLengths (d : Inflate) (h1 : d.dx.nlit.toNat ≤ 288)
    (h2 : d.dx.seq.length ≤ d.dx.nlit.toNat + 32) : Inflate.Extends d d.loadLengths := by
  refine .control rfl rfl rfl (.refl _) rfl rfl id fun w => ?_
  rw [Trio.wf_iff] at w ⊢
  intro x
  cases x
  · exact Table.wf_ofList 4 _ (by simp only [Alphabet.slots, List.length_map, List.length_take]; omega)
  · exact Table.wf_ofList 4 _ (by simp only [Alphabet.slots, List.length_map, List.length_drop]; omega)
  · exact w .precode

theorem Inflate.extends_buildDynamic (d : Inflate) (h1 : d.dx.nlit.toNat ≤ 288) (h2 : d.dx.ndist.toNat ≤ 32) :
    Inflate.Extends d d.buildDynamic := by
  unfold Inflate.buildDynamic
  refine Inflate.Extends.trans ?_ (Inflate.extends_dropSeq _)
  cases hb : d.build .precode with
  | none => exact d.extends_error _
  | some d1 =>
    have e1 := Inflate.extends_build hb
    have hn : d1.dx = d.dx := by
      unfold Inflate.build at hb
      split at hb
      · simp at hb
      · simp only [Option.some.injEq] at hb; subst hb; rfl
    simp only [Option.elim]
    refine ((e1.trans (Inflate.extends_dropSeq d1)).trans (Inflate.extends_readLengths _ _)).andThen ?_
    have c := Inflate.counted_readLengths d1.total d1.dropSeq
    have hl : (Inflate.readLengths d1.total d1.dropSeq).dx.nlit = d.dx.nlit := by rw [c.nlit, ← hn]; rfl
    refine (Inflate.extends_loadLengths _ (by rw [hl]; exact h1) ?_).trans (Inflate.extends_buildBoth _)
    have := c.seq (Nat.zero_le _)
    rw [hl]
    have ht : d1.dropSeq.total = d.dx.nlit.toNat + d.dx.ndist.toNat := by
      simp [Inflate.total, Inflate.dropSeq, hn]
    omega

theorem Inflate.extends_dynamicHeader (d : Inflate) (hlit hdist : BitVec 5) (hclen : BitVec 4) :
    Inflate.Extends d (d.dynamicHeader hlit hdist hclen) := by
  have b1 := hlit.isLt
  have b2 := hdist.isLt
  unfold Inflate.dynamicHeader
  simp only []
  split
  · exact .control rfl rfl rfl (.refl _) rfl rfl id id
  · have horder : ∀ s ∈ precodeOrder.take (hclen.toNat + 4), s < 19 := fun s hs =>
      (by decide : ∀ s ∈ precodeOrder, s < 19) s (List.mem_of_mem_take hs)
    refine Inflate.Extends.andThen (Inflate.Extends.trans ?_ (Inflate.extends_readPrecodeLens _ horder _))
      (Inflate.extends_buildDynamic _ ?_ ?_)
    · exact .control rfl rfl rfl (.refl _) rfl rfl id fun w => Trio.wf_put (x := .precode) w rfl
    · rw [(Inflate.readPrecodeLens_counts _ _).1]
      simp only [BitVec.toNat_ofNat]; omega
    · rw [(Inflate.readPrecodeLens_counts _ _).2.1]
      simp only [BitVec.toNat_ofNat]; omega

theorem Inflate.extends_literal (d : Inflate) (b : Byte) : Inflate.Extends d (d.literal b) := by
  unfold Inflate.literal
  split
  · exact d.extends_error _
  · rename_i hne
    have hlt : d.dx.outpos.toNat ≤ d.dx.cap.toNat → d.dx.outpos.toNat < d.dx.cap.toNat := fun h =>
      Nat.lt_of_le_of_ne h fun e => hne (BitVec.eq_of_toNat_eq e)
    refine ⟨rfl, rfl, rfl, .refl _, fun h => ?_, fun h => ?_, fun m => Memory.wf_write m _ _, id, id, fun _ ho a ha => ?_⟩
    · simp only [word_succ_toNat (hlt h)]; omega
    · simp only [word_succ_toNat (hlt h)]; exact hlt h
    · exact Memory.read_write_ne _ _ (ha _ (Nat.le_refl _) (hlt ho))

/-- Advancing the output position inside the capacity does not wrap. -/
theorem outpos_add {p c : Word} {n : Nat} (h : p.toNat + n ≤ c.toNat) :
    (p + BitVec.ofNat 32 n).toNat = p.toNat + n := by
  have := c.isLt
  rw [BitVec.toNat_add, BitVec.toNat_ofNat]; omega

theorem Inflate.extends_replay (d : Inflate) (len off : Nat) : Inflate.Extends d (d.replay len off) := by
  unfold Inflate.replay
  split
  · exact d.extends_error _
  · split
    · exact d.extends_error _
    · rename_i hroom
      have hfit : d.dx.outpos.toNat ≤ d.dx.cap.toNat → d.dx.outpos.toNat + len ≤ d.dx.cap.toNat := fun h => by
        simp only [Inflate.room] at hroom; omega
      refine ⟨rfl, rfl, rfl, .refl _, fun h => ?_, fun h => ?_, fun m => Memory.wf_copyForward _ _ _ _ _ m, id, id,
        fun _ ho a ha => ?_⟩
      · simp only [outpos_add (hfit h)]; omega
      · simp only [outpos_add (hfit h)]; exact hfit h
      · exact Memory.copyForward_frame fun k hk => ha _ (by omega) (by have := hfit ho; omega)

theorem Inflate.extends_copyInput (d : Inflate) (n : Nat) (hr : ¬ d.room < n) (hl : ¬ d.br.left < n) :
    Inflate.Extends d (d.copyInput n) := by
  have hfit : d.dx.outpos.toNat ≤ d.dx.cap.toNat → d.dx.outpos.toNat + n ≤ d.dx.cap.toNat := fun h => by
    simp only [Inflate.room] at hr; omega
  have hp : d.br.bitpos.toNat ≤ 8 * d.br.len.toNat + 64 →
      d.br.bitpos.toNat + 8 * n ≤ 8 * d.br.len.toNat + 64 := fun hb => by
    simp only [Reader.left, Reader.start] at hl; omega
  refine ⟨rfl, rfl, rfl, ⟨rfl, rfl, fun hb => ?_, fun hb => ?_⟩, fun h => ?_, fun h => ?_,
    fun m => Memory.wf_copyForward _ _ _ _ _ m, id, id, fun _ ho a ha => ?_⟩
  · simp only [Inflate.copyInput, Reader.advanceBytes, Reader.bitpos_ofNat d.br.len (hp hb)]; omega
  · simp only [Inflate.copyInput, Reader.advanceBytes, Reader.bitpos_ofNat d.br.len (hp hb)]; exact hp hb
  · simp only [Inflate.copyInput, outpos_add (hfit h)]; omega
  · simp only [Inflate.copyInput, outpos_add (hfit h)]; exact hfit h
  · exact Memory.copyForward_frame fun k hk => ha _ (by omega) (by have := hfit ho; omega)

theorem Inflate.extends_storedBody (d : Inflate) (len nlen : BitVec 16) :
    Inflate.Extends d (d.storedBody len nlen) := by
  unfold Inflate.storedBody
  split
  · exact d.extends_error _
  · split
    · exact d.extends_error _
    · split
      · exact d.extends_error _
      · exact (d.extends_copyInput _ ‹_› ‹_›).trans (Inflate.extends_blockDone _)

theorem Inflate.extends_run (d : Inflate) (i : Instr) : Inflate.Extends d (d.run i) := by
  cases i <;>
    first
      | exact (d.extends_header _ _).trans (Inflate.extends_goto _ _)
      | exact (d.extends_header _ _).trans (Inflate.extends_error _ _)
      | exact d.extends_storedBody _ _
      | exact d.extends_dynamicHeader _ _ _
      | exact d.extends_extend _ _
      | exact d.extends_preRep _
      | exact d.extends_literal _
      | exact d.extends_blockDone
      | exact d.extends_replay _ _
      | exact d.extends_error _
      | exact Inflate.Extends.refl d

theorem Inflate.extends_fetchAndRun (d : Inflate) : Inflate.Extends d d.fetchAndRun := by
  have h := d.advances_fetch
  unfold Inflate.fetchAndRun
  split
  · rename_i e; rw [e] at h
    exact (d.extends_br h).trans (Inflate.extends_error _ _)
  · rename_i e; rw [e] at h
    exact (d.extends_br h).trans (Inflate.extends_run _ _)

theorem Inflate.extends_step (d : Inflate) : Inflate.Extends d d.step := by
  unfold Inflate.step
  split
  · exact d.extends_fetchAndRun
  · split
    · exact d.extends_buildFixed
    · exact d.extends_fetchAndRun
  · exact d.extends_fetchAndRun
  · exact d.extends_fetchAndRun
  · exact Inflate.Extends.refl d
  · exact Inflate.Extends.refl d

theorem Inflate.extends_runAll (n : Nat) (d : Inflate) : Inflate.Extends d (Inflate.runAll n d) := by
  induction n generalizing d with
  | zero => exact Inflate.Extends.refl d
  | succ n ih =>
    unfold Inflate.runAll
    split
    · exact Inflate.Extends.refl d
    · exact Inflate.Extends.refl d
    all_goals exact d.extends_step.trans (ih _)

end Sys2Proof.Machine
end

