-- ==== Sys2Proof/Laws/Decomp.lean ====
section
/-! SUPPORT. The decompressor's control state: which errors are recorded, what a table build leaves, and
that DECOMPRESS ends (rules R75, R76, R377, R379). -/

namespace Sys2Proof.Machine

/-! ## What is recorded (rules R76, R377) -/

/-- The results a step can record (rules R411 to R413). -/
def stepError (r : Result) : Prop := r = .badData ∨ r = .insufficientSpace ∨ r = .shortInput

/-- In ERROR the recorded result is an error, elsewhere it is none; in BUILD_TABLES the type is 1 or 2. -/
structure Decomp.Sound (d : Decomp) : Prop where
  failed : d.state = .error → stepError d.err
  fine : d.state ≠ .error → d.err = .success
  typed : d.state = .buildTables → d.btype = 1 ∨ d.btype = 2

/-- `d'` is `d` but for positions, tables and counts, or has gone to ERROR. -/
def Inflate.Keeps (d d' : Inflate) : Prop :=
  (d'.dx.state = d.dx.state ∧ d'.dx.err = d.dx.err ∧ d'.dx.btype = d.dx.btype ∧ d'.dx.bfinal = d.dx.bfinal)
    ∨ (d'.dx.state = .error ∧ stepError d'.dx.err)

theorem Inflate.Keeps.refl (d : Inflate) : Inflate.Keeps d d := .inl ⟨rfl, rfl, rfl, rfl⟩

theorem Inflate.Keeps.trans {d d' d'' : Inflate} (h : Inflate.Keeps d d') (g : Inflate.Keeps d' d'') :
    Inflate.Keeps d d'' := by
  rcases g with ⟨g1, g2, g3, g4⟩ | g
  · rcases h with ⟨h1, h2, h3, h4⟩ | ⟨h1, h2⟩
    · exact .inl ⟨g1.trans h1, g2.trans h2, g3.trans h3, g4.trans h4⟩
    · exact .inr ⟨g1.trans h1, by rw [g2]; exact h2⟩
  · exact .inr g

theorem Inflate.keeps_error (d : Inflate) {r : Result} (h : stepError r) : Inflate.Keeps d (d.error r) := .inr ⟨rfl, h⟩

theorem stepError_badData : stepError .badData := .inl rfl
theorem stepError_insufficientSpace : stepError .insufficientSpace := .inr (.inl rfl)
theorem stepError_shortInput : stepError .shortInput := .inr (.inr rfl)

theorem Inflate.Keeps.sound {d d' : Inflate} (k : Inflate.Keeps d d') (h : d.dx.Sound) : d'.dx.Sound := by
  rcases k with ⟨k1, k2, k3, _⟩ | ⟨k1, k2⟩
  · exact ⟨by rw [k1, k2]; exact h.failed, by rw [k1, k2]; exact h.fine, by rw [k1, k3]; exact h.typed⟩
  · exact ⟨fun _ => k2, fun e => absurd k1 e, fun e => by rw [k1] at e; cases e⟩

/-- Going to a state other than ERROR. -/
theorem Inflate.sound_goto {d : Inflate} (h : d.dx.Sound) (hs : d.dx.state ≠ .error) {q : DxState} (hq : q ≠ .error)
    (ht : q = .buildTables → d.dx.btype = 1 ∨ d.dx.btype = 2) : (d.goto q).dx.Sound :=
  ⟨fun e => absurd e hq, fun _ => h.fine hs, ht⟩

theorem Inflate.sound_error (d : Inflate) {r : Result} (h : stepError r) : (d.error r).dx.Sound :=
  ⟨fun _ => h, fun e => absurd rfl e, fun e => by cases e⟩

theorem stepError_overread (cfg : Config) : stepError (overreadResult cfg) := by
  unfold overreadResult
  split
  · exact stepError_shortInput
  · exact stepError_badData

theorem Inflate.keeps_andThen {d : Inflate} {f : Inflate → Inflate} (h : Inflate.Keeps d (f d)) :
    Inflate.Keeps d (d.andThen f) := by
  unfold Inflate.andThen
  split <;> first | exact Inflate.Keeps.refl d | exact h

theorem Inflate.keeps_extend (d : Inflate) (v : BitVec 4) (r : Nat) : Inflate.Keeps d (d.extend v r) := by
  unfold Inflate.extend
  split
  · exact d.keeps_error stepError_badData
  · exact .inl ⟨rfl, rfl, rfl, rfl⟩

theorem Inflate.keeps_runPrecode (d : Inflate) (i : Instr) : Inflate.Keeps d (d.runPrecode i) := by
  have hrep : ∀ e, Inflate.Keeps d (d.preRep e) := fun e => by
    unfold Inflate.preRep
    split
    · exact d.keeps_error stepError_badData
    · exact d.keeps_extend _ _
  cases i <;> first | exact hrep _ | exact d.keeps_extend _ _ | exact d.keeps_error stepError_badData

theorem Inflate.keeps_precodeStep (d : Inflate) : Inflate.Keeps d d.precodeStep := by
  unfold Inflate.precodeStep
  split
  · exact .inr ⟨rfl, stepError_badData⟩
  · rename_i r i _
    exact Inflate.Keeps.trans (d' := { d with br := r }) (.inl ⟨rfl, rfl, rfl, rfl⟩) (Inflate.keeps_runPrecode _ i)

theorem Inflate.keeps_readLengths (n : Nat) (d : Inflate) : Inflate.Keeps d (Inflate.readLengths n d) := by
  induction n generalizing d with
  | zero => exact .refl d
  | succ n ih =>
    unfold Inflate.readLengths
    split
    · exact .refl d
    · exact d.keeps_precodeStep.trans (Inflate.keeps_andThen (ih _))

theorem Inflate.keeps_readPrecodeLens (order : List Nat) (d : Inflate) : Inflate.Keeps d (Inflate.readPrecodeLens order d) := by
  induction order generalizing d with
  | nil => exact .refl d
  | cons s order ih =>
    unfold Inflate.readPrecodeLens
    split
    · exact .inr ⟨rfl, stepError_badData⟩
    · exact Inflate.Keeps.trans (.inl ⟨rfl, rfl, rfl, rfl⟩) (ih _)

theorem Inflate.build_dx {d d' : Inflate} {x : Alphabet} (h : d.build x = some d') :
    d'.dx = d.dx ∧ d'.br = d.br ∧ d'.lens = d.lens ∧ d'.mem = d.mem ∧ d'.cfg = d.cfg
      ∧ buildTable x (d.lens.lengths x) = some (d'.dtab.table x) ∧ ∀ y, y ≠ x → d'.dtab.table y = d.dtab.table y := by
  unfold Inflate.build at h
  split at h
  · cases h
  · rename_i t ht
    cases h
    exact ⟨rfl, rfl, rfl, rfl, rfl, by rw [Trio.table_put_same]; exact ht, fun y hy => Trio.table_put_ne _ _ hy⟩

/-- A table build ends in DECODE_LOOP with both tables built, or in ERROR. -/
def Inflate.Built (d d' : Inflate) : Prop :=
  (d'.dx.state = .decodeLoop ∧ d'.dx.err = d.dx.err ∧ d'.dx.bfinal = d.dx.bfinal ∧ d'.dx.btype = d.dx.btype
      ∧ buildTable .litlen (d'.lens.lengths .litlen) = some d'.dtab.litlen
      ∧ buildTable .offset (d'.lens.lengths .offset) = some d'.dtab.offset)
    ∨ (d'.dx.state = .error ∧ d'.dx.err = .badData)

theorem Inflate.built_buildBoth (d : Inflate) : Inflate.Built d d.buildBoth ∧ d.buildBoth.br = d.br := by
  unfold Inflate.buildBoth
  split
  · exact ⟨.inr ⟨rfl, rfl⟩, rfl⟩
  · rename_i d1 h1
    obtain ⟨a1, a2, a3, _, _, a4, a5⟩ := Inflate.build_dx h1
    split
    · exact ⟨.inr ⟨rfl, rfl⟩, a2⟩
    · rename_i d2 h2
      obtain ⟨b1, b2, b3, _, _, b4, b5⟩ := Inflate.build_dx h2
      refine ⟨.inl ⟨rfl, ?_, ?_, ?_, ?_, ?_⟩, b2.trans a2⟩
      · exact (congrArg Decomp.err (b1.trans a1) : d2.dx.err = d.dx.err)
      · exact (congrArg Decomp.bfinal (b1.trans a1) : d2.dx.bfinal = d.dx.bfinal)
      · exact (congrArg Decomp.btype (b1.trans a1) : d2.dx.btype = d.dx.btype)
      · show buildTable .litlen (d2.lens.lengths .litlen) = some (d2.dtab.table .litlen)
        rw [b5 .litlen (by decide), b3, a3, a4]
      · show buildTable .offset (d2.lens.lengths .offset) = some (d2.dtab.table .offset)
        rw [b3, b4]

/-- `d'` follows `d` in a step: an error is recorded, or the state is fine and, in DECODE_LOOP, both
tables are built ones. -/
structure Inflate.Good (d : Inflate) : Prop where
  sound : d.dx.Sound
  tables : d.dx.state = .decodeLoop → (∃ lens, lens.length = 288 ∧ buildTable .litlen lens = some d.dtab.litlen)
    ∧ ∃ lens, lens.length = 32 ∧ buildTable .offset lens = some d.dtab.offset

theorem Inflate.good_error (d : Inflate) {r : Result} (h : stepError r) : (d.error r).Good :=
  ⟨d.sound_error h, fun e => by cases e⟩

theorem Inflate.Built.good {d d' : Inflate} (h : Inflate.Built d d') (he : d.dx.err = .success) : d'.Good := by
  rcases h with ⟨h1, h2, _, _, h5, h6⟩ | ⟨h1, h2⟩
  · exact ⟨⟨fun e => (by rw [h1] at e; cases e), fun _ => h2.trans he, fun e => by rw [h1] at e; cases e⟩,
      fun _ => ⟨⟨_, length_lengths _ .litlen, h5⟩, ⟨_, length_lengths _ .offset, h6⟩⟩⟩
  · exact ⟨⟨fun _ => .inl h2, fun e => absurd h1 e, fun e => by rw [h1] at e; cases e⟩, fun e => by rw [h1] at e; cases e⟩

theorem Inflate.good_of_error {d : Inflate} (h1 : d.dx.state = .error) (h2 : stepError d.dx.err) : d.Good :=
  ⟨⟨fun _ => h2, fun e => absurd h1 e, fun e => by rw [h1] at e; cases e⟩, fun e => by rw [h1] at e; cases e⟩

theorem Inflate.good_goto {d : Inflate} (h : d.dx.err = .success) {q : DxState} (hq : q ≠ .error) (hl : q ≠ .decodeLoop)
    (ht : q = .buildTables → d.dx.btype = 1 ∨ d.dx.btype = 2) : (d.goto q).Good :=
  ⟨⟨fun e => absurd e hq, fun _ => h, ht⟩, fun e => absurd e hl⟩

theorem Inflate.good_finish {d : Inflate} (h : d.dx.err = .success) : d.finish.Good := by
  unfold Inflate.finish
  split
  · exact d.good_error (stepError_overread _)
  · exact Inflate.good_goto h (by decide) (by decide) (by intro e; cases e)

theorem Inflate.good_blockDone {d : Inflate} (h : d.dx.err = .success) : d.blockDone.Good := by
  unfold Inflate.blockDone
  split
  · exact Inflate.good_finish h
  · exact Inflate.good_goto h (by decide) (by decide) (by intro e; cases e)

theorem Inflate.good_dropSeq {d : Inflate} (h : d.Good) : d.dropSeq.Good :=
  ⟨⟨h.sound.failed, h.sound.fine, h.sound.typed⟩, h.tables⟩

theorem Inflate.good_buildDynamic {d : Inflate} (h : d.dx.err = .success) (hs : d.dx.state ≠ .error) : d.buildDynamic.Good := by
  unfold Inflate.buildDynamic
  refine Inflate.good_dropSeq ?_
  cases hb : d.build .precode with
  | none => exact d.good_error stepError_badData
  | some d1 =>
    obtain ⟨e1, _⟩ := Inflate.build_dx hb
    have hk := Inflate.keeps_readLengths d1.total d1.dropSeq
    simp only [Option.elim]
    unfold Inflate.andThen
    rcases hk with ⟨k1, k2, _, _⟩ | ⟨k1, k2⟩
    · have he : (Inflate.readLengths d1.total d1.dropSeq).loadLengths.dx.err = .success := by
        show (Inflate.readLengths d1.total d1.dropSeq).dx.err = _
        rw [k2]; show d1.dx.err = _; rw [e1]; exact h
      have hn : (Inflate.readLengths d1.total d1.dropSeq).dx.state ≠ .error := by
        rw [k1]; show d1.dx.state ≠ _; rw [e1]; exact hs
      split
      · rename_i e; exact absurd e hn
      all_goals exact (Inflate.built_buildBoth _).1.good he
    · rw [k1]; exact Inflate.good_of_error k1 k2

theorem Inflate.good_dynamicHeader {d : Inflate} (h : d.dx.err = .success) (hs : d.dx.state ≠ .error)
    (hlit hdist : BitVec 5) (hclen : BitVec 4) : (d.dynamicHeader hlit hdist hclen).Good := by
  unfold Inflate.dynamicHeader
  simp only []
  split
  · exact Inflate.good_error _ stepError_badData
  · rcases Inflate.keeps_readPrecodeLens (precodeOrder.take (hclen.toNat + 4)) _ with ⟨k1, k2, _, _⟩ | ⟨k1, k2⟩
    · unfold Inflate.andThen
      split
      · rename_i e; exact absurd (k1.symm.trans e) hs
      all_goals exact Inflate.good_buildDynamic (k2.trans h) (by rw [k1]; exact hs)
    · unfold Inflate.andThen
      rw [k1]; exact Inflate.good_of_error k1 k2

theorem Inflate.good_of_same {d d' : Inflate} (h : d.Good) (h1 : d'.dx.state = d.dx.state) (h2 : d'.dx.err = d.dx.err)
    (h3 : d'.dx.btype = d.dx.btype) (h4 : d'.dtab = d.dtab) : d'.Good :=
  ⟨⟨by rw [h1, h2]; exact h.sound.failed, by rw [h1, h2]; exact h.sound.fine, by rw [h1, h3]; exact h.sound.typed⟩,
    by rw [h1, h4]; exact h.tables⟩

/-- Every element but those of a length sequence leaves a sound state. -/
theorem Inflate.good_run {d : Inflate} (h : d.Good) (hs : d.dx.state ≠ .error) (i : Instr) : (d.run i).Good := by
  have he := h.sound.fine hs
  have hext : ∀ v r, (d.extend v r).Good := fun v r => by
    unfold Inflate.extend
    split
    · exact d.good_error stepError_badData
    · exact Inflate.good_of_same h rfl rfl rfl rfl
  cases i with
  | blockStored final => exact Inflate.good_goto (d := d.header final 0) he (by decide) (by decide) (by intro e; cases e)
  | blockFixed final => exact Inflate.good_goto (d := d.header final 1) he (by decide) (by decide) fun _ => .inl rfl
  | blockDynamic final => exact Inflate.good_goto (d := d.header final 2) he (by decide) (by decide) fun _ => .inr rfl
  | blockReserved final => exact Inflate.good_error _ stepError_badData
  | storedBody len nlen =>
    show (d.storedBody len nlen).Good
    unfold Inflate.storedBody
    split
    · exact d.good_error stepError_badData
    · split
      · exact d.good_error (stepError_overread d.cfg)
      · split
        · exact d.good_error stepError_insufficientSpace
        · exact Inflate.good_blockDone he
  | dynamicHeader hlit hdist hclen => exact Inflate.good_dynamicHeader he hs hlit hdist hclen
  | preLen value => exact hext _ _
  | preRep extra =>
    show (d.preRep extra).Good
    unfold Inflate.preRep
    split
    · exact d.good_error stepError_badData
    · exact hext _ _
  | preZrep3 extra => exact hext _ _
  | preZrep11 extra => exact hext _ _
  | lit value =>
    show (d.literal value).Good
    unfold Inflate.literal
    split
    · exact d.good_error stepError_insufficientSpace
    · exact Inflate.good_of_same h rfl rfl rfl rfl
  | eob => exact Inflate.good_blockDone he
  | copyMatch ls lx os ox =>
    show (d.replay _ _).Good
    unfold Inflate.replay
    split
    · exact d.good_error stepError_badData
    · split
      · exact d.good_error stepError_insufficientSpace
      · exact Inflate.good_of_same h rfl rfl rfl rfl
  | llReserved symbol => exact d.good_error stepError_badData
  | ofReserved symbol => exact d.good_error stepError_badData
  | _ => exact h

theorem Inflate.good_fetchAndRun {d : Inflate} (h : d.Good) (hs : d.dx.state ≠ .error) : d.fetchAndRun.Good := by
  unfold Inflate.fetchAndRun
  split
  · exact Inflate.good_error _ stepError_badData
  · rename_i r i _
    exact Inflate.good_run (d := { d with br := r }) (Inflate.good_of_same h rfl rfl rfl rfl) hs i

theorem Inflate.good_step {d : Inflate} (h : d.Good) : d.step.Good := by
  unfold Inflate.step
  split
  · exact Inflate.good_fetchAndRun h (by simp_all)
  · split
    · exact (Inflate.built_buildBoth _).1.good (h.sound.fine (by simp_all))
    · exact Inflate.good_fetchAndRun h (by simp_all)
  · exact Inflate.good_fetchAndRun h (by simp_all)
  · exact Inflate.good_fetchAndRun h (by simp_all)
  · exact h
  · exact h

theorem Inflate.good_runAll (n : Nat) {d : Inflate} (h : d.Good) : (Inflate.runAll n d).Good := by
  induction n generalizing d with
  | zero => exact h
  | succ n ih =>
    unfold Inflate.runAll
    split <;> first | exact h | exact ih (Inflate.good_step h)

theorem State.good_startInflate (s : State) : s.startInflate.Good :=
  ⟨⟨fun e => (by cases e), fun _ => rfl, fun e => by cases e⟩, fun e => by cases e⟩

end Sys2Proof.Machine
end

