-- ==== Sys2Proof/Laws/Rle.lean ====
section
/-! SUPPORT. The run-length coding of a length sequence stands for exactly that sequence, in legal items,
no more of them than lengths (rules R284, R286). -/

namespace Sys2Proof.Machine

theorem expandItems_append (acc : List Nat) (a b : List (Nat × Nat)) :
    expandItems acc (a ++ b) = (expandItems acc a).bind fun ls => expandItems ls b := by
  induction a generalizing acc with
  | nil => rfl
  | cons it a ih =>
    simp only [List.cons_append, expandItems, ih]
    split
    · split <;> rfl
    · split
      · rfl
      · split <;> rfl

/-- Items that are lengths of their own. -/
theorem expandItems_plain (acc : List Nat) (n v : Nat) (hv : v ≤ 15) :
    expandItems acc (List.replicate n (v, 0)) = some (acc ++ List.replicate n v) := by
  induction n generalizing acc with
  | zero => simp [expandItems]
  | succ n ih =>
    rw [List.replicate_succ, expandItems, if_neg (by omega), if_neg (by omega), if_neg (by omega), ih,
      List.replicate_succ, List.append_assoc]
    rfl

theorem legal_plain {v : Nat} (hv : v ≤ 15) : itemLegal (v, 0) :=
  ⟨by simp only []; omega, Nat.two_pow_pos _⟩

/-- The items of a run of zeros. -/
theorem zeroItems_spec (fuel run : Nat) (h : run ≤ fuel) :
    (∀ acc, expandItems acc (zeroItems fuel run) = some (acc ++ List.replicate run 0))
      ∧ (∀ it ∈ zeroItems fuel run, itemLegal it) ∧ (zeroItems fuel run).length ≤ run := by
  induction fuel generalizing run with
  | zero =>
    obtain rfl : run = 0 := by omega
    exact ⟨by simp [zeroItems, expandItems], by simp [zeroItems], by simp [zeroItems]⟩
  | succ n ih =>
    simp only [zeroItems]
    split
    · rename_i h11
      obtain ⟨e, l, c⟩ := ih (run - min run 138) (by omega)
      refine ⟨fun acc => ?_, fun it hit => ?_, ?_⟩
      · rw [expandItems, if_neg (by decide), if_neg (by decide), if_pos rfl, e, List.append_assoc, List.replicate_append_replicate]
        congr 3
        omega
      · rcases List.mem_cons.mp hit with rfl | hit
        · refine ⟨Nat.le_of_ble_eq_true rfl, ?_⟩
          show min run 138 - 11 < 128
          omega
        · exact l it hit
      · simp only [List.length_cons]
        omega
    · split
      · rename_i h11 h3
        refine ⟨fun acc => ?_, fun it hit => ?_, by simpa using by omega⟩
        · rw [expandItems, if_neg (by decide), if_pos rfl, expandItems]
          congr 3
          omega
        · rw [List.mem_singleton.mp hit]
          refine ⟨Nat.le_of_ble_eq_true rfl, ?_⟩
          show run - 3 < 8
          omega
      · refine ⟨fun acc => expandItems_plain acc run 0 (by decide), fun it hit => ?_, by simp⟩
        rw [(List.mem_replicate.mp hit).2]
        exact legal_plain (by decide)

/-- The items of the rest of a run, after an entry of it. -/
theorem repeatItems_spec (v fuel run : Nat) (hv : v ≤ 15) (h : run < fuel) :
    (∀ acc, acc.getLast? = some v → expandItems acc (repeatItems v fuel run) = some (acc ++ List.replicate run v))
      ∧ (∀ it ∈ repeatItems v fuel run, itemLegal it) ∧ (repeatItems v fuel run).length ≤ run := by
  induction fuel generalizing run with
  | zero => omega
  | succ n ih =>
    simp only [repeatItems]
    split
    · rename_i h3
      obtain ⟨e, l, c⟩ := ih (run - min run 6) (by omega)
      refine ⟨fun acc ha => ?_, fun it hit => ?_, ?_⟩
      · rw [expandItems, if_pos rfl, ha]
        simp only []
        rw [show 3 + (min run 6 - 3) = (min run 6 - 1) + 1 from by omega, e _ (by
          rw [List.replicate_succ', ← List.append_assoc]; simp), List.append_assoc, List.replicate_append_replicate]
        congr 3
        omega
      · rcases List.mem_cons.mp hit with rfl | hit
        · refine ⟨Nat.le_of_ble_eq_true rfl, ?_⟩
          show min run 6 - 3 < 4
          omega
        · exact l it hit
      · simp only [List.length_cons]
        omega
    · refine ⟨fun acc _ => expandItems_plain acc run v hv, fun it hit => ?_, by simp⟩
      rw [(List.mem_replicate.mp hit).2]
      exact legal_plain hv

/-- The items of one run. -/
theorem runItems_spec (v n : Nat) (hv : v ≤ 15) (hn : 1 ≤ n) :
    (∀ acc, expandItems acc (runItems (v, n)) = some (acc ++ List.replicate n v))
      ∧ (∀ it ∈ runItems (v, n), itemLegal it) ∧ (runItems (v, n)).length ≤ n := by
  unfold runItems
  split
  · rename_i h0
    simp only [] at h0
    subst h0
    exact zeroItems_spec n n (Nat.le_refl _)
  · obtain ⟨e, l, c⟩ := repeatItems_spec v n (n - 1) hv (by omega)
    refine ⟨fun acc => ?_, fun it hit => ?_, ?_⟩
    · rw [expandItems, if_neg (by simp only []; omega), if_neg (by simp only []; omega), if_neg (by simp only []; omega),
        e _ (by simp), List.append_assoc]
      congr 2
      rw [List.singleton_append, ← List.replicate_succ]
      congr 1
      omega
    · rcases List.mem_cons.mp hit with rfl | hit
      · exact legal_plain hv
      · exact l it hit
    · simp only [List.length_cons]
      omega

theorem runsOf_spec (seq : List Nat) :
    (runsOf seq).flatMap (fun r => List.replicate r.2 r.1) = seq ∧ ∀ r ∈ runsOf seq, 1 ≤ r.2 ∧ r.1 ∈ seq := by
  induction seq with
  | nil => exact ⟨rfl, by simp [runsOf]⟩
  | cons v vs ih =>
    obtain ⟨e, m⟩ := ih
    simp only [runsOf]
    match hr : runsOf vs with
    | [] =>
      rw [hr] at e
      simp only [List.flatMap_nil] at e
      subst e
      exact ⟨rfl, by simp⟩
    | (w, n) :: r =>
      rw [hr] at e m
      simp only []
      split
      · rename_i hw
        subst hw
        refine ⟨?_, fun q hq => ?_⟩
        · simp only [List.flatMap_cons, List.replicate_succ, List.cons_append] at e ⊢
          rw [e]
        · rcases List.mem_cons.mp hq with rfl | hq
          · exact ⟨by simp, List.mem_cons_self⟩
          · exact ⟨(m q (List.mem_cons_of_mem _ hq)).1, List.mem_cons_of_mem _ (m q (List.mem_cons_of_mem _ hq)).2⟩
      · refine ⟨?_, fun q hq => ?_⟩
        · rw [List.flatMap_cons, e]
          rfl
        · rcases List.mem_cons.mp hq with rfl | hq
          · exact ⟨Nat.le_refl _, List.mem_cons_self⟩
          · exact ⟨(m q hq).1, List.mem_cons_of_mem _ (m q hq).2⟩

/-- `Rle(seq)` stands for `seq`. -/
theorem rle_spec (seq : List Nat) (h : ∀ v ∈ seq, v ≤ 15) :
    expandItems [] (rle seq) = some seq ∧ (∀ it ∈ rle seq, itemLegal it) ∧ (rle seq).length ≤ seq.length := by
  obtain ⟨e, m⟩ := runsOf_spec seq
  have key : ∀ (rs : List (Nat × Nat)), (∀ r ∈ rs, 1 ≤ r.2 ∧ r.1 ≤ 15) →
      (∀ acc, expandItems acc (rs.flatMap runItems) = some (acc ++ rs.flatMap fun r => List.replicate r.2 r.1))
        ∧ (∀ it ∈ rs.flatMap runItems, itemLegal it)
        ∧ (rs.flatMap runItems).length ≤ (rs.flatMap fun r => List.replicate r.2 r.1).length := by
    intro rs
    induction rs with
    | nil => exact fun _ => ⟨by simp [expandItems], by simp, by simp⟩
    | cons r rs ih =>
      intro hr
      obtain ⟨a, b, c⟩ := ih fun q hq => hr q (List.mem_cons_of_mem _ hq)
      obtain ⟨a', b', c'⟩ := runItems_spec r.1 r.2 (hr r List.mem_cons_self).2 (hr r List.mem_cons_self).1
      refine ⟨fun acc => ?_, fun it hit => ?_, ?_⟩
      · rw [List.flatMap_cons, expandItems_append, a', Option.bind_some, a, List.flatMap_cons, List.append_assoc]
      · rw [List.flatMap_cons, List.mem_append] at hit
        exact hit.elim (b' it) (b it)
      · simp only [List.flatMap_cons, List.length_append, List.length_replicate]
        exact Nat.add_le_add c' c
  obtain ⟨a, b, c⟩ := key (runsOf seq) fun r hr => ⟨(m r hr).1, h _ (m r hr).2⟩
  refine ⟨?_, b, ?_⟩
  · rw [rle, a, e]
    rfl
  · rw [e] at c
    exact c

end Sys2Proof.Machine
end

