-- ==== Sys2Proof/Laws/Emit.lean ====
section
/-! SUPPORT. Which bits the emission writes (rules R95, R242 to R245): a writer that did not overflow holds
exactly the bits put, a symbol's codeword as the decoder reads it, a token's element as the encoder has it. -/

namespace Sys2Proof.Machine

theorem bitsOf_add (a b v : Nat) : bitsOf (a + b) v = bitsOf a v ++ bitsOf b (v / 2 ^ a) := by
  induction a generalizing v with
  | zero => simp [bitsOf]
  | succ a ih =>
    rw [show a + 1 + b = a + b + 1 by omega, bitsOf, bitsOf, ih, Nat.div_div_eq_div_mul, Nat.pow_succ,
      Nat.mul_comm 2 (2 ^ a)]
    rfl

/-! ## The bits of a sink -/

/-- The bytes of an output, bit by bit (rule R95). -/
def bitsOfBytes (bs : List Byte) : List Bool := bs.flatMap fun b => bitsOf 8 b.toNat

theorem bitsOfBytes_append (a b : List Byte) : bitsOfBytes (a ++ b) = bitsOfBytes a ++ bitsOfBytes b :=
  List.flatMap_append

theorem length_bitsOfBytes (bs : List Byte) : (bitsOfBytes bs).length = 8 * bs.length := by
  induction bs with
  | nil => rfl
  | cons b bs ih => simp only [bitsOfBytes, List.flatMap_cons, List.length_append, length_bitsOf, List.length_cons] at ih ⊢; omega

/-- The bytes written. -/
def Sink.bytes (k : Sink) : List Byte := k.mem.bytes k.bw.dst 0 k.bw.nbytes.toNat

/-- The bits taken: those of the bytes written, then those held (rule R95). -/
def Sink.bits (k : Sink) : List Bool := bitsOfBytes k.bytes ++ bitsOf k.bw.nbits.toNat k.bw.acc.toNat

/-- The writer is packed and within a destination that fits. -/
structure Sink.Ok (k : Sink) : Prop where
  packed : k.bw.packed
  fits : k.bw.nbytes.toNat ≤ k.bw.cap.toNat
  dst : k.bw.dst.toNat + k.bw.cap.toNat ≤ wordSpan

/-- `k'` is `k` after the bits `bs`, unless it overflowed. -/
structure Sink.Writes (bs : List Bool) (k k' : Sink) : Prop where
  ext : Sink.Extends k k'
  ok : k.Ok → k'.Ok
  bits : k.Ok → k'.bw.ovf = false → k'.bits = k.bits ++ bs

theorem Sink.Extends.no_overflow {k k' : Sink} (h : Sink.Extends k k') (o : k'.bw.ovf = false) : k.bw.ovf = false := by
  by_contra hc
  rw [h.ovf (by simpa using hc)] at o
  cases o

theorem Sink.Writes.refl (k : Sink) : Sink.Writes [] k k := ⟨.refl k, id, fun _ _ => by simp⟩

theorem Sink.Writes.trans {a b : List Bool} {k k' k'' : Sink} (h : Sink.Writes a k k') (g : Sink.Writes b k' k'') :
    Sink.Writes (a ++ b) k k'' :=
  ⟨h.ext.trans g.ext, fun o => g.ok (h.ok o), fun o v => by
    rw [g.bits (h.ok o) v, h.bits o (g.ext.no_overflow v), List.append_assoc]⟩

theorem Sink.Writes.congr {a b : List Bool} {k k' : Sink} (h : Sink.Writes a k k') (e : a = b) : Sink.Writes b k k' := e ▸ h

theorem Memory.bytes_congr {m m' : Memory} {base : Word} {i n : Nat}
    (h : ∀ k, k < n → m'.read (bufferAddr base (i + k)) = m.read (bufferAddr base (i + k))) : m'.bytes base i n = m.bytes base i n := by
  induction n generalizing i with
  | zero => rfl
  | succ n ih =>
    have h0 := h 0 (Nat.succ_pos n)
    rw [Nat.add_zero] at h0
    rw [Memory.bytes, Memory.bytes, ih fun k hk => ?_, h0]
    rw [show i + 1 + k = i + (k + 1) by omega]
    exact h (k + 1) (by omega)

theorem Sink.bytes_putByte {k : Sink} (hd : k.bw.dst.toNat + k.bw.cap.toNat ≤ wordSpan) (b : Byte)
    (o : (k.putByte b).bw.ovf = false) : (k.putByte b).bytes = k.bytes ++ [b] := by
  rcases Nat.lt_or_ge k.bw.nbytes.toNat k.bw.cap.toNat with h | h
  · rw [Sink.putByte_room h]
    show Memory.bytes _ k.bw.dst 0 (k.bw.nbytes + 1).toNat = _
    rw [word_succ_toNat h, Memory.bytes_add]
    congr 1
    · refine Memory.bytes_congr fun j hj => Memory.read_write_ne _ _ ?_
      rw [Nat.zero_add, ne_eq, bufferAddr_inj (by omega) (by omega)]
      omega
    · simp [Memory.bytes]
  · rw [Sink.putByte_full h] at o
    cases o

theorem Sink.ok_putByte {k : Sink} (ok : k.Ok) (b : Byte) : (k.putByte b).Ok := by
  have e := Sink.extends_putByte k b
  exact ⟨(Sink.packed_putByte k b).mpr ok.packed, e.fits ok.fits, by rw [e.dst, e.cap]; exact ok.dst⟩

/-- The bytes a drain commits are the accumulator's, lowest first. -/
theorem Sink.bytes_drain (n : Nat) {k : Sink} (fits : k.bw.nbytes.toNat ≤ k.bw.cap.toNat)
    (dst : k.bw.dst.toNat + k.bw.cap.toNat ≤ wordSpan) (o : (Sink.drain n k).bw.ovf = false) :
    bitsOfBytes (Sink.drain n k).bytes = bitsOfBytes k.bytes ++ bitsOf (8 * n) k.bw.acc.toNat := by
  induction n generalizing k with
  | zero => simp [Sink.drain, bitsOf]
  | succ n ih =>
    have e := Sink.extends_putByte k (k.bw.acc.setWidth 8)
    have o1 : (k.putByte (k.bw.acc.setWidth 8)).bw.ovf = false :=
      (Sink.extends_drain n { k.putByte (k.bw.acc.setWidth 8) with
        bw := { (k.putByte (k.bw.acc.setWidth 8)).bw with acc := (k.putByte (k.bw.acc.setWidth 8)).bw.acc >>> 8 } }).no_overflow o
    have b1 := Sink.bytes_putByte dst _ o1
    refine (ih (k := { k.putByte (k.bw.acc.setWidth 8) with
      bw := { (k.putByte (k.bw.acc.setWidth 8)).bw with acc := (k.putByte (k.bw.acc.setWidth 8)).bw.acc >>> 8 } })
      (e.fits fits) (by show (k.putByte _).bw.dst.toNat + (k.putByte _).bw.cap.toNat ≤ _; rw [e.dst, e.cap]; exact dst) o).trans ?_
    show bitsOfBytes (k.putByte _).bytes ++ bitsOf (8 * n) ((k.putByte _).bw.acc >>> 8).toNat = _
    rw [b1, bitsOfBytes_append, List.append_assoc, Sink.putByte_acc, show 8 * (n + 1) = 8 + 8 * n by omega, bitsOf_add]
    congr 2
    · show bitsOf 8 (k.bw.acc.setWidth 8).toNat ++ [] = _
      rw [List.append_nil, BitVec.toNat_setWidth, bitsOf_mod]
    · rw [BitVec.toNat_ushiftRight, Nat.shiftRight_eq_div_pow]

theorem Sink.writes_put (k : Sink) {v n : Nat} (hn : n ≤ 32) (hv : v < 2 ^ n) : Sink.Writes (bitsOf n v) k (k.put v n) := by
  have e := Sink.extends_put k v n
  refine ⟨e, fun ok => ⟨Sink.packed_put ok.packed hn hv, e.fits ok.fits, by rw [e.dst, e.cap]; exact ok.dst⟩, fun ok o => ?_⟩
  obtain ⟨h8, ha⟩ := ok.packed
  have hA : (k.bw.acc ||| (BitVec.ofNat 64 v <<< k.bw.nbits.toNat)).toNat = k.bw.acc.toNat + 2 ^ k.bw.nbits.toNat * v := by
    have hlt : v * 2 ^ k.bw.nbits.toNat < 2 ^ 64 := by
      calc v * 2 ^ k.bw.nbits.toNat < 2 ^ n * 2 ^ k.bw.nbits.toNat := Nat.mul_lt_mul_of_pos_right hv (Nat.two_pow_pos _)
        _ = 2 ^ (n + k.bw.nbits.toNat) := by rw [← Nat.pow_add]
        _ ≤ 2 ^ 64 := Nat.pow_le_pow_right (by decide) (by omega)
    have hv64 : v < 2 ^ 64 := Nat.lt_of_lt_of_le hv (Nat.pow_le_pow_right (by decide) (by omega))
    rw [BitVec.toNat_or, BitVec.toNat_shiftLeft, BitVec.toNat_ofNat, Nat.mod_eq_of_lt hv64, Nat.shiftLeft_eq, Nat.mod_eq_of_lt hlt,
      Nat.or_comm, Nat.mul_comm v, ← Nat.two_pow_add_eq_or_of_lt ha]
    omega
  have hb := Sink.bytes_drain ((k.bw.nbits.toNat + n) / 8)
    (k := { k with bw := { k.bw with acc := k.bw.acc ||| (BitVec.ofNat 64 v <<< k.bw.nbits.toNat) } }) ok.fits ok.dst o
  have hbytes : bitsOfBytes (k.put v n).bytes = _ := hb
  rw [Sink.bits, hbytes, Sink.put_nbits, Sink.put_acc, BitVec.toNat_ushiftRight, Nat.shiftRight_eq_div_pow, List.append_assoc,
    ← bitsOf_add, hA, show 8 * ((k.bw.nbits.toNat + n) / 8) + (k.bw.nbits.toNat + n) % 8 = k.bw.nbits.toNat + n by omega,
    bitsOf_add, Sink.bits, List.append_assoc]
  congr 2
  · rw [← bitsOf_mod, Nat.add_mul_mod_self_left, bitsOf_mod]
  · rw [Nat.add_mul_div_left _ _ (Nat.two_pow_pos _), Nat.div_eq_of_lt ha, Nat.zero_add]

/-- Aligning appends zero bits to a byte boundary (rule R324). -/
theorem Sink.writes_align (k : Sink) (h8 : k.bw.nbits.toNat < 8) :
    Sink.Writes (List.replicate ((8 - k.bw.nbits.toNat) % 8) false) k k.align ∧ k.align.bw.nbits = 0 := by
  have zeros : ∀ n, bitsOf n 0 = List.replicate n false := fun n => by
    induction n with
    | zero => rfl
    | succ n ih => rw [bitsOf, ih]; rfl
  have e := Sink.extends_align k
  unfold Sink.align at e ⊢
  by_cases h : 0 < k.bw.nbits.toNat
  · rw [if_pos h] at e ⊢
    refine ⟨⟨e, fun ok => ⟨⟨by simp, by simp⟩, e.fits ok.fits, by rw [e.dst, e.cap]; exact ok.dst⟩, fun ok o => ?_⟩, rfl⟩
    have hb := Sink.bytes_putByte ok.dst (k.bw.acc.setWidth 8) o
    show bitsOfBytes (k.putByte (k.bw.acc.setWidth 8)).bytes ++ [] = _
    rw [hb, bitsOfBytes_append, List.append_nil, Sink.bits, List.append_assoc]
    congr 1
    show bitsOf 8 (k.bw.acc.setWidth 8).toNat ++ [] = _
    have h2 := ok.packed.2
    rw [List.append_nil, BitVec.toNat_setWidth, bitsOf_mod, Nat.mod_eq_of_lt (by omega), ← zeros,
      show 8 = k.bw.nbits.toNat + (8 - k.bw.nbits.toNat) by omega, bitsOf_add, Nat.div_eq_of_lt h2]
    congr 2
    omega
  · rw [if_neg h]
    have h0 : k.bw.nbits.toNat = 0 := by omega
    refine ⟨?_, BitVec.eq_of_toNat_eq h0⟩
    rw [h0]
    exact Sink.Writes.refl k

/-- Committing the bytes of a buffer that does not meet the destination appends them (rules R242, R326). -/
theorem Sink.writes_putBytes (base : Word) (i n : Nat) (k : Sink) (h0 : k.bw.nbits = 0)
    (ha : ∀ j, j < n → ¬ inBuffer k.bw.dst k.bw.cap.toNat (bufferAddr base (i + j))) :
    Sink.Writes (bitsOfBytes (k.mem.bytes base i n)) k (Sink.putBytes base i n k) := by
  induction n generalizing i k with
  | zero => exact Sink.Writes.refl k
  | succ n ih =>
    have e := Sink.extends_putByte k (k.mem.read (bufferAddr base i))
    have w : Sink.Writes (bitsOf 8 (k.mem.read (bufferAddr base i)).toNat) k (k.putByte (k.mem.read (bufferAddr base i))) := by
      refine ⟨e, fun ok => Sink.ok_putByte ok _, fun ok o => ?_⟩
      rw [Sink.bits, Sink.bytes_putByte ok.dst _ o, bitsOfBytes_append, Sink.bits, Sink.putByte_nbits, h0]
      simp [bitsOfBytes, bitsOf]
    have g := ih (i + 1) (k.putByte (k.mem.read (bufferAddr base i))) (by rw [Sink.putByte_nbits, h0]) fun j hj => by
      rw [e.dst, e.cap, show i + 1 + j = i + (j + 1) by omega]
      exact ha (j + 1) (by omega)
    refine ⟨w.ext.trans g.ext, fun o => g.ok (w.ok o), fun ok o => ?_⟩
    have same : (k.putByte (k.mem.read (bufferAddr base i))).mem.bytes base (i + 1) n = k.mem.bytes base (i + 1) n :=
      Memory.bytes_congr fun j hj => by
        rw [show i + 1 + j = i + (j + 1) by omega]
        exact e.frame ok.dst _ (ha (j + 1) (by omega))
    show (Sink.putBytes base (i + 1) n (k.putByte (k.mem.read (bufferAddr base i)))).bits = _
    rw [g.bits (w.ok ok) o, w.bits ok (g.ext.no_overflow o), same, List.append_assoc]
    rfl

/-! ## Symbols (rule R245) -/

/-- The lengths of an alphabet, and its codewords are the canonical ones of these lengths. -/
structure Huff.Coded (b : Huff) (x : Alphabet) (lens : List Nat) : Prop where
  eq : b.lens.lengths x = lens
  code : b.code.table x = Table.ofList 16 (codesFor lens)
  le : ∀ l ∈ lens, l ≤ 15

theorem Huff.Coded.length {b : Huff} {x : Alphabet} {lens : List Nat} (h : b.Coded x lens) : lens.length = x.slots := by
  rw [← h.eq]; exact Table.length_toList _ _

theorem getD_le_of_all {lens : List Nat} {n : Nat} (h : ∀ l ∈ lens, l ≤ n) (s : Nat) : lens.getD s 0 ≤ n := by
  rcases Nat.lt_or_ge s lens.length with hs | hs
  · rw [List.getD_eq_getElem _ _ hs]; exact h _ (List.getElem_mem hs)
  · rw [List.getD_eq_default _ _ hs]; exact Nat.zero_le _

/-- A symbol is sent as its codeword, first bit most significant (rules R96, R280, R282). -/
theorem Sink.writes_putSymbol (k : Sink) {b : Huff} {x : Alphabet} {lens : List Nat} (h : b.Coded x lens) {s : Nat} (hs : s < x.slots) :
    Sink.Writes (codewordBits lens s) k (k.putSymbol b x s) := by
  have hl := getD_le_of_all h.le s
  have el : (Table.get (b.lens.table x) s).toNat = lens.getD s 0 := by
    rw [← h.eq, Trio.lengths, Table.getD_toList, if_pos hs]
  have hlen := h.length
  have ec : (Table.get (b.code.table x) s).toNat = storedCode (lens.getD s 0) ((canonical lens).getD s 0) := by
    have hlt : storedCode (lens.getD s 0) ((canonical lens).getD s 0) < 2 ^ 16 := by
      unfold storedCode
      split
      · decide
      · exact Nat.lt_of_lt_of_le (rev_lt _ _) (Nat.pow_le_pow_right (by decide) (by omega))
    have e : (codesFor lens).getD s 0 = storedCode (lens.getD s 0) ((canonical lens).getD s 0) := by
      have h1 : s < lens.length := by omega
      have h2 : s < (canonical lens).length := by rw [length_canonical]; exact h1
      rw [codesFor, List.getD_eq_getElem _ _ (by simp; omega), List.getElem_zipWith, List.getD_eq_getElem _ _ h1,
        List.getD_eq_getElem _ _ h2]
    rw [h.code, Table.get_ofList, e, BitVec.toNat_ofNat, Nat.mod_eq_of_lt hlt]
  have hv : storedCode (lens.getD s 0) ((canonical lens).getD s 0) < 2 ^ lens.getD s 0 := by
    unfold storedCode
    split
    · exact Nat.two_pow_pos _
    · exact rev_lt _ _
  unfold Sink.putSymbol
  rw [el, ec]
  refine (Sink.writes_put k (by omega) hv).congr ?_
  unfold storedCode codewordBits
  split
  · rename_i h0; rw [h0]; rfl
  · rw [bitsOf_rev, bitsOf_mod]

theorem Huff.coded_buildCodes {b : Huff} {x : Alphabet} {lens : List Nat} (h : b.lens.lengths x = lens) (hl : ∀ l ∈ lens, l ≤ 15) :
    (b.buildCodes x).Coded x lens := by
  refine ⟨h, ?_, hl⟩
  unfold Huff.buildCodes
  rw [Trio.table_put_same, h]

theorem Huff.coded_other {b : Huff} {x y : Alphabet} {lens : List Nat} (h : b.Coded x lens) (hne : x ≠ y) :
    (b.buildCodes y).Coded x lens := by
  refine ⟨h.eq, ?_, h.le⟩
  unfold Huff.buildCodes
  rw [Trio.table_put_ne _ _ hne, h.code]

/-! ## Tokens (rules R138 to R141, R245, R273) -/

/-- The largest base not above a value is below the next base. -/
theorem largestAtMost_spec {l : List Nat} (hp : l.Pairwise (· < ·)) {v : Nat} (h0 : l.headD 0 ≤ v) (hn : l ≠ []) :
    largestAtMost l v < l.length ∧ l.getD (largestAtMost l v) 0 ≤ v
      ∧ (largestAtMost l v + 1 < l.length → v < l.getD (largestAtMost l v + 1) 0) := by
  have key : ∀ (l : List Nat), l.Pairwise (· < ·) → ∀ i, i < l.length →
      (i < (l.filter fun x => decide (x ≤ v)).length ↔ l.getD i 0 ≤ v) := by
    intro l
    induction l with
    | nil => intro _ i hi; simp at hi
    | cons a l ih =>
      intro hp i hi
      rw [List.pairwise_cons] at hp
      by_cases ha : a ≤ v
      · rw [List.filter_cons_of_pos (by simpa using ha)]
        cases i with
        | zero => simp [ha]
        | succ i => simpa using ih hp.2 i (by simpa using hi)
      · have none : l.filter (fun x => decide (x ≤ v)) = [] := List.filter_eq_nil_iff.mpr fun x hx => by
          have := hp.1 x hx
          simp only [decide_eq_true_eq]; omega
        rw [List.filter_cons_of_neg (by simpa using ha), none]
        refine ⟨fun h => by simp at h, fun h => ?_⟩
        cases i with
        | zero => simp at h; omega
        | succ i =>
          have hi' : i < l.length := by simpa using hi
          rw [List.getD_cons_succ, List.getD_eq_getElem _ _ hi'] at h
          have := hp.1 _ (List.getElem_mem hi')
          omega
  have hle := List.length_filter_le (fun x => decide (x ≤ v)) l
  have hpos : 0 < l.length := List.length_pos_iff.mpr hn
  have h1 : 0 < (l.filter fun x => decide (x ≤ v)).length := (key l hp 0 hpos).mpr (by
    cases l with
    | nil => exact absurd rfl hn
    | cons a l => simpa using h0)
  unfold largestAtMost
  refine ⟨by omega, (key l hp _ (by omega)).mp (by omega), fun h => ?_⟩
  by_contra hc
  have := (key l hp _ h).mpr (Nat.not_lt.mp hc)
  omega

theorem lenSym_spec {len : Nat} (h3 : 3 ≤ len) (h : len ≤ 258) :
    lenSym len - 257 < 29 ∧ lenBase (lenSym len - 257) ≤ len
      ∧ len - lenBase (lenSym len - 257) < 2 ^ lenExtra (lenSym len - 257) := by
  obtain ⟨a, b, c⟩ := largestAtMost_spec (l := lenBases) (by decide) (v := len) h3 (by decide)
  have e : lenSym len - 257 = largestAtMost lenBases len := by unfold lenSym; omega
  rw [e]
  have e29 : lenBases.length = 29 := rfl
  rw [e29] at a c
  refine ⟨a, b, ?_⟩
  have next : ∀ i, i < 29 → (i + 1 < 29 → lenBases.getD (i + 1) 0 ≤ lenBases.getD i 0 + 2 ^ lenExtra i)
      ∧ (¬ i + 1 < 29 → 258 < lenBases.getD i 0 + 2 ^ lenExtra i) := by decide
  obtain ⟨n1, n2⟩ := next _ a
  unfold lenBase
  by_cases hi : largestAtMost lenBases len + 1 < 29
  · have := n1 hi; have := c hi; omega
  · have := n2 hi; omega

theorem offSym_spec {off : Nat} (h1 : 1 ≤ off) (h : off ≤ 32767) :
    offSym off < 30 ∧ offBase (offSym off) ≤ off ∧ off - offBase (offSym off) < 2 ^ offExtra (offSym off) := by
  obtain ⟨a, b, c⟩ := largestAtMost_spec (l := offBases) (by decide) (v := off) h1 (by decide)
  rw [show offSym off = largestAtMost offBases off from rfl]
  have e30 : offBases.length = 30 := rfl
  rw [e30] at a c
  refine ⟨a, b, ?_⟩
  have next : ∀ i, i < 30 → (i + 1 < 30 → offBases.getD (i + 1) 0 ≤ offBases.getD i 0 + 2 ^ offExtra i)
      ∧ (¬ i + 1 < 30 → 32767 < offBases.getD i 0 + 2 ^ offExtra i) := by decide
  obtain ⟨n1, n2⟩ := next _ a
  unfold offBase
  by_cases hi : largestAtMost offBases off + 1 < 30
  · have := n1 hi; have := c hi; omega
  · have := n2 hi; omega

/-- The stream element a token is sent as (rules R138, R245). -/
def Token.elem : Token → Instr
  | .lit v => .lit v
  | .copy len off =>
    .copyMatch (BitVec.ofNat 5 (lenSym len.toNat - 257)) (BitVec.ofNat 5 (len.toNat - lenBase (lenSym len.toNat - 257)))
      (BitVec.ofNat 5 (offSym off.toNat)) (BitVec.ofNat 13 (off.toNat - offBase (offSym off.toNat)))

theorem lenExtra_le (i : Nat) : lenExtra i ≤ 5 := by
  unfold lenExtra
  exact getD_le_of_all (by decide) i

theorem offExtra_le (i : Nat) : offExtra i ≤ 13 := by
  unfold offExtra
  exact getD_le_of_all (by decide) i

/-- The fields of a match token's element are the token's symbols and extra values. -/
theorem Token.copy_fields {len : BitVec 9} {off : BitVec 15} (h : (Token.copy len off).inRange) :
    (BitVec.ofNat 5 (lenSym len.toNat - 257)).toNat = lenSym len.toNat - 257
      ∧ (BitVec.ofNat 5 (len.toNat - lenBase (lenSym len.toNat - 257))).toNat = len.toNat - lenBase (lenSym len.toNat - 257)
      ∧ (BitVec.ofNat 5 (offSym off.toNat)).toNat = offSym off.toNat
      ∧ (BitVec.ofNat 13 (off.toNat - offBase (offSym off.toNat))).toNat = off.toNat - offBase (offSym off.toNat) := by
  obtain ⟨h1, h2, h3, h4⟩ := h
  obtain ⟨a1, a2, a3⟩ := lenSym_spec h1 h2
  obtain ⟨b1, b2, b3⟩ := offSym_spec h3 h4
  have e1 := Nat.pow_le_pow_right (show 0 < 2 by decide) (lenExtra_le (lenSym len.toNat - 257))
  have e2 := Nat.pow_le_pow_right (show 0 < 2 by decide) (offExtra_le (offSym off.toNat))
  refine ⟨?_, ?_, ?_, ?_⟩ <;> rw [BitVec.toNat_ofNat, Nat.mod_eq_of_lt] <;> omega

theorem Token.elem_wellFormed {t : Token} (h : t.inRange) : t.elem.wellFormed = true ∧ t.elem.expect = .litlen := by
  cases t with
  | lit v => exact ⟨rfl, rfl⟩
  | copy len off =>
    obtain ⟨e1, e2, e3, e4⟩ := Token.copy_fields h
    obtain ⟨h1, h2, h3, h4⟩ := h
    refine ⟨?_, rfl⟩
    simp only [Token.elem, Instr.wellFormed, Bool.and_eq_true, decide_eq_true_eq, e1, e2, e3, e4]
    exact ⟨⟨⟨(lenSym_spec h1 h2).1, (lenSym_spec h1 h2).2.2⟩, (offSym_spec h3 h4).1⟩, (offSym_spec h3 h4).2.2⟩

/-- A token is sent as the bits of its element (rule R245). -/
theorem Sink.writes_emitToken (k : Sink) {b : Huff} {c : Codes} (hl : b.Coded .litlen c.litlen) (ho : b.Coded .offset c.offset)
    {t : Token} (h : t.inRange) : Sink.Writes (encode c t.elem) k (k.emitToken b t) := by
  cases t with
  | lit v => exact Sink.writes_putSymbol k hl (by have := v.isLt; simp only [Alphabet.slots]; omega)
  | copy len off =>
    obtain ⟨e1, e2, e3, e4⟩ := Token.copy_fields h
    obtain ⟨h1, h2, h3, h4⟩ := h
    obtain ⟨a1, a2, a3⟩ := lenSym_spec h1 h2
    obtain ⟨b1, b2, b3⟩ := offSym_spec h3 h4
    have s1 : 257 + (lenSym len.toNat - 257) = lenSym len.toNat := by unfold lenSym; omega
    have g1 := lenExtra_le (lenSym len.toNat - 257)
    have g2 := offExtra_le (offSym off.toNat)
    simp only [Token.elem, encode, e1, e2, e3, e4, s1]
    refine ((((Sink.writes_putSymbol k hl (by simp only [Alphabet.slots]; omega)).trans
      (Sink.writes_put _ (by omega) a3)).trans (Sink.writes_putSymbol _ ho (by simp only [Alphabet.slots]; omega))).trans
      (Sink.writes_put _ (by omega) b3)).congr ?_
    simp only [List.append_assoc]

theorem Sink.writes_foldl {α : Type} (f : Sink → α → Sink) (bits : α → List Bool) (l : List α)
    (h : ∀ a ∈ l, ∀ k, Sink.Writes (bits a) k (f k a)) (k : Sink) : Sink.Writes (l.flatMap bits) k (l.foldl f k) := by
  induction l generalizing k with
  | nil => exact Sink.Writes.refl k
  | cons a l ih => exact (h a List.mem_cons_self k).trans (ih (fun a ha => h a (List.mem_cons_of_mem _ ha)) _)

/-- The tokens of a block and its end are sent as their elements' bits (rule R245). -/
theorem Sink.writes_emitTokens (k : Sink) {b : Huff} {c : Codes} (hl : b.Coded .litlen c.litlen) (ho : b.Coded .offset c.offset)
    {toks : List Token} (h : ∀ t ∈ toks, t.inRange) :
    Sink.Writes (toks.flatMap (fun t => encode c t.elem) ++ encode c .eob) k (k.emitTokens b toks) :=
  (Sink.writes_foldl _ _ toks (fun t ht k => Sink.writes_emitToken k hl ho (h t ht)) k).trans
    (Sink.writes_putSymbol _ hl (by decide))

end Sys2Proof.Machine
end

