-- ==== Sys2Proof/Laws/Ends.lean ====
section
/-! SUPPORT. DECOMPRESS ends (rules R350, R379): a step that does not end in DONE or ERROR consumes bits,
but for the fixed table build, and the reader is bounded. -/

namespace Sys2Proof.Machine

/-- A symbol of a built table has at least one bit. -/
theorem decodeSymbol_consumes {x : Alphabet} {lens : List Nat} {t : Table 32} (hn : lens.length = x.slots)
    (h : buildTable x lens = some t) {m : Memory} {r r' : Reader} {s : Nat} (e : decodeSymbol x t m r = (r', some s)) :
    r.bitpos.toNat + 1 ≤ r'.bitpos.toNat := by
  by_cases hm : ∃ c ∈ codewordsOf lens, c.matches (r.ahead m)
  · obtain ⟨c, hc, hm⟩ := hm
    obtain ⟨h1, h2⟩ := decodeSymbol_hit hn h m r hc hm
    have hpos := (valid_of_lengthsValid hn (buildTable_eq h).1).prefixFree.pos c hc
    by_cases hb : r.bitpos.toNat + c.len ≤ 8 * r.len.toNat + 64
    · rw [h1 hb] at e
      obtain ⟨rfl, _⟩ := Prod.mk.inj e
      rw [Reader.bitpos_ofNat r.len hb]; omega
    · have := h2 hb
      rw [e] at this; cases this
  · have := decodeSymbol_miss hn h m r fun c hc hh => hm ⟨c, hc, hh⟩
    rw [e] at this; cases this

/-- What a litlen symbol can be. -/
inductive LitlenKind : Instr → Prop where
  | lit (v : Byte) : LitlenKind (.lit v)
  | eob : LitlenKind .eob
  | copy (ls lx os : BitVec 5) (ox : BitVec 13) : LitlenKind (.copyMatch ls lx os ox)
  | ll (s : BitVec 16) : LitlenKind (.llReserved s)
  | off (s : BitVec 16) : LitlenKind (.ofReserved s)

theorem readLitlen_kind {σ : Type} {src : Source σ} {st st' : σ} {i : Instr} (h : readLitlen src st = (st', .ok i)) :
    LitlenKind i := by
  unfold readLitlen at h
  split at h
  · cases h
  · split at h
    · cases h; exact .lit _
    · split at h
      · cases h; exact .eob
      · split at h
        · split at h
          · cases h
          · unfold readMatchOffset at h
            split at h
            · cases h
            · split at h
              · cases h; exact .off _
              · split at h
                · cases h
                · cases h; exact .copy _ _ _ _
        · cases h; exact .ll _

theorem blockDone_state (d : Inflate) : d.blockDone.dx.state ≠ .buildTables := by
  unfold Inflate.blockDone Inflate.finish
  split
  · split <;> exact fun e => by cases e
  · exact fun e => by cases e

theorem run_litlen_state {d : Inflate} {i : Instr} (h : LitlenKind i) (hs : d.dx.state = .decodeLoop) :
    (d.run i).dx.state ≠ .buildTables := by
  cases h with
  | lit v =>
    show (d.literal v).dx.state ≠ _
    unfold Inflate.literal
    split
    · exact fun e => by cases e
    · show d.dx.state ≠ _; rw [hs]; decide
  | eob => exact blockDone_state d
  | copy ls lx os ox =>
    show (d.replay _ _).dx.state ≠ _
    unfold Inflate.replay
    split
    · exact fun e => by cases e
    · split
      · exact fun e => by cases e
      · show d.dx.state ≠ _; rw [hs]; decide
  | ll s => exact fun e => by cases e
  | off s => exact fun e => by cases e

/-- The machine has stopped. -/
def Decomp.over (d : Decomp) : Prop := d.state = .done ∨ d.state = .error

/-- The bits a reader can still consume. -/
def Reader.rest (r : Reader) : Nat := 8 * r.len.toNat + 64 - r.bitpos.toNat

/-- The steps still to come, at most. -/
def Inflate.budget (d : Inflate) : Nat := d.br.rest + (if d.dx.state = .buildTables then 1 else 0)

theorem Inflate.budget_lt {d d' : Inflate} (hb : d.br.bitpos.toNat ≤ 8 * d.br.len.toNat + 64) {r : Reader}
    (h1 : Reader.Advances d.br r) (h2 : Reader.Advances r d'.br) {k : Nat} (hk : d.br.bitpos.toNat + k ≤ r.bitpos.toNat)
    (hc : (d'.dx.state ≠ .buildTables ∧ 1 ≤ k) ∨ 2 ≤ k) : d'.budget < d.budget := by
  have a1 := h1.bound hb
  have a2 := h2.le (by rw [h1.len]; exact a1)
  have a3 := h2.bound (by rw [h1.len]; exact a1)
  have l1 := h1.len
  have l2 := h2.len
  rw [l1] at a3
  unfold Inflate.budget Reader.rest
  rw [l2, l1]
  rcases hc with ⟨hc, hk1⟩ | hk2
  · rw [if_neg hc]; omega
  · split <;> split <;> omega

theorem Reader.get_some_pos {r r' : Reader} {m : Memory} {n v : Nat} (h : r.get m n = (r', some v)) :
    r'.bitpos.toNat = r.bitpos.toNat + n := by
  rw [Reader.get_eq] at h
  split at h
  · obtain ⟨rfl, _⟩ := Prod.mk.inj h
    exact Reader.bitpos_ofNat r.len ‹_›
  · cases (Prod.mk.inj h).2

/-! ## What a fetch consumes -/

theorem Inflate.bits_pos {d : Inflate} {r r' : Reader} {n v : Nat} (h : d.source.bits n r = (r', some v)) :
    r'.bitpos.toNat = r.bitpos.toNat + n := Reader.get_some_pos h

theorem readHeader_pos {d : Inflate} {r r' : Reader} {i : Instr} (h : readHeader d.source r = (r', .ok i)) :
    r'.bitpos.toNat = r.bitpos.toNat + 3 := by
  unfold readHeader at h
  split at h
  · cases h
  · cases h; exact Inflate.bits_pos ‹_›

theorem readDynamic_pos {d : Inflate} {r r' : Reader} {i : Instr} (h : readDynamic d.source r = (r', .ok i)) :
    r'.bitpos.toNat = r.bitpos.toNat + 14 := by
  unfold readDynamic at h
  split at h
  · cases h
  · cases h; exact Inflate.bits_pos ‹_›

theorem readStored_pos {d : Inflate} {r r' : Reader} {i : Instr} (h : readStored d.source r = (r', .ok i)) :
    r'.bitpos.toNat = r.bitpos.toNat + 32 := by
  unfold readStored at h
  split at h
  · cases h
  · rename_i h1
    have e1 := Inflate.bits_pos h1
    split at h
    · cases h
    · rename_i h2
      have e2 := Inflate.bits_pos h2
      cases h; omega

theorem readLitlen_pos {d : Inflate} {lens : List Nat} (hn : lens.length = 288)
    (hb : buildTable .litlen lens = some d.dtab.litlen) {r r' : Reader} {i : Instr}
    (hr : r.bitpos.toNat ≤ 8 * r.len.toNat + 64) (h : readLitlen d.source r = (r', .ok i)) :
    r.bitpos.toNat + 1 ≤ r'.bitpos.toNat := by
  have rest : ∀ {r1 : Reader} {s : Nat}, d.source.symbol .litlen r = (r1, some s) →
      r.bitpos.toNat + 1 ≤ r1.bitpos.toNat ∧ r1.bitpos.toNat ≤ 8 * r1.len.toNat + 64 := fun {r1 s} h1 => by
    have ha := d.source_advances.symbol_of h1
    refine ⟨decodeSymbol_consumes (x := .litlen) hn hb h1, ?_⟩
    have := ha.bound hr
    rwa [ha.len]
  unfold readLitlen at h
  split at h
  · cases h
  · rename_i h1
    obtain ⟨e1, e2⟩ := rest h1
    split at h
    · cases h; exact e1
    · split at h
      · cases h; exact e1
      · split at h
        · split at h
          · cases h
          · rename_i h2
            have a2 := d.source_advances.bits_of h2
            have a3 := d.source_advances.readMatchOffset_of h
            have b2 := a2.le e2
            have b3 := a3.le (by rw [a2.len]; exact a2.bound e2)
            exact Nat.le_trans e1 (Nat.le_trans b2 b3)
        · cases h; exact e1

/-- A step that does not stop the machine uses some of the budget (rule R379). -/
theorem Inflate.step_budget {d : Inflate} (hg : d.Good) (hb : d.br.bitpos.toNat ≤ 8 * d.br.len.toNat + 64)
    (hn : ¬ d.dx.over) : d.step.dx.over ∨ d.step.budget < d.budget := by
  have far : ∀ {r : Reader} {i : Instr} {k : Nat}, d.fetch = (r, .ok i) → d.br.bitpos.toNat + k ≤ r.bitpos.toNat →
      ((Inflate.run { d with br := r } i).dx.state ≠ .buildTables ∧ 1 ≤ k ∨ 2 ≤ k) →
      d.fetchAndRun.budget < d.budget := fun {r i k} hf hk hc => by
    have ha := d.advances_fetch
    rw [hf] at ha
    have hr := (Inflate.extends_run { d with br := r } i).reader
    unfold Inflate.fetchAndRun
    rw [hf]
    exact Inflate.budget_lt hb ha hr hk hc
  have stops : ∀ {r : Reader} {e : Reject}, d.fetch = (r, .error e) → d.fetchAndRun.dx.over := fun {r e} hf => by
    unfold Inflate.fetchAndRun
    rw [hf]; exact .inr rfl
  have go : ∀ {k : Nat}, (∀ {r : Reader} {i : Instr}, d.fetch = (r, .ok i) → d.br.bitpos.toNat + k ≤ r.bitpos.toNat
      ∧ ((Inflate.run { d with br := r } i).dx.state ≠ .buildTables ∧ 1 ≤ k ∨ 2 ≤ k)) →
      d.fetchAndRun.dx.over ∨ d.fetchAndRun.budget < d.budget := fun {k} hk => by
    cases hf : d.fetch with
    | mk r e =>
      cases e with
      | error e => exact .inl (stops hf)
      | ok i => exact .inr (far hf (hk hf).1 (hk hf).2)
  unfold Inflate.step
  split
  · rename_i hst
    refine go (k := 3) fun hf => ⟨?_, .inr (by omega)⟩
    simp only [Inflate.fetch, hst] at hf
    have := readHeader_pos hf
    omega
  · rename_i hst
    split
    · rw [Inflate.buildFixed]
      rcases Inflate.built_buildBoth { d with lens := d.lens.loadFixed } with ⟨⟨h1, _⟩ | ⟨h1, _⟩, h2⟩
      · right
        unfold Inflate.budget Reader.rest
        rw [h1, h2, hst]
        simp
      · exact .inl (.inr h1)
    · refine go (k := 14) fun hf => ⟨?_, .inr (by omega)⟩
      simp only [Inflate.fetch, hst] at hf
      have := readDynamic_pos hf
      omega
  · rename_i hst
    obtain ⟨⟨lens, hl, hbt⟩, _⟩ := hg.tables hst
    refine go (k := 1) fun {r i} hf => ?_
    simp only [Inflate.fetch, hst] at hf
    exact ⟨readLitlen_pos hl hbt hb hf, .inl ⟨run_litlen_state (d := { d with br := r }) (readLitlen_kind hf) hst, Nat.le_refl _⟩⟩
  · rename_i hst
    refine go (k := 32) fun hf => ⟨?_, .inr (by omega)⟩
    simp only [Inflate.fetch, hst] at hf
    split at hf
    · cases hf
    · rename_i ha
      have h1 := readStored_pos hf
      have h2 := (Reader.advances_align ha).le hb
      omega
  · rename_i hst; exact absurd (.inl hst) hn
  · rename_i hst; exact absurd (.inr hst) hn

/-- Enough steps stop the machine. -/
theorem Inflate.runAll_over (n : Nat) {d : Inflate} (hg : d.Good) (hb : d.br.bitpos.toNat ≤ 8 * d.br.len.toNat + 64)
    (hn : d.budget < n) : (Inflate.runAll n d).dx.over := by
  induction n generalizing d with
  | zero => omega
  | succ n ih =>
    by_cases ho : d.dx.over
    · unfold Inflate.runAll
      rcases ho with h | h <;> rw [h] <;> first | exact .inl h | exact .inr h
    · have hr : Inflate.runAll (n + 1) d = Inflate.runAll n d.step := by
        rw [Inflate.runAll]
        split
        · exact absurd (Or.inl ‹_›) ho
        · exact absurd (Or.inr ‹_›) ho
        all_goals rfl
      rw [hr]
      have hb' : d.step.br.bitpos.toNat ≤ 8 * d.step.br.len.toNat + 64 := by
        have := d.extends_step.reader
        rw [this.len]; exact this.bound hb
      rcases Inflate.step_budget hg hb ho with h | h
      · have : Inflate.runAll n d.step = d.step := by
          cases n with
          | zero => rfl
          | succ n =>
            unfold Inflate.runAll
            rcases h with h | h <;> rw [h]
        rw [this]; exact h
      · exact ih (Inflate.good_step hg) hb' (by omega)

/-- DECOMPRESS leaves its loop in DONE or ERROR (rule R379). -/
theorem State.inflate_over (s : State) : (Inflate.runAll (maxSteps s.port.a1) s.startInflate).dx.over := by
  refine Inflate.runAll_over _ s.good_startInflate ?_ ?_
  · exact Nat.zero_le _
  · show 8 * s.port.a1.toNat + 64 - 0 + 0 < 8 * s.port.a1.toNat + 65
    omega

end Sys2Proof.Machine
end

