-- ==== Sys2Proof/Laws/Fetch.lean ====
section
/-! SUPPORT. The machine reads back what the encoder writes: a reader that stands on an element's bits
fetches that element (rules R96, R143, R308). -/

namespace Sys2Proof.Machine

theorem Reader.field_of_bits {r : Reader} {m : Memory} (bs : List Bool) {i : Nat}
    (h : ∀ k, k < bs.length → r.bit m (i + k) = bs.getD k false) : r.field m i bs.length = ofBits bs := by
  induction bs generalizing i with
  | nil => rfl
  | cons b bs ih =>
    rw [List.length_cons, Reader.field, ofBits, ih fun k hk => ?_]
    · have := h 0 (by simp)
      simp only [Nat.add_zero, List.getD_cons_zero] at this
      rw [this]
    · have := h (k + 1) (by simpa using hk)
      rw [List.getD_cons_succ] at this
      rw [← this]; congr 1; omega

theorem Reader.peek_of_holds {r : Reader} {m : Memory} {bs : List Bool} (h : r.holds m bs) :
    r.peek m bs.length = ofBits bs := Reader.field_of_bits bs h

theorem Reader.past_bitpos {r : Reader} {n : Nat} (h : r.bitpos.toNat + n ≤ 8 * r.len.toNat + 64) :
    (r.past n).bitpos.toNat = r.bitpos.toNat + n := Reader.bitpos_ofNat r.len h

theorem Reader.holds_append {r : Reader} {m : Memory} {a b : List Bool} (h : r.holds m (a ++ b))
    (hb : r.bitpos.toNat + a.length ≤ 8 * r.len.toNat + 64) : r.holds m a ∧ (r.past a.length).holds m b := by
  refine ⟨fun k hk => ?_, fun k hk => ?_⟩
  · rw [h k (by simp; omega)]
    simp [List.getD, List.getElem?_append_left hk]
  · have := h (a.length + k) (by simp; omega)
    rw [Reader.past_bitpos hb, Nat.add_assoc]
    refine Eq.trans this ?_
    simp [List.getD, List.getElem?_append_right]

theorem Reader.past_past {r : Reader} {a b : Nat} (h : r.bitpos.toNat + a ≤ 8 * r.len.toNat + 64) :
    (r.past a).past b = r.past (a + b) := by
  have := Reader.past_bitpos h
  unfold Reader.past at this ⊢
  simp only [this, Nat.add_assoc]

theorem Reader.get_of_holds {r : Reader} {m : Memory} {n v : Nat} (h : r.holds m (bitsOf n v))
    (hb : r.bitpos.toNat + n ≤ 8 * r.len.toNat + 64) : r.get m n = (r.past n, some (v % 2 ^ n)) := by
  have hp := Reader.peek_of_holds h
  rw [length_bitsOf, ofBits_bitsOf] at hp
  rw [Reader.get_eq, if_pos hb, hp]; rfl

theorem length_codewordBits (lens : List Nat) (s : Nat) : (codewordBits lens s).length = lens.getD s 0 := by
  simp [codewordBits]

/-- A codeword's bits decode to its symbol (rule R308). -/
theorem decodeSymbol_of_holds {x : Alphabet} {lens : List Nat} {t : Table 32} (hn : lens.length = x.slots)
    (h : buildTable x lens = some t) {m : Memory} {r : Reader} {s : Nat} (h0 : lens.getD s 0 ≠ 0)
    (hh : r.holds m (codewordBits lens s)) (hb : r.bitpos.toNat + lens.getD s 0 ≤ 8 * r.len.toNat + 64) :
    decodeSymbol x t m r = (r.past (lens.getD s 0), some s) := by
  have hs : s < lens.length := by
    by_contra hc
    exact h0 (by simp [List.getD, Nat.not_lt.mp hc])
  have hc : (⟨s, lens.getD s 0, (canonical lens).getD s 0⟩ : Codeword) ∈ codewordsOf lens :=
    mem_codewordsOf.mpr ⟨s, hs, h0, rfl⟩
  have hp := Reader.peek_of_holds hh
  rw [length_codewordBits, codewordBits, ofBits_reverse_bitsOf] at hp
  have h15 := (valid_of_lengthsValid hn (buildTable_eq h).1).prefixFree.le _ hc
  refine (decodeSymbol_hit hn h m r hc ?_).1 hb
  rw [Codeword.matches, Reader.ahead, Reader.field_mod r m _ h15]
  exact hp

/-- What a source must answer to read a list of bits from a reader. -/
theorem Inflate.source_bits {d : Inflate} {r : Reader} {n v : Nat} (h : r.holds d.mem (bitsOf n v))
    (hb : r.bitpos.toNat + n ≤ 8 * r.len.toNat + 64) : d.source.bits n r = (r.past n, some (v % 2 ^ n)) :=
  Reader.get_of_holds h hb

/-- The tables of the decompressor are those of given code lengths. -/
structure Inflate.From (d : Inflate) (c : Codes) : Prop where
  litlen : c.litlen.length = 288
  offset : c.offset.length = 32
  builtLL : buildTable .litlen c.litlen = some d.dtab.litlen
  builtOF : buildTable .offset c.offset = some d.dtab.offset

theorem Inflate.source_litlen {d : Inflate} {c : Codes} (f : d.From c) {r : Reader} {s : Nat} (h0 : c.litlen.getD s 0 ≠ 0)
    (h : r.holds d.mem (codewordBits c.litlen s)) (hb : r.bitpos.toNat + c.litlen.getD s 0 ≤ 8 * r.len.toNat + 64) :
    d.source.symbol .litlen r = (r.past (c.litlen.getD s 0), some s) :=
  decodeSymbol_of_holds (x := .litlen) f.litlen f.builtLL h0 h hb

theorem Inflate.source_offset {d : Inflate} {c : Codes} (f : d.From c) {r : Reader} {s : Nat} (h0 : c.offset.getD s 0 ≠ 0)
    (h : r.holds d.mem (codewordBits c.offset s)) (hb : r.bitpos.toNat + c.offset.getD s 0 ≤ 8 * r.len.toNat + 64) :
    d.source.symbol .offset r = (r.past (c.offset.getD s 0), some s) :=
  decodeSymbol_of_holds (x := .offset) f.offset f.builtOF h0 h hb

theorem of_cover {c : Codes} {i : Instr} (h : c.cover i = true) {x : Alphabet} {s : Nat} (hm : (x, s) ∈ i.symbols) :
    (c.lens x).getD s 0 ≠ 0 := by
  have := List.all_eq_true.mp h (x, s) hm
  simpa using this

/-- A reader on a litlen element's bits reads that element. -/
theorem readLitlen_of_holds {d : Inflate} {c : Codes} (f : d.From c) {r : Reader} {i : Instr} (he : i.expect = .litlen)
    (hw : i.wellFormed = true) (hc : c.cover i = true) (hh : r.holds d.mem (encode c i))
    (hb : r.bitpos.toNat + (encode c i).length ≤ 8 * r.len.toNat + 64) :
    readLitlen d.source r = (r.past (encode c i).length, .ok i) := by
  have one : ∀ {s : Nat}, (Alphabet.litlen, s) ∈ i.symbols → encode c i = codewordBits c.litlen s →
      d.source.symbol .litlen r = (r.past (encode c i).length, some s) := fun {s} hm e => by
    rw [e] at hh hb ⊢
    rw [length_codewordBits] at hb ⊢
    exact Inflate.source_litlen f (of_cover hc hm) hh hb
  cases i with
  | lit value =>
    have hv : value.toNat ≤ 255 := by have := value.isLt; omega
    rw [readLitlen, one (s := value.toNat) (by simp [Instr.symbols]) rfl]
    simp only [if_pos hv, BitVec.ofNat_toNat, BitVec.setWidth_eq]
  | eob =>
    rw [readLitlen, one (s := 256) (by simp [Instr.symbols]) rfl]
    simp
  | llReserved symbol =>
    simp only [Instr.wellFormed, Bool.and_eq_true, decide_eq_true_eq] at hw
    rw [readLitlen, one (s := symbol.toNat) (by simp [Instr.symbols]) rfl]
    simp only [if_neg (show ¬ symbol.toNat ≤ 255 by omega), if_neg (show ¬ symbol.toNat = 256 by omega),
      if_neg (show ¬ symbol.toNat ≤ 285 by omega), BitVec.ofNat_toNat, BitVec.setWidth_eq]
  | copyMatch ls lx os ox =>
    simp only [Instr.wellFormed, Bool.and_eq_true, decide_eq_true_eq] at hw
    obtain ⟨⟨⟨w1, w2⟩, w3⟩, w4⟩ := hw
    have e1 : ¬ 257 + ls.toNat ≤ 255 := by omega
    have e2 : ¬ 257 + ls.toNat = 256 := by omega
    have e3 : 257 + ls.toNat ≤ 285 := by omega
    have e4 : ¬ 30 ≤ os.toNat := by omega
    have c1 := of_cover hc (show (Alphabet.litlen, 257 + ls.toNat) ∈ _ by simp [Instr.symbols])
    have c2 := of_cover hc (show (Alphabet.offset, os.toNat) ∈ _ by simp [Instr.symbols])
    simp only [encode] at hh hb ⊢
    simp only [List.length_append, length_codewordBits, length_bitsOf] at hb ⊢
    obtain ⟨h1, hh⟩ := Reader.holds_append hh (by rw [length_codewordBits]; omega)
    rw [length_codewordBits] at hh
    have p1 := Reader.past_bitpos (r := r) (n := c.litlen.getD (257 + ls.toNat) 0) (by omega)
    obtain ⟨h2, hh⟩ := Reader.holds_append hh (by rw [p1, length_bitsOf]; show _ ≤ 8 * r.len.toNat + 64; omega)
    rw [length_bitsOf] at hh
    have p2 := Reader.past_bitpos (r := r.past (c.litlen.getD (257 + ls.toNat) 0)) (n := lenExtra ls.toNat)
      (by rw [p1]; show _ ≤ 8 * r.len.toNat + 64; omega)
    obtain ⟨h3, h4⟩ := Reader.holds_append hh (by rw [p2, p1, length_codewordBits]; show _ ≤ 8 * r.len.toNat + 64; omega)
    rw [length_codewordBits] at h4
    have p3 := Reader.past_bitpos (r := (r.past (c.litlen.getD (257 + ls.toNat) 0)).past (lenExtra ls.toNat))
      (n := c.offset.getD os.toNat 0) (by rw [p2, p1]; show _ ≤ 8 * r.len.toNat + 64; omega)
    rw [readLitlen, Inflate.source_litlen f c1 h1 (by omega)]
    simp only [if_neg e1, if_neg e2, if_pos e3, Nat.add_sub_cancel_left]
    rw [Inflate.source_bits h2 (by rw [p1]; show _ ≤ 8 * r.len.toNat + 64; omega)]
    simp only [readMatchOffset]
    rw [Inflate.source_offset f c2 h3 (by rw [p2, p1]; show _ ≤ 8 * r.len.toNat + 64; omega)]
    simp only [if_neg e4]
    rw [Inflate.source_bits h4 (by rw [p3, p2, p1]; show _ ≤ 8 * r.len.toNat + 64; omega)]
    simp only [Nat.mod_eq_of_lt w2, Nat.mod_eq_of_lt w4, BitVec.ofNat_toNat, BitVec.setWidth_eq]
    rw [Reader.past_past (r := r) (a := c.litlen.getD (257 + ls.toNat) 0) (b := lenExtra ls.toNat) (by omega),
      Reader.past_past (r := r) (b := c.offset.getD os.toNat 0) (by omega),
      Reader.past_past (r := r) (b := offExtra os.toNat) (by omega)]
    simp only [Nat.add_assoc]
  | _ => cases he

theorem headerBits_eq (final : Bool) (btype : Nat) : headerBits final btype = bitsOf 3 (final.toNat + 2 * btype) := by
  cases final <;> simp [headerBits, bitsOf] <;> omega

theorem readHeader_of_holds {d : Inflate} {c : Codes} {r : Reader} {i : Instr} (he : i.expect = .header)
    (hh : r.holds d.mem (encode c i)) (hb : r.bitpos.toNat + 3 ≤ 8 * r.len.toNat + 64) :
    readHeader d.source r = (r.past 3, .ok i) := by
  have key : ∀ (final : Bool) (b : Nat), encode c i = headerBits final b →
      readHeader d.source r = (r.past 3, .ok (headerInstr ((final.toNat + 2 * b) % 2 ^ 3))) := fun final b e => by
    rw [e, headerBits_eq] at hh
    rw [readHeader, Inflate.source_bits hh hb]
  cases i with
  | blockStored final => exact (key final 0 rfl).trans (by cases final <;> rfl)
  | blockFixed final => exact (key final 1 rfl).trans (by cases final <;> rfl)
  | blockDynamic final => exact (key final 2 rfl).trans (by cases final <;> rfl)
  | blockReserved final => exact (key final 3 rfl).trans (by cases final <;> rfl)
  | _ => cases he

theorem readStored_of_holds {d : Inflate} {c : Codes} {r : Reader} {i : Instr} (he : i.expect = .stored)
    (hh : r.holds d.mem (encode c i)) (hb : r.bitpos.toNat + 32 ≤ 8 * r.len.toNat + 64) :
    readStored d.source r = (r.past 32, .ok i) := by
  cases i with
  | storedBody len nlen =>
    simp only [encode] at hh
    obtain ⟨h1, h2⟩ := Reader.holds_append hh (by rw [length_bitsOf]; omega)
    rw [length_bitsOf] at h2
    have p1 := Reader.past_bitpos (r := r) (n := 16) (by omega)
    rw [readStored, Inflate.source_bits h1 (by omega)]
    simp only []
    rw [Inflate.source_bits h2 (by rw [p1]; show _ ≤ 8 * r.len.toNat + 64; omega)]
    simp only [Nat.mod_eq_of_lt len.isLt, Nat.mod_eq_of_lt nlen.isLt, BitVec.ofNat_toNat, BitVec.setWidth_eq]
    rw [Reader.past_past (by omega)]
  | _ => cases he

theorem dynamicFields (hlit hdist : BitVec 5) (hclen : BitVec 4) :
    bitsOf 5 hlit.toNat ++ (bitsOf 5 hdist.toNat ++ bitsOf 4 hclen.toNat)
      = bitsOf 14 (hlit.toNat + 32 * hdist.toNat + 1024 * hclen.toNat) := by
  have e := bitsOf_ofBits (bitsOf 5 hlit.toNat ++ (bitsOf 5 hdist.toNat ++ bitsOf 4 hclen.toNat))
  rw [ofBits_append, ofBits_append, ofBits_bitsOf, ofBits_bitsOf, ofBits_bitsOf, Nat.mod_eq_of_lt hlit.isLt,
    Nat.mod_eq_of_lt hdist.isLt, Nat.mod_eq_of_lt hclen.isLt] at e
  simp only [List.length_append, length_bitsOf] at e
  rw [← e]
  congr 1
  ring

theorem readDynamic_of_holds {d : Inflate} {c : Codes} {r : Reader} {i : Instr} (he : i.expect = .dynamic)
    (hh : r.holds d.mem (encode c i)) (hb : r.bitpos.toNat + 14 ≤ 8 * r.len.toNat + 64) :
    readDynamic d.source r = (r.past 14, .ok i) := by
  cases i with
  | dynamicHeader hlit hdist hclen =>
    have h1 := hlit.isLt
    have h2 := hdist.isLt
    have h3 := hclen.isLt
    simp only [encode, dynamicFields] at hh
    rw [readDynamic, Inflate.source_bits hh hb, Nat.mod_eq_of_lt (by omega)]
    simp only []
    have e1 : BitVec.ofNat 5 (hlit.toNat + 32 * hdist.toNat + 1024 * hclen.toNat) = hlit := by
      apply BitVec.eq_of_toNat_eq; rw [BitVec.toNat_ofNat]; omega
    have e2 : BitVec.ofNat 5 ((hlit.toNat + 32 * hdist.toNat + 1024 * hclen.toNat) / 32) = hdist := by
      apply BitVec.eq_of_toNat_eq; rw [BitVec.toNat_ofNat]; omega
    have e3 : BitVec.ofNat 4 ((hlit.toNat + 32 * hdist.toNat + 1024 * hclen.toNat) / 1024) = hclen := by
      apply BitVec.eq_of_toNat_eq; rw [BitVec.toNat_ofNat]; omega
    rw [e1, e2, e3]
  | _ => cases he

/-- Padding to a byte boundary (rule R347). -/
theorem Reader.align_eq {r : Reader} (h : r.bitpos.toNat ≤ 8 * r.len.toNat + 64) :
    r.align = some { r with bitpos := BitVec.ofNat 64 ((r.bitpos.toNat + 7) / 8 * 8) } := by
  have e : r.bitpos.toNat + r.padding = (r.bitpos.toNat + 7) / 8 * 8 := by unfold Reader.padding; omega
  rw [Reader.align, Reader.drop_eq, e, if_pos (by omega)]

end Sys2Proof.Machine
end

