-- ==== Sys2Proof/Laws/Unpack.lean ====
section
/-! SUPPORT. What the decompressor makes of the bits of an element, a block, a stream (rules R362 to R376):
from a state that stands on them, its steps lead to the output they stand for. -/

namespace Sys2Proof.Machine

/-! ## Standing on bits -/

/-- `d` stands at bit `p` of its input with the output `out` so far, in state `q`, and nothing went wrong. -/
structure Inflate.At (d : Inflate) (p : Nat) (out : List Byte) (q : DxState) : Prop where
  fits : d.dx.outpos.toNat ≤ d.dx.cap.toNat
  dst : d.dx.dst.toNat + d.dx.cap.toNat ≤ wordSpan
  src : d.br.src.toNat + d.br.len.toNat ≤ wordSpan
  apart : disjoint d.br.src d.br.len d.dx.dst d.dx.cap = true
  pos : d.br.bitpos.toNat = p
  inside : p ≤ 8 * d.br.len.toNat
  count : d.dx.outpos.toNat = out.length
  bytes : d.mem.bytes d.dx.dst 0 out.length = out
  err : d.dx.err = .success
  seq : d.dx.seq = []
  state : d.dx.state = q

theorem Inflate.At.bound {d : Inflate} {p : Nat} {x : List Byte} {q : DxState} (h : d.At p x q) :
    d.br.bitpos.toNat ≤ 8 * d.br.len.toNat + 64 := by have := h.inside; have := h.pos; omega

/-- The input keeps its bits: steps write the output buffer only (rule R91). -/
theorem Inflate.Extends.bit {d d' : Inflate} (e : Inflate.Extends d d') (fits : d.dx.outpos.toNat ≤ d.dx.cap.toNat)
    (dst : d.dx.dst.toNat + d.dx.cap.toNat ≤ wordSpan) (src : d.br.src.toNat + d.br.len.toNat ≤ wordSpan)
    (apart : disjoint d.br.src d.br.len d.dx.dst d.dx.cap = true) (i : Nat) : d'.br.bit d'.mem i = d.br.bit d.mem i := by
  unfold Reader.bit
  rw [e.reader.len, e.reader.src]
  split
  · rename_i hi
    congr 1
    refine e.frame dst fits _ fun k _ hk he => ?_
    have h1 := congrArg BitVec.toNat he
    rw [bufferAddr_toNat (by omega), bufferAddr_toNat (by omega)] at h1
    simp only [disjoint, Bool.or_eq_true, decide_eq_true_eq] at apart
    rcases apart with ((h | h) | h) | h
    · rw [h] at hi; simp at hi
    · rw [h] at hk; simp at hk
    · omega
    · omega
  · rfl

theorem Inflate.At.rest {d d' : Inflate} {p : Nat} {x : List Byte} {q : DxState} {a b : List Bool} (h : d.At p x q)
    (e : Inflate.Extends d d') (hp : d'.br.bitpos.toNat = p + a.length) (hh : d.br.holds d.mem (a ++ b)) :
    d'.br.holds d'.mem b := fun k hk => by
  rw [hp, e.bit h.fits h.dst h.src h.apart]
  have := hh (a.length + k) (by simp; omega)
  rw [h.pos, ← Nat.add_assoc] at this
  rw [this]
  simp [List.getD, List.getElem?_append_right]

/-- Some steps lead from `d` to `d'`. -/
def Inflate.Leads (d d' : Inflate) : Prop := ∃ n, Inflate.step^[n] d = d'

theorem Inflate.Leads.refl (d : Inflate) : Inflate.Leads d d := ⟨0, rfl⟩

theorem Inflate.leads_step (d : Inflate) : Inflate.Leads d d.step := ⟨1, rfl⟩

theorem Inflate.Leads.trans {d d' d'' : Inflate} (h : Inflate.Leads d d') (g : Inflate.Leads d' d'') : Inflate.Leads d d'' := by
  obtain ⟨n, rfl⟩ := h
  obtain ⟨m, rfl⟩ := g
  exact ⟨m + n, Function.iterate_add_apply _ _ _ _⟩

theorem Inflate.Leads.extends {d d' : Inflate} (h : Inflate.Leads d d') : Inflate.Extends d d' := by
  obtain ⟨n, rfl⟩ := h
  induction n generalizing d with
  | zero => exact .refl d
  | succ n ih =>
    rw [Function.iterate_succ_apply]
    exact d.extends_step.trans ih

/-! ## Running an element -/

theorem Inflate.fetchAndRun_eq {d : Inflate} {r : Reader} {i : Instr} (h : d.fetch = (r, .ok i)) :
    d.fetchAndRun = Inflate.run { d with br := r } i := by
  unfold Inflate.fetchAndRun
  rw [h]

/-- A state after its reader moved and its state, block type and final mark changed stands further on. -/
theorem Inflate.At.moved {d d' : Inflate} {p n : Nat} {x : List Byte} {q q' : DxState} (h : d.At p x q) (hr : d'.br = d.br.past n)
    (hn : p + n ≤ 8 * d.br.len.toNat) (hm : d'.mem = d.mem) (hd : d'.dx.dst = d.dx.dst) (hc : d'.dx.cap = d.dx.cap)
    (ho : d'.dx.outpos = d.dx.outpos) (he : d'.dx.err = .success) (hs : d'.dx.seq = []) (hq : d'.dx.state = q') :
    d'.At (p + n) x q' := by
  have hp : (d.br.past n).bitpos.toNat = p + n := by rw [Reader.past_bitpos (by rw [h.pos]; omega), h.pos]
  refine ⟨?_, ?_, ?_, ?_, ?_, ?_, ?_, ?_, he, hs, hq⟩
  · rw [ho, hc]; exact h.fits
  · rw [hd, hc]; exact h.dst
  · rw [hr]; exact h.src
  · rw [hr, hd, hc]; exact h.apart
  · rw [hr, hp]
  · rw [hr]; exact hn
  · rw [ho]; exact h.count
  · rw [hm, hd]; exact h.bytes

/-- A block header (rules R131, R364). -/
theorem Inflate.step_header {d : Inflate} {p : Nat} {x : List Byte} (h : d.At p x .blockHeader) {i : Instr}
    (he : i.expect = .header) (hh : d.br.holds d.mem (encode Codes.fixed i)) :
    d.step = Inflate.run { d with br := d.br.past 3 } i := by
  have hf : d.fetch = (d.br.past 3, .ok i) := by
    unfold Inflate.fetch
    rw [h.state]
    exact readHeader_of_holds he hh (by have := h.inside; rw [h.pos]; omega)
  unfold Inflate.step
  rw [h.state]
  exact Inflate.fetchAndRun_eq hf

/-- The end of a block (rules R372, R376). -/
def afterBlockState (final : Bool) : DxState := if final then .done else .blockHeader

theorem Inflate.blockDone_eq {d : Inflate} (h : d.br.bitpos.toNat ≤ 8 * d.br.len.toNat) :
    d.blockDone = d.goto (afterBlockState d.dx.bfinal) := by
  unfold Inflate.blockDone Inflate.finish afterBlockState
  split
  · rw [if_neg (by omega)]
  · rfl

/-- The end-of-block symbol. -/
theorem Inflate.step_eob {d : Inflate} {c : Codes} {p : Nat} {x : List Byte} (h : d.At p x .decodeLoop) (f : d.From c)
    (hc : c.cover .eob = true) (hh : d.br.holds d.mem (encode c .eob)) (hb : p + (encode c .eob).length ≤ 8 * d.br.len.toNat) :
    d.step.At (p + (encode c .eob).length) x (afterBlockState d.dx.bfinal) := by
  have hf : d.fetch = (d.br.past (encode c .eob).length, .ok .eob) := by
    unfold Inflate.fetch
    rw [h.state]
    exact readLitlen_of_holds f rfl rfl hc hh (by rw [h.pos]; omega)
  have hs : d.step = Inflate.blockDone { d with br := d.br.past (encode c .eob).length } := by
    unfold Inflate.step
    rw [h.state]
    exact Inflate.fetchAndRun_eq hf
  have hp : (d.br.past (encode c .eob).length).bitpos.toNat = p + (encode c .eob).length := by
    rw [Reader.past_bitpos (by rw [h.pos]; omega), h.pos]
  rw [hs, Inflate.blockDone_eq (by show (d.br.past _).bitpos.toNat ≤ _; rw [hp]; exact hb)]
  exact h.moved rfl hb rfl rfl rfl rfl h.err h.seq rfl

/-- The bytes a self-overlapping copy leaves repeat the bytes before it (rule R104). -/
theorem Memory.copyForward_repeats {dst : Word} {n off len : Nat} {m : Memory} (hd : dst.toNat + (n + len) ≤ wordSpan)
    (h1 : 1 ≤ off) (ho : off ≤ n) {k : Nat} (hk : k < len) :
    (Memory.copyForward dst dst (n - off) n len m).read (bufferAddr dst (n + k)) = m.read (bufferAddr dst (n - off + k % off)) := by
  induction k using Nat.strongRecOn with
  | ind k ih =>
    rw [Memory.copyForward_self hd (by omega) hk]
    rcases Nat.lt_or_ge k off with hlt | hge
    · rw [Memory.copyForward_frame fun j hj => by rw [ne_eq, bufferAddr_inj (by omega) (by omega)]; omega, Nat.mod_eq_of_lt hlt]
    · rw [show n - off + k = n + (k - off) by omega, ih (k - off) (by omega) (by omega), ← Nat.mod_eq_sub_mod hge]

/-- A token's element makes the output what the token stands for (rules R371, R373). -/
theorem Inflate.step_token {d : Inflate} {c : Codes} {p : Nat} {x y : List Byte} {t : Token} (h : d.At p x .decodeLoop) (f : d.From c)
    (ht : t.inRange) (hc : c.cover t.elem = true) (hh : d.br.holds d.mem (encode c t.elem))
    (hb : p + (encode c t.elem).length ≤ 8 * d.br.len.toNat) (hy : expandTokens x [t] = some y) (hcap : y.length ≤ d.dx.cap.toNat) :
    d.step.At (p + (encode c t.elem).length) y .decodeLoop ∧ d.step.From c ∧ d.step.dx.bfinal = d.dx.bfinal := by
  obtain ⟨hw, hx⟩ := Token.elem_wellFormed ht
  have hf : d.fetch = (d.br.past (encode c t.elem).length, .ok t.elem) := by
    unfold Inflate.fetch
    rw [h.state]
    exact readLitlen_of_holds f hx hw hc hh (by rw [h.pos]; omega)
  have hs : d.step = Inflate.run { d with br := d.br.past (encode c t.elem).length } t.elem := by
    unfold Inflate.step
    rw [h.state]
    exact Inflate.fetchAndRun_eq hf
  have hp : (d.br.past (encode c t.elem).length).bitpos.toNat = p + (encode c t.elem).length := by
    rw [Reader.past_bitpos (by rw [h.pos]; omega), h.pos]
  have hcount := h.count
  have hdst := h.dst
  have grown : ∀ (mem : Memory) (n : Nat) (z : List Byte), d.dx.outpos.toNat + n ≤ d.dx.cap.toNat → y.length = x.length + n →
      mem.bytes d.dx.dst 0 (x.length + n) = y →
      d.step = { d with br := d.br.past (encode c t.elem).length, mem := mem, dx := { d.dx with outpos := d.dx.outpos + BitVec.ofNat 32 n } } →
      d.step.At (p + (encode c t.elem).length) y .decodeLoop ∧ d.step.From c ∧ d.step.dx.bfinal = d.dx.bfinal := by
    intro mem n _ hn hl hbytes e
    rw [e]
    refine ⟨⟨?_, h.dst, h.src, h.apart, hp, hb, ?_, ?_, h.err, h.seq, h.state⟩, ⟨f.litlen, f.offset, f.builtLL, f.builtOF⟩, rfl⟩
    · show (d.dx.outpos + BitVec.ofNat 32 n).toNat ≤ _
      rw [outpos_add hn]; exact hn
    · show (d.dx.outpos + BitVec.ofNat 32 n).toNat = _
      rw [outpos_add hn, hl, hcount]
    · show mem.bytes d.dx.dst 0 y.length = y
      rw [hl]; exact hbytes
  cases t with
  | lit v =>
    simp only [expandTokens, Option.some.injEq] at hy
    subst hy
    simp only [List.length_append, List.length_singleton] at hcap
    refine grown (d.mem.write (bufferAddr d.dx.dst d.dx.outpos.toNat) v) 1 [] (by omega) (by simp) ?_ ?_
    · rw [Memory.bytes_add]
      congr 1
      · refine Eq.trans (Memory.bytes_congr fun k hk => Memory.read_write_ne _ _ ?_) h.bytes
        rw [Nat.zero_add, ne_eq, bufferAddr_inj (by omega) (by omega)]
        omega
      · simp [Memory.bytes, hcount]
    · rw [hs]
      show Inflate.literal _ v = _
      unfold Inflate.literal
      rw [if_neg fun e => by
        have := congrArg BitVec.toNat (show d.dx.outpos = d.dx.cap from e); omega]
      rfl
  | copy len off =>
    obtain ⟨e1, e2, e3, e4⟩ := Token.copy_fields ht
    obtain ⟨h1, h2, h3, h4⟩ := ht
    obtain ⟨a1, a2, a3⟩ := lenSym_spec h1 h2
    obtain ⟨b1, b2, b3⟩ := offSym_spec h3 h4
    simp only [expandTokens] at hy
    split at hy
    · cases hy
    · rename_i hoff
      simp only [Option.some.injEq] at hy
      subst hy
      simp only [List.length_append, List.length_map, List.length_range] at hcap
      have mlen : matchLength (BitVec.ofNat 5 (lenSym len.toNat - 257)) (BitVec.ofNat 5 (len.toNat - lenBase (lenSym len.toNat - 257))) = len.toNat := by
        rw [matchLength, e1, e2]; omega
      have moff : matchOffset (BitVec.ofNat 5 (offSym off.toNat)) (BitVec.ofNat 13 (off.toNat - offBase (offSym off.toNat))) = off.toNat := by
        rw [matchOffset, e3, e4]; omega
      refine grown (Memory.copyForward d.dx.dst d.dx.dst (d.dx.outpos.toNat - off.toNat) d.dx.outpos.toNat len.toNat d.mem)
        len.toNat [] (by omega) (by simp) ?_ ?_
      · rw [Memory.bytes_add, hcount]
        refine congrArg₂ (· ++ ·) ?_ ?_
        · refine Eq.trans (Memory.bytes_congr fun k hk => Memory.copyForward_frame fun j hj => ?_) h.bytes
          rw [Nat.zero_add, ne_eq, bufferAddr_inj (by omega) (by omega)]
          omega
        · apply List.ext_getElem
          · simp [Memory.length_bytes]
          · intro k hk _
            rw [Memory.length_bytes] at hk
            have e := Memory.getD_bytes (Memory.copyForward d.dx.dst d.dx.dst (x.length - off.toNat) x.length len.toNat d.mem)
              d.dx.dst (0 + x.length) len.toNat k hk
            rw [List.getD_eq_getElem _ _ (by rw [Memory.length_bytes]; exact hk)] at e
            have hm : k % off.toNat < off.toNat := Nat.mod_lt _ (by omega)
            rw [e, Nat.zero_add, Memory.copyForward_repeats (by omega) h3 (by omega) hk, List.getElem_map, List.getElem_range]
            have g := Memory.getD_bytes d.mem d.dx.dst 0 x.length (x.length - off.toNat + k % off.toNat) (by omega)
            rw [h.bytes, Nat.zero_add] at g
            exact g.symm
      · rw [hs]
        show Inflate.replay _ _ _ = _
        unfold Inflate.replay
        rw [mlen, moff, if_neg (by show ¬ d.dx.outpos.toNat < _; omega), if_neg (by show ¬ d.dx.cap.toNat - d.dx.outpos.toNat < _; omega)]

/-- The tokens of a block (rules R370 to R374). -/
theorem Inflate.leads_tokens {c : Codes} (toks : List Token) {d : Inflate} {p : Nat} {x y : List Byte} (h : d.At p x .decodeLoop)
    (f : d.From c) (ht : ∀ t ∈ toks, t.inRange) (hc : ∀ t ∈ toks, c.cover t.elem = true)
    (hh : d.br.holds d.mem (toks.flatMap fun t => encode c t.elem))
    (hb : p + (toks.flatMap fun t => encode c t.elem).length ≤ 8 * d.br.len.toNat) (hy : expandTokens x toks = some y)
    (hcap : y.length ≤ d.dx.cap.toNat) :
    ∃ d', Inflate.Leads d d' ∧ d'.At (p + (toks.flatMap fun t => encode c t.elem).length) y .decodeLoop ∧ d'.From c
      ∧ d'.dx.bfinal = d.dx.bfinal := by
  have grows : ∀ (ts : List Token) (a b : List Byte), expandTokens a ts = some b → a.length ≤ b.length := by
    intro ts
    induction ts with
    | nil => intro a b h; simp only [expandTokens, Option.some.injEq] at h; rw [h]
    | cons t ts ih =>
      intro a b h
      cases t with
      | lit v =>
        have := ih _ _ h
        simp only [List.length_append] at this; omega
      | copy len off =>
        simp only [expandTokens] at h
        split at h
        · cases h
        · have := ih _ _ h
          simp only [List.length_append] at this; omega
  induction toks generalizing d p x with
  | nil =>
    simp only [expandTokens, Option.some.injEq] at hy
    subst hy
    exact ⟨d, .refl d, h, f, rfl⟩
  | cons t toks ih =>
    have e := expandTokens_append x [t] toks
    rw [List.singleton_append, hy] at e
    match hz : expandTokens x [t] with
    | none => rw [hz] at e; cases e
    | some z =>
      rw [hz, Option.bind_some] at e
      simp only [List.flatMap_cons, List.length_append] at hb hh ⊢
      have zy := grows toks z y e.symm
      obtain ⟨h1, _⟩ := Reader.holds_append hh (by rw [h.pos]; omega)
      obtain ⟨a, f', b⟩ := Inflate.step_token h f (ht t List.mem_cons_self) (hc t List.mem_cons_self) h1 (by omega) hz (by omega)
      have ex := d.extends_step
      obtain ⟨d', l, a', f'', b'⟩ := ih a f' (fun t ht' => ht t (List.mem_cons_of_mem _ ht'))
        (fun t ht' => hc t (List.mem_cons_of_mem _ ht')) (h.rest ex a.pos hh) (by rw [ex.reader.len]; omega) e.symm
        (by rw [ex.cap]; exact hcap)
      exact ⟨d', d.leads_step.trans l, by rw [← Nat.add_assoc]; exact a', f'', b'.trans b⟩

/-! ## Blocks -/

/-- From bit `p`, with the output `x`, the bits of a block lead to the output `y` and to what follows the block. -/
def Decodes (p : Nat) (bs : List Bool) (x y : List Byte) (final : Bool) : Prop :=
  ∀ d : Inflate, d.At p x .blockHeader → d.br.holds d.mem bs → p + bs.length ≤ 8 * d.br.len.toNat → y.length ≤ d.dx.cap.toNat →
    ∃ d', Inflate.Leads d d' ∧ d'.At (p + bs.length) y (afterBlockState final)

/-- A block that is not the last, and what the bits after it lead to. -/
theorem Decodes.append {p : Nat} {a b : List Bool} {x y z : List Byte} {final : Bool} (h : Decodes p a x y false)
    (g : Decodes (p + a.length) b y z final) (hyz : y.length ≤ z.length) : Decodes p (a ++ b) x z final := by
  intro d hd hh hb hc
  rw [List.length_append] at hb ⊢
  obtain ⟨h1, _⟩ := Reader.holds_append hh (by rw [hd.pos]; omega)
  obtain ⟨d1, l1, a1⟩ := h d hd h1 (by omega) (by omega)
  have e := l1.extends
  obtain ⟨d2, l2, a2⟩ := g d1 a1 (hd.rest e a1.pos hh) (by rw [e.reader.len]; omega) (by rw [e.cap]; exact hc)
  exact ⟨d2, l1.trans l2, by rw [← Nat.add_assoc]; exact a2⟩

/-- The tokens of a block and its end. -/
theorem Inflate.leads_body {c : Codes} {toks : List Token} {d : Inflate} {p : Nat} {x y : List Byte} (h : d.At p x .decodeLoop)
    (f : d.From c) (ht : ∀ t ∈ toks, t.inRange) (hc : ∀ t ∈ toks, c.cover t.elem = true) (he : c.cover .eob = true)
    (hh : d.br.holds d.mem ((toks.flatMap fun t => encode c t.elem) ++ encode c .eob))
    (hb : p + ((toks.flatMap fun t => encode c t.elem) ++ encode c .eob).length ≤ 8 * d.br.len.toNat)
    (hy : expandTokens x toks = some y) (hcap : y.length ≤ d.dx.cap.toNat) :
    ∃ d', Inflate.Leads d d'
      ∧ d'.At (p + ((toks.flatMap fun t => encode c t.elem) ++ encode c .eob).length) y (afterBlockState d.dx.bfinal) := by
  rw [List.length_append] at hb ⊢
  obtain ⟨h1, _⟩ := Reader.holds_append hh (by rw [h.pos]; omega)
  obtain ⟨d1, l1, a1, f1, b1⟩ := Inflate.leads_tokens toks h f ht hc h1 (by omega) hy hcap
  have e := l1.extends
  have a2 := Inflate.step_eob a1 f1 he (h.rest e a1.pos hh) (by rw [e.reader.len]; omega)
  exact ⟨d1.step, l1.trans d1.leads_step, by rw [← Nat.add_assoc, ← b1]; exact a2⟩

theorem buildTable_some {x : Alphabet} {lens : List Nat} (h : lengthsValid x.maxLen lens = true) : ∃ t, buildTable x lens = some t := by
  unfold buildTable
  rw [if_pos h]
  exact ⟨_, rfl⟩

/-- A complete code within the limit is accepted (rules R277, R302, R309). -/
theorem lengthsValid_of_complete {x : Alphabet} {lens : List Nat} (h1 : ∀ l ∈ lens, l ≤ x.maxLen)
    (h2 : kraft x.maxLen lens = 2 ^ x.maxLen) : lengthsValid x.maxLen lens = true := by
  simp only [lengthsValid, Bool.and_eq_true, Bool.or_eq_true, decide_eq_true_eq, List.all_eq_true]
  exact ⟨⟨h1, Nat.le_of_eq h2⟩, .inl (.inl h2)⟩

theorem Inflate.buildBoth_eq {d : Inflate} {a b : Table 32} (h1 : buildTable .litlen (d.lens.lengths .litlen) = some a)
    (h2 : buildTable .offset (d.lens.lengths .offset) = some b) :
    d.buildBoth = { d with dtab := ⟨a, b, d.dtab.precode⟩, dx := { d.dx with state := .decodeLoop } } := by
  unfold Inflate.buildBoth Inflate.build
  rw [h1]
  simp only []
  rw [h2]
  rfl

/-- A list of lengths read back from the table that holds it. -/
theorem Table.toList_ofList {w n : Nat} {l : List Nat} (hn : l.length = n) (hl : ∀ v ∈ l, v < 2 ^ w) :
    Table.toList (Table.ofList w l) n = l := by
  apply List.ext_getElem
  · rw [Table.length_toList, hn]
  · intro i h1 h2
    have e := Table.getD_toList (Table.ofList w l) n i
    rw [List.getD_eq_getElem _ _ h1, if_pos (by omega), Table.get_ofList, BitVec.toNat_ofNat, List.getD_eq_getElem _ _ h2,
      Nat.mod_eq_of_lt (hl _ (List.getElem_mem h2))] at e
    exact e

theorem fixed_lengths (t : Trio 4) : t.loadFixed.lengths .litlen = fixedLitlenLens ∧ t.loadFixed.lengths .offset = fixedOffsetLens :=
  ⟨Table.toList_ofList length_fixedLitlenLens (by decide +kernel), Table.toList_ofList length_fixedOffsetLens (by decide +kernel)⟩

theorem fixed_built : (∃ a, buildTable .litlen fixedLitlenLens = some a) ∧ ∃ b, buildTable .offset fixedOffsetLens = some b :=
  ⟨buildTable_some (by decide +kernel), buildTable_some (by decide +kernel)⟩

theorem fixed_cover : (∀ s, s < 288 → fixedLitlenLens.getD s 0 ≠ 0) ∧ ∀ s, s < 32 → fixedOffsetLens.getD s 0 ≠ 0 := by
  have key : ∀ (l : List Nat), (∀ v ∈ l, v ≠ 0) → ∀ s, s < l.length → l.getD s 0 ≠ 0 := fun l h s hs => by
    rw [List.getD_eq_getElem _ _ hs]
    exact h _ (List.getElem_mem hs)
  rw [← length_fixedLitlenLens, ← length_fixedOffsetLens]
  exact ⟨key _ (by decide +kernel), key _ (by decide +kernel)⟩

/-- A code with a codeword for each symbol of a token covers its element. -/
theorem cover_elem {c : Codes} {t : Token} (h : t.inRange) (h1 : c.litlen.getD t.litlen 0 ≠ 0)
    (h2 : ∀ s ∈ t.offset, c.offset.getD s 0 ≠ 0) : c.cover t.elem = true := by
  unfold Codes.cover
  rw [List.all_eq_true]
  intro q hq
  rw [decide_eq_true_eq]
  cases t with
  | lit v => rw [List.mem_singleton.mp hq]; exact h1
  | copy len off =>
    obtain ⟨e1, e2, e3, e4⟩ := Token.copy_fields h
    have s1 : 257 + (lenSym len.toNat - 257) = lenSym len.toNat := by unfold lenSym; omega
    simp only [Token.elem, Instr.symbols, List.mem_cons, List.not_mem_nil, or_false, e1, e3, s1] at hq
    rcases hq with rfl | rfl
    · exact h1
    · exact h2 _ List.mem_cons_self

/-- A block header's step (rules R131, R364). -/
theorem Inflate.leads_header {d : Inflate} {p : Nat} {x : List Byte} (h : d.At p x .blockHeader) (final : Bool) (btype : Nat)
    {i : Instr} {q : DxState} {rest : List Bool} (he : i.expect = .header) (hi : encode Codes.fixed i = headerBits final btype)
    (hr : ∀ d : Inflate, d.run i = (d.header final btype).goto q) (hh : d.br.holds d.mem (headerBits final btype ++ rest))
    (hb : p + 3 ≤ 8 * d.br.len.toNat) :
    d.step.At (p + 3) x q ∧ d.step.br.holds d.step.mem rest ∧ d.step.dx.bfinal = final ∧ d.step.dx.btype = BitVec.ofNat 2 btype := by
  have e3 : (headerBits final btype).length = 3 := rfl
  obtain ⟨h1, _⟩ := Reader.holds_append hh (by rw [h.pos, e3]; omega)
  have s1 : d.step = _ := Inflate.step_header h he (by rw [hi]; exact h1)
  rw [hr] at s1
  have a1 : d.step.At (p + 3) x q := by
    rw [s1]
    exact h.moved rfl hb rfl rfl rfl rfl h.err h.seq rfl
  exact ⟨a1, h.rest d.extends_step (by rw [a1.pos, e3]) hh, by rw [s1]; rfl, by rw [s1]; rfl⟩

/-- The table build of a fixed block (rules R140, R365). -/
theorem Inflate.step_buildFixed {d : Inflate} {p : Nat} {x : List Byte} (h : d.At p x .buildTables) (hb : d.dx.btype = 1) :
    d.step.At p x .decodeLoop ∧ d.step.From Codes.fixed ∧ d.step.dx.bfinal = d.dx.bfinal := by
  obtain ⟨⟨a, ha⟩, b, hb'⟩ := fixed_built
  obtain ⟨l1, l2⟩ := fixed_lengths d.lens
  have e : d.step = d.buildFixed := by
    unfold Inflate.step
    rw [h.state]
    exact if_pos hb
  rw [e, Inflate.buildFixed, Inflate.buildBoth_eq (d := { d with lens := d.lens.loadFixed }) (by rw [l1]; exact ha) (by rw [l2]; exact hb')]
  exact ⟨⟨h.fits, h.dst, h.src, h.apart, h.pos, h.inside, h.count, h.bytes, h.err, h.seq, rfl⟩,
    ⟨length_fixedLitlenLens, length_fixedOffsetLens, ha, hb'⟩, rfl⟩

/-- A block with the fixed codes (rules R140, R243, R365). -/
theorem decodes_fixed (p : Nat) {toks : List Token} {x y : List Byte} (final : Bool) (ht : ∀ t ∈ toks, t.inRange)
    (hy : expandTokens x toks = some y) :
    Decodes p (headerBits final 1 ++ ((toks.flatMap fun t => encode Codes.fixed t.elem) ++ encode Codes.fixed .eob)) x y final := by
  intro d hd hh hb hc
  rw [List.length_append, show (headerBits final 1).length = 3 from rfl] at hb ⊢
  obtain ⟨a1, hh1, f1, f2⟩ := Inflate.leads_header hd final 1 (i := .blockFixed final) rfl rfl (fun _ => rfl) hh (by omega)
  obtain ⟨a2, g1, g2⟩ := Inflate.step_buildFixed a1 f2
  have e1 := d.extends_step
  have e2 := d.step.extends_step
  obtain ⟨d', l, a⟩ := Inflate.leads_body a2 g1 ht
    (fun t h => cover_elem (ht t h) (fixed_cover.1 _ (by have := t.litlen_lt; omega)) fun s hs =>
      fixed_cover.2 s (by have := Token.offset_lt hs; omega))
    (by unfold Codes.cover; simpa [Instr.symbols, Codes.lens, Codes.fixed] using fixed_cover.1 256 (by decide)) (Inflate.At.rest (a := []) a1 e2 (by rw [a2.pos]; rfl) hh1)
    (by rw [e2.reader.len, e1.reader.len]; omega) hy (by rw [e2.cap, e1.cap]; exact hc)
  rw [g2, f1] at a
  exact ⟨d', (d.leads_step.trans d.step.leads_step).trans l, by rw [← Nat.add_assoc]; exact a⟩

theorem getD_bitsOfBytes (bs : List Byte) (k j : Nat) (hk : k < bs.length) (hj : j < 8) :
    (bitsOfBytes bs).getD (8 * k + j) false = (bs.getD k 0).getLsbD j := by
  have bit : ∀ (n v k : Nat), k < n → (bitsOf n v).getD k false = v.testBit k := by
    intro n
    induction n with
    | zero => intro v k h; omega
    | succ n ih =>
      intro v k h
      cases k with
      | zero => simp [bitsOf, Nat.testBit_zero]
      | succ k => rw [bitsOf, List.getD_cons_succ, ih _ _ (by omega), Nat.testBit_succ]
  induction bs generalizing k with
  | nil => simp at hk
  | cons b bs ih =>
    have e : bitsOfBytes (b :: bs) = bitsOf 8 b.toNat ++ bitsOfBytes bs := rfl
    rw [e]
    cases k with
    | zero =>
      rw [List.getD_append _ _ _ _ (by rw [length_bitsOf]; omega), show 8 * 0 + j = j by omega, bit _ _ _ hj]
      rfl
    | succ k =>
      rw [List.getD_append_right _ _ _ _ (by rw [length_bitsOf]; omega), length_bitsOf,
        show 8 * (k + 1) + j - 8 = 8 * k + j by omega, ih k (by simpa using hk)]
      rfl

/-- Bytes of the input whose bits come next, from a byte boundary on. -/
theorem Reader.bytes_of_holds {r : Reader} {m : Memory} {data : List Byte} (h : r.holds m (bitsOfBytes data))
    (h8 : r.bitpos.toNat % 8 = 0) (hb : r.bitpos.toNat + 8 * data.length ≤ 8 * r.len.toNat) {k : Nat} (hk : k < data.length) :
    m.read (bufferAddr r.src (r.bitpos.toNat / 8 + k)) = data.getD k 0 := by
  apply BitVec.eq_of_getLsbD_eq
  intro j hj
  have e := h (8 * k + j) (by rw [length_bitsOfBytes]; omega)
  rw [getD_bitsOfBytes _ _ _ hk hj] at e
  rw [← e]
  unfold Reader.bit
  rw [if_pos (by omega), show (r.bitpos.toNat + (8 * k + j)) / 8 = r.bitpos.toNat / 8 + k by omega,
    show (r.bitpos.toNat + (8 * k + j)) % 8 = j by omega]

/-- The body of a stored block: padding, LEN and NLEN, the bytes (rules R132, R375). -/
theorem Inflate.step_stored {d : Inflate} {p : Nat} {x data : List Byte} (h : d.At p x .copyStored) (hn : data.length ≤ 65535)
    (hh : d.br.holds d.mem (List.replicate ((8 - p % 8) % 8) false
      ++ (bitsOf 16 data.length ++ bitsOf 16 (data.length ^^^ 0xFFFF) ++ bitsOfBytes data)))
    (hb : p + ((8 - p % 8) % 8 + (32 + 8 * data.length)) ≤ 8 * d.br.len.toNat) (hc : x.length + data.length ≤ d.dx.cap.toNat) :
    d.step.At (p + ((8 - p % 8) % 8 + (32 + 8 * data.length))) (x ++ data) (afterBlockState d.dx.bfinal) := by
  have hx : data.length ^^^ 0xFFFF < 65536 := Nat.xor_lt_two_pow (n := 16) (by omega) (by decide)
  have hal : d.br.align = some (d.br.past ((8 - p % 8) % 8)) := by
    rw [Reader.align_eq h.bound, Reader.past, h.pos]
    congr 3
    omega
  obtain ⟨-, hh2⟩ := Reader.holds_append hh (by rw [h.pos, List.length_replicate]; omega)
  rw [List.length_replicate] at hh2
  have p2 : (d.br.past ((8 - p % 8) % 8)).bitpos.toNat = p + (8 - p % 8) % 8 := by
    rw [Reader.past_bitpos (by rw [h.pos]; omega), h.pos]
  have er : encode Codes.fixed (.storedBody (BitVec.ofNat 16 data.length) (BitVec.ofNat 16 (data.length ^^^ 0xFFFF)))
      = bitsOf 16 data.length ++ bitsOf 16 (data.length ^^^ 0xFFFF) := by
    simp only [encode, BitVec.toNat_ofNat, bitsOf_mod]
  rw [← er] at hh2
  have el : (encode Codes.fixed (.storedBody (BitVec.ofNat 16 data.length) (BitVec.ofNat 16 (data.length ^^^ 0xFFFF)))).length = 32 := by
    rw [er]; simp
  obtain ⟨h2, h3⟩ := Reader.holds_append hh2 (by rw [p2, el]; show _ ≤ 8 * d.br.len.toNat + 64; omega)
  rw [el] at h3
  have hf : d.fetch = ((d.br.past ((8 - p % 8) % 8)).past 32,
      .ok (.storedBody (BitVec.ofNat 16 data.length) (BitVec.ofNat 16 (data.length ^^^ 0xFFFF)))) := by
    unfold Inflate.fetch
    rw [h.state, hal]
    exact readStored_of_holds rfl h2 (by rw [p2]; show _ ≤ 8 * d.br.len.toNat + 64; omega)
  have p3 : ((d.br.past ((8 - p % 8) % 8)).past 32).bitpos.toNat = p + (8 - p % 8) % 8 + 32 := by
    rw [Reader.past_bitpos (by rw [p2]; show _ ≤ 8 * d.br.len.toNat + 64; omega), p2]
  have s2 : d.step = Inflate.storedBody { d with br := (d.br.past ((8 - p % 8) % 8)).past 32 }
      (BitVec.ofNat 16 data.length) (BitVec.ofNat 16 (data.length ^^^ 0xFFFF)) := by
    unfold Inflate.step
    rw [h.state]
    exact Inflate.fetchAndRun_eq hf
  have hlen : (BitVec.ofNat 16 data.length).toNat = data.length := by rw [BitVec.toNat_ofNat]; omega
  have hsrc : ((d.br.past ((8 - p % 8) % 8)).past 32).src = d.br.src := rfl
  have hrl : ((d.br.past ((8 - p % 8) % 8)).past 32).len = d.br.len := rfl
  generalize (d.br.past ((8 - p % 8) % 8)).past 32 = r at *
  have hcount := h.count
  have hdst := h.dst
  have hsrcb := h.src
  have hbp : ∀ k, k < data.length → d.mem.read (bufferAddr r.src (r.bitpos.toNat / 8 + k)) = data.getD k 0 := fun k hk =>
    Reader.bytes_of_holds h3 (by rw [p3]; omega) (by rw [p3, hrl]; omega) hk
  have padv : (r.advanceBytes data.length).bitpos.toNat = p + ((8 - p % 8) % 8 + (32 + 8 * data.length)) := by
    rw [Reader.advanceBytes]
    show (BitVec.ofNat 64 (r.bitpos.toNat + 8 * data.length)).toNat = _
    rw [Reader.bitpos_ofNat d.br.len (by rw [p3]; omega), p3]
    omega
  have copied : ∀ k, k < data.length →
      (Memory.copyForward r.src d.dx.dst r.start d.dx.outpos.toNat data.length d.mem).read (bufferAddr d.dx.dst (d.dx.outpos.toNat + k))
        = data.getD k 0 := fun k hk => by
    rw [Memory.copyForward_disjoint (by omega) (fun a b ha hb' e => ?_) hk]
    · exact hbp k hk
    · have h1 := congrArg BitVec.toNat e
      have hst : r.start = (p + (8 - p % 8) % 8 + 32) / 8 := by rw [Reader.start, p3]
      rw [hsrc, bufferAddr_toNat (by omega), bufferAddr_toNat (by omega)] at h1
      have apart := h.apart
      simp only [disjoint, Bool.or_eq_true, decide_eq_true_eq] at apart
      rcases apart with ((g | g) | g) | g
      · rw [g] at hb; simp at hb
      · have g0 : d.dx.cap.toNat = 0 := by rw [g]; rfl
        omega
      · omega
      · omega
  rw [s2]
  unfold Inflate.storedBody
  rw [if_neg, if_neg, if_neg, hlen, Inflate.blockDone_eq]
  · refine ⟨?_, h.dst, ?_, ?_, padv, ?_, ?_, ?_, h.err, h.seq, rfl⟩
    · show (d.dx.outpos + BitVec.ofNat 32 data.length).toNat ≤ d.dx.cap.toNat
      rw [outpos_add (c := d.dx.cap) (by omega)]; omega
    · show r.src.toNat + r.len.toNat ≤ _
      rw [hsrc, hrl]; exact h.src
    · show disjoint r.src r.len _ _ = true
      rw [hsrc, hrl]; exact h.apart
    · show _ ≤ 8 * r.len.toNat
      rw [hrl]; exact hb
    · show (d.dx.outpos + BitVec.ofNat 32 data.length).toNat = _
      rw [outpos_add (c := d.dx.cap) (by omega), List.length_append]; omega
    · show Memory.bytes (Memory.copyForward r.src d.dx.dst r.start d.dx.outpos.toNat data.length d.mem) d.dx.dst 0 (x ++ data).length = _
      rw [List.length_append, Memory.bytes_add]
      refine congrArg₂ (· ++ ·) ?_ ?_
      · refine Eq.trans (Memory.bytes_congr fun k hk => Memory.copyForward_frame fun j hj => ?_) h.bytes
        rw [Nat.zero_add, ne_eq, bufferAddr_inj (by omega) (by omega)]
        omega
      · apply List.ext_getElem
        · rw [Memory.length_bytes]
        · intro k hk hk'
          have e := Memory.getD_bytes (Memory.copyForward r.src d.dx.dst r.start d.dx.outpos.toNat data.length d.mem)
            d.dx.dst (0 + x.length) data.length k hk'
          rw [List.getD_eq_getElem _ _ hk] at e
          rw [e, Nat.zero_add, ← hcount, copied k hk', List.getD_eq_getElem _ _ hk']
  · show (r.advanceBytes data.length).bitpos.toNat ≤ 8 * r.len.toNat
    rw [padv, hrl]; exact hb
  · show ¬ d.dx.cap.toNat - d.dx.outpos.toNat < _
    omega
  · show ¬ r.len.toNat - r.bitpos.toNat / 8 < _
    rw [hrl, p3, hlen]; omega
  · rw [not_not]
    apply BitVec.eq_of_toNat_eq
    rw [BitVec.toNat_xor, hlen, BitVec.toNat_ofNat, Nat.mod_eq_of_lt (by omega)]
    show _ = (data.length ^^^ 65535) ^^^ 65535
    rw [Nat.xor_assoc, Nat.xor_self, Nat.xor_zero]

/-- A stored block (rules R132, R242, R375). -/
theorem decodes_stored (p : Nat) (x data : List Byte) (final : Bool) (hn : data.length ≤ 65535) :
    Decodes p (headerBits final 0 ++ (List.replicate ((8 - (p + 3) % 8) % 8) false
      ++ (bitsOf 16 data.length ++ bitsOf 16 (data.length ^^^ 0xFFFF) ++ bitsOfBytes data))) x (x ++ data) final := by
  intro d hd hh hb hc
  have e : (headerBits final 0 ++ (List.replicate ((8 - (p + 3) % 8) % 8) false
      ++ (bitsOf 16 data.length ++ bitsOf 16 (data.length ^^^ 0xFFFF) ++ bitsOfBytes data))).length
      = 3 + ((8 - (p + 3) % 8) % 8 + (32 + 8 * data.length)) := by
    simp only [List.length_append, List.length_replicate, length_bitsOf, length_bitsOfBytes,
      show (headerBits final 0).length = 3 from rfl]
  rw [e] at hb ⊢
  rw [List.length_append] at hc
  obtain ⟨a1, hh1, f1, -⟩ := Inflate.leads_header hd final 0 (i := .blockStored final) rfl rfl (fun _ => rfl) hh (by omega)
  have e1 := d.extends_step
  have a2 := Inflate.step_stored a1 hn hh1 (by rw [e1.reader.len]; omega) (by rw [e1.cap]; exact hc)
  rw [f1] at a2
  exact ⟨d.step.step, d.leads_step.trans d.step.leads_step, by rw [← Nat.add_assoc]; exact a2⟩

end Sys2Proof.Machine
end

