-- ==== Sys2Proof/Laws/Dynamic.lean ====
section
/-! SUPPORT. What the decompressor makes of a dynamic header's bits (rules R134 to R137, R366 to R369): the
precode lengths, the length sequence, the two tables. -/

namespace Sys2Proof.Machine

/-! ## The length sequence -/

/-- The codes of a length sequence: the precode's. -/
def preCodes (pc : List Nat) : Codes := ⟨[], [], pc⟩

/-- A reader on a length-sequence element's bits reads that element. -/
theorem readPrecode_of_holds {d : Inflate} {pc : List Nat} (hn : pc.length = 19)
    (hb : buildTable .precode pc = some d.dtab.precode) {r : Reader} {i : Instr} {prev : Bool} (he : i.expect = .precode)
    (hp : (∃ e, i = .preRep e) → prev = true) (hc : (preCodes pc).cover i = true) (hh : r.holds d.mem (encode (preCodes pc) i))
    (hl : r.bitpos.toNat + (encode (preCodes pc) i).length ≤ 8 * r.len.toNat + 64) :
    readPrecode d.source prev r = (r.past (encode (preCodes pc) i).length, .ok i) := by
  have sym : ∀ {s : Nat} {rest : List Bool}, (Alphabet.precode, s) ∈ i.symbols → encode (preCodes pc) i = codewordBits pc s ++ rest →
      d.source.symbol .precode r = (r.past (pc.getD s 0), some s) ∧ (r.past (pc.getD s 0)).holds d.mem rest
        ∧ (r.past (pc.getD s 0)).bitpos.toNat = r.bitpos.toNat + pc.getD s 0 := fun {s rest} hm e => by
    rw [e] at hh hl
    rw [List.length_append, length_codewordBits] at hl
    obtain ⟨h1, h2⟩ := Reader.holds_append hh (by rw [length_codewordBits]; omega)
    rw [length_codewordBits] at h2
    exact ⟨decodeSymbol_of_holds (x := .precode) hn hb (of_cover hc hm) h1 (by omega), h2, Reader.past_bitpos (by omega)⟩
  have extra : ∀ {s n v : Nat}, (Alphabet.precode, s) ∈ i.symbols → encode (preCodes pc) i = codewordBits pc s ++ bitsOf n v →
      d.source.bits n (r.past (pc.getD s 0)) = (r.past (encode (preCodes pc) i).length, some (v % 2 ^ n)) := fun {s n v} hm e => by
    obtain ⟨-, h2, h3⟩ := sym hm e
    rw [e, List.length_append, length_codewordBits, length_bitsOf] at hl ⊢
    rw [Inflate.source_bits h2 (by rw [h3]; show _ ≤ 8 * r.len.toNat + 64; omega), Reader.past_past (by omega)]
  cases i with
  | preLen value =>
    have hv := value.isLt
    have e : encode (preCodes pc) (.preLen value) = codewordBits pc value.toNat ++ [] := (List.append_nil _).symm
    obtain ⟨h1, -, -⟩ := sym (s := value.toNat) (by simp [Instr.symbols]) e
    rw [readPrecode, h1]
    simp only [if_pos (show value.toNat ≤ 15 by omega), BitVec.ofNat_toNat, BitVec.setWidth_eq]
    rw [e, List.append_nil, length_codewordBits]
  | preRep extra' =>
    obtain ⟨h1, -, -⟩ := sym (s := 16) (rest := bitsOf 2 extra'.toNat) (by simp [Instr.symbols]) rfl
    have h2 := extra (s := 16) (n := 2) (v := extra'.toNat) (by simp [Instr.symbols]) rfl
    rw [readPrecode, h1]
    simp only [hp ⟨extra', rfl⟩, show preExtra 16 = 2 from rfl, h2]
    simp [Nat.mod_eq_of_lt extra'.isLt]
  | preZrep3 extra' =>
    obtain ⟨h1, -, -⟩ := sym (s := 17) (rest := bitsOf 3 extra'.toNat) (by simp [Instr.symbols]) rfl
    have h2 := extra (s := 17) (n := 3) (v := extra'.toNat) (by simp [Instr.symbols]) rfl
    rw [readPrecode, h1]
    simp only [show preExtra 17 = 3 from rfl, h2]
    simp [Nat.mod_eq_of_lt extra'.isLt]
  | preZrep11 extra' =>
    obtain ⟨h1, -, -⟩ := sym (s := 18) (rest := bitsOf 7 extra'.toNat) (by simp [Instr.symbols]) rfl
    have h2 := extra (s := 18) (n := 7) (v := extra'.toNat) (by simp [Instr.symbols]) rfl
    rw [readPrecode, h1]
    simp only [show preExtra 18 = 7 from rfl, h2]
    simp [Nat.mod_eq_of_lt extra'.isLt]
  | _ => cases he

/-- What one element adds to the lengths `acc`: `n` copies of `v`. -/
theorem lengthsOf_cons {acc ls : List (BitVec 4)} {i : Instr} {r : List Instr} (h : lengthsOf acc (i :: r) = some ls) :
    i.expect = .precode ∧ ((∃ e, i = .preRep e) → acc ≠ []) ∧ ∃ n v, 1 ≤ n ∧ lengthsOf (acc ++ List.replicate n v) r = some ls
      ∧ ∀ d : Inflate, d.dx.seq = acc → acc.length + n ≤ d.total →
          d.runPrecode i = { d with dx := { d.dx with seq := acc ++ List.replicate n v } } := by
  have ext : ∀ (d : Inflate) (n : Nat) (v : BitVec 4), d.dx.seq = acc → acc.length + n ≤ d.total →
      d.extend v n = { d with dx := { d.dx with seq := acc ++ List.replicate n v } } := fun d n v e hn => by
    unfold Inflate.extend
    rw [e, if_neg (by omega)]
  cases i with
  | preLen value =>
    simp only [lengthsOf] at h
    exact ⟨rfl, (fun ⟨e, he⟩ => by cases he), 1, value, Nat.le_refl _, h, fun d e hn => ext d 1 value e hn⟩
  | preRep extra =>
    simp only [lengthsOf] at h
    match hl : acc.getLast? with
    | none => rw [hl] at h; cases h
    | some v =>
      rw [hl] at h
      refine ⟨rfl, (fun _ hn => by rw [hn] at hl; cases hl), 3 + extra.toNat, v, by omega, h, fun d e hn => ?_⟩
      show d.preRep extra = _
      unfold Inflate.preRep
      rw [e, hl]
      exact ext d _ v e hn
  | preZrep3 extra =>
    simp only [lengthsOf] at h
    exact ⟨rfl, (fun ⟨e, he⟩ => by cases he), 3 + extra.toNat, 0, by omega, h, fun d e hn => ext d _ 0 e hn⟩
  | preZrep11 extra =>
    simp only [lengthsOf] at h
    exact ⟨rfl, (fun ⟨e, he⟩ => by cases he), 11 + extra.toNat, 0, by omega, h, fun d e hn => ext d _ 0 e hn⟩
  | _ => cases h

theorem lengthsOf_grows (items : List Instr) {acc ls : List (BitVec 4)} (h : lengthsOf acc items = some ls) :
    acc.length ≤ ls.length := by
  induction items generalizing acc with
  | nil => simp only [lengthsOf, Option.some.injEq] at h; rw [h]
  | cons i r ih =>
    obtain ⟨-, -, n, v, hn, h', -⟩ := lengthsOf_cons h
    have := ih h'
    simp only [List.length_append, List.length_replicate] at this
    omega

/-- The length sequence is read to its declared total (rule R368). -/
theorem Inflate.readLengths_of_holds {pc : List Nat} (hn : pc.length = 19) (items : List Instr) (fuel : Nat) {d : Inflate}
    {ls : List (BitVec 4)} (hb : buildTable .precode pc = some d.dtab.precode) (hs : d.dx.state = .buildTables)
    (hl : lengthsOf d.dx.seq items = some ls) (ht : ls.length = d.total) (hf : d.total ≤ fuel + d.dx.seq.length)
    (hc : ∀ i ∈ items, (preCodes pc).cover i = true) (hh : d.br.holds d.mem (items.flatMap (encode (preCodes pc))))
    (hp : d.br.bitpos.toNat + (items.flatMap (encode (preCodes pc))).length ≤ 8 * d.br.len.toNat + 64) :
    Inflate.readLengths fuel d
      = { d with br := d.br.past (items.flatMap (encode (preCodes pc))).length, dx := { d.dx with seq := ls } } := by
  induction items generalizing d fuel with
  | nil =>
    simp only [lengthsOf, Option.some.injEq] at hl
    subst hl
    have e : { d with br := d.br.past (([] : List Instr).flatMap (encode (preCodes pc))).length, dx := { d.dx with seq := d.dx.seq } } = d := by
      have : d.br.past 0 = d.br := by
        unfold Reader.past
        simp
      simp only [List.flatMap_nil, List.length_nil, this]
    rw [e]
    cases fuel with
    | zero => rfl
    | succ n =>
      unfold Inflate.readLengths
      rw [if_pos (by omega)]
  | cons i r ih =>
    obtain ⟨he, hprev, n, v, h1, hl', hrun⟩ := lengthsOf_cons hl
    have hg := lengthsOf_grows r hl'
    simp only [List.length_append, List.length_replicate] at hg
    simp only [List.flatMap_cons, List.length_append] at hh hp ⊢
    obtain ⟨g1, g2⟩ := Reader.holds_append hh (by omega)
    have gp := Reader.past_bitpos (r := d.br) (n := (encode (preCodes pc) i).length) (by omega)
    cases fuel with
    | zero => omega
    | succ m =>
      have hstep : d.precodeStep = { d with
          br := d.br.past (encode (preCodes pc) i).length
          dx := { d.dx with seq := d.dx.seq ++ List.replicate n v } } := by
        unfold Inflate.precodeStep
        rw [readPrecode_of_holds hn hb he (fun h => by simpa using hprev h) (hc i List.mem_cons_self) g1 (by omega)]
        exact hrun { d with br := d.br.past (encode (preCodes pc) i).length } rfl (by show _ ≤ d.total; omega)
      unfold Inflate.readLengths
      rw [if_neg (by omega), hstep]
      unfold Inflate.andThen
      rw [hs]
      refine (ih m (d := { d with
          br := d.br.past (encode (preCodes pc) i).length
          dx := { d.dx with seq := d.dx.seq ++ List.replicate n v } }) hb hs hl' ht ?_ (fun i hi => hc i (List.mem_cons_of_mem _ hi)) g2 ?_).trans ?_
      · show d.total ≤ m + (d.dx.seq ++ List.replicate n v).length
        simp only [List.length_append, List.length_replicate]; omega
      · show (d.br.past _).bitpos.toNat + _ ≤ 8 * d.br.len.toNat + 64
        rw [gp]; omega
      · rw [Reader.past_past (by omega), ← hs]

/-! ## The precode's lengths -/

/-- The 3-bit lengths along a part of PERM (rules R134, R135, R367). -/
theorem Inflate.readPrecodeLens_of_holds {pc : List Nat} (hm : ∀ l ∈ pc, l ≤ 7) (order : List Nat) {d : Inflate}
    (hh : d.br.holds d.mem (order.flatMap fun s => bitsOf 3 (pc.getD s 0)))
    (hp : d.br.bitpos.toNat + 3 * order.length ≤ 8 * d.br.len.toNat + 64) :
    ∃ t : Table 4, Inflate.readPrecodeLens order d
        = { d with br := d.br.past (3 * order.length), lens := { d.lens with precode := t } }
      ∧ ∀ s, t.get s = if s ∈ order then BitVec.ofNat 4 (pc.getD s 0) else d.lens.precode.get s := by
  induction order generalizing d with
  | nil =>
    refine ⟨d.lens.precode, ?_, fun s => by simp⟩
    have : d.br.past (3 * ([] : List Nat).length) = d.br := by unfold Reader.past; simp
    rw [this]
    rfl
  | cons a order ih =>
    simp only [List.flatMap_cons, List.length_cons] at hh hp
    obtain ⟨h1, h2⟩ := Reader.holds_append hh (by rw [length_bitsOf]; omega)
    rw [length_bitsOf] at h2
    have gp := Reader.past_bitpos (r := d.br) (n := 3) (by omega)
    have hv := getD_le_of_all hm a
    obtain ⟨t, e, ht⟩ := ih (d := { d with
        br := d.br.past 3
        lens := { d.lens with precode := d.lens.precode.set a (BitVec.ofNat 4 (pc.getD a 0)) } }) h2
      (by show (d.br.past 3).bitpos.toNat + _ ≤ 8 * d.br.len.toNat + 64; rw [gp]; omega)
    refine ⟨t, ?_, fun s => ?_⟩
    · unfold Inflate.readPrecodeLens
      rw [Reader.get_of_holds h1 (by omega), Nat.mod_eq_of_lt (by omega)]
      refine e.trans ?_
      rw [Reader.past_past (by omega), List.length_cons, Nat.mul_add, Nat.add_comm]
    · rw [ht]
      by_cases h : s = a
      · subst h
        simp [Table.get_set]
      · simp [Table.get_set, h]

theorem precodeOrder_all : ∀ s, s < 19 → ∃ j, j < 19 ∧ precodeOrder.getD j 0 = s := by decide

theorem length_precodeOrder : precodeOrder.length = 19 := rfl

/-- Where the lengths not sent are 0, the table read is the precode's (rule R367). -/
theorem precode_lengths {pc : List Nat} {n : Nat} {t : Table 4} (hn : pc.length = 19) (hm : ∀ l ∈ pc, l ≤ 7)
    (hz : ∀ j, n ≤ j → j < 19 → pc.getD (precodeOrder.getD j 0) 0 = 0)
    (ht : ∀ s, t.get s = if s ∈ precodeOrder.take n then BitVec.ofNat 4 (pc.getD s 0) else 0) : Table.toList t 19 = pc := by
  apply List.ext_getElem
  · rw [Table.length_toList, hn]
  · intro s h1 h2
    have hs : s < 19 := by rw [Table.length_toList] at h1; exact h1
    have e := Table.getD_toList t 19 s
    rw [List.getD_eq_getElem _ _ h1, if_pos hs, ht] at e
    rw [e, ← List.getD_eq_getElem _ 0 h2]
    have hv := getD_le_of_all hm s
    split
    · rw [BitVec.toNat_ofNat, Nat.mod_eq_of_lt (by omega)]
    · rename_i hmem
      obtain ⟨j, hj, rfl⟩ := precodeOrder_all s hs
      refine (hz j ?_ hj).symm
      by_contra hc
      have hjn : j < n := by omega
      refine hmem ?_
      rw [List.getD_eq_getElem _ _ (by rw [length_precodeOrder]; exact hj)]
      exact List.mem_take_iff_getElem.mpr ⟨j, by rw [length_precodeOrder]; omega, rfl⟩

/-! ## The header -/

/-- What a dynamic header's bits describe. -/
structure Describes (hlit hdist : BitVec 5) (hclen : BitVec 4) (pc : List Nat) (items : List Instr) (c : Codes) : Prop where
  nlit : hlit.toNat ≤ 29
  ndist : hdist.toNat ≤ 29
  length : pc.length = 19
  le : ∀ l ∈ pc, l ≤ 7
  zero : ∀ j, hclen.toNat + 4 ≤ j → j < 19 → pc.getD (precodeOrder.getD j 0) 0 = 0
  pre : ∃ t, buildTable .precode pc = some t
  cover : ∀ i ∈ items, (preCodes pc).cover i = true
  seq : ∃ ls : List (BitVec 4), lengthsOf [] items = some ls ∧ ls.length = hlit.toNat + 257 + (hdist.toNat + 1)
    ∧ c.litlen = (ls.take (hlit.toNat + 257)).map BitVec.toNat ++ List.replicate (31 - hlit.toNat) 0
    ∧ c.offset = (ls.drop (hlit.toNat + 257)).map BitVec.toNat ++ List.replicate (31 - hdist.toNat) 0
  litlen : ∃ t, buildTable .litlen c.litlen = some t
  offset : ∃ t, buildTable .offset c.offset = some t

/-- Lengths loaded and filled with zeros read back as they stand (rule R369). -/
theorem loaded_lengths (l : List (BitVec 4)) (n k : Nat) (h : l.length + k = n) :
    Table.toList (Table.ofList 4 (l.map BitVec.toNat)) n = l.map BitVec.toNat ++ List.replicate k 0 := by
  apply List.ext_getElem
  · rw [Table.length_toList]; simp [h]
  · intro i h1 h2
    have hi : i < n := by rw [Table.length_toList] at h1; exact h1
    have e := Table.getD_toList (Table.ofList 4 (l.map BitVec.toNat)) n i
    rw [List.getD_eq_getElem _ _ h1, if_pos hi, Table.get_ofList] at e
    rw [e]
    rcases Nat.lt_or_ge i l.length with hl | hl
    · rw [List.getElem_append_left (by simpa using hl), List.getD_eq_getElem _ _ (by simpa using hl), List.getElem_map,
        BitVec.ofNat_toNat, BitVec.setWidth_eq]
    · rw [List.getElem_append_right (by simpa using hl), List.getD_eq_default _ _ (by simpa using hl)]
      simp

theorem Inflate.andThen_of_ne {d : Inflate} (h : d.dx.state ≠ .error) (f : Inflate → Inflate) : d.andThen f = f d := by
  unfold Inflate.andThen
  split
  · exact absurd ‹_› h
  all_goals rfl

/-- The third and fourth parts of a dynamic table build, where they succeed. -/
theorem Inflate.buildDynamic_eq {d : Inflate} {tp ta tb : Table 32} {ls : List (BitVec 4)} {r : Reader} (hs : d.dx.state ≠ .error)
    (hp : buildTable .precode (d.lens.lengths .precode) = some tp)
    (hr : Inflate.readLengths d.total { d with dtab := d.dtab.put .precode tp, dx := { d.dx with seq := [] } }
      = { d with dtab := d.dtab.put .precode tp, br := r, dx := { d.dx with seq := ls } })
    (hl : buildTable .litlen (Trio.lengths ⟨Table.ofList 4 ((ls.take d.dx.nlit.toNat).map BitVec.toNat),
      Table.ofList 4 ((ls.drop d.dx.nlit.toNat).map BitVec.toNat), d.lens.precode⟩ .litlen) = some ta)
    (ho : buildTable .offset (Trio.lengths ⟨Table.ofList 4 ((ls.take d.dx.nlit.toNat).map BitVec.toNat),
      Table.ofList 4 ((ls.drop d.dx.nlit.toNat).map BitVec.toNat), d.lens.precode⟩ .offset) = some tb) :
    d.buildDynamic = { d with
      br := r
      lens :=
        ⟨Table.ofList 4 ((ls.take d.dx.nlit.toNat).map BitVec.toNat), Table.ofList 4 ((ls.drop d.dx.nlit.toNat).map BitVec.toNat),
          d.lens.precode⟩
      dtab := ⟨ta, tb, tp⟩
      dx := { d.dx with seq := [], state := .decodeLoop } } := by
  have eb : d.build .precode = some { d with dtab := d.dtab.put .precode tp } := by
    unfold Inflate.build
    rw [hp]
  unfold Inflate.buildDynamic
  rw [eb]
  show (Inflate.andThen (Inflate.readLengths d.total { d with dtab := d.dtab.put .precode tp, dx := { d.dx with seq := [] } })
    fun d => d.loadLengths.buildBoth).dropSeq = _
  rw [hr, Inflate.andThen_of_ne (by exact hs)]
  have e := Inflate.buildBoth_eq
    (d := Inflate.loadLengths { d with dtab := d.dtab.put .precode tp, br := r, dx := { d.dx with seq := ls } }) (a := ta) (b := tb) hl ho
  exact congrArg Inflate.dropSeq e

/-- A dynamic header's bits lead to the decoding of symbols in the codes they describe. -/
theorem Inflate.step_dynamic {d : Inflate} {p : Nat} {x : List Byte} {hlit hdist : BitVec 5} {hclen : BitVec 4} {pc : List Nat}
    {items : List Instr} {c : Codes} (D : Describes hlit hdist hclen pc items c) (h : d.At p x .buildTables)
    (ht : d.dx.btype = 2)
    (hh : d.br.holds d.mem (encode c (.dynamicHeader hlit hdist hclen)
      ++ (precodeBits (hclen.toNat + 4) pc ++ items.flatMap (encode (preCodes pc)))))
    (hb : p + (encode c (.dynamicHeader hlit hdist hclen)
      ++ (precodeBits (hclen.toNat + 4) pc ++ items.flatMap (encode (preCodes pc)))).length ≤ 8 * d.br.len.toNat) :
    d.step.At (p + (encode c (.dynamicHeader hlit hdist hclen)
        ++ (precodeBits (hclen.toNat + 4) pc ++ items.flatMap (encode (preCodes pc)))).length) x .decodeLoop
      ∧ d.step.From c ∧ d.step.dx.bfinal = d.dx.bfinal := by
  have b3 := hclen.isLt
  have lo : (precodeOrder.take (hclen.toNat + 4)).length = min (hclen.toNat + 4) 19 := by
    rw [List.length_take, length_precodeOrder]
  have e14 : (encode c (.dynamicHeader hlit hdist hclen)).length = 14 := by simp [encode]
  have epre : (precodeBits (hclen.toNat + 4) pc).length = 3 * (precodeOrder.take (hclen.toNat + 4)).length := by
    unfold precodeBits
    generalize precodeOrder.take (hclen.toNat + 4) = l
    induction l with
    | nil => rfl
    | cons a l ih => simp only [List.flatMap_cons, List.length_append, length_bitsOf, List.length_cons, ih]; omega
  simp only [List.length_append, e14, epre] at hb ⊢
  obtain ⟨h1, h2⟩ := Reader.holds_append hh (by rw [h.pos, e14]; omega)
  rw [e14] at h2
  have p1 : (d.br.past 14).bitpos.toNat = p + 14 := by rw [Reader.past_bitpos (by rw [h.pos]; omega), h.pos]
  have hf : d.fetch = (d.br.past 14, .ok (.dynamicHeader hlit hdist hclen)) := by
    unfold Inflate.fetch
    rw [h.state]
    exact readDynamic_of_holds rfl h1 (by rw [h.pos]; omega)
  have s1 : d.step = Inflate.dynamicHeader { d with br := d.br.past 14 } hlit hdist hclen := by
    unfold Inflate.step
    rw [h.state]
    simp only [ht]
    exact Inflate.fetchAndRun_eq hf
  have n1 : (BitVec.ofNat 9 (hlit.toNat + 257)).toNat = hlit.toNat + 257 := by
    have := D.nlit
    rw [BitVec.toNat_ofNat]; omega
  have n2 : (BitVec.ofNat 6 (hdist.toNat + 1)).toNat = hdist.toNat + 1 := by
    have := D.ndist
    rw [BitVec.toNat_ofNat]; omega
  obtain ⟨g1, g2⟩ := Reader.holds_append h2 (by rw [p1, epre]; show _ ≤ 8 * d.br.len.toNat + 64; omega)
  rw [epre] at g2
  obtain ⟨t, er, hget⟩ := Inflate.readPrecodeLens_of_holds D.le (precodeOrder.take (hclen.toNat + 4))
    (d := { d with
      br := d.br.past 14
      lens := { d.lens with precode := [] }
      dx :=
        { d.dx with
          nlit := BitVec.ofNat 9 (hlit.toNat + 257)
          ndist := BitVec.ofNat 6 (hdist.toNat + 1)
          npre := BitVec.ofNat 5 (hclen.toNat + 4) } }) g1
    (by show (d.br.past 14).bitpos.toNat + _ ≤ 8 * d.br.len.toNat + 64; rw [p1]; omega)
  have p2 := Reader.past_bitpos (r := d.br.past 14) (n := 3 * (precodeOrder.take (hclen.toNat + 4)).length)
    (by rw [p1]; show _ ≤ 8 * d.br.len.toNat + 64; omega)
  rw [p1] at p2
  have tl : Table.toList t 19 = pc := precode_lengths D.length D.le D.zero hget
  obtain ⟨tp, htp⟩ := D.pre
  have hpre : buildTable .precode (Trio.lengths { d.lens with precode := t } .precode) = some tp := by
    rw [show Trio.lengths { d.lens with precode := t } .precode = pc from tl]; exact htp
  obtain ⟨ls, hls, hlen, cl, co⟩ := D.seq
  obtain ⟨tl', htl⟩ := D.litlen
  obtain ⟨to', hto⟩ := D.offset
  have rl := Inflate.readLengths_of_holds D.length items (hlit.toNat + 257 + (hdist.toNat + 1))
    (d := { d with
      br := (d.br.past 14).past (3 * (precodeOrder.take (hclen.toNat + 4)).length)
      lens := { d.lens with precode := t }
      dtab := d.dtab.put .precode tp
      dx :=
        { d.dx with
          nlit := BitVec.ofNat 9 (hlit.toNat + 257)
          ndist := BitVec.ofNat 6 (hdist.toNat + 1)
          npre := BitVec.ofNat 5 (hclen.toNat + 4)
          seq := [] } }) htp h.state hls (by rw [hlen, Inflate.total, n1, n2]) (by rw [Inflate.total, n1, n2]; omega) D.cover g2
    (by rw [p2]; show _ ≤ 8 * d.br.len.toNat + 64; omega)
  have ll : Trio.lengths ⟨Table.ofList 4 ((ls.take (BitVec.ofNat 9 (hlit.toNat + 257)).toNat).map BitVec.toNat),
      Table.ofList 4 ((ls.drop (BitVec.ofNat 9 (hlit.toNat + 257)).toNat).map BitVec.toNat), t⟩ .litlen = c.litlen := by
    rw [cl, n1]
    exact loaded_lengths _ 288 (31 - hlit.toNat) (by rw [List.length_take, hlen]; have := D.nlit; omega)
  have lf : Trio.lengths ⟨Table.ofList 4 ((ls.take (BitVec.ofNat 9 (hlit.toNat + 257)).toNat).map BitVec.toNat),
      Table.ofList 4 ((ls.drop (BitVec.ofNat 9 (hlit.toNat + 257)).toNat).map BitVec.toNat), t⟩ .offset = c.offset := by
    rw [co, n1]
    exact loaded_lengths _ 32 (31 - hdist.toNat) (by rw [List.length_drop, hlen]; have := D.ndist; omega)
  have s2 : d.step = { d with
      br := (((d.br.past 14).past (3 * (precodeOrder.take (hclen.toNat + 4)).length)).past
        (items.flatMap (encode (preCodes pc))).length)
      lens :=
        ⟨Table.ofList 4 ((ls.take (BitVec.ofNat 9 (hlit.toNat + 257)).toNat).map BitVec.toNat),
          Table.ofList 4 ((ls.drop (BitVec.ofNat 9 (hlit.toNat + 257)).toNat).map BitVec.toNat), t⟩
      dtab := ⟨tl', to', tp⟩
      dx :=
        { d.dx with
          nlit := BitVec.ofNat 9 (hlit.toNat + 257)
          ndist := BitVec.ofNat 6 (hdist.toNat + 1)
          npre := BitVec.ofNat 5 (hclen.toNat + 4)
          seq := []
          state := .decodeLoop } } := by
    rw [s1]
    unfold Inflate.dynamicHeader
    simp only []
    rw [if_neg (by
      simp only [Inflate.countsRefused, n1, n2, Bool.and_eq_true, Bool.or_eq_true, decide_eq_true_eq]
      have := D.nlit
      have := D.ndist
      omega), er]
    rw [Inflate.andThen_of_ne (by show d.dx.state ≠ _; rw [h.state]; decide)]
    exact Inflate.buildDynamic_eq
      (d := { d with
        br := (d.br.past 14).past (3 * (precodeOrder.take (hclen.toNat + 4)).length)
        lens := { d.lens with precode := t }
        dx :=
          { d.dx with
            nlit := BitVec.ofNat 9 (hlit.toNat + 257)
            ndist := BitVec.ofNat 6 (hdist.toNat + 1)
            npre := BitVec.ofNat 5 (hclen.toNat + 4) } }) (by show d.dx.state ≠ _; rw [h.state]; decide) hpre
      (by rw [show Inflate.total _ = hlit.toNat + 257 + (hdist.toNat + 1) from congrArg₂ (· + ·) n1 n2]; exact rl)
      (by rw [← ll] at htl; exact htl) (by rw [← lf] at hto; exact hto)
  rw [s2]
  have hpast : (((d.br.past 14).past (3 * (precodeOrder.take (hclen.toNat + 4)).length)).past
        (items.flatMap (encode (preCodes pc))).length)
      = d.br.past (14 + (3 * (precodeOrder.take (hclen.toNat + 4)).length + (items.flatMap (encode (preCodes pc))).length)) := by
    rw [Reader.past_past (by rw [p1]; show _ ≤ 8 * d.br.len.toNat + 64; omega), Reader.past_past (by rw [h.pos]; omega)]
  refine ⟨h.moved hpast (by omega) rfl rfl rfl rfl h.err rfl rfl, ⟨?_, ?_, htl, hto⟩, rfl⟩
  · rw [← ll]; exact length_lengths _ .litlen
  · rw [← lf]; exact length_lengths _ .offset

/-- A block with codes of its own (rules R244, R245, R366 to R374). -/
theorem decodes_dynamic (p : Nat) {hlit hdist : BitVec 5} {hclen : BitVec 4} {pc : List Nat} {items : List Instr} {c : Codes}
    (D : Describes hlit hdist hclen pc items c) {toks : List Token} {x y : List Byte} (final : Bool) (ht : ∀ t ∈ toks, t.inRange)
    (hc : ∀ t ∈ toks, c.cover t.elem = true) (he : c.cover .eob = true) (hy : expandTokens x toks = some y) :
    Decodes p (headerBits final 2 ++ ((encode c (.dynamicHeader hlit hdist hclen)
        ++ (precodeBits (hclen.toNat + 4) pc ++ items.flatMap (encode (preCodes pc))))
      ++ ((toks.flatMap fun t => encode c t.elem) ++ encode c .eob))) x y final := by
  intro d hd hh hb hcap
  rw [List.length_append, List.length_append, show (headerBits final 2).length = 3 from rfl] at hb ⊢
  obtain ⟨a1, hh1, f1, f2⟩ := Inflate.leads_header hd final 2 (i := .blockDynamic final) rfl rfl (fun _ => rfl) hh (by omega)
  have e1 := d.extends_step
  obtain ⟨h1, -⟩ := Reader.holds_append hh1 (by rw [a1.pos, e1.reader.len]; omega)
  obtain ⟨a2, g1, g2⟩ := Inflate.step_dynamic D a1 f2 h1 (by rw [e1.reader.len]; omega)
  have e2 := d.step.extends_step
  obtain ⟨d', l, a⟩ := Inflate.leads_body a2 g1 ht hc he (a1.rest e2 a2.pos hh1)
    (by rw [e2.reader.len, e1.reader.len]; omega) hy (by rw [e2.cap, e1.cap]; exact hcap)
  rw [g2, f1] at a
  exact ⟨d', (d.leads_step.trans d.step.leads_step).trans l, by rw [← Nat.add_assoc, ← Nat.add_assoc]; exact a⟩

end Sys2Proof.Machine
end

