-- ==== Sys2Proof/Laws/PackageMerge.lean ====
section
/-! SUPPORT. Length-limited code lengths by package-merge (rules R274 to R277): every used symbol gets a
length from 1 to the limit, and the code is complete. -/

namespace Sys2Proof.Machine

/-- How often a list of items holds a symbol. -/
def Item.countIn (l : List Item) (s : Nat) : Nat := (l.flatMap Item.bag).count s

/-- The items are in order of weight. -/
def Item.sorted (l : List Item) : Prop := l.Pairwise fun x y => x.weight ≤ y.weight

@[simp] theorem Item.countIn_nil (s : Nat) : Item.countIn [] s = 0 := rfl

theorem Item.countIn_cons (x : Item) (l : List Item) (s : Nat) :
    Item.countIn (x :: l) s = x.bag.count s + Item.countIn l s := by
  simp [Item.countIn, List.count_append]

/-! ## Merging -/

/-- One round of package-merge. -/
def mergeRound (leaf cur : List Item) : List Item :=
  mergeItems (leaf.length + (packages cur).length) leaf (packages cur)

theorem mergeRounds_succ (leaf : List Item) (n : Nat) (cur : List Item) :
    mergeRounds leaf (n + 1) cur = mergeRound leaf (mergeRounds leaf n cur) := by
  induction n generalizing cur with
  | zero => rfl
  | succ n ih => rw [mergeRounds, ih]; rfl

theorem length_mergeItems {fuel : Nat} {xs ys : List Item} (h : xs.length + ys.length ≤ fuel) :
    (mergeItems fuel xs ys).length = xs.length + ys.length := by
  induction fuel generalizing xs ys with
  | zero =>
    obtain ⟨rfl, rfl⟩ : xs = [] ∧ ys = [] := ⟨List.length_eq_zero_iff.mp (by omega), List.length_eq_zero_iff.mp (by omega)⟩
    rfl
  | succ n ih =>
    cases xs with
    | nil => simp [mergeItems]
    | cons x xs =>
      cases ys with
      | nil => simp [mergeItems]
      | cons y ys =>
        simp only [List.length_cons] at h
        simp only [mergeItems]
        split
        · simp only [List.length_cons]
          rw [ih (by simp only [List.length_cons]; omega)]
          simp only [List.length_cons]
          omega
        · simp only [List.length_cons]
          rw [ih (by simp only [List.length_cons]; omega)]
          simp only [List.length_cons]
          omega

/-- The first `t` items of a merge are the first of both lists; every leaf left behind is heavier than
every package taken. -/
theorem mergeItems_take {fuel : Nat} {xs ys : List Item} (h : xs.length + ys.length ≤ fuel) (hs : Item.sorted xs)
    {t : Nat} (ht : t ≤ xs.length + ys.length) :
    ∃ a b, a + b = t ∧ a ≤ xs.length ∧ b ≤ ys.length
      ∧ (∀ s, Item.countIn ((mergeItems fuel xs ys).take t) s = Item.countIn (xs.take a) s + Item.countIn (ys.take b) s)
      ∧ (∀ x ∈ xs.take a, x ∈ (mergeItems fuel xs ys).take t)
      ∧ ∀ x ∈ xs.drop a, ∀ y ∈ ys.take b, y.weight < x.weight := by
  induction fuel generalizing xs ys t with
  | zero =>
    obtain ⟨rfl, rfl⟩ : xs = [] ∧ ys = [] := ⟨List.length_eq_zero_iff.mp (by omega), List.length_eq_zero_iff.mp (by omega)⟩
    exact ⟨0, 0, by simpa using Eq.symm (Nat.le_zero.mp ht), by simp, by simp, by simp [mergeItems], by simp, by simp⟩
  | succ n ih =>
    cases xs with
    | nil => exact ⟨0, t, by omega, by simp, by simpa using ht, by simp [mergeItems], by simp, by simp⟩
    | cons x xs =>
      cases ys with
      | nil => exact ⟨t, 0, by omega, by simpa using ht, by simp, by simp [mergeItems], by simp [mergeItems], by simp⟩
      | cons y ys =>
        cases t with
        | zero => exact ⟨0, 0, rfl, by simp, by simp, by simp, by simp, by simp⟩
        | succ t =>
          simp only [List.length_cons] at h ht
          simp only [mergeItems]
          split
          · obtain ⟨a, b, e, ha, hb, c, m, w⟩ := ih (xs := xs) (ys := y :: ys) (t := t)
              (by simp only [List.length_cons]; omega) (List.pairwise_cons.mp hs).2 (by simp only [List.length_cons]; omega)
            refine ⟨a + 1, b, by omega, by simp only [List.length_cons]; omega, hb, fun s => ?_, ?_, w⟩
            · rw [List.take_succ_cons, List.take_succ_cons, Item.countIn_cons, Item.countIn_cons, c, Nat.add_assoc]
            · intro z hz
              rw [List.take_succ_cons, List.mem_cons] at hz ⊢
              exact hz.imp id (m z)
          · rename_i hxy
            obtain ⟨a, b, e, ha, hb, c, m, w⟩ := ih (xs := x :: xs) (ys := ys) (t := t)
              (by simp only [List.length_cons]; omega) hs (by simp only [List.length_cons]; omega)
            refine ⟨a, b + 1, by omega, ha, by simp only [List.length_cons]; omega, fun s => ?_, ?_, ?_⟩
            · rw [List.take_succ_cons, List.take_succ_cons, Item.countIn_cons, Item.countIn_cons, c]
              omega
            · intro z hz
              rw [List.take_succ_cons, List.mem_cons]
              exact .inr (m z hz)
            · intro z hz v hv
              rw [List.take_succ_cons, List.mem_cons] at hv
              rcases hv with rfl | hv
              · have hle : x.weight ≤ z.weight := by
                  have hz' := List.mem_of_mem_drop hz
                  rcases List.mem_cons.mp hz' with rfl | hz'
                  · exact Nat.le_refl _
                  · exact (List.pairwise_cons.mp hs).1 z hz'
                omega
              · exact w z hz v hv

/-! ## Packages -/

theorem length_packages (l : List Item) : (packages l).length = l.length / 2 := by
  induction l using packages.induct with
  | case1 x y r ih => simp only [packages, List.length_cons, ih]; omega
  | case2 => simp [packages]
  | case3 => rfl

theorem countIn_packages_take (l : List Item) (b : Nat) (h : 2 * b ≤ l.length) (s : Nat) :
    Item.countIn ((packages l).take b) s = Item.countIn (l.take (2 * b)) s := by
  induction l using packages.induct generalizing b with
  | case1 x y r ih =>
    cases b with
    | zero => simp
    | succ b =>
      simp only [List.length_cons] at h
      rw [show 2 * (b + 1) = 2 * b + 1 + 1 from by omega]
      simp only [packages, List.take_succ_cons, Item.countIn_cons, List.count_append, ih b (by omega), Nat.add_assoc]
  | case2 x => simp only [List.length_cons, List.length_nil] at h; obtain rfl : b = 0 := by omega
               simp
  | case3 => simp only [List.length_nil] at h; obtain rfl : b = 0 := by omega
             simp

theorem mem_packages_take (l : List Item) (b : Nat) {x : Item} (h : 2 * b ≤ l.length) (hx : x ∈ l.take (2 * b)) :
    ∃ y ∈ (packages l).take b, x.weight ≤ y.weight := by
  induction l using packages.induct generalizing b with
  | case1 u v r ih =>
    cases b with
    | zero => simp at hx
    | succ b =>
      simp only [List.length_cons] at h
      rw [show 2 * (b + 1) = 2 * b + 1 + 1 from by omega] at hx
      simp only [List.take_succ_cons, List.mem_cons] at hx
      simp only [packages, List.take_succ_cons]
      rcases hx with rfl | rfl | hx
      · exact ⟨_, List.mem_cons_self, Nat.le_add_right _ _⟩
      · exact ⟨_, List.mem_cons_self, Nat.le_add_left _ _⟩
      · obtain ⟨y, hy, hw⟩ := ih b (by omega) hx
        exact ⟨y, List.mem_cons_of_mem _ hy, hw⟩
  | case2 _ => simp only [List.length_cons, List.length_nil] at h; obtain rfl : b = 0 := by omega
               simp at hx
  | case3 => simp at hx

/-! ## Rounds -/

/-- How many leaves each of the levels contributes to the first `t` items of round `n`. -/
structure Levels (leaf : List Item) (n t : Nat) where
  a : Nat → Nat
  total : t * 2 ^ n = ∑ k ∈ Finset.range (n + 1), a k * 2 ^ k
  counts : ∀ s, Item.countIn ((mergeRounds leaf n leaf).take t) s
    = ∑ k ∈ Finset.range (n + 1), Item.countIn (leaf.take (a k)) s
  rising : ∀ k, k < n → a k ≤ a (k + 1)
  bounded : ∀ k, k ≤ n → a k ≤ leaf.length
  taken : ∀ x ∈ leaf.take (a n), x ∈ (mergeRounds leaf n leaf).take t
  full : 2 ≤ leaf.length → 2 * leaf.length - 2 ≤ t → a n = leaf.length

theorem Levels.exist {leaf : List Item} (hs : Item.sorted leaf) (n : Nat) {t : Nat}
    (ht : t ≤ (mergeRounds leaf n leaf).length) : Nonempty (Levels leaf n t) := by
  induction n generalizing t with
  | zero =>
    refine ⟨⟨fun _ => t, by simp, by simp [mergeRounds], by simp, fun _ _ => ht, by simp [mergeRounds], ?_⟩⟩
    intro h2 h
    have : t ≤ leaf.length := ht
    omega
  | succ n ih =>
    rw [mergeRounds_succ, mergeRound, length_mergeItems (Nat.le_refl _)] at ht
    obtain ⟨a, b, e, ha, hb, c, m, w⟩ := mergeItems_take (Nat.le_refl _) hs ht
    rw [length_packages] at hb
    obtain ⟨v⟩ := ih (t := 2 * b) (by omega)
    have hrise : v.a n ≤ a := by
      by_contra hlt
      have hi : a < leaf.length := Nat.lt_of_lt_of_le (Nat.not_le.mp hlt) (v.bounded n (Nat.le_refl _))
      have h1 : leaf[a] ∈ leaf.take (v.a n) := List.mem_take_iff_getElem.mpr ⟨a, by omega, rfl⟩
      have h2 : leaf[a] ∈ leaf.drop a := List.mem_drop_iff_getElem.mpr ⟨0, by omega, by simp⟩
      obtain ⟨y, hy, hw⟩ := mem_packages_take _ b (by omega) (v.taken _ h1)
      exact absurd (w _ h2 _ hy) (Nat.not_lt.mpr hw)
    refine ⟨⟨fun k => if k = n + 1 then a else v.a k, ?_, fun s => ?_, fun k hk => ?_, fun k hk => ?_, ?_, ?_⟩⟩
    · rw [Finset.sum_range_succ, Finset.sum_congr rfl
        (g := fun k => v.a k * 2 ^ k) (fun k hk => by
          have := Finset.mem_range.mp hk
          simp only [show k ≠ n + 1 from by omega, if_false]), ← v.total, if_pos rfl, ← e, pow_succ]
      ring
    · have e' : ∑ k ∈ Finset.range (n + 1), Item.countIn (leaf.take (if k = n + 1 then a else v.a k)) s
          = ∑ k ∈ Finset.range (n + 1), Item.countIn (leaf.take (v.a k)) s :=
        Finset.sum_congr rfl fun k hk => by
          rw [if_neg (by have := Finset.mem_range.mp hk; omega)]
      rw [mergeRounds_succ, mergeRound, c, countIn_packages_take _ b (by omega), v.counts,
        Finset.sum_range_succ (n := n + 1), if_pos rfl, e', Nat.add_comm]
    · by_cases hk' : k = n
      · subst hk'
        simpa using hrise
      · simp only [show k ≠ n + 1 from by omega, show k + 1 ≠ n + 1 from by omega, if_false]
        exact v.rising k (by omega)
    · by_cases hk' : k = n + 1
      · simpa [hk'] using ha
      · simpa [hk'] using v.bounded k (by omega)
    · simp only [if_true, mergeRounds_succ, mergeRound]
      exact m
    · intro h2 h
      simp only [if_true]
      by_contra hne
      have := v.full h2 (by omega)
      omega

/-- Enough rounds make enough items: after `n` rounds `2N - 2` of them, when `N ≤ 2^(n+1)`. -/
theorem length_mergeRounds (leaf : List Item) (n : Nat) :
    2 * leaf.length * 2 ^ n + 1 ≤ (mergeRounds leaf n leaf).length * 2 ^ n + 2 ^ n + leaf.length
      ∨ leaf.length = 0 := by
  induction n with
  | zero =>
    simp only [mergeRounds, pow_zero, Nat.mul_one]
    omega
  | succ n ih =>
    rcases ih with ih | h0
    · left
      rw [mergeRounds_succ, mergeRound, length_mergeItems (Nat.le_refl _), length_packages, pow_succ]
      generalize (mergeRounds leaf n leaf).length = len at *
      have hp : 0 < 2 ^ n := Nat.two_pow_pos n
      have h2 : 2 * (leaf.length + len / 2) + 1 ≥ 2 * leaf.length + len := by omega
      have h3 := Nat.mul_le_mul_right (2 ^ n) h2
      nlinarith
    · exact .inr h0

theorem rounds_suffice {leaf : List Item} {n : Nat} (h2 : 2 ≤ leaf.length) (h : leaf.length ≤ 2 ^ (n + 1)) :
    2 * leaf.length - 2 ≤ (mergeRounds leaf n leaf).length := by
  rcases length_mergeRounds leaf n with h' | h'
  · by_contra hlt
    have hlt' : (mergeRounds leaf n leaf).length + 3 ≤ 2 * leaf.length := by omega
    have := Nat.mul_le_mul_right (2 ^ n) hlt'
    rw [pow_succ] at h
    nlinarith
  · omega

/-! ## Leaves -/

theorem perm_insertItem (it : Item) (l : List Item) : (insertItem it l).Perm (it :: l) := by
  induction l with
  | nil => exact .refl _
  | cons x xs ih =>
    simp only [insertItem]
    split
    · exact (ih.cons x).trans (.swap it x xs)
    · exact .refl _

theorem sorted_insertItem {it : Item} {l : List Item} (h : Item.sorted l) : Item.sorted (insertItem it l) := by
  induction l with
  | nil => exact List.pairwise_singleton _ _
  | cons x xs ih =>
    simp only [insertItem]
    split
    · rename_i hle
      refine List.pairwise_cons.mpr ⟨fun y hy => ?_, ih (List.pairwise_cons.mp h).2⟩
      rcases List.mem_cons.mp ((perm_insertItem it xs).mem_iff.mp hy) with rfl | hy
      · exact hle
      · exact (List.pairwise_cons.mp h).1 y hy
    · rename_i hlt
      refine List.pairwise_cons.mpr ⟨fun y hy => ?_, h⟩
      rcases List.mem_cons.mp hy with rfl | hy
      · omega
      · exact Nat.le_trans (Nat.le_of_lt (Nat.not_le.mp hlt)) ((List.pairwise_cons.mp h).1 y hy)

theorem foldl_insertItem (freq : Nat → Nat) (used : List Nat) (acc : List Item) (h : Item.sorted acc) :
    Item.sorted (used.foldl (fun acc s => insertItem ⟨freq s, [s]⟩ acc) acc)
      ∧ (used.foldl (fun acc s => insertItem ⟨freq s, [s]⟩ acc) acc).Perm
          (acc ++ used.map fun s => (⟨freq s, [s]⟩ : Item)) := by
  induction used generalizing acc with
  | nil => exact ⟨h, by simp⟩
  | cons s used ih =>
    obtain ⟨h1, h2⟩ := ih _ (sorted_insertItem (it := ⟨freq s, [s]⟩) h)
    refine ⟨h1, h2.trans ?_⟩
    rw [List.map_cons]
    exact ((perm_insertItem _ acc).append_right _).trans List.perm_middle.symm

theorem sorted_leaves (freq : Nat → Nat) (used : List Nat) : Item.sorted (leaves freq used) :=
  (foldl_insertItem freq used [] List.Pairwise.nil).1

theorem perm_leaves (freq : Nat → Nat) (used : List Nat) :
    (leaves freq used).Perm (used.map fun s => (⟨freq s, [s]⟩ : Item)) :=
  (foldl_insertItem freq used [] List.Pairwise.nil).2

/-- The symbols of the leaves, in the order of the leaves. -/
def leafSymbols (freq : Nat → Nat) (used : List Nat) : List Nat := (leaves freq used).flatMap Item.bag

theorem perm_leafSymbols (freq : Nat → Nat) (used : List Nat) : (leafSymbols freq used).Perm used := by
  refine ((perm_leaves freq used).flatMap_right _).trans ?_
  rw [List.flatMap_map]
  simp

theorem countIn_leaves_take (freq : Nat → Nat) (used : List Nat) (a s : Nat) :
    Item.countIn ((leaves freq used).take a) s = ((leafSymbols freq used).take a).count s := by
  have one : ∀ x ∈ leaves freq used, x.bag.length = 1 := fun x hx => by
    obtain ⟨s, -, rfl⟩ := List.mem_map.mp ((perm_leaves freq used).mem_iff.mp hx)
    rfl
  unfold leafSymbols Item.countIn
  congr 1
  generalize leaves freq used = l at one
  induction l generalizing a with
  | nil => simp
  | cons x l ih =>
    cases a with
    | zero => simp
    | succ a =>
      have hx := one x List.mem_cons_self
      obtain ⟨v, hv⟩ := List.length_eq_one_iff.mp hx
      simp only [List.take_succ_cons, List.flatMap_cons, hv, List.singleton_append]
      rw [ih a fun y hy => one y (List.mem_cons_of_mem _ hy)]

/-! ## Completeness -/

/-- A rising sequence of zeros and ones: what its ones weigh, and the power its number of ones leaves. -/
theorem rising_sum (f : Nat → Nat) (n : Nat) (hf : ∀ k, k ≤ n → f k ≤ 1) (hr : ∀ k, k < n → f k ≤ f (k + 1)) :
    ∑ k ∈ Finset.range (n + 1), f k ≤ n + 1
      ∧ ∑ k ∈ Finset.range (n + 1), f k * 2 ^ k + 2 ^ (n + 1 - ∑ k ∈ Finset.range (n + 1), f k) = 2 ^ (n + 1) := by
  induction n with
  | zero =>
    have := hf 0 (Nat.le_refl _)
    have h01 : f 0 = 0 ∨ f 0 = 1 := by omega
    rcases h01 with h | h <;> simp [h]
  | succ n ih =>
    obtain ⟨h1, h2⟩ := ih (fun k hk => hf k (by omega)) fun k hk => hr k (by omega)
    have h01 : f (n + 1) = 0 ∨ f (n + 1) = 1 := by have := hf (n + 1) (Nat.le_refl _); omega
    rw [Finset.sum_range_succ (n := n + 1), Finset.sum_range_succ (n := n + 1)]
    rcases h01 with h | h
    · have z : ∀ j, j ≤ n + 1 → f (n + 1 - j) = 0 := by
        intro j
        induction j with
        | zero => intro _; exact h
        | succ j ihj =>
          intro hj
          have a := ihj (by omega)
          have b := hr (n + 1 - (j + 1)) (by omega)
          rw [show n + 1 - (j + 1) + 1 = n + 1 - j from by omega, a] at b
          omega
      have z' : ∀ k ∈ Finset.range (n + 1), f k = 0 := fun k hk => by
        have := Finset.mem_range.mp hk
        have := z (n + 1 - k) (by omega)
        rwa [show n + 1 - (n + 1 - k) = k from by omega] at this
      rw [Finset.sum_eq_zero z', Finset.sum_eq_zero (fun k hk => by rw [z' k hk, Nat.zero_mul]), h]
      simp
    · rw [h]
      refine ⟨by omega, ?_⟩
      rw [show n + 1 + 1 - (∑ k ∈ Finset.range (n + 1), f k + 1) = n + 1 - ∑ k ∈ Finset.range (n + 1), f k from by omega,
        pow_succ 2 (n + 1)]
      omega

theorem sum_map_getD (g : Nat → Nat) (l : List Nat) :
    (l.map g).sum = ∑ r ∈ Finset.range l.length, g (l.getD r 0) := by
  induction l with
  | nil => rfl
  | cons x l ih =>
    rw [List.map_cons, List.sum_cons, List.length_cons, Finset.sum_range_succ', ih]
    simp [Nat.add_comm]

theorem sum_below (N a : Nat) (h : a ≤ N) : ∑ r ∈ Finset.range N, (if r < a then 1 else 0) = a := by
  induction N with
  | zero => simp; omega
  | succ N ih =>
    rw [Finset.sum_range_succ]
    by_cases ha : a ≤ N
    · rw [ih ha, if_neg (by omega)]
      rfl
    · rw [if_pos (by omega), Finset.sum_congr rfl (g := fun _ => 1) fun r hr => by
        rw [if_pos (by have := Finset.mem_range.mp hr; omega)]]
      simp
      omega

/-- Package-merge: every used symbol occurs from 1 to the limit of times, no other occurs, and the
occurrences are the lengths of a complete code (rule R277). -/
theorem packageMerge_spec (freq : Nat → Nat) (used : List Nat) (maxLen : Nat) (hn : used.Nodup)
    (h2 : 2 ≤ used.length) (hM : 1 ≤ maxLen) (hlen : used.length ≤ 2 ^ maxLen) :
    (∀ s, s ∉ used → (packageMerge freq used maxLen).count s = 0)
      ∧ (∀ s ∈ used, 1 ≤ (packageMerge freq used maxLen).count s ∧ (packageMerge freq used maxLen).count s ≤ maxLen)
      ∧ (used.map fun s => 2 ^ (maxLen - (packageMerge freq used maxLen).count s)).sum = 2 ^ maxLen := by
  obtain ⟨n, rfl⟩ : ∃ n, maxLen = n + 1 := ⟨maxLen - 1, by omega⟩
  have hL : (leaves freq used).length = used.length := by
    rw [(perm_leaves freq used).length_eq, List.length_map]
  have hS : (leafSymbols freq used).length = used.length := (perm_leafSymbols freq used).length_eq
  have hnd : (leafSymbols freq used).Nodup := (perm_leafSymbols freq used).nodup_iff.mpr hn
  obtain ⟨v⟩ := Levels.exist (sorted_leaves freq used) n
    (t := 2 * used.length - 2) (by rw [← hL] at h2 hlen ⊢; exact rounds_suffice h2 hlen)
  have hc : ∀ s, (packageMerge freq used (n + 1)).count s
      = ∑ k ∈ Finset.range (n + 1), ((leafSymbols freq used).take (v.a k)).count s := fun s => by
    rw [← Finset.sum_congr rfl fun k _ => countIn_leaves_take freq used (v.a k) s, ← v.counts]
    rfl
  have full : v.a n = used.length := (v.full (by omega) (by omega)).trans hL
  have hcr : ∀ r, r < used.length → ∀ a, ((leafSymbols freq used).take a).count ((leafSymbols freq used).getD r 0)
      = if r < a then 1 else 0 := fun r hr a => by
    have hr' : r < (leafSymbols freq used).length := by omega
    rw [List.getD_eq_getElem _ _ hr']
    split
    · exact List.count_eq_one_of_mem (hnd.sublist (List.take_sublist _ _)) (List.mem_take_iff_getElem.mpr ⟨r, by omega, rfl⟩)
    · refine List.count_eq_zero_of_not_mem fun hm => ?_
      obtain ⟨j, hj, e⟩ := List.mem_take_iff_getElem.mp hm
      have := (List.Nodup.getElem_inj_iff hnd).mp e
      omega
  have hcount : ∀ r, r < used.length → (packageMerge freq used (n + 1)).count ((leafSymbols freq used).getD r 0)
      = ∑ k ∈ Finset.range (n + 1), (if r < v.a k then 1 else 0) := fun r hr => by
    rw [hc]
    exact Finset.sum_congr rfl fun k _ => hcr r hr (v.a k)
  have hrise : ∀ r, ∑ k ∈ Finset.range (n + 1), (if r < v.a k then 1 else 0) ≤ n + 1
      ∧ ∑ k ∈ Finset.range (n + 1), (if r < v.a k then 1 else 0) * 2 ^ k
          + 2 ^ (n + 1 - ∑ k ∈ Finset.range (n + 1), (if r < v.a k then 1 else 0)) = 2 ^ (n + 1) := fun r =>
    rising_sum (fun k => if r < v.a k then 1 else 0) n (fun k _ => by split <;> omega) fun k hk => by
      have := v.rising k hk
      split <;> split <;> omega
  refine ⟨fun s hs => ?_, fun s hs => ?_, ?_⟩
  · rw [hc]
    refine Finset.sum_eq_zero fun k _ => List.count_eq_zero_of_not_mem fun hm => hs ?_
    exact (perm_leafSymbols freq used).mem_iff.mp (List.mem_of_mem_take hm)
  · obtain ⟨r, hr, rfl⟩ := List.mem_iff_getElem.mp ((perm_leafSymbols freq used).mem_iff.mpr hs)
    rw [← List.getD_eq_getElem _ 0 hr, hcount r (by omega)]
    refine ⟨?_, (hrise r).1⟩
    calc 1 = (if r < v.a n then 1 else 0) := by rw [if_pos (by omega)]
      _ ≤ _ := Finset.single_le_sum (f := fun k => if r < v.a k then 1 else 0) (fun _ _ => Nat.zero_le _)
        (Finset.mem_range.mpr (Nat.lt_succ_self n))
  · rw [← ((perm_leafSymbols freq used).map _).sum_eq, sum_map_getD, hS,
      Finset.sum_congr rfl fun r hr => by rw [hcount r (Finset.mem_range.mp hr)]]
    have h1 : ∑ r ∈ Finset.range used.length, (∑ k ∈ Finset.range (n + 1), (if r < v.a k then 1 else 0) * 2 ^ k
          + 2 ^ (n + 1 - ∑ k ∈ Finset.range (n + 1), (if r < v.a k then 1 else 0)))
        = used.length * 2 ^ (n + 1) := by
      rw [Finset.sum_congr rfl fun r _ => (hrise r).2]
      simp
    rw [Finset.sum_add_distrib, Finset.sum_comm,
      Finset.sum_congr rfl (g := fun k => v.a k * 2 ^ k) fun k hk => by
        rw [← Finset.sum_mul, sum_below _ _ ((v.bounded k (by have := Finset.mem_range.mp hk; omega)).trans (Nat.le_of_eq hL))],
      ← v.total] at h1
    have h3 : (2 * used.length - 2) * 2 ^ n + 2 ^ (n + 1) = used.length * 2 ^ (n + 1) := by
      obtain ⟨m, hm⟩ : ∃ m, used.length = m + 2 := ⟨used.length - 2, by omega⟩
      rw [hm, show 2 * (m + 2) - 2 = 2 * m + 2 from by omega, pow_succ]
      ring
    omega

/-! ## Code lengths -/

theorem kraft_eq_sum (maxLen : Nat) (lens : List Nat) :
    kraft maxLen lens = (lens.map fun l => if l = 0 then 0 else 2 ^ (maxLen - l)).sum := by
  unfold kraft
  induction lens with
  | nil => rfl
  | cons l lens ih =>
    rw [List.map_cons, List.sum_cons, ← ih]
    by_cases h : l = 0
    · rw [List.filter_cons_of_neg (by simpa using h), if_pos h, Nat.zero_add]
    · rw [List.filter_cons_of_pos (by simpa using h), if_neg h, List.map_cons, List.sum_cons]

theorem nodup_usedSymbols (t : Table 32) (n : Nat) : (usedSymbols t n).Nodup :=
  List.nodup_range.filter _

theorem mem_usedSymbols {t : Table 32} {n s : Nat} : s ∈ usedSymbols t n ↔ s < n ∧ 0 < (t.get s).toNat := by
  simp [usedSymbols]

theorem length_usedSymbols_le (t : Table 32) (n : Nat) : (usedSymbols t n).length ≤ n := by
  simpa [usedSymbols] using List.length_filter_le (fun s => decide (0 < (t.get s).toNat)) (List.range n)

theorem slots_facts (x : Alphabet) : x.nsym ≤ x.slots ∧ 2 ≤ x.nsym ∧ 1 ≤ x.maxLen ∧ x.nsym ≤ 2 ^ x.maxLen := by
  cases x <;> decide

/-- The lengths count the occurrences, and nothing occurs outside the usable symbols. -/
theorem occurrences_spec (x : Alphabet) (t : Table 32) :
    let used := usedSymbols t x.nsym
    let occ := lengthOccurrences (fun s => (t.get s).toNat) used x.maxLen
    (∀ s, occ.count s ≤ x.maxLen) ∧ (∀ s ∈ used, 1 ≤ occ.count s)
      ∧ (2 ≤ used.length → ∀ s, s ∉ used → occ.count s = 0)
      ∧ ∃ l : List Nat, l.Nodup ∧ (∀ s ∈ l, s < x.nsym) ∧ (∀ s, s ∉ l → occ.count s = 0) ∧ (∀ s ∈ l, occ.count s ≠ 0)
          ∧ (l.map fun s => 2 ^ (x.maxLen - occ.count s)).sum = 2 ^ x.maxLen := by
  obtain ⟨-, n2, m1, nM⟩ := slots_facts x
  have hM : 2 ^ (x.maxLen - 1) + 2 ^ (x.maxLen - 1) = 2 ^ x.maxLen := by
    conv_rhs => rw [show x.maxLen = (x.maxLen - 1) + 1 from by omega, pow_succ]
    omega
  intro used occ
  match hu : used with
  | [] =>
    have ho : occ = [0, 1] := by simp only [occ, hu, lengthOccurrences]
    rw [ho]
    refine ⟨fun s => ?_, by simp, by simp, [0, 1], by simp, by simp; omega, fun s hs => List.count_eq_zero_of_not_mem hs,
      by simp, by simpa using hM⟩
    exact (List.nodup_iff_count_le_one.mp (by simp) s).trans m1
  | [v] =>
    have hv : v < x.nsym := (mem_usedSymbols.mp (show v ∈ usedSymbols t x.nsym from by rw [show usedSymbols t x.nsym = [v] from hu]; simp)).1
    have hne : v ≠ (if v = 0 then 1 else 0) := by split <;> omega
    have ho : occ = [v, if v = 0 then 1 else 0] := by simp only [occ, hu, lengthOccurrences]
    have hnd : [v, if v = 0 then 1 else 0].Nodup := by simpa using hne
    rw [ho]
    have one : ∀ s ∈ [v, if v = 0 then 1 else 0], [v, if v = 0 then 1 else 0].count s = 1 := fun s hs =>
      List.count_eq_one_of_mem hnd hs
    refine ⟨fun s => (List.nodup_iff_count_le_one.mp hnd s).trans m1, fun s hs => ?_, by simp,
      [v, if v = 0 then 1 else 0], hnd, fun s hs => ?_, fun s hs => List.count_eq_zero_of_not_mem hs, fun s hs => ?_, ?_⟩
    · rw [one s (by simp at hs; simp [hs])]
    · rcases List.mem_cons.mp hs with rfl | hs
      · exact hv
      · rw [List.mem_singleton.mp hs]; split <;> omega
    · rw [one s hs]; decide
    · rw [List.map_congr_left (g := fun _ => 2 ^ (x.maxLen - 1)) fun s hs => by rw [one s hs]]
      simpa using hM
  | u :: v :: r =>
    have ho : occ = packageMerge (fun s => (t.get s).toNat) used x.maxLen := by
      simp only [occ, hu, lengthOccurrences]
    have hlen : used.length ≤ x.nsym := length_usedSymbols_le _ _
    obtain ⟨p1, p2, p3⟩ := packageMerge_spec (fun s => (t.get s).toNat) used x.maxLen (nodup_usedSymbols _ _)
      (by rw [hu]; simp) m1 (by omega)
    rw [← hu, ho]
    refine ⟨fun s => ?_, fun s hs => (p2 s hs).1, fun _ => p1, used, nodup_usedSymbols _ _,
      fun s hs => (mem_usedSymbols.mp hs).1, p1, fun s hs => by have := (p2 s hs).1; omega, p3⟩
    by_cases hs : s ∈ used
    · exact (p2 s hs).2
    · rw [p1 s hs]; omega

@[simp] theorem length_lengthsFor (x : Alphabet) (t : Table 32) : (lengthsFor x t).length = x.slots := by
  simp [lengthsFor]

theorem getD_lengthsFor (x : Alphabet) (t : Table 32) (s : Nat) :
    (lengthsFor x t).getD s 0
      = if s < x.slots then
          (lengthOccurrences (fun s => (t.get s).toNat) (usedSymbols t x.nsym) x.maxLen).count s
        else 0 := by
  unfold lengthsFor
  split
  · rename_i h
    rw [List.getD_eq_getElem _ _ (by simpa using h)]
    simp
  · rename_i h
    rw [List.getD_eq_default _ _ (by simpa using h)]

/-- Whatever was counted, no length passes the limit and the code is complete (rule R277 (a), (b)). -/
theorem lengthsFor_complete (x : Alphabet) (t : Table 32) :
    (∀ l ∈ lengthsFor x t, l ≤ x.maxLen) ∧ kraft x.maxLen (lengthsFor x t) = 2 ^ x.maxLen := by
  obtain ⟨n1, -, -, -⟩ := slots_facts x
  obtain ⟨h1, -, -, l, hnd, hlt, h0, hne, hsum⟩ := occurrences_spec x t
  refine ⟨fun v hv => ?_, ?_⟩
  · obtain ⟨s, -, rfl⟩ := List.mem_map.mp hv
    exact h1 s
  · rw [kraft_eq_sum]
    unfold lengthsFor
    simp only [List.map_map]
    rw [← hsum, ← List.sum_toFinset _ hnd, ← List.sum_toFinset _ List.nodup_range]
    symm
    refine Finset.sum_subset_zero_on_sdiff (fun s hs => ?_) (fun s hs => ?_) fun s hs => ?_
    · exact List.mem_toFinset.mpr (List.mem_range.mpr ((hlt s (List.mem_toFinset.mp hs)).trans_le n1))
    · have := h0 s fun h => (Finset.mem_sdiff.mp hs).2 (List.mem_toFinset.mpr h)
      simp only [Function.comp_apply, if_pos this]
    · have := hne s (List.mem_toFinset.mp hs)
      simp only [Function.comp_apply, if_neg this]

end Sys2Proof.Machine
end

