-- ==== Sys2Proof/Laws/Describe.lean ====
section
/-! SUPPORT. The header a dynamic block is sent with describes the codes of the block (rules R238, R244, R284 to
R287), and these codes have a codeword for every symbol the block sends. -/

namespace Sys2Proof.Machine

/-! ## Lists of lengths -/

theorem getD_usedLength (l : List Nat) {j : Nat} (h : usedLength l ≤ j) : l.getD j 0 = 0 := by
  induction l generalizing j with
  | nil => rfl
  | cons v vs ih =>
    unfold usedLength at h
    split at h
    · rename_i h0
      split at h
      · cases j with
        | zero => assumption
        | succ j => exact ih (by omega)
      · cases j with
        | zero => omega
        | succ j => exact ih (by omega)
    · cases j with
      | zero => omega
      | succ j => exact ih (by omega)

/-- A list whose entries from `n` on are 0 is its beginning and zeros. -/
theorem take_append_zeros {l : List Nat} {n k : Nat} (hl : n + k = l.length) (h : ∀ j, n ≤ j → l.getD j 0 = 0) :
    l.take n ++ List.replicate k 0 = l := by
  apply List.ext_getElem
  · simp; omega
  · intro j h1 h2
    rcases Nat.lt_or_ge j n with hj | hj
    · rw [List.getElem_append_left (by simp; omega), List.getElem_take]
    · have := h j hj
      rw [List.getD_eq_getElem _ _ h2] at this
      rw [List.getElem_append_right (by simp; omega), this]
      simp

theorem getD_take (l : List Nat) (n j : Nat) (h : j < n) : (l.take n).getD j 0 = l.getD j 0 := by
  simp [List.getD, h]

/-- A symbol past the usable ones has no codeword (rule R275). -/
theorem lengthsFor_unused (x : Alphabet) (t : Table 32) {s : Nat} (h : x.nsym ≤ s) : (lengthsFor x t).getD s 0 = 0 := by
  obtain ⟨-, -, -, l, -, hlt, h0, -⟩ := occurrences_spec x t
  rw [getD_lengthsFor]
  split
  · exact h0 s fun hm => by have := hlt s hm; omega
  · rfl

/-- A counted symbol has a codeword (rule R277). -/
theorem lengthsFor_used (x : Alphabet) (t : Table 32) {s : Nat} (h : s < x.nsym) (hc : 0 < (t.get s).toNat) :
    (lengthsFor x t).getD s 0 ≠ 0 := by
  have := (occurrences_spec x t).2.1 s (mem_usedSymbols.mpr ⟨h, hc⟩)
  have := (slots_facts x).1
  rw [getD_lengthsFor, if_pos (by omega)]
  omega

theorem lengthsFor_built (x : Alphabet) (t : Table 32) : ∃ d, buildTable x (lengthsFor x t) = some d :=
  buildTable_some (lengthsValid_of_complete (lengthsFor_complete x t).1 (lengthsFor_complete x t).2)

theorem lengths_buildLens (b : Huff) (x : Alphabet) : (b.buildLens x).lens.lengths x = lengthsFor x (b.freq.table x) := by
  unfold Huff.buildLens
  rw [Trio.lengths, Trio.table_put_same]
  refine Table.toList_ofList (length_lengthsFor _ _) fun v hv => ?_
  have := (lengthsFor_complete x (b.freq.table x)).1 v hv
  cases x <;> simp only [Alphabet.maxLen] at this <;> omega

theorem lengths_buildLens_ne (b : Huff) {x y : Alphabet} (h : y ≠ x) : (b.buildLens x).lens.lengths y = b.lens.lengths y := by
  unfold Huff.buildLens
  rw [Trio.lengths, Trio.table_put_ne _ _ h, Trio.lengths]

/-! ## Items (rules R136, R286) -/

/-- The stream element of an item. -/
def itemInstr (it : Nat × Nat) : Instr :=
  if it.1 = 16 then .preRep (BitVec.ofNat 2 it.2)
  else if it.1 = 17 then .preZrep3 (BitVec.ofNat 3 it.2)
  else if it.1 = 18 then .preZrep11 (BitVec.ofNat 7 it.2)
  else .preLen (BitVec.ofNat 4 it.1)

/-- The elements of items stand for the lengths the items stand for. -/
theorem lengthsOf_items (items : List (Nat × Nat)) (hl : ∀ it ∈ items, itemLegal it) {acc ls : List Nat}
    (h : expandItems acc items = some ls) :
    lengthsOf (acc.map (BitVec.ofNat 4)) (items.map itemInstr) = some (ls.map (BitVec.ofNat 4)) := by
  induction items generalizing acc with
  | nil => simp only [expandItems, Option.some.injEq] at h; rw [h]; rfl
  | cons it items ih =>
    obtain ⟨v, e⟩ := it
    obtain ⟨h1, h2⟩ := hl (v, e) List.mem_cons_self
    have ih := fun (acc : List Nat) (h : expandItems acc items = some ls) => ih (fun i hi => hl i (List.mem_cons_of_mem _ hi)) h
    have rep : ∀ (acc : List Nat) (n w : Nat), acc.map (BitVec.ofNat 4) ++ List.replicate n (BitVec.ofNat 4 w)
        = (acc ++ List.replicate n w).map (BitVec.ofNat 4) := fun acc n w => by simp
    have ext : ∀ {n : Nat}, preExtra v = n → (BitVec.ofNat n e).toNat = e := fun hn => by
      rw [BitVec.toNat_ofNat, Nat.mod_eq_of_lt (by rw [← hn]; exact h2)]
    rw [List.map_cons, itemInstr]
    simp only [expandItems] at h
    by_cases h16 : v = 16
    · rw [if_pos h16] at h
      rw [if_pos h16]
      simp only [lengthsOf, ext (show preExtra v = 2 by rw [h16]; rfl), List.getLast?_map]
      match hg : acc.getLast? with
      | none => rw [hg] at h; cases h
      | some w =>
        rw [hg] at h
        simp only [Option.map_some]
        rw [rep]
        exact ih _ h
    · rw [if_neg h16] at h
      rw [if_neg h16]
      by_cases h17 : v = 17
      · rw [if_pos h17] at h
        rw [if_pos h17]
        simp only [lengthsOf, ext (show preExtra v = 3 by rw [h17]; rfl)]
        rw [show (0 : BitVec 4) = BitVec.ofNat 4 0 from rfl, rep]
        exact ih _ h
      · rw [if_neg h17] at h
        rw [if_neg h17]
        by_cases h18 : v = 18
        · rw [if_pos h18] at h
          rw [if_pos h18]
          simp only [lengthsOf, ext (show preExtra v = 7 by rw [h18]; rfl)]
          rw [show (0 : BitVec 4) = BitVec.ofNat 4 0 from rfl, rep]
          exact ih _ h
        · rw [if_neg h18] at h
          rw [if_neg h18]
          simp only [lengthsOf]
          rw [show [BitVec.ofNat 4 v] = List.replicate 1 (BitVec.ofNat 4 v) from rfl, rep]
          exact ih _ h

/-- The precode symbol of an item's element. -/
theorem cover_item {pc : List Nat} {it : Nat × Nat} (hl : itemLegal it) (h : pc.getD it.1 0 ≠ 0) :
    (preCodes pc).cover (itemInstr it) = true := by
  have h1 := hl.1
  have sym : (itemInstr it).symbols = [(.precode, it.1)] := by
    unfold itemInstr
    split
    · rename_i e; rw [e]; rfl
    · split
      · rename_i e; rw [e]; rfl
      · split
        · rename_i e; rw [e]; rfl
        · simp only [Instr.symbols, BitVec.toNat_ofNat]
          rw [Nat.mod_eq_of_lt (by omega)]
  unfold Codes.cover
  rw [sym]
  simpa [Codes.lens, preCodes] using h

/-- An item is sent as the bits of its element (rule R244). -/
theorem Sink.writes_emitItem (k : Sink) {b : Huff} {pc : List Nat} (h : b.Coded .precode pc) {it : Nat × Nat} (hl : itemLegal it) :
    Sink.Writes (encode (preCodes pc) (itemInstr it)) k (Sink.emitItem b k it) := by
  obtain ⟨h1, h2⟩ := hl
  have w := Sink.writes_putSymbol k h (s := it.1) (by simp only [Alphabet.slots]; omega)
  have ext : ∀ {n : Nat}, 16 ≤ it.1 → preExtra it.1 = n → n ≤ 32 → Sink.Writes (codewordBits pc it.1 ++ bitsOf n it.2) k (Sink.emitItem b k it) :=
    fun h16 hn h32 => by
      unfold Sink.emitItem
      simp only []
      rw [if_pos h16, ← hn]
      rw [← hn] at h32
      exact w.trans (Sink.writes_put _ h32 h2)
  have num : ∀ {n : Nat}, preExtra it.1 = n → (BitVec.ofNat n it.2).toNat = it.2 := fun hn => by
    rw [BitVec.toNat_ofNat, Nat.mod_eq_of_lt (by rw [← hn]; exact h2)]
  unfold itemInstr
  split
  · rename_i e
    have hn : preExtra it.1 = 2 := by rw [e]; rfl
    refine (ext (by omega) hn (by decide)).congr ?_
    simp only [encode, num hn, e, preCodes]
  · split
    · rename_i e
      have hn : preExtra it.1 = 3 := by rw [e]; rfl
      refine (ext (by omega) hn (by decide)).congr ?_
      simp only [encode, num hn, e, preCodes]
    · split
      · rename_i e
        have hn : preExtra it.1 = 7 := by rw [e]; rfl
        refine (ext (by omega) hn (by decide)).congr ?_
        simp only [encode, num hn, e, preCodes]
      · have e : Sink.emitItem b k it = k.putSymbol b .precode it.1 := by
          unfold Sink.emitItem
          exact if_neg (by omega)
        rw [e]
        refine w.congr ?_
        simp only [encode, BitVec.toNat_ofNat, preCodes]
        rw [Nat.mod_eq_of_lt (by omega)]

theorem get_writeItems (items : List (Nat × Nat)) (i : Nat) (t : Table 16) (j : Nat) :
    (writeItems i items t).get j = if i ≤ j ∧ j < i + items.length then
      BitVec.ofNat 16 ((items.getD (j - i) (0, 0)).1 + 256 * (items.getD (j - i) (0, 0)).2) else t.get j := by
  induction items generalizing i t with
  | nil => rw [if_neg (by simp)]; rfl
  | cons it items ih =>
    rw [writeItems, ih, List.length_cons, Table.get_set]
    by_cases h1 : i + 1 ≤ j ∧ j < i + 1 + items.length
    · rw [if_pos h1, if_pos (by omega), show j - i = (j - (i + 1)) + 1 by omega, List.getD_cons_succ]
    · rw [if_neg h1]
      by_cases h2 : j = i
      · subst h2
        rw [if_pos rfl, if_pos (by omega), Nat.sub_self, List.getD_cons_zero]
      · rw [if_neg h2, if_neg (by omega)]

/-- The items stored are the items read back (rules R244, R284). -/
theorem itemList_written {b : Builder} {t : Table 16} {items : List (Nat × Nat)} (hb : b.items = writeItems 0 items t)
    (hn : b.nitems.toNat = items.length) (hl : ∀ it ∈ items, itemLegal it) : b.itemList = items := by
  unfold Builder.itemList
  rw [hb, hn]
  apply List.ext_getElem
  · simp [Table.length_toList]
  · intro j h1 h2
    have e := Table.getD_toList (writeItems 0 items t) items.length j
    rw [List.getD_eq_getElem _ _ (by rw [Table.length_toList]; exact h2), if_pos h2, get_writeItems, if_pos (by omega), Nat.sub_zero,
      List.getD_eq_getElem _ _ h2] at e
    obtain ⟨g1, g2⟩ := hl _ (List.getElem_mem h2)
    have g3 : items[j].2 < 128 := Nat.lt_of_lt_of_le g2 (by
      rw [show 128 = 2 ^ 7 from rfl]
      refine Nat.pow_le_pow_right (by decide) ?_
      unfold preExtra
      split
      · omega
      · split
        · omega
        · split <;> omega)
    rw [BitVec.toNat_ofNat, Nat.mod_eq_of_lt (by omega)] at e
    rw [List.getElem_map, e]
    exact Prod.ext (by simp only []; omega) (by simp only []; omega)

/-! ## The description -/

/-- What `Lens(litlen)`, `Lens(offset)`, `Precode()` leave (rules R274, R284 to R286). -/
structure Huff.Described (b : Huff) : Prop where
  litlen : ∃ t, b.lens.lengths .litlen = lengthsFor .litlen t ∧ b.freq.litlen = t
  offset : ∃ t, b.lens.lengths .offset = lengthsFor .offset t ∧ b.freq.offset = t
  precode : b.lens.lengths .precode
    = lengthsFor .precode (Table.ofList 32 (itemCounts (rle (lengthSequence (b.lens.lengths .litlen) (b.lens.lengths .offset)))))
  coded : b.Coded .precode (b.lens.lengths .precode)
  items : b.hb.itemList = rle (lengthSequence (b.lens.lengths .litlen) (b.lens.lengths .offset))
  nlit : b.hb.nlit.toNat = trimLitlen (b.lens.lengths .litlen)
  ndist : b.hb.ndist.toNat = trimOffset (b.lens.lengths .offset)
  npre : b.hb.npre.toNat = trimPrecode (b.lens.lengths .precode)

theorem trimLitlen_le (l : List Nat) : trimLitlen l ≤ 286 := by
  have := usedLength_le (l.take 286)
  rw [List.length_take] at this
  unfold trimLitlen
  omega

theorem trimOffset_le (l : List Nat) : trimOffset l ≤ 30 := by
  have := usedLength_le (l.take 30)
  rw [List.length_take] at this
  unfold trimOffset
  omega

/-- The lengths a sequence describes are code lengths, at most 316 of them. -/
theorem lengthSequence_legal {l o : List Nat} (hl : ∀ v ∈ l, v ≤ 15) (ho : ∀ v ∈ o, v ≤ 15) :
    (∀ v ∈ lengthSequence l o, v ≤ 15) ∧ (lengthSequence l o).length ≤ 316 := by
  refine ⟨fun v hv => ?_, ?_⟩
  · rcases List.mem_append.mp hv with h | h
    · exact hl v (List.mem_of_mem_take h)
    · exact ho v (List.mem_of_mem_take h)
  · have := trimLitlen_le l
    have := trimOffset_le o
    simp only [lengthSequence, List.length_append, List.length_take]
    omega

/-- What `Precode()` leaves, in terms of the codes it builds (rule R284). -/
theorem Huff.buildPrecode_fields (b : Huff) (items : List (Nat × Nat))
    (hi : rle (lengthSequence (b.lens.lengths .litlen) (b.lens.lengths .offset)) = items) :
    let b' := Huff.buildLens ⟨b.freq.put .precode (Table.ofList 32 (itemCounts items)), b.lens, b.code, b.hb⟩ .precode
    b.buildPrecode.freq = b'.freq ∧ b.buildPrecode.lens = b'.lens ∧ b.buildPrecode.code = (b'.buildCodes .precode).code
      ∧ b.buildPrecode.hb = ⟨writeItems 0 items b.hb.items, BitVec.ofNat 9 items.length, BitVec.ofNat 9 (trimLitlen (b.lens.lengths .litlen)),
          BitVec.ofNat 5 (trimOffset (b.lens.lengths .offset)), BitVec.ofNat 5 (trimPrecode (b'.lens.lengths .precode))⟩ := by
  subst hi
  unfold Huff.buildPrecode
  simp only [Huff.buildCodes_lens]
  exact ⟨rfl, trivial, trivial, trivial⟩

/-- What `Lens(litlen)`, `Lens(offset)` leave. -/
theorem Huff.buildLens_fields (b : Huff) :
    ((b.buildLens .litlen).buildLens .offset).lens.lengths .litlen = lengthsFor .litlen b.freq.litlen
      ∧ ((b.buildLens .litlen).buildLens .offset).lens.lengths .offset = lengthsFor .offset b.freq.offset
      ∧ ((b.buildLens .litlen).buildLens .offset).freq = b.freq := by
  refine ⟨?_, ?_, rfl⟩
  · rw [lengths_buildLens_ne _ (by decide), lengths_buildLens]; rfl
  · rw [lengths_buildLens]; rfl

theorem Huff.described_statistics (b : Huff) (toks : List Token) : (b.statistics toks).Described := by
  unfold Huff.statistics
  generalize (toks.foldl Huff.tallyToken b.clear).tally .litlen eobSymbol = b0
  simp only []
  obtain ⟨l1, o1, f1⟩ := b0.buildLens_fields
  generalize (b0.buildLens .litlen).buildLens .offset = b1 at l1 o1 f1
  have hl : ∀ v ∈ b1.lens.lengths .litlen, v ≤ 15 := by
    rw [l1]; exact (lengthsFor_complete .litlen _).1
  have ho : ∀ v ∈ b1.lens.lengths .offset, v ≤ 15 := by
    rw [o1]; exact (lengthsFor_complete .offset _).1
  obtain ⟨q1, q2⟩ := lengthSequence_legal hl ho
  obtain ⟨-, r2, r3⟩ := rle_spec _ q1
  obtain ⟨items, hi⟩ : ∃ items, rle (lengthSequence (b1.lens.lengths .litlen) (b1.lens.lengths .offset)) = items := ⟨_, rfl⟩
  obtain ⟨pf, pl, pc, ph⟩ := b1.buildPrecode_fields items hi
  rw [hi] at r2 r3
  have el : b1.buildPrecode.lens.lengths .litlen = b1.lens.lengths .litlen := by
    rw [pl]; exact lengths_buildLens_ne _ (by decide)
  have eo : b1.buildPrecode.lens.lengths .offset = b1.lens.lengths .offset := by
    rw [pl]; exact lengths_buildLens_ne _ (by decide)
  have ep : b1.buildPrecode.lens.lengths .precode = lengthsFor .precode (Table.ofList 32 (itemCounts items)) := by
    rw [pl, lengths_buildLens]; rfl
  have e7 := (lengthsFor_complete .precode (Table.ofList 32 (itemCounts items))).1
  have tl := trimLitlen_le (b1.lens.lengths .litlen)
  have t2 := trimOffset_le (b1.lens.lengths .offset)
  refine ⟨⟨_, el.trans l1, ?_⟩, ⟨_, eo.trans o1, ?_⟩, by rw [el, eo, hi]; exact ep, ⟨rfl, ?_, fun v hv => ?_⟩, ?_, ?_, ?_, ?_⟩
  · rw [pf, ← f1]; rfl
  · rw [pf, ← f1]; rfl
  · rw [Trio.table, pc, pl]
    exact Trio.table_put_same _ .precode _
  · rw [ep] at hv
    have := e7 v hv
    simp only [Alphabet.maxLen] at this
    omega
  · rw [el, eo, hi]
    exact itemList_written (t := b1.hb.items) (by rw [ph]) (by rw [ph, BitVec.toNat_ofNat, Nat.mod_eq_of_lt (by omega)]) r2
  · rw [el, ph, BitVec.toNat_ofNat, Nat.mod_eq_of_lt (by omega)]
  · rw [eo, ph, BitVec.toNat_ofNat, Nat.mod_eq_of_lt (by omega)]
  · have := trimPrecode_le (b1.buildPrecode.lens.lengths .precode)
    rw [ph, ← pl, BitVec.toNat_ofNat, Nat.mod_eq_of_lt (by omega)]

/-- The codes of a described block. -/
def Huff.codes (b : Huff) : Codes := ⟨b.lens.lengths .litlen, b.lens.lengths .offset, b.lens.lengths .precode⟩

/-- The header's fields, precode lengths and items describe the block's codes. -/
theorem Huff.Described.describes {b : Huff} (h : b.Described) :
    Describes (BitVec.ofNat 5 (b.hb.nlit.toNat - 257)) (BitVec.ofNat 5 (b.hb.ndist.toNat - 1)) (BitVec.ofNat 4 (b.hb.npre.toNat - 4))
      (b.lens.lengths .precode) (b.hb.itemList.map itemInstr) b.codes := by
  obtain ⟨tl, el, -⟩ := h.litlen
  obtain ⟨t2, eo, -⟩ := h.offset
  have hp := h.precode
  have hi := h.items
  have hnl := h.nlit
  have hnd := h.ndist
  have hnp := h.npre
  have cl := lengthsFor_complete .litlen tl
  have co := lengthsFor_complete .offset t2
  have lenL : (b.lens.lengths .litlen).length = 288 := length_lengths _ .litlen
  have lenO : (b.lens.lengths .offset).length = 32 := length_lengths _ .offset
  have lenP : (b.lens.lengths .precode).length = 19 := length_lengths _ .precode
  have zl : ∀ j, trimLitlen (b.lens.lengths .litlen) ≤ j → (b.lens.lengths .litlen).getD j 0 = 0 := fun j hj => by
    rcases Nat.lt_or_ge j 286 with h | h
    · rw [← getD_take _ 286 j h]
      exact getD_usedLength _ (by unfold trimLitlen at hj; omega)
    · rw [el]; exact lengthsFor_unused .litlen tl h
  have zo : ∀ j, trimOffset (b.lens.lengths .offset) ≤ j → (b.lens.lengths .offset).getD j 0 = 0 := fun j hj => by
    rcases Nat.lt_or_ge j 30 with h | h
    · rw [← getD_take _ 30 j h]
      exact getD_usedLength _ (by unfold trimOffset at hj; omega)
    · rw [eo]; exact lengthsFor_unused .offset t2 h
  have zp : ∀ j, trimPrecode (b.lens.lengths .precode) ≤ j → j < 19 → (b.lens.lengths .precode).getD (precodeOrder.getD j 0) 0 = 0 :=
    fun j hj h19 => by
      have g := getD_usedLength (precodeOrder.map fun s => (b.lens.lengths .precode).getD s 0) (j := j) (by unfold trimPrecode at hj; omega)
      rw [List.getD_eq_getElem _ _ (by rw [List.length_map, length_precodeOrder]; exact h19), List.getElem_map] at g
      rw [show precodeOrder.getD j 0 = precodeOrder[j] from List.getD_eq_getElem _ _ _]
      exact g
  have l286 := trimLitlen_le (b.lens.lengths .litlen)
  have l257 : 257 ≤ trimLitlen (b.lens.lengths .litlen) := Nat.le_max_left _ _
  have o30 := trimOffset_le (b.lens.lengths .offset)
  have o1 : 1 ≤ trimOffset (b.lens.lengths .offset) := Nat.le_max_left _ _
  have p19 := trimPrecode_le (b.lens.lengths .precode)
  have p4 : 4 ≤ trimPrecode (b.lens.lengths .precode) := Nat.le_max_left _ _
  have m1 : (BitVec.ofNat 5 (b.hb.nlit.toNat - 257)).toNat = trimLitlen (b.lens.lengths .litlen) - 257 := by
    rw [BitVec.toNat_ofNat, hnl, Nat.mod_eq_of_lt (by omega)]
  have m2 : (BitVec.ofNat 5 (b.hb.ndist.toNat - 1)).toNat = trimOffset (b.lens.lengths .offset) - 1 := by
    rw [BitVec.toNat_ofNat, hnd, Nat.mod_eq_of_lt (by omega)]
  have m3 : (BitVec.ofNat 4 (b.hb.npre.toNat - 4)).toNat = trimPrecode (b.lens.lengths .precode) - 4 := by
    rw [BitVec.toNat_ofNat, hnp, Nat.mod_eq_of_lt (by omega)]
  obtain ⟨q1, q2⟩ := lengthSequence_legal (l := b.lens.lengths .litlen) (o := b.lens.lengths .offset)
    (by rw [el]; exact cl.1) (by rw [eo]; exact co.1)
  obtain ⟨r1, r2, r3⟩ := rle_spec _ q1
  rw [← hi] at r1 r2 r3
  have seqNat : ((lengthSequence (b.lens.lengths .litlen) (b.lens.lengths .offset)).map (BitVec.ofNat 4)).map BitVec.toNat
      = lengthSequence (b.lens.lengths .litlen) (b.lens.lengths .offset) := by
    rw [List.map_map]
    refine (List.map_congr_left fun v hv => ?_).trans (List.map_id _)
    have := q1 v hv
    simp only [Function.comp_apply, BitVec.toNat_ofNat, id_eq]
    omega
  have lenT : (List.take (trimLitlen (b.lens.lengths .litlen)) (b.lens.lengths .litlen)).length = trimLitlen (b.lens.lengths .litlen) := by
    rw [List.length_take, lenL]; omega
  refine ⟨by rw [m1]; omega, by rw [m2]; omega, lenP, ?_, fun j hj h19 => zp j (by rw [m3] at hj; omega) h19, ?_, fun i him => ?_,
    ⟨(lengthSequence (b.lens.lengths .litlen) (b.lens.lengths .offset)).map (BitVec.ofNat 4), ?_, ?_, ?_, ?_⟩, ?_, ?_⟩
  · rw [hp]; exact (lengthsFor_complete .precode _).1
  · rw [hp]; exact lengthsFor_built _ _
  · obtain ⟨it, hit, rfl⟩ := List.mem_map.mp him
    refine cover_item (r2 it hit) ?_
    have hlt : it.1 < 19 := by have := (r2 it hit).1; omega
    rw [hp]
    refine lengthsFor_used .precode _ hlt ?_
    rw [← hi, Table.get_ofList, itemCounts, List.getD_eq_getElem _ _ (by simpa using hlt), List.getElem_map, List.getElem_range,
      BitVec.toNat_ofNat]
    have c1 : 0 < (b.hb.itemList.map Prod.fst).count it.1 := List.count_pos_iff.mpr (List.mem_map_of_mem hit)
    have c2 := List.count_le_length (a := it.1) (l := b.hb.itemList.map Prod.fst)
    rw [List.length_map] at c2
    rw [Nat.mod_eq_of_lt (by omega)]
    exact c1
  · exact lengthsOf_items _ r2 (acc := []) r1
  · rw [List.length_map, m1, m2]
    simp only [lengthSequence, List.length_append, List.length_take, lenL, lenO]
    omega
  · rw [List.map_take, seqNat, m1, show trimLitlen (b.lens.lengths .litlen) - 257 + 257 = trimLitlen (b.lens.lengths .litlen) by omega,
      lengthSequence, List.take_append_of_le_length (by rw [lenT]), List.take_take, Nat.min_self]
    exact (take_append_zeros (by rw [lenL]; omega) zl).symm
  · rw [List.map_drop, seqNat, m1, m2, show trimLitlen (b.lens.lengths .litlen) - 257 + 257 = trimLitlen (b.lens.lengths .litlen) by omega,
      lengthSequence, List.drop_left' lenT]
    exact (take_append_zeros (by rw [lenO]; omega) zo).symm
  · rw [Huff.codes, el]; exact lengthsFor_built _ _
  · rw [Huff.codes, eo]; exact lengthsFor_built _ _

/-- The header of a dynamic block is sent as the bits of its elements (rule R244). -/
theorem Sink.writes_emitDynamicHeader (k : Sink) {b : Huff} (h : b.Described) (final : Bool) (c : Codes) :
    Sink.Writes (headerBits final 2 ++ (encode c (.dynamicHeader (BitVec.ofNat 5 (b.hb.nlit.toNat - 257))
        (BitVec.ofNat 5 (b.hb.ndist.toNat - 1)) (BitVec.ofNat 4 (b.hb.npre.toNat - 4)))
      ++ (precodeBits ((BitVec.ofNat 4 (b.hb.npre.toNat - 4)).toNat + 4) (b.lens.lengths .precode)
        ++ (b.hb.itemList.map itemInstr).flatMap (encode (preCodes (b.lens.lengths .precode))))))
      k (k.emitDynamicHeader b final) := by
  have D := h.describes
  have hi := h.items
  have l286 := trimLitlen_le (b.lens.lengths .litlen)
  have o30 := trimOffset_le (b.lens.lengths .offset)
  have p19 := trimPrecode_le (b.lens.lengths .precode)
  have p4 : 4 ≤ trimPrecode (b.lens.lengths .precode) := Nat.le_max_left _ _
  have hnl := h.nlit
  have hnd := h.ndist
  have hnp := h.npre
  have m3 : (BitVec.ofNat 4 (b.hb.npre.toNat - 4)).toNat + 4 = b.hb.npre.toNat := by
    rw [BitVec.toNat_ofNat, hnp, Nat.mod_eq_of_lt (by omega)]; omega
  have legal : ∀ it ∈ b.hb.itemList, itemLegal it := by
    rw [hi]
    obtain ⟨tl, el, -⟩ := h.litlen
    obtain ⟨t2, eo, -⟩ := h.offset
    exact (rle_spec _ (lengthSequence_legal (by rw [el]; exact (lengthsFor_complete .litlen tl).1)
      (by rw [eo]; exact (lengthsFor_complete .offset t2).1)).1).2.1
  unfold Sink.emitDynamicHeader
  have pre := Sink.writes_foldl (fun (k : Sink) (s : Nat) => k.put (Table.get b.lens.precode s).toNat 3)
    (fun s => bitsOf 3 ((b.lens.lengths .precode).getD s 0)) (precodeOrder.take b.hb.npre.toNat) fun s hs k => by
      have hs19 : s < 19 := by
        have : ∀ s ∈ precodeOrder, s < 19 := by decide
        exact this s (List.mem_of_mem_take hs)
      have e : (b.lens.lengths .precode).getD s 0 = (Table.get b.lens.precode s).toNat := by
        rw [Trio.lengths, Table.getD_toList, if_pos (by simp only [Alphabet.slots]; omega)]; rfl
      rw [e]
      refine Sink.writes_put k (by decide) ?_
      rw [← e]
      have := getD_le_of_all D.le s
      omega
  have it := Sink.writes_foldl (Sink.emitItem b) (fun it => encode (preCodes (b.lens.lengths .precode)) (itemInstr it)) b.hb.itemList
    fun it hit k => Sink.writes_emitItem k h.coded (legal it hit)
  refine ((((((Sink.writes_put k (v := final.toNat) (n := 1) (by decide) (by cases final <;> decide)).trans
    (Sink.writes_put _ (v := 2) (n := 2) (by decide) (by decide))).trans
    (Sink.writes_put _ (n := 5) (by decide) (by omega))).trans
    (Sink.writes_put _ (n := 5) (by decide) (by omega))).trans
    (Sink.writes_put _ (n := 4) (by decide) (by omega))).trans (pre _) |>.trans (it _)).congr ?_
  have head : bitsOf 1 final.toNat = [final] := by cases final <;> rfl
  have fields : ∀ (u v : BitVec 5) (w : BitVec 4), encode c (.dynamicHeader u v w)
      = bitsOf 5 u.toNat ++ (bitsOf 5 v.toNat ++ bitsOf 4 w.toNat) := fun _ _ _ => rfl
  rw [fields, m3]
  simp only [precodeBits, BitVec.toNat_ofNat, bitsOf_mod, List.flatMap_map, headerBits, List.append_assoc, head,
    List.cons_append, List.nil_append]

end Sys2Proof.Machine
end

