-- ==== Sys2Proof/Laws/Exec.lean ====
section
/-! SUPPORT. What `exec` can do, said once: a command that needs a handle runs its body under
`withHandle`, a stream element runs on the decompressor's part of the state, NOP and CREATE stand
alone. -/

namespace Sys2Proof.Machine

/-- The body of a command that needs a handle; the state as it is for any other instruction. -/
def commandBody (i : Instr) (s : State) : State × Result :=
  match i with
  | .destroy => (s.clearUnits, .success)
  | .compress => compressBody s
  | .bound => (s.setA4 (boundOf s.port.a0.toNat), .success)
  | .decompress => decompressBody s
  | .tread space => treadBody space s
  | .twrite space => twriteBody space s
  | .mfInit => mfInitBody s
  | .mfFind => mfFindBody s
  | .mfSkip => mfSkipBody s
  | .mfSlide => mfSlideBody s
  | .hbClear => (s.withHuff s.huff.clear, .success)
  | .hbTally x => hbTallyBody x s
  | .hbMatch => hbMatchBody s
  | .hbLens x => (s.withHuff (s.huff.buildLens x), .success)
  | .hbCodes x => (s.withHuff (s.huff.buildCodes x), .success)
  | .hbFixed => (s.withHuff s.huff.loadFixed, .success)
  | .hbPrecode => (s.withHuff s.huff.buildPrecode, .success)
  | .dtBuild x => dtBuildBody x s
  | .dtDecode x => dtDecodeBody x s
  | .bwInit => bwInitBody s
  | .bwPut => bwPutBody s
  | .bwAlign => bwAlignBody s
  | .bwFlush => bwFlushBody s
  | .bwBytes => bwBytesBody s
  | .brInit => brInitBody s
  | .brPeek => brPeekBody s
  | .brDrop => brDropBody s
  | .brGet => brGetBody s
  | .brAlign => brAlignBody s
  | .brBytes => brBytesBody s
  | .dxInit => dxInitBody s
  | .dxStep => dxStepBody s
  | _ => (s, .success)

/-- A command that needs a handle. -/
def isHandleCommand (i : Instr) : Bool := isCommand i && !needsNoHandle i

theorem exec_handleCommand {i : Instr} (h : isHandleCommand i = true) (s : State) :
    exec i s = withHandle s (commandBody i) := by
  cases i <;> first | rfl | simp [isHandleCommand, isCommand, encodeCommand, needsNoHandle] at h

theorem exec_element {i : Instr} (h : isCommand i = false) (s : State) :
    exec i s = .next (s.withInflate (s.inflate.run i)) := by
  cases i <;> first | rfl | simp [isCommand, encodeCommand] at h

/-- With a handle, a command ends in the state its body leaves, with the body's result. -/
theorem exec_alive {i : Instr} (h : isHandleCommand i = true) {s : State} (ha : s.handle.alive = true) :
    exec i s = .next ((commandBody i s).1.ended (commandBody i s).2) := by
  rw [exec_handleCommand h, withHandle_alive ha]; rfl

theorem exec_dead {i : Instr} (h : isHandleCommand i = true) {s : State} (ha : s.handle.alive = false) :
    exec i s = .next (s.ended .noHandle) := by
  rw [exec_handleCommand h, withHandle_dead ha]; rfl

/-- All an instruction can do. -/
theorem exec_next {i : Instr} {s t : State} (h : exec i s = .next t) :
    (isHandleCommand i = true ∧ s.handle.alive = true ∧ t = (commandBody i s).1.ended (commandBody i s).2)
      ∨ (isHandleCommand i = true ∧ s.handle.alive = false ∧ t = s.ended .noHandle)
      ∨ (isCommand i = false ∧ t = s.withInflate (s.inflate.run i))
      ∨ (i = .nop ∧ t = s.ended .success)
      ∨ ∃ level, i = .create level
          ∧ ((9 < level.toNat ∧ t = s.uncreated.ended .createFailed)
            ∨ (level.toNat ≤ 9 ∧ t = (s.created level).ended .success)) := by
  by_cases hh : isHandleCommand i = true
  · cases ha : s.handle.alive
    · rw [exec_dead hh ha] at h; cases h; exact .inr (.inl ⟨hh, rfl, rfl⟩)
    · rw [exec_alive hh ha] at h; cases h; exact .inl ⟨hh, rfl, rfl⟩
  · by_cases hc : isCommand i = true
    · have hn : needsNoHandle i = true := by simpa [isHandleCommand, hc] using hh
      cases i <;> first | simp [needsNoHandle] at hn; done | skip
      · cases h; exact .inr (.inr (.inr (.inl ⟨rfl, rfl⟩)))
      · rename_i level
        refine .inr (.inr (.inr (.inr ⟨level, rfl, ?_⟩)))
        by_cases hl : levelMax < level.toNat
        · simp only [exec, execCreate, if_pos hl] at h
          cases h; exact .inl ⟨hl, rfl⟩
        · simp only [exec, execCreate, if_neg hl] at h
          cases h; exact .inr ⟨Nat.not_lt.mp hl, rfl⟩
    · have hc : isCommand i = false := by simpa using hc
      rw [exec_element hc] at h; cases h; exact .inr (.inr (.inl ⟨hc, rfl⟩))

/-- Every instruction ends in a next state. -/
theorem exec_total (i : Instr) (s : State) : ∃ t, exec i s = .next t := by
  by_cases hh : isHandleCommand i = true
  · cases ha : s.handle.alive
    · exact ⟨_, exec_dead hh ha⟩
    · exact ⟨_, exec_alive hh ha⟩
  · by_cases hc : isCommand i = true
    · have hn : needsNoHandle i = true := by simpa [isHandleCommand, hc] using hh
      cases i <;> first | simp [needsNoHandle] at hn; done | skip
      · exact ⟨_, rfl⟩
      · rename_i level
        by_cases hl : levelMax < level.toNat
        · exact ⟨_, by simp only [exec, execCreate, if_pos hl]; rfl⟩
        · exact ⟨_, by simp only [exec, execCreate, if_neg hl]; rfl⟩
    · exact ⟨_, exec_element (by simpa using hc) s⟩

/-! ## `State.ended` -/

@[simp] theorem State.ended_handle (s : State) (r : Result) : (s.ended r).handle = s.handle := rfl
@[simp] theorem State.ended_mf (s : State) (r : Result) : (s.ended r).mf = s.mf := rfl
@[simp] theorem State.ended_cp (s : State) (r : Result) : (s.ended r).cp = s.cp := rfl
@[simp] theorem State.ended_freq (s : State) (r : Result) : (s.ended r).freq = s.freq := rfl
@[simp] theorem State.ended_lens (s : State) (r : Result) : (s.ended r).lens = s.lens := rfl
@[simp] theorem State.ended_code (s : State) (r : Result) : (s.ended r).code = s.code := rfl
@[simp] theorem State.ended_hb (s : State) (r : Result) : (s.ended r).hb = s.hb := rfl
@[simp] theorem State.ended_dtab (s : State) (r : Result) : (s.ended r).dtab = s.dtab := rfl
@[simp] theorem State.ended_bw (s : State) (r : Result) : (s.ended r).bw = s.bw := rfl
@[simp] theorem State.ended_br (s : State) (r : Result) : (s.ended r).br = s.br := rfl
@[simp] theorem State.ended_dx (s : State) (r : Result) : (s.ended r).dx = s.dx := rfl
@[simp] theorem State.ended_mem (s : State) (r : Result) : (s.ended r).mem = s.mem := rfl
@[simp] theorem State.ended_cfg (s : State) (r : Result) : (s.ended r).cfg = s.cfg := rfl
@[simp] theorem State.ended_host (s : State) (r : Result) : (s.ended r).host = s.host := rfl
@[simp] theorem State.ended_rdata (s : State) (r : Result) : (s.ended r).rdata = s.rdata := rfl
@[simp] theorem State.ended_draws (s : State) (r : Result) : (s.ended r).draws = s.draws := rfl
@[simp] theorem State.ended_a0 (s : State) (r : Result) : (s.ended r).port.a0 = s.port.a0 := rfl
@[simp] theorem State.ended_a1 (s : State) (r : Result) : (s.ended r).port.a1 = s.port.a1 := rfl
@[simp] theorem State.ended_a2 (s : State) (r : Result) : (s.ended r).port.a2 = s.port.a2 := rfl
@[simp] theorem State.ended_a3 (s : State) (r : Result) : (s.ended r).port.a3 = s.port.a3 := rfl
@[simp] theorem State.ended_a4 (s : State) (r : Result) : (s.ended r).port.a4 = s.port.a4 := rfl
@[simp] theorem State.ended_a5 (s : State) (r : Result) : (s.ended r).port.a5 = s.port.a5 := rfl
@[simp] theorem State.ended_a6 (s : State) (r : Result) : (s.ended r).port.a6 = s.port.a6 := rfl
@[simp] theorem State.ended_a7 (s : State) (r : Result) : (s.ended r).port.a7 = s.port.a7 := rfl
@[simp] theorem State.ended_cmd (s : State) (r : Result) : (s.ended r).port.cmd = s.port.cmd := rfl
@[simp] theorem State.ended_result (s : State) (r : Result) : (s.ended r).port.result = r := rfl

end Sys2Proof.Machine
end

