-- ==== Sys2Proof/Laws/FetchSound.lean ====
section
/-! SUPPORT. What the machine fetches stands in the input: a fetch that succeeds has consumed the bits of the
element it answers (rules R143, R308), so where no element stands the fetch fails (rule R377). -/

namespace Sys2Proof.Machine

theorem getD_bitsOf (n v k : Nat) (hk : k < n) : (bitsOf n v).getD k false = v.testBit k := by
  induction n generalizing v k with
  | zero => omega
  | succ n ih =>
    cases k with
    | zero => simp [bitsOf, Nat.testBit_zero]
    | succ k => rw [bitsOf, List.getD_cons_succ, ih _ _ (by omega), Nat.testBit_succ]

/-- A reader holds the bits it peeks (rule R342). -/
theorem Reader.holds_peek (r : Reader) (m : Memory) (n : Nat) : r.holds m (bitsOf n (r.peek m n)) := fun k hk => by
  rw [length_bitsOf] at hk
  rw [getD_bitsOf _ _ _ hk, Reader.peek, Reader.field_testBit, decide_eq_true hk, Bool.true_and]

theorem Reader.holds_concat {r : Reader} {m : Memory} {a b : List Bool} (ha : r.holds m a) (hb : (r.past a.length).holds m b)
    (h : r.bitpos.toNat + a.length ≤ 8 * r.len.toNat + 64) : r.holds m (a ++ b) := fun k hk => by
  rcases Nat.lt_or_ge k a.length with h' | h'
  · rw [ha k h']
    simp [List.getD, List.getElem?_append_left h']
  · have := hb (k - a.length) (by simp at hk; omega)
    rw [Reader.past_bitpos h, show r.bitpos.toNat + a.length + (k - a.length) = r.bitpos.toNat + k by omega] at this
    refine Eq.trans this ?_
    simp [List.getD, List.getElem?_append_right h']

/-- What `Get` can answer (rules R344, R346). -/
theorem Inflate.bits_cases (d : Inflate) (n : Nat) (r : Reader) :
    (∃ r', d.source.bits n r = (r', none))
      ∨ (d.source.bits n r = (r.past n, some (r.peek d.mem n)) ∧ r.holds d.mem (bitsOf n (r.peek d.mem n))
          ∧ r.peek d.mem n < 2 ^ n ∧ r.bitpos.toNat + n ≤ 8 * r.len.toNat + 64) := by
  have e : d.source.bits n r = r.get d.mem n := rfl
  rw [e, Reader.get_eq]
  split
  · rename_i h
    exact .inr ⟨rfl, r.holds_peek d.mem n, r.peek_lt d.mem n, h⟩
  · exact .inl ⟨r, rfl⟩

/-- What `Decode` can answer (rule R308). -/
theorem decodeSymbol_cases {x : Alphabet} {lens : List Nat} {t : Table 32} (hn : lens.length = x.slots)
    (h : buildTable x lens = some t) (m : Memory) (r : Reader) :
    (∃ r', decodeSymbol x t m r = (r', none))
      ∨ ∃ s, s < lens.length ∧ lens.getD s 0 ≠ 0 ∧ r.holds m (codewordBits lens s)
          ∧ r.bitpos.toNat + lens.getD s 0 ≤ 8 * r.len.toNat + 64 ∧ decodeSymbol x t m r = (r.past (lens.getD s 0), some s) := by
  have none_ : (decodeSymbol x t m r).2 = none → ∃ r', decodeSymbol x t m r = (r', none) := fun e => ⟨_, Prod.ext rfl e⟩
  by_cases hm : ∃ c ∈ codewordsOf lens, c.matches (r.ahead m)
  · obtain ⟨c, hc, hm⟩ := hm
    obtain ⟨s, hs, h0, rfl⟩ := mem_codewordsOf.mp hc
    by_cases hb : r.bitpos.toNat + lens.getD s 0 ≤ 8 * r.len.toNat + 64
    · refine .inr ⟨s, hs, h0, ?_, hb, (decodeSymbol_hit hn h m r hc hm).1 hb⟩
      have h15 := (valid_of_lengthsValid hn (buildTable_eq h).1).prefixFree.le _ hc
      have hp : r.peek m (lens.getD s 0) = rev (lens.getD s 0) ((canonical lens).getD s 0) := by
        have := hm
        rw [Codeword.matches, Reader.ahead, Reader.field_mod r m _ h15] at this
        exact this
      have := r.holds_peek m (lens.getD s 0)
      rwa [hp, bitsOf_rev] at this
    · exact .inl (none_ ((decodeSymbol_hit hn h m r hc hm).2 hb))
  · exact .inl (none_ (decodeSymbol_miss hn h m r fun c hc hm' => hm ⟨c, hc, hm'⟩))

theorem Inflate.symbol_cases {d : Inflate} {c : Codes} (f : d.From c) {x : Alphabet} (hx : x ≠ .precode) (r : Reader) :
    (∃ r', d.source.symbol x r = (r', none))
      ∨ ∃ s, s < x.slots ∧ (c.lens x).getD s 0 ≠ 0 ∧ r.holds d.mem (codewordBits (c.lens x) s)
          ∧ r.bitpos.toNat + (c.lens x).getD s 0 ≤ 8 * r.len.toNat + 64
          ∧ d.source.symbol x r = (r.past ((c.lens x).getD s 0), some s) := by
  cases x with
  | litlen =>
    have := decodeSymbol_cases (x := .litlen) f.litlen f.builtLL d.mem r
    rw [f.litlen] at this
    exact this
  | offset =>
    have := decodeSymbol_cases (x := .offset) f.offset f.builtOF d.mem r
    rw [f.offset] at this
    exact this
  | precode => exact absurd rfl hx

/-- The bits of an element stand next in the input, within the overread bound. -/
def Inflate.stands (d : Inflate) (c : Codes) (r : Reader) (i : Instr) : Prop :=
  c.cover i = true ∧ i.wellFormed = true ∧ r.holds d.mem (encode c i)
    ∧ r.bitpos.toNat + (encode c i).length ≤ 8 * r.len.toNat + 64

theorem readMatchOffset_sound {d : Inflate} {c : Codes} (f : d.From c) {r r' r'' : Reader} {ls lx : Nat} {i : Instr}
    (hls : ls ≤ 28) (hlx : lx < 2 ^ lenExtra ls) (h0 : c.litlen.getD (257 + ls) 0 ≠ 0)
    (hh : r.holds d.mem (codewordBits c.litlen (257 + ls) ++ bitsOf (lenExtra ls) lx))
    (hb : r.bitpos.toNat + (codewordBits c.litlen (257 + ls) ++ bitsOf (lenExtra ls) lx).length ≤ 8 * r.len.toNat + 64)
    (hr : r' = r.past (codewordBits c.litlen (257 + ls) ++ bitsOf (lenExtra ls) lx).length)
    (h : readMatchOffset d.source ls lx r' = (r'', .ok i)) :
    (i.expect = .litlen ∧ d.stands c r i) ∨ ∃ symbol, i = .ofReserved symbol := by
  have p := Reader.past_bitpos hb
  have hx5 : lenExtra ls ≤ 5 := by interval_cases ls <;> decide
  have hlt : lx < 32 := Nat.lt_of_lt_of_le hlx (Nat.pow_le_pow_right (by decide) hx5)
  rcases Inflate.symbol_cases f (show Alphabet.offset ≠ .precode by decide) r' with ⟨q, e⟩ | ⟨t, -, t0, th, tb, e⟩
  · rw [readMatchOffset, e] at h; cases h
  · rw [readMatchOffset, e] at h
    simp only [] at h
    split at h
    · cases h; exact .inr ⟨_, rfl⟩
    · rename_i h30
      rcases Inflate.bits_cases d (offExtra t) (r'.past ((c.lens .offset).getD t 0)) with ⟨q, e'⟩ | ⟨e', vh, vlt, vb⟩
      · rw [e'] at h; cases h
      · rw [e'] at h
        cases h
        set v := (r'.past ((c.lens .offset).getD t 0)).peek d.mem (offExtra t)
        have hx13 : offExtra t ≤ 13 := by have := h30; interval_cases t <;> decide
        have hv : v < 8192 := Nat.lt_of_lt_of_le vlt (Nat.pow_le_pow_right (by decide) hx13)
        have e1 : (BitVec.ofNat 5 ls).toNat = ls := by rw [BitVec.toNat_ofNat]; omega
        have e2 : (BitVec.ofNat 5 lx).toNat = lx := by rw [BitVec.toNat_ofNat]; omega
        have e3 : (BitVec.ofNat 5 t).toNat = t := by rw [BitVec.toNat_ofNat]; omega
        have e4 : (BitVec.ofNat 13 v).toNat = v := by rw [BitVec.toNat_ofNat]; omega
        have el : r'.len = r.len := by rw [hr]; rfl
        have pt := Reader.past_bitpos tb
        have vb' : r'.bitpos.toNat + (c.lens .offset).getD t 0 + offExtra t ≤ 8 * r.len.toNat + 64 := by
          have : (r'.past ((c.lens .offset).getD t 0)).len = r.len := el
          rw [this] at vb; rw [pt] at vb; exact vb
        have rb : r'.bitpos.toNat = r.bitpos.toNat
            + (codewordBits c.litlen (257 + ls) ++ bitsOf (lenExtra ls) lx).length := by rw [hr]; exact p
        have enc : encode c (.copyMatch (BitVec.ofNat 5 ls) (BitVec.ofNat 5 lx) (BitVec.ofNat 5 t) (BitVec.ofNat 13 v))
            = (codewordBits c.litlen (257 + ls) ++ bitsOf (lenExtra ls) lx)
              ++ (codewordBits (c.lens .offset) t ++ bitsOf (offExtra t) v) := by
          simp only [encode, e1, e2, e3, e4, List.append_assoc]
          rfl
        refine .inl ⟨rfl, ?_, ?_, ?_, ?_⟩
        · simp only [Codes.cover, Instr.symbols, List.all_cons, List.all_nil, Bool.and_true, Bool.and_eq_true,
            decide_eq_true_eq, e1, e3]
          exact ⟨h0, t0⟩
        · simp only [Instr.wellFormed, e1, e2, e3, e4, Bool.and_eq_true, decide_eq_true_eq]
          exact ⟨⟨⟨by omega, hlx⟩, by omega⟩, vlt⟩
        · rw [enc]
          refine Reader.holds_concat hh ?_ hb
          rw [← hr]
          exact Reader.holds_concat th (by rw [length_codewordBits]; exact vh) (by rw [length_codewordBits]; exact tb)
        · rw [enc, List.length_append, ← Nat.add_assoc, ← rb, List.length_append, length_codewordBits, length_bitsOf]
          omega

/-- A litlen element that is read stands there (rules R370, R373); a reserved offset symbol is the one
other thing the reader can answer. -/
theorem readLitlen_sound {d : Inflate} {c : Codes} (f : d.From c) {r r' : Reader} {i : Instr}
    (h : readLitlen d.source r = (r', .ok i)) :
    (i.expect = .litlen ∧ d.stands c r i) ∨ ∃ symbol, i = .ofReserved symbol := by
  rcases Inflate.symbol_cases f (show Alphabet.litlen ≠ .precode by decide) r with ⟨q, e⟩ | ⟨s, hs, s0, sh, sb, e⟩
  · rw [readLitlen, e] at h; cases h
  · have hs' : s < 288 := hs
    rw [readLitlen, e] at h
    simp only [] at h
    have one : ∀ {j : Instr}, j.expect = .litlen → j.symbols = [(.litlen, s)] → j.wellFormed = true →
        encode c j = codewordBits c.litlen s → j.expect = .litlen ∧ d.stands c r j := fun he hsym hw henc =>
      ⟨he, by simpa [Codes.cover, hsym] using s0, hw, by rw [henc]; exact sh, by rw [henc, length_codewordBits]; exact sb⟩
    split at h
    · rename_i h1
      cases h
      have e8 : (BitVec.ofNat 8 s).toNat = s := by rw [BitVec.toNat_ofNat]; omega
      exact .inl (one rfl (by simp only [Instr.symbols, e8]) rfl (by simp only [encode, e8]))
    · split at h
      · rename_i h2
        cases h
        subst h2
        exact .inl (one rfl rfl rfl rfl)
      · split at h
        · rename_i h1 h2 h3
          rcases Inflate.bits_cases d (lenExtra (s - 257)) (r.past ((c.lens .litlen).getD s 0)) with ⟨q, e'⟩ | ⟨e', vh, vlt, vb⟩
          · rw [e'] at h; cases h
          · rw [e'] at h
            simp only [] at h
            have es : 257 + (s - 257) = s := by omega
            have p := Reader.past_bitpos sb
            have len : (codewordBits c.litlen (257 + (s - 257))
                ++ bitsOf (lenExtra (s - 257)) ((r.past ((c.lens .litlen).getD s 0)).peek d.mem (lenExtra (s - 257)))).length
                = (c.lens .litlen).getD s 0 + lenExtra (s - 257) := by
              rw [List.length_append, length_codewordBits, length_bitsOf, es]; rfl
            have vb' : r.bitpos.toNat + (c.lens .litlen).getD s 0 + lenExtra (s - 257) ≤ 8 * r.len.toNat + 64 := by
              rw [p] at vb; exact vb
            refine readMatchOffset_sound f (by omega) vlt (by rw [es]; exact s0) ?_ (by rw [len]; omega)
              (by rw [len]; exact Reader.past_past (by omega)) h
            rw [es]
            exact Reader.holds_concat sh (by rw [length_codewordBits]; exact vh) (by rw [length_codewordBits]; exact sb)
        · rename_i h1 h2 h3
          cases h
          have e16 : (BitVec.ofNat 16 s).toNat = s := by rw [BitVec.toNat_ofNat]; omega
          exact .inl (one rfl (by simp only [Instr.symbols, e16]) (by
            simp only [Instr.wellFormed, e16, Bool.and_eq_true, decide_eq_true_eq]; omega) (by simp only [encode, e16]))

end Sys2Proof.Machine
end

