-- ==== Sys2Proof/Laws/RoundTrip.lean ====
section
/-! SUPPORT. The stream of COMPRESS decodes to its input (rule R260 (a)): each block's bits lead the decompressor
from the output before the block to that output and the bytes the block covers. -/

namespace Sys2Proof.Machine

/-! ## A block's codes have every codeword it needs (rules R238, R277) -/

theorem Huff.statistics_cover (b : Huff) {toks : List Token} (hn : toks.length ≤ tokensMax) (ht : ∀ t ∈ toks, t.inRange) :
    (∀ t ∈ toks, (b.statistics toks).codes.cover t.elem = true) ∧ (b.statistics toks).codes.cover .eob = true := by
  obtain ⟨hl, ho, -, -⟩ := b.statistics_spec hn
  obtain ⟨⟨t1, e1, f1⟩, ⟨t2, e2, f2⟩, -, -, -, -, -, -⟩ := b.described_statistics toks
  have litlen : ∀ s, s < 286 → s ∈ toks.map Token.litlen ++ [eobSymbol] → (b.statistics toks).codes.litlen.getD s 0 ≠ 0 := fun s h hm => by
    rw [Huff.codes, e1]
    refine lengthsFor_used .litlen t1 h ?_
    rw [← f1, hl]
    exact List.count_pos_iff.mpr hm
  have offset : ∀ s, s < 30 → s ∈ toks.flatMap Token.offset → (b.statistics toks).codes.offset.getD s 0 ≠ 0 := fun s h hm => by
    rw [Huff.codes, e2]
    refine lengthsFor_used .offset t2 h ?_
    rw [← f2, ho]
    exact List.count_pos_iff.mpr hm
  refine ⟨fun t h => cover_elem (ht t h) (litlen _ t.litlen_lt (List.mem_append_left _ (List.mem_map_of_mem h))) fun s hs =>
    offset s (Token.offset_lt hs) (List.mem_flatMap.mpr ⟨t, h, hs⟩), ?_⟩
  unfold Codes.cover
  simpa [Instr.symbols, Codes.lens] using litlen 256 (by decide) (List.mem_append_right _ (by decide))

/-- The codewords HB.FIXED loads are those of the fixed codes (rule R283). -/
theorem Huff.coded_loadFixed (b : Huff) :
    b.loadFixed.Coded .litlen fixedLitlenLens ∧ b.loadFixed.Coded .offset fixedOffsetLens := by
  obtain ⟨h1, h2⟩ := fixed_lengths b.lens
  have l15 : (∀ l ∈ fixedLitlenLens, l ≤ 15) ∧ ∀ l ∈ fixedOffsetLens, l ≤ 15 := by
    constructor <;> decide +kernel
  unfold Huff.loadFixed
  exact ⟨Huff.coded_other (Huff.coded_buildCodes h1 l15.1) (by decide), Huff.coded_buildCodes h2 l15.2⟩

/-! ## A block (rules R239 to R245) -/

theorem Sink.length_bits (k : Sink) : k.bits.length = 8 * k.bw.nbytes.toNat + k.bw.nbits.toNat := by
  rw [Sink.bits, List.length_append, length_bitsOfBytes, length_bitsOf, Sink.bytes, Memory.length_bytes]

/-- Bytes outside the destination stay (rule R91). -/
theorem Sink.Extends.bytes {k k' : Sink} (e : Sink.Extends k k') (dst : k.bw.dst.toNat + k.bw.cap.toNat ≤ wordSpan) {base : Word}
    {i n : Nat} (h : ∀ j, j < n → ¬ inBuffer k.bw.dst k.bw.cap.toNat (bufferAddr base (i + j))) :
    k'.mem.bytes base i n = k.mem.bytes base i n :=
  Memory.bytes_congr fun j hj => e.frame dst _ (h j hj)

/-- A stored block's bits (rule R242). -/
theorem Sink.writes_emitStored {k : Sink} (ok : k.Ok) (src : Word) (start blen : Nat) (final : Bool) (hn : blen ≤ 65535)
    (ha : ∀ j, j < blen → ¬ inBuffer k.bw.dst k.bw.cap.toNat (bufferAddr src (start + j))) :
    Sink.Writes (headerBits final 0 ++ (List.replicate ((8 - (k.bits.length + 3) % 8) % 8) false
      ++ (bitsOf 16 blen ++ bitsOf 16 (blen ^^^ 0xFFFF) ++ bitsOfBytes (k.mem.bytes src start blen))))
      k (k.emitStored src start blen final) := by
  have w1 := (Sink.writes_put k (v := final.toNat) (n := 1) (by decide) (by cases final <;> decide)).trans
    (Sink.writes_put _ (v := 0) (n := 2) (by decide) (by decide))
  have n1 : ((k.put final.toNat 1).put 0 2).bw.nbits.toNat = (k.bw.nbits.toNat + 3) % 8 := by
    rw [Sink.put_nbits, Sink.put_nbits]; omega
  obtain ⟨w2, z⟩ := Sink.writes_align ((k.put final.toNat 1).put 0 2) (by rw [n1]; omega)
  have w3 := (Sink.writes_put ((k.put final.toNat 1).put 0 2).align (v := blen) (n := 16) (by decide) (by omega)).trans
    (Sink.writes_put _ (v := blen ^^^ 0xFFFF) (n := 16) (by decide) (Nat.xor_lt_two_pow (n := 16) (by omega) (by decide)))
  have w := (w1.trans w2).trans w3
  have z3 : ((((k.put final.toNat 1).put 0 2).align.put blen 16).put (blen ^^^ 0xFFFF) 16).bw.nbits = 0 := by
    refine BitVec.eq_of_toNat_eq ?_
    rw [Sink.put_nbits, Sink.put_nbits, z]
    rfl
  have w4 := Sink.writes_putBytes src start blen _ z3 (by rw [w.ext.dst, w.ext.cap]; exact ha)
  rw [w.ext.bytes ok.dst ha] at w4
  refine (w.trans w4).congr ?_
  have head : bitsOf 1 final.toNat ++ bitsOf 2 0 = headerBits final 0 := by cases final <;> rfl
  rw [head, n1, Sink.length_bits, show (8 - (k.bw.nbits.toNat + 3) % 8) % 8 = (8 - (8 * k.bw.nbytes.toNat + k.bw.nbits.toNat + 3) % 8) % 8 by omega]
  simp only [List.append_assoc]

/-- A block's bits decode to the bytes it covers. -/
theorem Deflate.emitBlock_decodes {d : Deflate} {src : Word} {bstart bend : Nat} (final : Bool) (ok : d.out.Ok)
    (hn : d.cp.tok.length ≤ tokensMax) (ht : ∀ t ∈ d.cp.tok, t.inRange) (hb : bend - bstart ≤ 65535)
    (ha : ∀ j, j < bend - bstart → ¬ inBuffer d.out.bw.dst d.out.bw.cap.toNat (bufferAddr src (bstart + j))) {x : List Byte}
    (hy : expandTokens x d.cp.tok = some (x ++ d.out.mem.bytes src bstart (bend - bstart))) :
    ∃ bs, Sink.Writes bs d.out (d.emitBlock src bstart bend final).out
      ∧ Decodes d.out.bits.length bs x (x ++ d.out.mem.bytes src bstart (bend - bstart)) final := by
  unfold Deflate.emitBlock
  simp only []
  split
  · have w := Sink.writes_emitStored ok src bstart (bend - bstart) final hb ha
    have g := decodes_stored d.out.bits.length x (d.out.mem.bytes src bstart (bend - bstart)) final
      (by rw [Memory.length_bytes]; exact hb)
    rw [Memory.length_bytes] at g
    exact ⟨_, w, g⟩
  · split
    · obtain ⟨c1, c2⟩ := (d.huff.statistics d.cp.tok).coded_loadFixed
      have head : bitsOf 1 final.toNat ++ bitsOf 2 1 = headerBits final 1 := by cases final <;> rfl
      have w := ((Sink.writes_put d.out (v := final.toNat) (n := 1) (by decide) (by cases final <;> decide)).trans
        (Sink.writes_put _ (v := 1) (n := 2) (by decide) (by decide))).trans
        (Sink.writes_emitTokens (c := Codes.fixed) _ c1 c2 ht)
      rw [head] at w
      exact ⟨_, w, decodes_fixed _ final ht hy⟩
    · have hd := d.huff.described_statistics d.cp.tok
      obtain ⟨c1, c2⟩ := d.huff.statistics_cover hn ht
      generalize d.huff.statistics d.cp.tok = b at hd c1 c2
      obtain ⟨t1, e1, -⟩ := hd.litlen
      obtain ⟨t2, e2, -⟩ := hd.offset
      have k1 : ((b.buildCodes .litlen).buildCodes .offset).Coded .litlen b.codes.litlen :=
        Huff.coded_other (Huff.coded_buildCodes rfl (by
          rw [Huff.codes, e1]; exact (lengthsFor_complete .litlen t1).1)) (by decide)
      have k2 : ((b.buildCodes .litlen).buildCodes .offset).Coded .offset b.codes.offset :=
        Huff.coded_buildCodes rfl (by rw [Huff.codes, e2]; exact (lengthsFor_complete .offset t2).1)
      have w := (Sink.writes_emitDynamicHeader d.out hd final b.codes).trans (Sink.writes_emitTokens (c := b.codes) _ k1 k2 ht)
      rw [List.append_assoc] at w
      exact ⟨_, w, decodes_dynamic _ hd.describes final ht c1 c2 hy⟩

/-! ## A stream (rules R233 to R235) -/

/-- The blocks from a position on decode to the input left. -/
theorem Deflate.blocks_decodes (h : Handle) (src : Word) (n fuel pos : Nat) {d : Deflate} (hsrc : d.mf.src = src)
    (hlen : d.mf.len.toNat = n) (hcur : d.mf.cur = pos) (hwin : d.mf.pos.toNat ≤ windowSize) (hp : pos ≤ n) (hf : n < fuel + pos)
    (ok : d.out.Ok) (ha : ∀ j, j < n → ¬ inBuffer d.out.bw.dst d.out.bw.cap.toNat (bufferAddr src (0 + j))) :
    ∃ bs, Sink.Writes bs d.out (Deflate.blocks h src n fuel pos d).out
      ∧ ((Deflate.blocks h src n fuel pos d).out.bw.ovf = false →
          Decodes d.out.bits.length bs (d.out.mem.bytes src 0 pos) (d.out.mem.bytes src 0 n) true) := by
  induction fuel generalizing pos d with
  | zero => omega
  | succ k ih =>
    have ht : blockTarget = 32768 := rfl
    have hat : Parse.At d.mf 0 ⟨d.mf, [], pos⟩ := ⟨rfl, rfl, hwin, hcur, by simp only []; omega, by simp⟩
    obtain ⟨hq, hle, htok, hspan, hend⟩ := Parse.block_spec (mf := d.mf) h d.out.mem pos blockTarget hat (by simp) (by simp)
      (by simp only []; omega)
    have hspell := Parse.block_spells h d.out.mem pos pos blockTarget hat rfl
    rw [hlen] at hq hle htok hspan hend hspell
    rw [Parse.Spells, hsrc] at hspell
    have hdef : ∀ q, q = Parse.block h d.out.mem n pos blockTarget ⟨d.mf, [], pos⟩ → Deflate.blocks h src n (k + 1) pos d
        = if q.pos = n then Deflate.emitBlock { d with mf := q.mf, cp := ⟨q.toks.reverse, BitVec.ofNat 32 pos⟩ } src pos q.pos (decide (q.pos = n))
          else Deflate.blocks h src n k q.pos
            (Deflate.emitBlock { d with mf := q.mf, cp := ⟨q.toks.reverse, BitVec.ofNat 32 pos⟩ } src pos q.pos (decide (q.pos = n))) :=
      fun q e => by rw [e]; rfl
    rw [hdef _ rfl]
    generalize Parse.block h d.out.mem n pos blockTarget ⟨d.mf, [], pos⟩ = q at hq hle htok hspan hend hspell
    have hle' : pos ≤ q.pos := hle
    have hin : q.pos ≤ n := hlen ▸ hq.inside
    have hspan' : q.pos ≤ pos + 33280 := by simp only [] at hspan; omega
    have hmax : tokensMax = 33024 := rfl
    have split : ∀ a, pos ≤ a → d.out.mem.bytes src 0 a = d.out.mem.bytes src 0 pos ++ d.out.mem.bytes src pos (a - pos) := fun a h => by
      have := Memory.bytes_add d.out.mem src 0 pos (a - pos)
      rwa [Nat.zero_add, show pos + (a - pos) = a by omega] at this
    obtain ⟨bs, w, g⟩ := Deflate.emitBlock_decodes (d := { d with mf := q.mf, cp := ⟨q.toks.reverse, BitVec.ofNat 32 pos⟩ })
      (src := src) (bstart := pos) (bend := q.pos) (decide (q.pos = n)) ok (by show q.toks.reverse.length ≤ _; rw [List.length_reverse]; omega)
      (fun t ht => hq.tokens t (List.mem_reverse.mp ht)) (by omega)
      (fun j hj => by have := ha (pos + j) (by omega); rwa [Nat.zero_add] at this) (x := d.out.mem.bytes src 0 pos)
      (by rw [← split _ hle']; exact hspell)
    rw [← split _ hle'] at g
    obtain ⟨-, emf⟩ := Deflate.emitBlock_cp { d with mf := q.mf, cp := ⟨q.toks.reverse, BitVec.ofNat 32 pos⟩ } src pos q.pos (decide (q.pos = n))
    generalize Deflate.emitBlock _ src pos q.pos (decide (q.pos = n)) = e at w emf
    have w' : Sink.Writes bs d.out e.out := w
    have g' : Decodes d.out.bits.length bs (d.out.mem.bytes src 0 pos) (d.out.mem.bytes src 0 q.pos) (decide (q.pos = n)) := g
    by_cases hfin : q.pos = n
    · rw [if_pos hfin]
      rw [hfin, decide_eq_true rfl] at g'
      exact ⟨bs, w', fun _ => g'⟩
    · rw [if_neg hfin]
      rw [decide_eq_false hfin] at g'
      have same : ∀ a, a ≤ n → e.out.mem.bytes src 0 a = d.out.mem.bytes src 0 a := fun a h =>
        w'.ext.bytes ok.dst fun j hj => ha j (by omega)
      obtain ⟨cs, v, f⟩ := ih q.pos (d := e) (by rw [emf]; exact hq.src.trans hsrc) (by rw [emf]; show q.mf.len.toNat = n; rw [hq.len, hlen])
        (by rw [emf]; exact hq.cur) (by rw [emf]; exact hq.window) hin (by rcases hend with g | g <;> omega) (w'.ok ok)
        (by rw [w'.ext.dst, w'.ext.cap]; exact ha)
      refine ⟨bs ++ cs, w'.trans v, fun o => ?_⟩
      have f := f o
      rw [same _ hin, same _ (Nat.le_refl n), w'.bits ok (v.ext.no_overflow o), List.length_append] at f
      exact g'.append f (by rw [Memory.length_bytes, Memory.length_bytes]; exact hin)

/-- The stored blocks of level 0 decode to the input left (rule R234). -/
theorem Sink.storedOnly_decodes (src : Word) (n fuel pos : Nat) {k : Sink} (hp : pos ≤ n) (hf : n < fuel + pos) (ok : k.Ok)
    (ha : ∀ j, j < n → ¬ inBuffer k.bw.dst k.bw.cap.toNat (bufferAddr src (0 + j))) :
    ∃ bs, Sink.Writes bs k (Sink.storedOnly src n fuel pos k)
      ∧ ((Sink.storedOnly src n fuel pos k).bw.ovf = false → Decodes k.bits.length bs (k.mem.bytes src 0 pos) (k.mem.bytes src 0 n) true) := by
  induction fuel generalizing pos k with
  | zero => omega
  | succ f ih =>
    have hm : storedMax = 65535 := rfl
    have hdef : ∀ l, l = min storedMax (n - pos) → Sink.storedOnly src n (f + 1) pos k
        = if pos + l = n then k.emitStored src pos l (decide (pos + l = n))
          else Sink.storedOnly src n f (pos + l) (k.emitStored src pos l (decide (pos + l = n))) := fun l e => by rw [e]; rfl
    obtain ⟨l, hl⟩ : ∃ l, l = min storedMax (n - pos) := ⟨_, rfl⟩
    rw [hdef l hl]
    have w := Sink.writes_emitStored ok src pos l (decide (pos + l = n)) (by omega)
      (fun j hj => by have := ha (pos + j) (by omega); rwa [Nat.zero_add] at this)
    have g := decodes_stored k.bits.length (k.mem.bytes src 0 pos) (k.mem.bytes src pos l) (decide (pos + l = n))
      (by rw [Memory.length_bytes]; omega)
    have cut := Memory.bytes_add k.mem src 0 pos l
    rw [Nat.zero_add] at cut
    rw [Memory.length_bytes, ← cut] at g
    generalize headerBits (decide (pos + l = n)) 0 ++ _ = bs at w g
    generalize k.emitStored src pos l (decide (pos + l = n)) = e at w
    by_cases hfin : pos + l = n
    · rw [if_pos hfin]
      rw [hfin, decide_eq_true rfl] at g
      exact ⟨bs, w, fun _ => g⟩
    · rw [if_neg hfin]
      rw [decide_eq_false hfin] at g
      have same : ∀ a, a ≤ n → e.mem.bytes src 0 a = k.mem.bytes src 0 a := fun a h => w.ext.bytes ok.dst fun j hj => ha j (by omega)
      obtain ⟨cs, v, c⟩ := ih (pos + l) (k := e) (by omega) (by omega) (w.ok ok) (by rw [w.ext.dst, w.ext.cap]; exact ha)
      refine ⟨bs ++ cs, w.trans v, fun o => ?_⟩
      have c := c o
      rw [same _ (by omega), same _ (Nat.le_refl n), w.bits ok (v.ext.no_overflow o), List.length_append] at c
      exact g.append c (by rw [Memory.length_bytes, Memory.length_bytes]; omega)

/-- Level 0 appends the input and five bytes a block, from a byte boundary on (rules R234, R260 (b)). -/
theorem Sink.appends_storedOnly (src : Word) (n fuel pos : Nat) {k : Sink} (hp : pos ≤ n) (hf : n < fuel + pos) (h0 : k.bw.nbits = 0) :
    Sink.Appends (8 * ((n - pos) + 5 * max 1 (ceilDiv (n - pos) 65535))) k (Sink.storedOnly src n fuel pos k) := by
  induction fuel generalizing pos k with
  | zero => omega
  | succ f ih =>
    have hm : storedMax = 65535 := rfl
    have hdef : ∀ l, l = min storedMax (n - pos) → Sink.storedOnly src n (f + 1) pos k
        = if pos + l = n then k.emitStored src pos l (decide (pos + l = n))
          else Sink.storedOnly src n f (pos + l) (k.emitStored src pos l (decide (pos + l = n))) := fun l e => by rw [e]; rfl
    obtain ⟨l, hl⟩ : ∃ l, l = min storedMax (n - pos) := ⟨_, rfl⟩
    rw [hdef l hl]
    have h0' : k.bw.nbits.toNat = 0 := by rw [h0]; rfl
    have a := Sink.appends_emitStored (k := k) (by omega) src pos l (decide (pos + l = n))
    have cost : costStored k.bw l = 8 * (l + 5) := by rw [costStored, h0']; omega
    have z : (k.emitStored src pos l (decide (pos + l = n))).bw.nbits = 0 := by
      have nb : ∀ (i c : Nat) (k : Sink), (Sink.putBytes src i c k).bw.nbits = k.bw.nbits := fun i c => by
        induction c generalizing i with
        | zero => exact fun _ => rfl
        | succ c ih => exact fun k => (ih (i + 1) _).trans (Sink.putByte_nbits _ _)
      have := (Sink.writes_align ((k.put (decide (pos + l = n)).toNat 1).put 0 2) (by rw [Sink.put_nbits]; omega)).2
      unfold Sink.emitStored
      refine (nb _ _ _).trans (BitVec.eq_of_toNat_eq ?_)
      rw [Sink.put_nbits, Sink.put_nbits, this]
      rfl
    rw [cost] at a
    generalize k.emitStored src pos l (decide (pos + l = n)) = e at a z
    by_cases hfin : pos + l = n
    · rw [if_pos hfin]
      refine a.congr ?_
      unfold ceilDiv
      omega
    · rw [if_neg hfin]
      obtain ⟨r, hr⟩ : ∃ r, n - (pos + l) = r + 1 := ⟨n - (pos + l) - 1, by omega⟩
      have block : ceilDiv (n - pos) 65535 = ceilDiv (r + 1) 65535 + 1 := by
        unfold ceilDiv
        rw [show n - pos + (65535 - 1) = r + 1 + (65535 - 1) + 65535 by omega, Nat.add_div_right _ (by decide)]
      have pos1 : 1 ≤ ceilDiv (r + 1) 65535 := by
        unfold ceilDiv
        rw [show r + 1 + (65535 - 1) = r + 65535 by omega, Nat.add_div_right _ (by decide)]
        exact Nat.le_add_left _ _
      refine (a.trans (ih (pos + l) (by omega) (by omega) z)).congr ?_
      rw [hr, block, Nat.max_eq_right pos1, Nat.max_eq_right (by omega)]
      omega

/-! ## COMPRESS and DECOMPRESS (rules R233, R363) -/

/-- The writer of COMPRESS before its first block. -/
theorem Sink.ok_init {dst cap : Word} (m : Memory) (h : dst.toNat + cap.toNat ≤ wordSpan) :
    Sink.Ok ⟨Writer.init dst cap, m⟩ ∧ Sink.bits ⟨Writer.init dst cap, m⟩ = [] :=
  ⟨⟨⟨Nat.zero_lt_succ _, Nat.one_pos⟩, Nat.zero_le _, h⟩, rfl⟩

/-- What COMPRESS puts in the destination, where nothing overflowed: bits that decode to the input, and less
than a byte of padding; and it writes the destination alone. -/
theorem Deflate.compress_decodes (h : Handle) (p : Port) (d : Deflate) (hd : p.a2.toNat + p.a3.toNat ≤ wordSpan)
    (ha : ∀ j, j < p.a1.toNat → ¬ inBuffer p.a2 p.a3.toNat (bufferAddr p.a0 (0 + j))) :
    Sink.Extends ⟨Writer.init p.a2 p.a3, d.out.mem⟩ (d.compress h p).out ∧ (d.compress h p).out.bw.nbits = 0
      ∧ ∃ bs pad, pad.length < 8 ∧ ((d.compress h p).out.bw.ovf = false → bitsOfBytes (d.compress h p).out.bytes = bs ++ pad
          ∧ Decodes 0 bs [] (d.out.mem.bytes p.a0 0 p.a1.toNat) true) := by
  obtain ⟨ok, nil⟩ := Sink.ok_init (dst := p.a2) (cap := p.a3) d.out.mem hd
  have key : ∀ {k : Sink} {bs : List Bool}, Sink.Writes bs ⟨Writer.init p.a2 p.a3, d.out.mem⟩ k →
      (k.bw.ovf = false → Decodes (Sink.bits ⟨Writer.init p.a2 p.a3, d.out.mem⟩).length bs (d.out.mem.bytes p.a0 0 0)
        (d.out.mem.bytes p.a0 0 p.a1.toNat) true) →
      Sink.Extends ⟨Writer.init p.a2 p.a3, d.out.mem⟩ k.align ∧ k.align.bw.nbits = 0
        ∧ ∃ bs pad, pad.length < 8 ∧ (k.align.bw.ovf = false → bitsOfBytes k.align.bytes = bs ++ pad
            ∧ Decodes 0 bs [] (d.out.mem.bytes p.a0 0 p.a1.toNat) true) := fun {k bs} w g => by
    have ok' := w.ok ok
    obtain ⟨v, z⟩ := Sink.writes_align k ok'.packed.1
    refine ⟨w.ext.trans v.ext, z, bs, List.replicate ((8 - k.bw.nbits.toNat) % 8) false, ?_, fun o => ⟨?_, ?_⟩⟩
    · rw [List.length_replicate]; omega
    · have b := v.bits ok' o
      rw [w.bits ok (v.ext.no_overflow o), nil, Sink.bits, z] at b
      simpa [bitsOf] using b
    · have := g (v.ext.no_overflow o)
      rwa [nil] at this
  unfold Deflate.compress Deflate.stream
  simp only []
  split
  · obtain ⟨bs, w, g⟩ := Sink.storedOnly_decodes p.a0 p.a1.toNat (p.a1.toNat + 1) 0 (Nat.zero_le _) (by omega) ok ha
    exact key w g
  · obtain ⟨bs, w, g⟩ := Deflate.blocks_decodes h p.a0 p.a1.toNat (p.a1.toNat + 1) 0
      (d := { d with out := { d.out with bw := Writer.init p.a2 p.a3 }, mf := MatchFinder.init p.a0 p.a1 }) rfl rfl rfl (Nat.zero_le _)
      (Nat.zero_le _) (by omega) ok ha
    exact key w g

/-- DONE and ERROR are absorbing, so running on is iterating the step. -/
theorem Inflate.runAll_eq (n : Nat) (d : Inflate) : Inflate.runAll n d = Inflate.step^[n] d := by
  induction n generalizing d with
  | zero => rfl
  | succ n ih =>
    have stays : (d.dx.state = .done ∨ d.dx.state = .error) → d.step = d := fun h => by
      unfold Inflate.step
      rcases h with h | h <;> rw [h]
    unfold Inflate.runAll
    split
    · exact (Function.iterate_fixed (stays (.inl ‹_›)) _).symm
    · exact (Function.iterate_fixed (stays (.inr ‹_›)) _).symm
    all_goals rw [ih, Function.iterate_succ_apply]

/-- A state the steps lead to and that is over is the one the run ends in. -/
theorem Inflate.runAll_of_leads {d d' : Inflate} {n : Nat} (l : Inflate.Leads d d') (h : d'.dx.over) (g : (Inflate.runAll n d).dx.over) :
    Inflate.runAll n d = d' := by
  obtain ⟨k, rfl⟩ := l
  rw [Inflate.runAll_eq] at g ⊢
  have stays : ∀ {d : Inflate} (m : Nat), d.dx.over → Inflate.step^[m] d = d := fun {d} m h => by
    refine Function.iterate_fixed ?_ m
    unfold Inflate.step
    rcases h with h | h <;> rw [h]
  have a := Function.iterate_add_apply Inflate.step n k d
  have b := Function.iterate_add_apply Inflate.step k n d
  rw [stays _ h] at a
  rw [stays _ g, Nat.add_comm] at b
  rw [← a, b]

/-- DECOMPRESS of a buffer that holds bits and then less than a byte of padding gives what the bits stand for. -/
theorem State.inflate_of_bits (u : State) (hs : u.port.a0.toNat + u.port.a1.toNat ≤ wordSpan)
    (hd : u.port.a2.toNat + u.port.a3.toNat ≤ wordSpan) (apart : disjoint u.port.a0 u.port.a1 u.port.a2 u.port.a3 = true)
    {bs pad : List Bool} {y : List Byte} (g : Decodes 0 bs [] y true) (hp : pad.length < 8)
    (hb : bitsOfBytes (u.mem.bytes u.port.a0 0 u.port.a1.toNat) = bs ++ pad) (hc : y.length ≤ u.port.a3.toNat) :
    let d := Inflate.runAll (maxSteps u.port.a1) u.startInflate
    d.dx.state = .done ∧ d.dx.err = .success ∧ d.dx.outpos.toNat = y.length ∧ d.mem.bytes u.port.a2 0 y.length = y
      ∧ d.br.consumed = u.port.a1.toNat := by
  have hlen := congrArg List.length hb
  rw [length_bitsOfBytes, Memory.length_bytes, List.length_append] at hlen
  have start : u.startInflate.At 0 [] .blockHeader :=
    ⟨Nat.zero_le _, hd, hs, apart, rfl, Nat.zero_le _, rfl, rfl, rfl, rfl, rfl⟩
  have holds : u.startInflate.br.holds u.startInflate.mem bs := fun k hk => by
    show Reader.bit (Reader.init u.port.a0 u.port.a1) u.mem (0 + k) = _
    have e : (bs ++ pad).getD k false = bs.getD k false := List.getD_append _ _ _ _ hk
    have g := getD_bitsOfBytes (u.mem.bytes u.port.a0 0 u.port.a1.toNat) (k / 8) (k % 8)
      (by rw [Memory.length_bytes]; omega) (Nat.mod_lt _ (by decide))
    rw [hb, show 8 * (k / 8) + k % 8 = k by omega, e, Memory.getD_bytes _ _ _ _ _ (by omega)] at g
    unfold Reader.bit
    rw [Nat.zero_add, if_pos (by show k < 8 * u.port.a1.toNat; omega), g, Nat.zero_add]
    rfl
  obtain ⟨d', l, a⟩ := g _ start holds (by rw [Nat.zero_add]; show _ ≤ 8 * u.port.a1.toNat; omega) hc
  have e := l.extends
  rw [Inflate.runAll_of_leads l (.inl a.state) u.inflate_over]
  refine ⟨a.state, a.err, a.count, ?_, ?_⟩
  · have := a.bytes
    rwa [e.dst] at this
  · have h1 := a.pos
    have h2 := e.reader.len
    have h3 : d'.br.len = u.port.a1 := h2
    unfold Reader.consumed ceilDiv
    rw [h1, h3, Nat.zero_add]
    omega

end Sys2Proof.Machine
end

