-- ==== Sys2Proof/Laws/Search.lean ====
section
/-! SUPPORT. The chain walk of MF.FIND against the candidates it visits (rules R206, R211), and MF.SKIP
as searches of depth 0 (rule R207). -/

namespace Sys2Proof.Machine

/-- The walk keeps what it began with when no visited candidate agrees longer, and else ends with the
first visited candidate of the greatest agreement. -/
theorem MatchFinder.walk_visited (mf : MatchFinder) (m : Memory) (cur maxLen nice depth : Nat) (node : BitVec 16) (bl bo : Nat)
    (hb : 2 ≤ bl) (hn : bl < nice ∨ bl = 2) :
    let r := mf.walk m cur maxLen nice depth node bl bo
    let vs := mf.visited m cur maxLen nice depth node
    let agree := mf.agree m cur maxLen
    (r = (bl, bo) ∧ ∀ v ∈ vs, agree v ≤ bl) ∨
    ∃ before v after, vs = before ++ v :: after ∧ bl < agree v ∧ r = (agree v, ((cur : Int) - v.toInt).toNat)
      ∧ v.toInt < cur ∧ (∀ u ∈ before, agree u < agree v) ∧ ∀ u ∈ after, agree u ≤ agree v := by
  induction depth generalizing node bl bo with
  | zero => exact .inl ⟨rfl, by simp [MatchFinder.visited]⟩
  | succ d ih =>
    intro r vs agree
    by_cases hw : inWindow mf.base.toNat node cur
    · have hlt : node.toInt < cur := by
        simp [inWindow] at hw; omega
      set l := agree node
      by_cases hbl : bl < l
      · by_cases hnl : nice ≤ l
        · have hr : r = (l, ((cur:Int) - node.toInt).toNat) := by
            show MatchFinder.walk _ _ _ _ _ _ _ _ _ = _
            unfold MatchFinder.walk; rw [if_pos hw]
            rw [show mf.matchLen m maxLen ((mf.base.toNat : Int) + node.toInt).toNat (mf.base.toNat + cur) = l from rfl, if_pos hbl, if_pos hnl]
          have hv : vs = [node] := by
            show MatchFinder.visited _ _ _ _ _ _ _ = _
            unfold MatchFinder.visited; rw [if_pos hw, if_pos]; exact ⟨by change 3 ≤ l; omega, hnl⟩
          exact .inr ⟨[], node, [], hv, hbl, hr, hlt, by simp, by simp⟩
        · have hr : r = mf.walk m cur maxLen nice d (mf.next.get (nextSlot node)) l ((cur:Int) - node.toInt).toNat := by
            show MatchFinder.walk _ _ _ _ _ _ _ _ _ = _
            conv_lhs => unfold MatchFinder.walk
            rw [if_pos hw]
            rw [show mf.matchLen m maxLen ((mf.base.toNat : Int) + node.toInt).toNat (mf.base.toNat + cur) = l from rfl, if_pos hbl, if_neg hnl]
          have hv : vs = node :: mf.visited m cur maxLen nice d (mf.next.get (nextSlot node)) := by
            show MatchFinder.visited _ _ _ _ _ _ _ = _
            conv_lhs => unfold MatchFinder.visited
            rw [if_pos hw, if_neg]; exact fun h => hnl h.2
          rcases ih (mf.next.get (nextSlot node)) l ((cur:Int) - node.toInt).toNat (by omega) (.inl (by omega)) with ⟨e, g⟩ | ⟨b, v, a, e, g1, g2, g3, g4, g5⟩
          · exact .inr ⟨[], node, _, hv, hbl, by rw [hr, e], hlt, by simp, g⟩
          · refine .inr ⟨node :: b, v, a, by rw [hv, e]; rfl, by change bl < agree v; change l < agree v at g1; omega, by rw [hr, g2], g3, ?_, g5⟩
            intro u hu
            rcases List.mem_cons.mp hu with rfl | hu
            · exact g1
            · exact g4 u hu
      · have hr : r = mf.walk m cur maxLen nice d (mf.next.get (nextSlot node)) bl bo := by
          show MatchFinder.walk _ _ _ _ _ _ _ _ _ = _
          conv_lhs => unfold MatchFinder.walk
          rw [if_pos hw]
          rw [show mf.matchLen m maxLen ((mf.base.toNat : Int) + node.toInt).toNat (mf.base.toNat + cur) = l from rfl, if_neg hbl]
        have hv : vs = node :: mf.visited m cur maxLen nice d (mf.next.get (nextSlot node)) := by
          show MatchFinder.visited _ _ _ _ _ _ _ = _
          conv_lhs => unfold MatchFinder.visited
          rw [if_pos hw, if_neg]; rintro ⟨h1, h2⟩; change 3 ≤ l at h1; change nice ≤ l at h2; omega
        rcases ih (mf.next.get (nextSlot node)) bl bo hb hn with ⟨e, g⟩ | ⟨b, v, a, e, g1, g2, g3, g4, g5⟩
        · refine .inl ⟨by rw [hr, e], ?_⟩
          rw [hv]; intro v hv'
          rcases List.mem_cons.mp hv' with rfl | h
          · exact Nat.not_lt.mp hbl
          · exact g v h
        · refine .inr ⟨node :: b, v, a, by rw [hv, e]; rfl, g1, by rw [hr, g2], g3, ?_, g5⟩
          intro u hu
          rcases List.mem_cons.mp hu with rfl | hu
          · change l < agree v; change bl < agree v at g1; omega
          · exact g4 u hu
    · refine .inl ⟨?_, ?_⟩
      · show MatchFinder.walk _ _ _ _ _ _ _ _ _ = _
        unfold MatchFinder.walk; rw [if_neg hw]
      · have hv : vs = [] := by
          show MatchFinder.visited _ _ _ _ _ _ _ = _
          unfold MatchFinder.visited; rw [if_neg hw]
        rw [hv]; simp

/-- A search of depth 0 inserts its position as MF.SKIP does. -/
theorem MatchFinder.find_depth_zero (mf : MatchFinder) (m : Memory) (nice : Nat) :
    (mf.find m 0 nice).1 = mf.skipOne m := by
  unfold MatchFinder.find MatchFinder.skipOne
  have e : minMatch = 3 ∧ maxMatch = 258 := ⟨rfl, rfl⟩
  by_cases h : minMatch ≤ mf.slideIfDue.len.toNat - mf.slideIfDue.cur
  · have h' : ¬ min maxMatch (mf.slideIfDue.len.toNat - mf.slideIfDue.cur) < minMatch := by omega
    simp only [if_neg h', if_pos h]
    unfold MatchFinder.search
    simp [MatchFinder.walk, minMatch]
  · have h' : min maxMatch (mf.slideIfDue.len.toNat - mf.slideIfDue.cur) < minMatch := by omega
    simp only [if_pos h', if_neg h]

end Sys2Proof.Machine
end

