-- ==== Sys2Proof/Tests/Slice0.lean ====
section
/-! SUPPORT. Tests of the model against values the spec states (`95_test_vectors.md` and the worked
examples of the rules), and a witness for the hypotheses of every obligation that has some. -/

namespace Sys2Proof.Tests

open Sys2Proof Sys2Proof.Machine

/-! ## Helpers -/

/-- The state an instruction leaves; the reset state where it stops. -/
def after (i : Instr) (s : State) : State :=
  match exec i s with
  | .next t => t
  | .fault _ => State.reset
  | .refused _ => State.reset

theorem exec_after (i : Instr) (s : State) : exec i s = .next (after i s) := by
  obtain ⟨t, h⟩ := exec_total i s
  rw [after, h]

/-- The engine after CREATE.6. -/
def live : State := after (.create 6) State.reset

/-- A state with its four operands set. -/
def State.ops (s : State) (a0 a1 a2 a3 : Word) : State :=
  { s with port := { s.port with a0 := a0, a1 := a1, a2 := a2, a3 := a3 } }

/-- Memory that holds bytes from an address on, and reads as `memoryFill` elsewhere. -/
def memoryOf (base : Nat) (bytes : List Nat) : Memory := Cells.ofDense memoryFill base (bytes.map (BitVec.ofNat 8))

/-- The first bytes of memory from an address on. -/
def bytesAt (s : State) (base : Word) (n : Nat) : List Nat := (s.mem.bytes base 0 n).map BitVec.toNat

/-- The live engine with some bytes in memory and its units bound: the match-finder and the reader to
`len` bytes at 0x1000, the writer to 16 bytes at 0x2000, the decompressor to 16 bytes at 0x3000. -/
def bound (bytes : List Nat) : State :=
  { live with
    mem := memoryOf 0x1000 bytes
    mf := MatchFinder.init 0x1000 (BitVec.ofNat 32 bytes.length)
    br := Reader.init 0x1000 (BitVec.ofNat 32 bytes.length)
    bw := Writer.init 0x2000 16
    dx := Decomp.init 0x3000 16 }

/-- "abcabcabcabc" (`95_test_vectors.md`, input A). -/
def abc : State := bound [0x61, 0x62, 0x63, 0x61, 0x62, 0x63, 0x61, 0x62, 0x63, 0x61, 0x62, 0x63]

/-! ## Well-formedness: each check refuses a term -/

theorem test_wellFormed_length_slot : Instr.wellFormed (.copyMatch 29 0 0 0) = false := by decide
theorem test_wellFormed_length_extra : Instr.wellFormed (.copyMatch 8 2 0 0) = false := by decide
theorem test_wellFormed_offset_slot : Instr.wellFormed (.copyMatch 0 0 30 0) = false := by decide
theorem test_wellFormed_offset_extra : Instr.wellFormed (.copyMatch 0 0 4 2) = false := by decide
theorem test_wellFormed_llReserved :
    Instr.wellFormed (.llReserved 285) = false ∧ Instr.wellFormed (.llReserved 288) = false := by decide
theorem test_wellFormed_ofReserved :
    Instr.wellFormed (.ofReserved 29) = false ∧ Instr.wellFormed (.ofReserved 32) = false := by decide

/-! ## Decoding: a word of every constructor, written out from rules R122, R131 to R141 -/

theorem test_decode_sys :
    decodeCommand 0x00000000#32 = .ok .nop ∧ decodeCommand 0x00000901#32 = .ok (.create 9)
      ∧ decodeCommand 0x00000002#32 = .ok .destroy ∧ decodeCommand 0x00000003#32 = .ok .compress
      ∧ decodeCommand 0x00000004#32 = .ok .bound ∧ decodeCommand 0x00000005#32 = .ok .decompress
      ∧ decodeCommand 0x00000706#32 = .ok (.tread .lensPC) ∧ decodeCommand 0x00000507#32 = .ok (.twrite .lensLL) := by
  decide

theorem test_decode_mf :
    decodeCommand 0x00000010#32 = .ok .mfInit ∧ decodeCommand 0x00000011#32 = .ok .mfFind
      ∧ decodeCommand 0x00000012#32 = .ok .mfSkip ∧ decodeCommand 0x00000013#32 = .ok .mfSlide := by decide

theorem test_decode_hb :
    decodeCommand 0x00000020#32 = .ok .hbClear ∧ decodeCommand 0x00000121#32 = .ok (.hbTally .offset)
      ∧ decodeCommand 0x00000022#32 = .ok .hbMatch ∧ decodeCommand 0x00000223#32 = .ok (.hbLens .precode)
      ∧ decodeCommand 0x00000024#32 = .ok (.hbCodes .litlen) ∧ decodeCommand 0x00000025#32 = .ok .hbFixed
      ∧ decodeCommand 0x00000026#32 = .ok .hbPrecode := by decide

theorem test_decode_dt :
    decodeCommand 0x00000230#32 = .ok (.dtBuild .precode) ∧ decodeCommand 0x00000031#32 = .ok (.dtDecode .litlen) := by
  decide

theorem test_decode_bw :
    decodeCommand 0x00000040#32 = .ok .bwInit ∧ decodeCommand 0x00000041#32 = .ok .bwPut
      ∧ decodeCommand 0x00000042#32 = .ok .bwAlign ∧ decodeCommand 0x00000043#32 = .ok .bwFlush
      ∧ decodeCommand 0x00000044#32 = .ok .bwBytes := by decide

theorem test_decode_br :
    decodeCommand 0x00000050#32 = .ok .brInit ∧ decodeCommand 0x00000051#32 = .ok .brPeek
      ∧ decodeCommand 0x00000052#32 = .ok .brDrop ∧ decodeCommand 0x00000053#32 = .ok .brGet
      ∧ decodeCommand 0x00000054#32 = .ok .brAlign ∧ decodeCommand 0x00000055#32 = .ok .brBytes := by decide

theorem test_decode_dx :
    decodeCommand 0x00000060#32 = .ok .dxInit ∧ decodeCommand 0x00000061#32 = .ok .dxStep := by decide

/-- The illegal words of the SYS vectors, each refused by the test that comes first. -/
theorem test_decode_illegal :
    decodeCommand 0x00000008#32 = .error .unknownOpc ∧ decodeCommand 0x00001000#32 = .error .reservedBits
      ∧ decodeCommand 0x00000100#32 = .error .badSel ∧ decodeCommand 0x00000103#32 = .error .badSel
      ∧ decodeCommand 0x00000321#32 = .error .badSel := by decide

/-- BFINAL first, then BTYPE least significant bit first (rule R131). -/
theorem test_decode_headers :
    decode Codes.fixed .header [true, false, false] = ([], .ok (.blockStored true))
      ∧ decode Codes.fixed .header [false, true, false] = ([], .ok (.blockFixed false))
      ∧ decode Codes.fixed .header [true, false, true] = ([], .ok (.blockDynamic true))
      ∧ decode Codes.fixed .header [false, true, true] = ([], .ok (.blockReserved false)) := by decide

/-- LEN and NLEN, 16 bits each, least significant bit first: `05 00 FA FF` (rule R132). -/
theorem test_decode_stored :
    decode Codes.fixed .stored
        [true, false, true, false, false, false, false, false, false, false, false, false, false, false, false, false,
          false, true, false, true, true, true, true, true, true, true, true, true, true, true, true, true]
      = ([], .ok (.storedBody 5 0xFFFA)) := by decide

/-- HLIT = 7, HDIST = 2, HCLEN = 14 (rule R134). -/
theorem test_decode_dynamic :
    decode Codes.fixed .dynamic
        [true, true, true, false, false, false, true, false, false, false, false, true, true, true]
      = ([], .ok (.dynamicHeader 7 2 14)) := by decide

/-- A precode with the codewords 0 for 18, 10 for 17, 110 for 1, 111 for 16 (rules R136, R281). -/
def precode : Codes := ⟨[], [], [0, 3, 0, 0, 0, 0, 0, 0, 0, 0, 0, 0, 0, 0, 0, 0, 3, 2, 1]⟩

theorem test_decode_precode :
    decode precode .precode [true, true, false] = ([], .ok (.preLen 1))
      ∧ decode precode .precode [true, true, true, false, true] = ([], .ok (.preRep 2))
      ∧ decode precode .precode [true, false, true, false, true] = ([], .ok (.preZrep3 5))
      ∧ decode precode .precode [false, true, true, true, true, true, true, true] = ([], .ok (.preZrep11 127)) := by
  decide

set_option maxRecDepth 20000 in
/-- The fixed code (rule R140): literal 0x61 is 0x91 in 8 bits, end of block 7 zeros, symbol 286 is
11000110; the match (9, 3) is symbol 263 = 0000111 and offset symbol 2 = 00010. -/
theorem test_decode_litlen :
    decode Codes.fixed .litlen [true, false, false, true, false, false, false, true] = ([], .ok (.lit 0x61))
      ∧ decode Codes.fixed .litlen [false, false, false, false, false, false, false] = ([], .ok .eob)
      ∧ decode Codes.fixed .litlen [false, false, false, false, true, true, true, false, false, false, true, false]
        = ([], .ok (.copyMatch 6 0 2 0))
      ∧ decode Codes.fixed .litlen [true, true, false, false, false, true, true, false]
        = ([], .ok (.llReserved 286)) := by decide

set_option maxRecDepth 20000 in
/-- A match with extra bits: symbol 265 = 0001001 with extra 1, offset symbol 29 = 11101 with extra
8191 (length 12, offset 32768); and the reserved offset symbol 30 = 11110, alone and in a match. -/
theorem test_decode_extra :
    decode Codes.fixed .litlen
        ([false, false, false, true, false, false, true, true, true, true, true, false, true] ++ List.replicate 13 true)
      = ([], .ok (.copyMatch 8 1 29 8191))
      ∧ decode Codes.fixed .offset [true, true, true, true, false] = ([], .ok (.ofReserved 30))
      ∧ decode Codes.fixed .litlen [false, false, false, false, false, false, true, true, true, true, true, false]
        = ([], .ok (.ofReserved 30)) := by decide

/-! ## Fetching: a row's word is the very next instruction after reset -/

theorem test_fetch_command :
    (match step (State.reset.withFetchWord 32 0x601) with | .next t => t.status | _ => 0) = 0x680#32 := by decide

/-- A final fixed block's header: DX.STEP reads it and goes to BUILD_TABLES. -/
theorem test_fetch_header :
    (match step (State.reset.withFetchWord 8 3) with | .next t => (t.port.a4, t.dx.bfinal, t.dx.btype) | _ => (0, false, 0))
      = (1#32, true, 1#2) := by decide

/-! ## SYS (`95_test_vectors.md`, SYS) -/

theorem test_nop : (after .nop State.reset).status = 0 := by decide

theorem test_create : live.status = 0x680#32 ∧ (after (.create 9) State.reset).handle.depth = 600 := by decide

theorem test_create_failed : (after (.create 12) live).status = 0x4#32 := by decide

theorem test_destroy_without_handle : (after .destroy State.reset).status = 0x5#32 := by decide

theorem test_tread :
    (after (.tread .head) (State.ops live 5 0 0 0)).port.a4 = 0xFFFF8000#32
      ∧ (after (.tread .misc) (State.ops live 21 0 0 0)).port.a4 = 257#32 := by decide

theorem test_tread_past_the_end : (after (.tread .dtabLL) (State.ops live 2560 0 0 0)).port.result = .badArg := by decide

theorem test_twrite : (after (.twrite .head) (State.ops live 0 0xFFFF8005 0 0)).mf.head = [(0, 0x8005#16)] := by decide

theorem test_twrite_refused :
    (after (.twrite .head) (State.ops live 0 0x8000 0 0)).port.result = .badArg
      ∧ (after (.twrite .lensLL) (State.ops live 0 16 0 0)).port.result = .badArg := by decide

theorem test_bound :
    (after .bound (State.ops live 32769 0 0 0)).port.a4 = 32779#32
      ∧ (after .bound (State.ops live 4294312031 0 0 0)).port.a4 = 4294967295#32 := by decide

/-! ## MF (input A; the slide example of rule R209) -/

theorem test_mfInit : (after .mfInit (State.ops live 0xFFFFFFF0 0x20 0 0)).port.result = .badArg := by decide

theorem test_mfSkip :
    (after .mfSkip (State.ops abc 3 0 0 0)).mf.head = [(7380, 2#16), (27984, 0#16), (28546, 1#16)] := by decide

/-- The fourth FIND of the example: length 9 at offset 3. -/
theorem test_mfFind :
    let t := after .mfFind (State.ops (after .mfSkip (State.ops abc 3 0 0 0)) 16 258 0 0)
    t.port.a4 = 9#32 ∧ t.port.a5 = 3#32 ∧ t.mf.next.get 3 = 0#16 := by decide

theorem test_mfSlide :
    (after .mfSlide { live with mf := ⟨0, 40000, 0, 32768, [(7, 32767#16), (8, 0#16), (9, 0xFFFB#16)], []⟩ }).mf
      = ⟨0, 40000, 32768, 0, [(7, 0xFFFF#16)], []⟩ := by decide

/-! ## HB -/

theorem test_hbClear : (after .hbClear { live with freq := ⟨[(65, 3)], [], []⟩ }).freq = ⟨[], [], []⟩ := by decide

theorem test_hbTally_saturates :
    (after (.hbTally .litlen) { live with freq := ⟨[(0, 0xFFFFFFFF)], [], []⟩ }).freq.litlen = [(0, 0xFFFFFFFF#32)] := by
  decide

theorem test_hbMatch :
    let t := after .hbMatch (State.ops live 12 32768 0 0)
    t.port.a4 = 265#32 ∧ t.port.a5 = 29#32 := by decide

theorem test_hbMatch_longest :
    (after .hbMatch (State.ops live 258 1 0 0)).port.a4 = 285#32
      ∧ (after .hbMatch (State.ops live 257 1 0 0)).port.a4 = 284#32 := by decide

/-- Frequencies 1, 1, 2, 3, 5, 8, 13, 21, 34: the length limit at work. -/
theorem test_hbLens :
    (after (.hbLens .precode) { live with freq := ⟨[], [], Table.ofList 32 [1, 1, 2, 3, 5, 8, 13, 21, 34]⟩ }).lens.precode
      = Table.ofList 4 [7, 7, 6, 5, 4, 3, 2, 2, 2] := by decide +kernel

/-- A single used symbol: the filler. -/
theorem test_hbLens_filler :
    (after (.hbLens .precode) { live with freq := ⟨[], [], [(3, 7)]⟩ }).lens.precode = [(0, 1#4), (3, 1#4)] := by
  decide +kernel

theorem test_hbCodes :
    (after (.hbCodes .precode) { live with lens := ⟨[], [], Table.ofList 4 [1, 3, 3, 2]⟩ }).code.precode
      = [(1, 3#16), (2, 7#16), (3, 1#16)] := by decide +kernel

theorem test_hbFixed :
    let t := after .hbFixed live
    t.code.litlen.get 0 = 0x0C#16 ∧ t.code.litlen.get 144 = 0x13#16 ∧ t.code.litlen.get 257 = 0x40#16
      ∧ t.code.offset.get 1 = 16#16 ∧ t.lens.litlen.get 259 = 7#4 := by decide +kernel

/-- LL 0:1, 256:1 and OF 0:1, 1:1: items (1,0), (18,127), (18,106), (1,0), (1,0), (1,0). -/
theorem test_hbPrecode :
    let t := after .hbPrecode { live with lens := ⟨[(0, 1), (256, 1)], [(0, 1), (1, 1)], []⟩ }
    t.hb = ⟨[(0, 1#16), (1, 0x7F12#16), (2, 0x6A12#16), (3, 1#16), (4, 1#16), (5, 1#16)], 6, 257, 2, 18⟩
      ∧ t.freq.precode = [(1, 4#32), (18, 2#32)] := by decide +kernel

/-! ## DT -/

theorem test_dtBuild :
    let t := after (.dtBuild .precode) { live with lens := ⟨[], [], Table.ofList 4 [1, 3, 3, 2]⟩ }
    ((List.range 8).map t.dtab.precode.get)
      = [0x11#32, 0x30021#32, 0x11#32, 0x10031#32, 0x11#32, 0x30021#32, 0x11#32, 0x20031#32] := by decide +kernel

theorem test_dtBuild_refused :
    (after (.dtBuild .precode) { live with lens := ⟨[], [], Table.ofList 4 [1, 2]⟩ }).port.result = .badData := by
  decide +kernel

/-- The first codeword on the byte 0B is symbol 1, three bits; the entry is rule R301's. -/
theorem test_dtDecode :
    let t := after (.dtDecode .precode) { bound [0x0B] with dtab := ⟨[], [], [(0x0B, 0x00010031#32)]⟩ }
    t.port.a4 = 1#32 ∧ t.br.bitpos = 3#64 := by decide +kernel

/-- An OF subtable (base 256, one index bit): `DTAB_OF[257] = 0x00090011`. -/
theorem test_dtDecode_subtable :
    let t := after (.dtDecode .offset)
      { bound [0xFF, 0x01] with dtab := ⟨[], [(255, 0x01000012#32), (256, 0x00080011#32), (257, 0x00090011#32)], []⟩ }
    t.port.a4 = 9#32 ∧ t.br.bitpos = 9#64 := by decide +kernel

/-! ## BW -/

theorem test_bwInit : (after .bwInit (State.ops live 0xFFFFFFFF 2 0 0)).port.result = .badArg := by decide

/-- The third PUT of the example: byte 03 written, two bits held. -/
theorem test_bwPut :
    let t := after .bwPut (State.ops { live with bw := ⟨0x2000, 4, 0, 3, 3, false⟩ } 0 7 0 0)
    t.bw = ⟨0x2000, 4, 1, 0, 2, false⟩ ∧ bytesAt t 0x2000 1 = [3] := by decide

theorem test_bwPut_overflow :
    let t := after .bwPut (State.ops { live with bw := Writer.init 0x2000 1 } 0xABCD 16 0 0)
    t.port.result = .insufficientSpace ∧ t.bw.nbytes = 1#32 ∧ bytesAt t 0x2000 2 = [0xCD, 0] := by decide

theorem test_bwAlign :
    let t := after .bwAlign { live with bw := ⟨0x2000, 16, 0, 1, 3, false⟩ }
    t.bw.nbytes = 1#32 ∧ bytesAt t 0x2000 1 = [1] := by decide

theorem test_bwFlush : (after .bwFlush { live with bw := ⟨0x2000, 4, 1, 0, 2, false⟩ }).port.a5 = 2#32 := by decide

theorem test_bwBytes :
    let t := after .bwBytes (State.ops { abc with bw := ⟨0x2000, 16, 5, 0, 0, false⟩ } 0x1000 3 0 0)
    t.bw.nbytes = 8#32 ∧ bytesAt t 0x2005 3 = [0x61, 0x62, 0x63] := by decide

theorem test_bwBytes_unaligned :
    (after .bwBytes (State.ops { abc with bw := ⟨0x2000, 16, 0, 1, 1, false⟩ } 0x1000 1 0 0)).port.result = .badArg := by
  decide

/-! ## BR -/

theorem test_brInit : (after .brInit (State.ops live 0x1000 0 0 0)).br = ⟨0x1000, 0, 0⟩ := by decide

theorem test_brPeek : (after .brPeek (State.ops (bound [0x0B]) 32 0 0 0)).port.a4 = 0x0B#32 := by decide

theorem test_brDrop_bound :
    (after .brDrop (State.ops { live with br := ⟨0x1000, 1, 64⟩ } 8 0 0 0)).br.bitpos = 72#64
      ∧ (after .brDrop (State.ops { live with br := ⟨0x1000, 1, 72⟩ } 1 0 0 0)).port.result = .badData := by decide

theorem test_brGet :
    let t := after .brGet (State.ops { bound [0x0B] with br := ⟨0x1000, 1, 3⟩ } 2 0 0 0)
    t.port.a4 = 1#32 ∧ t.br.bitpos = 5#64 := by decide

theorem test_brAlign :
    (after .brAlign { live with br := ⟨0x1000, 1, 3⟩ }).br.bitpos = 8#64
      ∧ (after .brAlign { live with br := ⟨0x1000, 1, 8⟩ }).br.bitpos = 8#64 := by decide

theorem test_brBytes :
    let t := after .brBytes (State.ops { abc with br := ⟨0x1000, 12, 72⟩ } 0x3000 3 0 0)
    bytesAt t 0x3000 3 = [0x61, 0x62, 0x63] ∧ t.br.bitpos = 96#64 := by decide

theorem test_brBytes_short :
    (after .brBytes (State.ops { abc with br := ⟨0x1000, 12, 96⟩ } 0x3000 1 0 0)).port.result = .shortInput := by decide

/-! ## DX and the stream elements -/

theorem test_dxInit :
    (after .dxInit (State.ops live 0x3000 100 0 0)).dx = ⟨.blockHeader, false, 0, .success, 0x3000, 100, 0, 257, 1, 4, []⟩ := by
  decide

/-- The first step on `4B 04 03 00`: a final fixed block, three bits. -/
theorem test_dxStep_header :
    let t := after .dxStep (bound [0x4B, 0x04, 0x03, 0x00])
    t.port.a4 = 1#32 ∧ t.br.bitpos = 3#64 ∧ t.dx.bfinal = true ∧ t.dx.btype = 1#2 := by decide

/-- The header `07`: the reserved block type. -/
theorem test_dxStep_reserved :
    let t := after .dxStep (bound [0x07])
    t.port.a4 = 5#32 ∧ t.port.result = .badData ∧ t.br.bitpos = 3#64 := by decide

theorem test_decompress_overlap :
    (after .decompress (State.ops live 0x2000 8 0x2004 8)).port.result = .badArg := by decide

/-- Input `01 00 00 FF FF`, capacity 0: an empty stored block. -/
theorem test_decompress :
    let t := after .decompress (State.ops (bound [0x01, 0x00, 0x00, 0xFF, 0xFF]) 0x1000 5 0x3000 0)
    t.port.result = .success ∧ t.port.a5 = 0#32 ∧ t.port.a6 = 5#32 := by decide +kernel

theorem test_block_headers :
    (after (.blockStored true) live).dx.state = .copyStored ∧ (after (.blockFixed false) live).dx.state = .buildTables
      ∧ (after (.blockDynamic true) live).dx.btype = 2#2 ∧ (after (.blockReserved true) live).dx.err = .badData := by
  decide

/-- The data "hi" of the stored block `… 02 00 FD FF 68 69`; and an NLEN that is not the complement. -/
theorem test_storedBody :
    let s := { bound [0x01, 0x02, 0x00, 0xFD, 0xFF, 0x68, 0x69] with br := ⟨0x1000, 7, 40⟩ }
    bytesAt (after (.storedBody 2 0xFFFD) s) 0x3000 2 = [0x68, 0x69]
      ∧ (after (.storedBody 2 0xFFFC) s).dx.err = .badData := by decide

/-- More bytes than are left, whatever the room (rule R416 (b)); under both values of OVERREAD_AT_DONE (rule R376). -/
theorem test_storedBody_short :
    let s := { bound [1, 5, 0, 0xFA, 0xFF, 1, 2, 3] with br := ⟨0x1000, 8, 40⟩ }
    (after (.storedBody 5 0xFFFA) s).dx.err = .shortInput
      ∧ (after (.storedBody 5 0xFFFA) { s with cfg := { s.cfg with overreadAtDone := .badData } }).dx.err = .badData := by
  decide

/-- HLIT = 30 declares 287 litlen symbols: refused, the counts recorded (`F5 00 00`). -/
theorem test_dynamicHeader_counts :
    let t := after (.dynamicHeader 30 0 0) { bound [0xF5, 0x00, 0x00] with br := ⟨0x1000, 3, 17⟩ }
    t.dx.err = .badData ∧ t.dx.nlit = 287#9 ∧ t.br.bitpos = 17#64 := by decide

/-- `05 00 00 01`: a single precode codeword of two bits is under-subscribed. -/
theorem test_dynamicHeader_precode :
    let t := after (.dynamicHeader 0 0 0) { bound [0x05, 0x00, 0x00, 0x01] with br := ⟨0x1000, 4, 17⟩ }
    t.dx.err = .badData ∧ t.br.bitpos = 29#64 := by decide +kernel

theorem test_precode_elements :
    let s := { live with dx := { live.dx with seq := [7] } }
    (after (.preLen 3) s).dx.seq = [7, 3] ∧ (after (.preRep 1) s).dx.seq = [7, 7, 7, 7, 7]
      ∧ (after (.preZrep3 0) s).dx.seq = [7, 0, 0, 0] ∧ (after (.preZrep11 0) s).dx.seq = 7 :: List.replicate 11 0 := by
  decide

/-- Symbol 16 first in the sequence has nothing to repeat. -/
theorem test_preRep_first : (after (.preRep 0) live).dx.err = .badData := by decide

theorem test_lit :
    let t := after (.lit 0x61) { live with dx := { Decomp.init 0x3000 1 with state := .decodeLoop } }
    bytesAt t 0x3000 1 = [0x61] ∧ (after (.lit 0x62) t).dx.err = .insufficientSpace := by decide

/-- EOB of the final block, all bits real; with implicit bits it is SHORT_INPUT (`03 00` and `03`). -/
theorem test_eob :
    let s := { live with br := ⟨0x1000, 2, 10⟩, dx := { live.dx with bfinal := true, state := .decodeLoop } }
    (after .eob s).dx.state = .done ∧ (after .eob { s with br := ⟨0x1000, 1, 10⟩ }).dx.err = .shortInput := by decide

/-- Match(5, 1) after one literal repeats it; Match(5, 3) reaches beyond the history. -/
theorem test_copyMatch :
    let s := { live with
      mem := memoryOf 0x3000 [0x61]
      dx := { Decomp.init 0x3000 6 with state := .decodeLoop, outpos := 1 } }
    bytesAt (after (.copyMatch 2 0 0 0) s) 0x3000 6 = [0x61, 0x61, 0x61, 0x61, 0x61, 0x61]
      ∧ (after (.copyMatch 2 0 2 0) s).dx.err = .badData := by decide

theorem test_reserved_symbols :
    (after (.llReserved 286) live).dx.err = .badData ∧ (after (.ofReserved 30) live).dx.err = .badData := by decide

/-! ## COMPRESS -/

/-- "a" at level 0: `01 01 00 FE FF 61`. -/
theorem test_compress_stored :
    let t := after .compress (State.ops { bound [0x61] with handle := ⟨true, 0, false, 0, 0⟩ } 0x1000 1 0x2000 1000)
    t.port.a5 = 6#32 ∧ bytesAt t 0x2000 6 = [0x01, 0x01, 0x00, 0xFE, 0xFF, 0x61] := by decide +kernel

/-- "aaaa" at level 6: a literal and the match (3, 1), `4B 04 02 00`. -/
theorem test_compress_fixed :
    let t := after .compress (State.ops (bound [0x61, 0x61, 0x61, 0x61]) 0x1000 4 0x2000 1000)
    t.port.a5 = 4#32 ∧ bytesAt t 0x2000 4 = [0x4B, 0x04, 0x02, 0x00] := by decide +kernel

/-! ## Witnesses: states and operands that meet the hypotheses of the obligations -/

/-- The next access of the host is `op`. -/
def queued (op : HostOp) (s : State) : State := { s with host := op :: s.host }

theorem fixedLitlen_valid : lengthsValid Alphabet.litlen.maxLen fixedLitlenLens = true := by decide +kernel

theorem fixedOffset_valid : lengthsValid Alphabet.offset.maxLen fixedOffsetLens = true := by decide +kernel

/-- A witness for rule R308's hypotheses: the precode table of the lengths 1, 3, 3, 2. -/
def pcLens : List Nat := [1, 3, 3, 2, 0, 0, 0, 0, 0, 0, 0, 0, 0, 0, 0, 0, 0, 0, 0]

theorem pcLens_valid : lengthsValid Alphabet.precode.maxLen pcLens = true := by decide +kernel

/-- A live engine with a precode table, its reader on the byte 0B. -/
def decodingWith (t : Table 32) : State := { bound [0x0B] with dtab := ⟨[], [], t⟩ }

/-- A live engine in DECODE_LOOP with two tables. -/
def loopingWith (ll off : Table 32) : State :=
  { live with dx := { live.dx with state := .decodeLoop }, dtab := ⟨ll, off, []⟩ }

/-- The statement of the tables a `loopingWith` state holds. -/
theorem tablesBuiltFrom_looping {ll off : Table 32} (h : buildTable .litlen fixedLitlenLens = some ll)
    (h' : buildTable .offset fixedOffsetLens = some off) : tablesBuiltFrom (loopingWith ll off) Codes.fixed :=
  ⟨by decide +kernel, by decide +kernel, h, h'⟩

theorem buildTable_of_valid {x : Alphabet} {lens : List Nat} (h : lengthsValid x.maxLen lens = true) :
    buildTable x lens = some ((buildTable x lens).getD []) := by
  simp [buildTable, h]

theorem abc_readerOk : readerOk abc.br := ⟨by decide, by decide⟩

theorem abc_writerOk : writerOk abc.bw := ⟨by decide, by decide, by decide, by decide, by decide⟩

theorem abc_matchFinderOk : matchFinderOk abc.mf := ⟨by decide, by decide, by decide, by decide⟩

theorem abc_decompOk : decompOk abc.dx := ⟨by decide, by decide, by decide, by decide, by decide, rfl⟩

theorem abc_buffersFit : buffersFit abc := ⟨by decide, by decide, by decide⟩

theorem abc_handleOk : handleOk abc.handle := fun _ => ⟨by decide, by decide⟩

theorem abc_countsOk : countsOk abc :=
  fun _ => ⟨⟨by decide, by decide⟩, ⟨by decide, by decide⟩, ⟨by decide, by decide⟩, by decide, ⟨by decide, by decide⟩,
    ⟨by decide, by decide⟩, by decide, by decide⟩

theorem abc_memoryOk : memoryOk abc := by unfold memoryOk; decide

theorem abc_tablesOk : tablesOk abc := ⟨by decide, by decide, by decide, by decide, by decide, by decide, by decide⟩

theorem abc_ordered : abc.mf.ordered :=
  ⟨by decide, fun _ _ => ⟨(by decide : sentinel.toInt < 0), (by decide : sentinel.toInt < 0)⟩,
    fun v h _ => by
      have e : (abc.mf.next.get (nextSlot v)).toInt = -32768 := rfl
      have p : (abc.mf.pos.toNat : Int) = 0 := rfl
      rw [p] at h
      rw [e]
      omega⟩

/-- The edges of every illegal range of rule R124, and their legal neighbours. -/
theorem witness_IllegalWordsAnswerBadCmd :
    (∀ opc ∈ [0x08, 0x0F, 0x14, 0x1F, 0x27, 0x2F, 0x32, 0x3F, 0x45, 0x4F, 0x56, 0x5F, 0x62, 0xFF], illegalOpc opc)
      ∧ (∀ opc ∈ [0x00, 0x07, 0x10, 0x13, 0x20, 0x26, 0x30, 0x31, 0x40, 0x44, 0x50, 0x55, 0x60, 0x61], ¬ illegalOpc opc)
      ∧ illegalWord 0x00001000#32 ∧ illegalWord 0x00000321#32 ∧ ¬ illegalWord 0x00000221#32
      ∧ illegalWord 0x00000100#32 ∧ ¬ illegalWord 0x00000F01#32 ∧ ¬ illegalWord 0x00000F06#32
      ∧ ∃ s : State, s.host = .write cmdIndex 0x00001000#32 :: [] := by
  unfold illegalWord illegalOpc illegalSel
  exact ⟨by decide, by decide, by decide, by decide, by decide, by decide, by decide, by decide,
    queued (.write cmdIndex 0x00001000#32) State.reset, rfl⟩

/-- The precode of the decode tests is readable and covers its symbols. -/
theorem witness_EveryInstructionDecodesBack :
    readable precode.precode ∧ readable precode.litlen ∧ precode.cover (.preZrep11 127) = true
      ∧ Instr.wellFormed (.preZrep11 127) = true ∧ Instr.wellFormed (.copyMatch 28 0 29 8191) = true
      ∧ Instr.wellFormed (.llReserved 287) = true ∧ Instr.wellFormed (.ofReserved 31) = true := by
  unfold readable; decide +kernel

theorem witness_StepRunsTheDecodedCommand :
    (queued (.write cmdIndex 0x00000601#32) State.reset).host = .write cmdIndex 0x00000601#32 :: []
      ∧ decodeCommand 0x00000601#32 = .ok (.create 6) := by decide

/-- A live engine in DECODE_LOOP with the tables of the fixed code and its reader on some bytes. -/
def loopingOn (bytes : List Nat) : State :=
  { loopingWith ((buildTable .litlen fixedLitlenLens).getD []) ((buildTable .offset fixedOffsetLens).getD []) with
    mem := memoryOf 0x1000 bytes
    br := Reader.init 0x1000 (BitVec.ofNat 32 bytes.length) }

/-- A header at the start of the input; an end of block (seven zeros); no header's bits within the bound;
and length symbol 257 then offset symbol 30, `C0 07`. -/
theorem witness_DxStepRunsTheFetchedElement :
    elementNext (bound [0x07]) Codes.fixed .header (.blockReserved true)
      ∧ (tablesBuiltFrom (loopingOn [0x00]) Codes.fixed ∧ elementNext (loopingOn [0x00]) Codes.fixed .litlen .eob)
      ∧ (readerOk ⟨0x1000, 1, 72⟩
          ∧ ∀ i, ¬ elementNext { bound [0x07] with br := ⟨0x1000, 1, 72⟩ } Codes.fixed .header i)
      ∧ (fixedLitlenLens.getD 257 0 ≠ 0 ∧ fixedOffsetLens.getD 30 0 ≠ 0
          ∧ (loopingOn [0xC0, 0x07]).br.holds (loopingOn [0xC0, 0x07]).mem
              (codewordBits fixedLitlenLens 257 ++ (bitsOf (lenExtra 0) 0 ++ codewordBits fixedOffsetLens 30))
          ∧ 0 + (codewordBits fixedLitlenLens 257 ++ (bitsOf (lenExtra 0) 0 ++ codewordBits fixedOffsetLens 30)).length
              ≤ 8 * 2 + 64) := by
  refine ⟨⟨by decide, by decide, by decide, ?_, by decide⟩,
    ⟨tablesBuiltFrom_looping (buildTable_of_valid fixedLitlen_valid) (buildTable_of_valid fixedOffset_valid),
      by decide, by decide +kernel, by decide, ?_, by decide +kernel⟩,
    ⟨⟨by decide, by decide⟩, fun i h => ?_⟩, by decide +kernel, by decide +kernel, ?_, by decide +kernel⟩
  · unfold Reader.holds; decide
  · show Reader.holds (Reader.init 0x1000 1) (memoryOf 0x1000 [0x00]) _
    unfold Reader.holds; decide +kernel
  · obtain ⟨he, -, -, -, hb⟩ := h
    have e : (encode Codes.fixed i).length = 3 := by
      cases i <;> first | rfl | exact Expect.noConfusion he
    rw [e] at hb
    exact absurd hb (by decide)
  · show Reader.holds (Reader.init 0x1000 2) (memoryOf 0x1000 [0xC0, 0x07]) _
    unfold Reader.holds; decide +kernel

/-- Each access of the host's queue, at the edge indices of the port. -/
theorem witness_HostAccesses :
    (∀ index ∈ [0, 7, 9, 10], (queued (.write index 5) State.reset).host = .write index 5 :: [] ∧ index ≠ cmdIndex)
      ∧ (∀ index ∈ [0, 7, 8, 9, 10], (queued (.read index) State.reset).host = .read index :: [])
      ∧ (∀ op ∈ [HostOp.poke 0xFFFFFFFF 1, .hardReset, .narrowAccess, .contended 0], (queued op live).host = op :: [])
      ∧ State.reset.host = [] := by decide

theorem witness_NoHandleAndNopChangeNothing :
    isCommand .compress = true ∧ needsNoHandle .compress = false ∧ State.reset.handle.alive = false := by decide

/-- Rule R415's operand limits: the last good value and the first bad one. -/
theorem witness_ResultsExactlyWhereListed :
    (¬ badOperands .mfInit (State.ops abc 0xFFFFFFFF 1 0 0) ∧ badOperands .mfInit (State.ops abc 0xFFFFFFFF 2 0 0))
      ∧ (¬ badOperands .mfSkip (State.ops abc 12 0 0 0) ∧ badOperands .mfSkip (State.ops abc 13 0 0 0))
      ∧ (¬ badOperands (.hbTally .litlen) (State.ops abc 285 0 0 0) ∧ badOperands (.hbTally .litlen) (State.ops abc 286 0 0 0))
      ∧ (¬ badOperands .hbMatch (State.ops abc 258 32768 0 0) ∧ badOperands .hbMatch (State.ops abc 259 1 0 0)
          ∧ badOperands .hbMatch (State.ops abc 3 0 0 0) ∧ badOperands .hbMatch (State.ops abc 3 32769 0 0))
      ∧ (¬ badOperands .bwPut (State.ops abc 0xFFFFFFFF 32 0 0) ∧ badOperands .bwPut (State.ops abc 0 33 0 0)
          ∧ ¬ badOperands .bwPut (State.ops abc 3 2 0 0) ∧ badOperands .bwPut (State.ops abc 4 2 0 0))
      ∧ (¬ badOperands .brGet (State.ops abc 32 0 0 0) ∧ badOperands .brGet (State.ops abc 33 0 0 0))
      ∧ (¬ badOperands .compress (State.ops abc 0x1000 12 0x100C 5) ∧ badOperands .compress (State.ops abc 0x1000 12 0x100B 5))
      ∧ (¬ badOperands (.tread .misc) (State.ops abc 30 0 0 0) ∧ badOperands (.tread .misc) (State.ops abc 31 0 0 0))
      ∧ (¬ badOperands (.twrite .codeLL) (State.ops abc 0 65535 0 0) ∧ badOperands (.twrite .codeLL) (State.ops abc 0 65536 0 0)) := by
  unfold badOperands; decide

theorem witness_InstructionsWriteOnlyTheirParts : exec .nop live = .next (live.ended .success) := rfl

/-- An instruction that neither creates nor destroys, a next state, and fitting buffers. -/
theorem witness_BindingsAndDestination :
    buffersFit abc ∧ exec .mfSlide abc = .next (abc.ended .badArg) ∧ Instr.mfSlide ≠ .destroy
      ∧ ¬ inBuffer (destination .bwPut abc).1 (destination .bwPut abc).2 0x2010
      ∧ inBuffer (destination .bwPut abc).1 (destination .bwPut abc).2 0x200F := by
  refine ⟨abc_buffersFit, rfl, by decide, ?_, ?_⟩ <;> unfold inBuffer <;> decide

theorem witness_UnitsReadOnlyTheirInput :
    matchFinderOk abc.mf ∧ readerOk abc.br
      ∧ agreeOn abc.mem (abc.mem.write 0x2000 1) (inputBuffer .brPeek abc).1 (inputBuffer .brPeek abc).2
      ∧ (decompOk abc.dx ∧ historyBuffer .dxStep abc = (abc.dx.dst, 0))
      ∧ ∃ t, exec .brPeek abc = .next t := by
  refine ⟨abc_matchFinderOk, abc_readerOk, ?_, ⟨abc_decompOk, rfl⟩, _, rfl⟩
  intro addr h
  have h' : 0x1000 ≤ addr.toNat ∧ addr.toNat < 0x1000 + 12 := h
  have hne : addr ≠ 0x2000#32 := by
    intro e
    rw [e] at h'
    exact absurd h'.2 (by decide)
  exact Memory.read_write_ne _ _ hne

theorem witness_CreateAndDestroy : (9#4).toNat ≤ 9 ∧ 9 < (10#4).toNat ∧ live.handle.alive = true := by decide

/-- The last index of a space, and accepted values at the edges of an `int16`. -/
theorem witness_TreadAndTwrite :
    (State.ops live 32767 0xFFFF8000 0 0).port.a0.toNat < spaceSize .head ∧ Space.head ≠ .misc
      ∧ spaceAccepts .head 0xFFFF8000#32 = true ∧ spaceAccepts .next 0x7FFF#32 = true ∧ spaceAccepts .lensPC 15#32 = true
      ∧ (30 : Nat) < spaceSize .misc := by decide

theorem witness_InitCommandsBindTheirUnit :
    (State.ops live 0xFFFFFFFF 1 0 0).port.a0.toNat + (State.ops live 0xFFFFFFFF 1 0 0).port.a1.toNat ≤ wordSpan := by decide

/-- The search's positions: the first, the last with three bytes left, the last but one, and a due slide. -/
theorem witness_MatchFinder :
    (abc.mf.pos.toNat < windowSize ∧ abc.mf.cur + 3 ≤ abc.mf.len.toNat)
      ∧ (∃ s : State, s.handle.alive = true ∧ s.mf.cur + 3 = s.mf.len.toNat ∧ s.mf.pos.toNat < windowSize)
      ∧ (∃ s : State, s.handle.alive = true ∧ s.mf.cur < s.mf.len.toNat ∧ s.mf.len.toNat < s.mf.cur + 3)
      ∧ (∃ s : State, s.handle.alive = true ∧ tablesOk s ∧ s.mf.pos.toNat = windowSize ∧ s.mf.cur < s.mf.len.toNat)
      ∧ abc.mf.cur + (State.ops abc 12 0 0 0).port.a0.toNat ≤ abc.mf.len.toNat := by
  refine ⟨by decide, ⟨{ abc with mf := { abc.mf with pos := 9 } }, by decide⟩,
    ⟨{ abc with mf := { abc.mf with pos := 10 } }, by decide⟩,
    ⟨{ abc with mf := { abc.mf with len := 40000, pos := 32768 } }, by decide, ?_, by decide, by decide⟩, by decide⟩
  exact ⟨by decide, by decide, by decide, by decide, by decide, by decide, by decide⟩

theorem witness_HbTallyAndMatch :
    (State.ops live 285 0 0 0).port.a0.toNat < Alphabet.litlen.nsym
      ∧ 3 ≤ (State.ops live 258 32768 0 0).port.a0.toNat ∧ (State.ops live 258 32768 0 0).port.a0.toNat ≤ 258
      ∧ 1 ≤ (State.ops live 258 32768 0 0).port.a1.toNat ∧ (State.ops live 258 32768 0 0).port.a1.toNat ≤ 32768 := by decide

/-- Two symbols counted, one counted, none counted: the three clauses of HB.LENS. -/
theorem witness_HbLensLengthsInRange :
    (counted { live with freq := ⟨[], [], [(0, 5), (18, 1)]⟩ } .precode 0
        ∧ counted { live with freq := ⟨[], [], [(0, 5), (18, 1)]⟩ } .precode 18
        ∧ ¬ counted { live with freq := ⟨[], [], [(0, 5), (18, 1)]⟩ } .precode 1)
      ∧ (∀ b, counted { live with freq := ⟨[], [], [(3, 7)]⟩ } .precode b → b = 3)
      ∧ ∀ b, ¬ counted live .precode b := by
  refine ⟨by unfold counted; decide, fun b h => ?_, fun b h => absurd (rfl : live.freq.precode.get b = 0) h.2⟩
  by_contra hb
  exact h.2 (by
    show Cells.get (0 : BitVec 32) [(3, 7)] b = 0
    simp [Cells.get, Ne.symm hb])

/-- A complete code, the empty one and the single one-bit codeword are accepted; 1, 2 is not. -/
theorem witness_AcceptedLengths :
    acceptedLengths .precode pcLens ∧ acceptedLengths .precode (List.replicate 19 0) ∧ acceptedLengths .precode [0, 1]
      ∧ ¬ acceptedLengths .precode [1, 2] ∧ ¬ acceptedLengths .precode [0, 0, 0, 9]
      ∧ (({ live with lens := ⟨[], [], Table.ofList 4 pcLens⟩ } : State).lens.lengths .precode) = pcLens := by
  unfold acceptedLengths; decide +kernel

/-- Symbol 1 comes next on the byte 0B; with the lengths 0, 1 nothing does. -/
theorem witness_DtDecodeReadsTheNextCodeword :
    pcLens.length = Alphabet.precode.slots
      ∧ (∃ t, buildTable .precode pcLens = some ((decodingWith t).dtab.table .precode))
      ∧ (bound [0x0B]).br.holds (bound [0x0B]).mem (codewordBits pcLens 1)
      ∧ ∀ a, a < 19 → (0 :: 1 :: List.replicate 17 0 : List Nat).getD a 0 ≠ 0 →
          ¬ (bound [0x0B]).br.holds (bound [0x0B]).mem (codewordBits (0 :: 1 :: List.replicate 17 0) a) := by
  obtain ⟨t, ht⟩ : ∃ t, buildTable .precode pcLens = some t := ⟨_, buildTable_of_valid pcLens_valid⟩
  refine ⟨rfl, ⟨t, ht⟩, ?_, ?_⟩ <;> unfold Reader.holds <;> decide +kernel

/-- The code HB.LENS makes of no counts, and the codeword 0 next on implicit zeros. -/
theorem witness_BuiltCodesDecodeToThemselves :
    let s3 := after (.dtBuild .precode) (after (.hbCodes .precode) (after (.hbLens .precode) live))
    ((s3.lens.table .precode).get 0).toNat ≠ 0
      ∧ s3.br.holds s3.mem (bitsOf ((s3.lens.table .precode).get 0).toNat ((s3.code.table .precode).get 0).toNat)
      ∧ s3.br.bitpos.toNat + ((s3.lens.table .precode).get 0).toNat ≤ 8 * s3.br.len.toNat + 64 := by
  unfold Reader.holds; decide +kernel

/-- A writer with room for exactly what is put, one without, one that overflowed; an aligned and an
unaligned one; and for each command that sends bytes, one byte more than there is room for. -/
theorem witness_Writer :
    writerOk abc.bw ∧ ¬ badOperands .bwPut (State.ops abc 0xFFFFFFFF 32 0 0)
      ∧ writerOk ⟨0x2000, 1, 1, 0x7F, 7, false⟩ ∧ writerOk ⟨0x2000, 1, 1, 0, 0, true⟩
      ∧ ¬ badOperands .bwBytes (State.ops abc 0x1000 12 0 0)
      ∧ (State.ops abc 0x1000 16 0 0).bw.nbytes.toNat + (State.ops abc 0x1000 16 0 0).port.a1.toNat ≤ abc.bw.cap.toNat
      ∧ (∀ i ∈ [Instr.bwPut, .bwAlign, .bwFlush],
          bytesSent i (State.ops { abc with bw := ⟨0x2000, 1, 1, 0x7F, 7, false⟩ } 1 1 0 0) = 1)
      ∧ bytesSent .bwBytes (State.ops abc 0x1000 17 0 0) = abc.bw.cap.toNat + 1
      ∧ ¬ badOperands .bwBytes (State.ops abc 0x1000 17 0 0) := by
  refine ⟨abc_writerOk, by unfold badOperands; decide, ⟨by decide, by decide, by decide, by decide, by decide⟩,
    ⟨by decide, by decide, by decide, by decide, by decide⟩, by unfold badOperands; decide, by decide, by decide, by decide,
    by unfold badOperands; decide⟩

/-- Fields of 0 and 32 bits, within the overread bound and past it. -/
theorem witness_BrCommandsReadTheNextBits :
    (State.ops abc 32 0 0 0).port.a0.toNat ≤ 32 ∧ readerOk abc.br ∧ readerOk ⟨0x1000, 1, 72⟩
      ∧ ¬ (72 + 1 ≤ 8 * 1 + 64) := by
  refine ⟨by decide, abc_readerOk, ⟨by decide, by decide⟩, by decide⟩

theorem witness_BrBytesCopiesRealInput :
    ¬ badOperands .brBytes (State.ops abc 0x3000 12 0 0) ∧ ¬ badOperands .brBytes (State.ops abc 0x3000 13 0 0)
      ∧ abc.br.bitpos.toNat / 8 + 12 ≤ max abc.br.len.toNat (abc.br.bitpos.toNat / 8)
      ∧ max abc.br.len.toNat (abc.br.bitpos.toNat / 8) < abc.br.bitpos.toNat / 8 + 13 := by
  unfold badOperands; decide

theorem witness_DxStepWhereNoBitIsRead :
    (∃ s : State, s.handle.alive = true ∧ s.dx.state = .done) ∧ (∃ s : State, s.handle.alive = true ∧ s.dx.state = .error)
      ∧ ∃ s : State, s.handle.alive = true ∧ s.dx.state = .buildTables ∧ s.dx.btype = 1 :=
  ⟨⟨{ live with dx := { live.dx with state := .done } }, by decide⟩,
    ⟨{ live with dx := { live.dx with state := .error } }, by decide⟩,
    ⟨{ live with dx := { live.dx with state := .buildTables, btype := 1 } }, by decide⟩⟩

/-- The output full, and with room. -/
theorem witness_ControlElementsAct : live.dx.outpos = live.dx.cap ∧ abc.dx.outpos ≠ abc.dx.cap := by decide

/-- LEN 12 and the complement; all the input left; LEN 13 and 16 at the edges of input and room. -/
theorem witness_StoredBodyCopiesVerbatim :
    readerOk abc.br ∧ decompOk abc.dx ∧ disjoint abc.br.src abc.br.len abc.dx.dst abc.dx.cap = true
      ∧ (12#16 = 0xFFF3#16 ^^^ 0xFFFF#16) ∧ (12#16 ≠ 0xFFF2#16 ^^^ 0xFFFF#16)
      ∧ 12 ≤ abc.br.len.toNat - abc.br.bitpos.toNat / 8 ∧ abc.br.len.toNat - abc.br.bitpos.toNat / 8 < 13
      ∧ abc.dx.outpos.toNat + 16 ≤ abc.dx.cap.toNat ∧ abc.dx.cap.toNat < abc.dx.outpos.toNat + 17 :=
  ⟨abc_readerOk, abc_decompOk, by decide, by decide, by decide, by decide, by decide, by decide, by decide⟩

/-- A dynamic header is expected; counts at and above the limits under STRICT_COUNTS. -/
theorem witness_DynamicHeaderBuildsOrRefuses :
    ∃ s : State, decompOk s.dx ∧ s.dx.state = .buildTables ∧ s.cfg.strictCounts = true
      ∧ (29 < (30#5).toNat ∧ (29#5).toNat ≤ 29) :=
  ⟨{ abc with dx := { abc.dx with state := .buildTables, btype := 2 } },
    ⟨by decide, by decide, by decide, by decide, by decide, rfl⟩, rfl, rfl, by decide⟩

/-- The stream of S9, `05 C0 81 08 00 00 00 00 A0 FD A9 0F`, from bit 17 on. -/
def s9 : State :=
  { bound [0x05, 0xC0, 0x81, 0x08, 0x00, 0x00, 0x00, 0x00, 0xA0, 0xFD, 0xA9, 0x0F] with
    br := ⟨0x1000, 12, 17⟩
    dx := { Decomp.init 0x3000 16 with state := .buildTables, btype := 2, bfinal := true } }

/-- The precode lengths of S9: 2 for 0 and 1, 1 for 18. -/
def s9Precode : List Nat := [2, 2, 0, 0, 0, 0, 0, 0, 0, 0, 0, 0, 0, 0, 0, 0, 0, 0, 1]

/-- The items of S9: (1,0), (18,127), (18,106), (1,0), (0,0). -/
def s9Items : List Instr := [.preLen 1, .preZrep11 127, .preZrep11 106, .preLen 1, .preLen 0]

theorem witness_DynamicHeaderLoadsItsLengths :
    ∃ tpre ls tll tof, decompOk s9.dx ∧ s9.dx.state = .buildTables ∧ s9Precode.length = 19 ∧ (∀ l ∈ s9Precode, l ≤ 7)
      ∧ (∀ j, 18 ≤ j → j < 19 → s9Precode.getD (precodeOrder.getD j 0) 0 = 0)
      ∧ buildTable .precode s9Precode = some tpre ∧ (∀ i ∈ s9Items, Codes.cover ⟨[], [], s9Precode⟩ i = true)
      ∧ lengthsOf [] s9Items = some ls ∧ ls.length = 258
      ∧ buildTable .litlen ((ls.take 257).map BitVec.toNat ++ List.replicate 31 0) = some tll
      ∧ buildTable .offset ((ls.drop 257).map BitVec.toNat ++ List.replicate 31 0) = some tof
      ∧ s9.br.holds s9.mem (precodeBits 18 s9Precode ++ s9Items.flatMap (encode ⟨[], [], s9Precode⟩)) := by
  refine ⟨_, (1 :: List.replicate 255 0) ++ [1, 0], _, _,
    ⟨by decide, by decide, by decide, by decide, by decide, rfl⟩, rfl, rfl, by decide, by decide,
    buildTable_of_valid (by decide +kernel), by decide, by decide +kernel, by decide +kernel,
    buildTable_of_valid (by decide +kernel), buildTable_of_valid (by decide +kernel), ?_⟩
  unfold Reader.holds
  decide +kernel

/-- Room for exactly one more length, and none. -/
theorem witness_PrecodeElements :
    ({ live.dx with seq := List.replicate 257 0 } : Decomp).seq.length + 1 ≤ live.dx.nlit.toNat + live.dx.ndist.toNat
      ∧ live.dx.nlit.toNat + live.dx.ndist.toNat < ({ live.dx with seq := List.replicate 258 0 } : Decomp).seq.length + 1
      ∧ ({ live.dx with seq := [7] } : Decomp).seq.getLast? = some 7#4 ∧ live.dx.seq = [] := by decide +kernel

/-- Offset 1 with one byte of history and room for exactly the match; offset 2; room for one byte less. -/
theorem witness_MatchReplaysHistory :
    Instr.wellFormed (.copyMatch 2 0 0 0) = true
      ∧ decompOk { Decomp.init 0x3000 6 with state := .decodeLoop, outpos := 1 }
      ∧ offBase 0 ≤ 1 ∧ 1 + lenBase 2 ≤ 6 ∧ 1 < offBase 1 ∧ 5 < 1 + lenBase 2 :=
  ⟨by decide, ⟨by decide, by decide, by decide, by decide, by decide, rfl⟩, by decide, by decide, by decide, by decide⟩

/-- Two handles with different pasts, the same operands and input; a capacity of exactly the bound. -/
theorem witness_WholeBufferCommands :
    ¬ badOperands .decompress (State.ops abc 0x1000 12 0x2000 17) ∧ ¬ badOperands .compress (State.ops abc 0x1000 12 0x2000 17)
      ∧ 12 + 5 * max 1 (ceilDiv 12 32768) = 17
      ∧ handleOk abc.handle ∧ agreeOn abc.mem abc.mem 0x1000 12 ∧ (after .hbFixed abc).handle.level = abc.handle.level :=
  ⟨by unfold badOperands; decide, by unfold badOperands; decide, by decide, abc_handleOk, fun _ _ => rfl, rfl⟩

/-- At level 6 a stream of 6 bytes, which DECOMPRESS takes with exactly room for the input
(`95_test_vectors.md`, input A); at level 0 a capacity of exactly the input and five bytes; and a match-finder at the
start of an input, in the window and at the end of the window. -/
theorem witness_CompressedFormStandsForTheInput :
    (∃ t, exec .compress (State.ops abc 0x1000 12 0x2000 17) = .next t ∧ (State.ops abc 0x1000 12 0x2000 17).handle.alive = true
      ∧ ¬ badOperands .compress (State.ops abc 0x1000 12 0x2000 17) ∧ t.port.result = .success ∧ t.port.a5 = 6
      ∧ (State.ops t 0x2000 6 0x3000 12).handle.alive = true ∧ ¬ badOperands .decompress (State.ops t 0x2000 6 0x3000 12))
    ∧ (∃ s : State, s.handle.alive = true ∧ s.handle.level = 0 ∧ ¬ badOperands .compress s
      ∧ s.port.a1.toNat + 5 * max 1 (ceilDiv s.port.a1.toNat 65535) = s.port.a3.toNat)
      ∧ matchFinderOk abc.mf ∧ matchFinderOk ⟨0x1000, 40000, 0, 5, [], []⟩
      ∧ matchFinderOk ⟨0x1000, 40000, 0, 32768, [], []⟩ :=
  ⟨⟨after .compress (State.ops abc 0x1000 12 0x2000 17), exec_after _ _, rfl, by unfold badOperands; decide, by decide +kernel,
      by decide +kernel, by decide +kernel, by unfold badOperands; decide +kernel⟩,
    ⟨State.ops { abc with handle := ⟨true, 0, false, 0, 0⟩ } 0x1000 12 0x2000 17, rfl, rfl, by unfold badOperands; decide,
      by decide⟩,
    abc_matchFinderOk, by unfold matchFinderOk; decide, by unfold matchFinderOk; decide⟩

/-- One state that meets every invariant, and steps; and a token at each end of the ranges. -/
theorem witness_Invariants :
    (tokensOk abc.cp ∧ tokensOk ⟨[.lit 255, .copy 3 1, .copy 258 32767], 0⟩) ∧
    memoryOk abc ∧ tablesOk abc ∧ writerOk abc.bw ∧ readerOk abc.br ∧ decompOk abc.dx ∧ handleOk abc.handle ∧ countsOk abc
      ∧ matchFinderOk abc.mf ∧ abc.mf.ordered ∧ step abc = .next abc :=
  ⟨⟨⟨by decide, by simp [show abc.cp.tok = [] from rfl]⟩,
      by decide, by simp; exact fun _ _ h => by rcases h with ⟨rfl, rfl⟩ | ⟨rfl, rfl⟩ <;> decide⟩,
    abc_memoryOk, abc_tablesOk, abc_writerOk, abc_readerOk, abc_decompOk, abc_handleOk, abc_countsOk, abc_matchFinderOk,
    abc_ordered, rfl⟩

end Sys2Proof.Tests
end

section
/-! PROOF. What an instruction writes, said once (rule R180): the state after it is the state before it
with the parts of `writes` replaced. The other proofs of this family cite it for every part an
instruction leaves as it is. -/

namespace Sys2Proof.Machine

/-! ## The frame -/

/-- `s` with the listed parts taken from `t`. What no instruction writes is not a part, and stays that of `s`. -/
def State.patch (ps : List Part) (s t : State) : State where
  port :=
    { s.port with
      a4 := if .a4 ∈ ps then t.port.a4 else s.port.a4
      a5 := if .a5 ∈ ps then t.port.a5 else s.port.a5
      a6 := if .a6 ∈ ps then t.port.a6 else s.port.a6
      result := if .result ∈ ps then t.port.result else s.port.result }
  handle := if .handle ∈ ps then t.handle else s.handle
  mf := if .mf ∈ ps then t.mf else s.mf
  cp := if .cp ∈ ps then t.cp else s.cp
  freq := if .freq ∈ ps then t.freq else s.freq
  lens := if .lens ∈ ps then t.lens else s.lens
  code := if .code ∈ ps then t.code else s.code
  hb := if .hb ∈ ps then t.hb else s.hb
  dtab := if .dtab ∈ ps then t.dtab else s.dtab
  bw := if .bw ∈ ps then t.bw else s.bw
  br := if .br ∈ ps then t.br else s.br
  dx := if .dx ∈ ps then t.dx else s.dx
  mem := if .mem ∈ ps then t.mem else s.mem
  cfg := s.cfg
  host := s.host
  rdata := s.rdata
  draws := if .draws ∈ ps then t.draws else s.draws

/-- `t` is `s` but for the listed parts. -/
def State.frame (ps : List Part) (s t : State) : Prop := t = s.patch ps t

theorem State.frame_refl (ps : List Part) (s : State) : s.frame ps s := by simp [State.frame, State.patch]

theorem State.frame_ended {ps : List Part} {s t : State} (h : s.frame ps t) (hr : .result ∈ ps) (r : Result) :
    s.frame ps (t.ended r) :=
  (congrArg (State.ended · r) h).trans (by simp [State.patch, State.ended, hr])

/-- A part that is not listed is the same (`Part.same` asks less of memory than its equality). -/
theorem State.frame_same {ps : List Part} {s t : State} (h : s.frame ps t) {p : Part} (hp : p ∉ ps) : p.same s t := by
  rw [h]
  cases p <;> simp [Part.same, State.patch, hp]

theorem State.frame_mem {ps : List Part} {s t : State} (h : s.frame ps t) (hp : .mem ∉ ps) : t.mem = s.mem :=
  (congrArg State.mem h).trans (if_neg hp)

/-! ## Memory through a dynamic header (rules R366 to R369) -/

theorem Inflate.andThen_mem {d : Inflate} {f : Inflate → Inflate} (h : (f d).mem = d.mem) : (d.andThen f).mem = d.mem := by
  unfold Inflate.andThen
  split
  · rfl
  all_goals exact h

theorem Inflate.readPrecodeLens_mem (order : List Nat) (d : Inflate) : (Inflate.readPrecodeLens order d).mem = d.mem := by
  induction order generalizing d with
  | nil => rfl
  | cons s order ih =>
    unfold Inflate.readPrecodeLens
    split
    · rfl
    · exact ih _

theorem Inflate.extend_mem (d : Inflate) (v : BitVec 4) (r : Nat) : (d.extend v r).mem = d.mem := by
  unfold Inflate.extend
  split <;> rfl

theorem Inflate.preRep_mem (d : Inflate) (e : BitVec 2) : (d.preRep e).mem = d.mem := by
  unfold Inflate.preRep
  split
  · rfl
  · exact d.extend_mem _ _

theorem Inflate.runPrecode_mem (d : Inflate) (i : Instr) : (d.runPrecode i).mem = d.mem := by
  cases i with
  | preLen value => exact d.extend_mem _ _
  | preRep extra => exact d.preRep_mem _
  | preZrep3 extra => exact d.extend_mem _ _
  | preZrep11 extra => exact d.extend_mem _ _
  | _ => rfl

theorem Inflate.readLengths_mem (n : Nat) (d : Inflate) : (Inflate.readLengths n d).mem = d.mem := by
  induction n generalizing d with
  | zero => rfl
  | succ n ih =>
    have hstep : d.precodeStep.mem = d.mem := by
      unfold Inflate.precodeStep
      split
      · rfl
      · exact Inflate.runPrecode_mem _ _
    unfold Inflate.readLengths
    split
    · rfl
    · exact (Inflate.andThen_mem (ih _)).trans hstep

theorem Inflate.build_mem {d d' : Inflate} {x : Alphabet} (h : d.build x = some d') : d'.mem = d.mem :=
  (Inflate.build_dx h).2.2.2.1

theorem Inflate.buildBoth_mem (d : Inflate) : d.buildBoth.mem = d.mem := by
  unfold Inflate.buildBoth
  split
  · rfl
  · have hl := Inflate.build_mem ‹_›
    split
    · exact hl
    · rename_i d'' ho
      exact (show d''.mem = _ from Inflate.build_mem ho).trans hl

theorem Inflate.buildDynamic_mem (d : Inflate) : d.buildDynamic.mem = d.mem := by
  unfold Inflate.buildDynamic
  cases hp : d.build .precode with
  | none => rfl
  | some d' =>
    have hread : (Inflate.readLengths d'.total d'.dropSeq).mem = d.mem :=
      (Inflate.readLengths_mem _ _).trans (show d'.mem = _ from Inflate.build_mem hp)
    exact Eq.trans (Inflate.andThen_mem (f := fun d => d.loadLengths.buildBoth) (Inflate.buildBoth_mem _)) hread

theorem Inflate.dynamicHeader_mem (d : Inflate) (hlit hdist : BitVec 5) (hclen : BitVec 4) :
    (d.dynamicHeader hlit hdist hclen).mem = d.mem := by
  unfold Inflate.dynamicHeader
  simp only []
  split
  · rfl
  · exact (Inflate.andThen_mem (Inflate.buildDynamic_mem _)).trans (Inflate.readPrecodeLens_mem _ _)

/-! ## Stream elements -/

theorem State.frame_blockDone (s : State) : s.frame [.dx] (s.withInflate s.inflate.blockDone) := by
  unfold Inflate.blockDone Inflate.finish
  split
  · split <;> rfl
  · rfl

theorem State.frame_extend (s : State) (v : BitVec 4) (r : Nat) : s.frame [.dx] (s.withInflate (s.inflate.extend v r)) := by
  unfold Inflate.extend
  split <;> rfl

theorem State.frame_storedBody (s : State) (len nlen : BitVec 16) :
    s.frame [.br, .dx, .mem] (s.withInflate (s.inflate.storedBody len nlen)) := by
  unfold Inflate.storedBody Inflate.blockDone Inflate.finish
  repeat' split
  all_goals rfl

theorem State.frame_dynamicHeader (s : State) (hlit hdist : BitVec 5) (hclen : BitVec 4) :
    s.frame [.lens, .dtab, .br, .dx] (s.withInflate (s.inflate.dynamicHeader hlit hdist hclen)) := by
  have hmem := s.inflate.dynamicHeader_mem hlit hdist hclen
  generalize s.inflate.dynamicHeader hlit hdist hclen = d at hmem
  simp [State.frame, State.patch, State.withInflate, hmem]

theorem State.frame_run {i : Instr} (h : isCommand i = false) (s : State) :
    s.frame (writes i) (s.withInflate (s.inflate.run i)) := by
  cases i with
  | blockStored final => rfl
  | blockFixed final => rfl
  | blockDynamic final => rfl
  | blockReserved final => rfl
  | storedBody len nlen => exact s.frame_storedBody len nlen
  | dynamicHeader hlit hdist hclen => exact s.frame_dynamicHeader hlit hdist hclen
  | preLen value => exact s.frame_extend _ _
  | preRep extra =>
    show s.frame _ (s.withInflate (s.inflate.preRep extra))
    unfold Inflate.preRep
    split
    · rfl
    · exact s.frame_extend _ _
  | preZrep3 extra => exact s.frame_extend _ _
  | preZrep11 extra => exact s.frame_extend _ _
  | lit value =>
    show s.frame _ (s.withInflate (s.inflate.literal value))
    unfold Inflate.literal
    split <;> rfl
  | eob => exact s.frame_blockDone
  | copyMatch ls lx os ox =>
    show s.frame _ (s.withInflate (s.inflate.replay _ _))
    unfold Inflate.replay
    repeat' split
    all_goals rfl
  | llReserved symbol => rfl
  | ofReserved symbol => rfl
  | _ => simp [isCommand, encodeCommand] at h

/-! ## Commands -/

theorem frame_compressBody (s : State) : s.frame (writes .compress) (compressBody s).1 := by
  unfold compressBody
  generalize Deflate.compress _ _ _ = d
  split
  · unfold State.endDeflate
    dsimp only
    split <;> rfl
  · exact s.frame_refl _

theorem frame_decompressBody (s : State) : s.frame (writes .decompress) (decompressBody s).1 := by
  unfold decompressBody
  generalize Inflate.runAll _ _ = d
  split
  · unfold State.endInflate
    dsimp only
    split <;> rfl
  · exact s.frame_refl _

theorem frame_twriteBody (space : Space) (s : State) : s.frame (writes (.twrite space)) (twriteBody space s).1 := by
  unfold twriteBody
  repeat' split
  all_goals first | exact s.frame_refl _ | (cases space <;> rfl)

/-- The body of every command that needs a handle writes only the parts its rule names. -/
theorem frame_commandBody {i : Instr} (h : isHandleCommand i = true) (s : State) : s.frame (writes i) (commandBody i s).1 := by
  cases i with
  | destroy => rfl
  | compress => exact frame_compressBody s
  | bound => rfl
  | decompress => exact frame_decompressBody s
  | twrite space => exact frame_twriteBody space s
  | hbClear => rfl
  | hbLens x => rfl
  | hbCodes x => rfl
  | hbFixed => rfl
  | hbPrecode => rfl
  | bwAlign => rfl
  | bwFlush => rfl
  | dxStep => rfl
  | nop => cases h
  | create level => cases h
  | _ =>
    -- A refused operand leaves the state; otherwise one update of the parts named.
    simp only [commandBody, treadBody, mfInitBody, mfFindBody, mfSkipBody, mfSlideBody, hbTallyBody, hbMatchBody, dtBuildBody,
      dtDecodeBody, bwInitBody, bwPutBody, bwBytesBody, brInitBody, brPeekBody, brDropBody, brGetBody, brAlignBody, brBytesBody,
      dxInitBody]
    repeat' split
    all_goals rfl

theorem result_mem_writes {i : Instr} (h : isCommand i = true) : .result ∈ writes i := by
  cases i with
  | blockStored | blockFixed | blockDynamic | blockReserved | storedBody | dynamicHeader | preLen | preRep | preZrep3 | preZrep11
  | lit | eob | copyMatch | llReserved | ofReserved => simp [isCommand, encodeCommand] at h
  | _ => exact .head _

/-- Every instruction writes only the parts its rule names (rule R180). -/
theorem exec_frame {i : Instr} {s t : State} (h : exec i s = .next t) : s.frame (writes i) t := by
  have command : isHandleCommand i = true → isCommand i = true := fun hi => (Bool.and_eq_true_iff.mp hi).1
  rcases exec_next h with ⟨hi, -, rfl⟩ | ⟨hi, -, rfl⟩ | ⟨hi, rfl⟩ | ⟨rfl, rfl⟩ | ⟨level, rfl, ⟨-, rfl⟩ | ⟨-, rfl⟩⟩
  · exact State.frame_ended (frame_commandBody hi s) (result_mem_writes (command hi)) _
  · exact State.frame_ended (s.frame_refl _) (result_mem_writes (command hi)) _
  · exact State.frame_run hi s
  · rfl
  · rfl
  · rfl

/-! ## The frame of the 49 instructions -/

/-- Settles O13: the frame of `exec`, read part by part. -/
theorem instructionsWriteOnlyTheirParts : Obligations.InstructionsWriteOnlyTheirParts := by
  intro i s t h
  have hf := exec_frame h
  refine ⟨fun p hp => State.frame_same hf hp, ?_⟩
  rw [hf]
  exact ⟨rfl, rfl, rfl, rfl, rfl, rfl, rfl, rfl, rfl⟩

end Sys2Proof.Machine
end

section
/-! PROOF. One step of the machine (rules R34, R90, R100): the host's accesses, what a step can do, and
the rule by which an invariant of every instruction is one of every step. -/

namespace Sys2Proof.Machine

/-! ## The register port (rules R33 to R36) -/

/-- Settles O5: the CMD write is served by `command`, which decodes and executes. -/
theorem stepRunsTheDecodedCommand : Obligations.StepRunsTheDecodedCommand := by
  intro s w i rest hh hd
  simp only [step, hh, serve, command, hd, if_true]

theorem Result.code_lt (r : Result) : r.code < 16 := by cases r <;> decide

theorem DxState.code_lt (q : DxState) : q.code < 8 := by cases q <;> decide

/-- The word STATUS shows is the sum of its fields, each in its own bits (rule R35). -/
theorem State.toNat_status (s : State) :
    s.status.toNat = s.port.result.code + 16 * s.dx.state.code + 128 * s.handle.alive.toNat
      + 256 * s.handle.level.toNat + 4096 * s.bw.ovf.toNat + 8192 * s.dx.bfinal.toNat := by
  have hresult := s.port.result.code_lt
  have hstate := s.dx.state.code_lt
  have hlevel := s.handle.level.isLt
  have halive := bit_toNat_lt s.handle.alive
  have hovf := bit_toNat_lt s.bw.ovf
  have hfinal := bit_toNat_lt s.dx.bfinal
  rw [State.status, BitVec.toNat_ofNat]
  omega

/-- Settles O8: the fields of STATUS are the digits of its sum. -/
theorem portRegistersAndStatusFields : Obligations.PortRegistersAndStatusFields := by
  intro s
  have hresult := s.port.result.code_lt
  have hstate := s.dx.state.code_lt
  have hlevel := s.handle.level.isLt
  have halive := bit_toNat_lt s.handle.alive
  have hovf := bit_toNat_lt s.bw.ovf
  have hfinal := bit_toNat_lt s.dx.bfinal
  refine ⟨rfl, fun j hj => ?_, ?_⟩
  · simp [State.portRead, cmdIndex, statusIndex, show ¬ j < 8 by omega, show j ≠ 8 by omega, show j ≠ 9 by omega]
  · rw [s.toNat_status]
    omega

/-- The operands after a write to one of them. -/
theorem Port.operand_setOperand (p : Port) {i j : Nat} (w : Word) (hi : i < 8) (hj : j < 8) :
    (p.setOperand i w).operand j = if j = i then w else p.operand j := by
  interval_cases i <;> interval_cases j <;> rfl

theorem Port.setOperand_cmd (p : Port) (i : Nat) (w : Word) : (p.setOperand i w).cmd = p.cmd := by
  unfold Port.setOperand
  split <;> rfl

theorem Port.setOperand_result (p : Port) (i : Nat) (w : Word) : (p.setOperand i w).result = p.result := by
  unfold Port.setOperand
  split <;> rfl

/-- What the port reads after `portWrite`, which ignores STATUS, CMD and the reserved indices. -/
theorem State.portRead_portWrite (s : State) (index : Nat) (w : Word) (j : Nat) :
    (s.portWrite index w).portRead j = if j = index ∧ index < 8 then w else s.portRead j := by
  have h8 : cmdIndex = 8 := rfl
  by_cases hi : index < cmdIndex
  · have hresult := s.port.setOperand_result index w
    have hcmd := s.port.setOperand_cmd index w
    by_cases hj : j < cmdIndex
    · simp [State.portWrite, State.portRead, hi, hj, Port.operand_setOperand s.port w hi hj, show index < 8 from hi]
    · have hne : j ≠ index := by omega
      simp [State.portWrite, State.portRead, hi, hj, hne, hcmd, State.status, hresult]
  · rw [State.portWrite, if_neg hi, if_neg (by omega)]

/-- Settles O7: each access is one case of `serve`, and the port reads as `portRead_portWrite` has it. -/
theorem hostAccessesReadAndWriteThePort : Obligations.HostAccessesReadAndWriteThePort := by
  intro s index w addr b rest
  refine ⟨fun hh hc => ⟨State.portWrite { s with host := rest } index w, ?_, ?_, ?_, fun j => ?_⟩, fun hh => ?_, fun hh => ?_⟩
  · simp only [step, hh, serve, if_neg hc]
  · unfold State.portWrite
    split <;> rfl
  · unfold State.portWrite
    split
    · exact Port.setOperand_result _ _ _
    · rfl
  · exact State.portRead_portWrite _ _ w j
  · simp only [step, hh, serve]
    rfl
  · exact ⟨State.pokeByte { s with host := rest } addr b, by simp only [step, hh, serve], rfl, fun a => Memory.read_write _ _ _ _⟩

/-! ## What a step can do -/

theorem plainCommand_ok {sel : Nat} {i j : Instr} (h : plainCommand sel i = .ok j) : j = i := by
  unfold plainCommand at h
  split at h
  · exact (Except.ok.inj h).symm
  · cases h

theorem alphabetCommand_ok {sel : Nat} {i : Alphabet → Instr} {j : Instr} (h : alphabetCommand sel i = .ok j) : ∃ x, j = i x := by
  unfold alphabetCommand at h
  split at h
  case h_4 => cases h
  all_goals exact ⟨_, (Except.ok.inj h).symm⟩

/-- A word spells a command, never a stream element (rules R121, R122). -/
theorem decodeCommand_isCommand {w : Word} {i : Instr} (h : decodeCommand w = .ok i) : isCommand i = true := by
  unfold decodeCommand at h
  split at h
  · cases h
  · unfold decodeOpc at h
    split at h
    all_goals
      first
        | rw [plainCommand_ok h]; rfl
        | obtain ⟨x, rfl⟩ := alphabetCommand_ok h; rfl
        | cases h; rfl
        | cases h

/-- All a step can do: nothing to the units, a byte written, a hard reset, or one command. -/
theorem step_next {s t : State} (h : step s = .next t) :
    (∃ p host rdata, t = { s with port := p, host := host, rdata := rdata })
      ∨ (∃ a b rest, t = State.pokeByte { s with host := rest } a b)
      ∨ (∃ rest, t = State.hardReset { s with host := rest })
      ∨ ∃ i w rest, isCommand i = true ∧ exec i (State.latchCommand { s with host := rest } w) = .next t := by
  unfold step at h
  split at h
  · cases h
    exact .inl ⟨_, _, _, rfl⟩
  · rename_i op rest _
    cases op with
    | write index w =>
      simp only [serve] at h
      split at h
      · unfold command at h
        split at h
        · cases h
          exact .inl ⟨_, _, _, rfl⟩
        · exact .inr (.inr (.inr ⟨_, w, rest, decodeCommand_isCommand ‹_›, h⟩))
      · cases h
        unfold State.portWrite
        split <;> exact .inl ⟨_, _, _, rfl⟩
    | read index =>
      cases h
      exact .inl ⟨_, _, _, rfl⟩
    | poke address b =>
      cases h
      exact .inr (.inl ⟨_, _, _, rfl⟩)
    | hardReset =>
      cases h
      exact .inr (.inr (.inl ⟨_, rfl⟩))
    | narrowAccess => cases h
    | contended w => cases h

/-- An invariant that does not speak of the port, and that a written byte, a hard reset and every command
keep, is kept by every step. -/
theorem step_keeps {P : State → Prop} {s t : State} (h : step s = .next t)
    (port : ∀ s p host rdata, P s → P { s with port := p, host := host, rdata := rdata })
    (poke : ∀ s a b, P s → P (s.pokeByte a b))
    (reset : ∀ s, P s → P s.hardReset)
    (run : ∀ i s t, isCommand i = true → exec i s = .next t → P s → P t) (hs : P s) : P t := by
  rcases step_next h with ⟨p, host, rdata, rfl⟩ | ⟨a, b, rest, rfl⟩ | ⟨rest, rfl⟩ | ⟨i, w, rest, hi, he⟩
  · exact port s p host rdata hs
  · exact poke _ a b (port s s.port rest s.rdata hs)
  · exact reset _ (port s s.port rest s.rdata hs)
  · exact run i _ t hi he (port s _ rest s.rdata hs)

end Sys2Proof.Machine
end

section
/-! PROOF. How an instruction changes one part: what its `exec` can answer, and the two whole-buffer
commands as a change of a few parts. -/

namespace Sys2Proof.Machine

/-! ## What `exec` can answer for one instruction -/

/-- What holds of the state and of the state its body leaves holds after a command. -/
theorem exec_command_keeps {Q : State → Prop} {i : Instr} {s t : State} (h : exec i s = .next t)
    (hi : isHandleCommand i = true) (ended : ∀ s r, Q s → Q (s.ended r)) (hs : Q s)
    (body : s.handle.alive = true → Q (commandBody i s).1) : Q t := by
  cases ha : s.handle.alive
  · rw [exec_dead hi ha] at h
    cases h
    exact ended _ _ hs
  · rw [exec_alive hi ha] at h
    cases h
    exact ended _ _ (body ha)

theorem exec_create_next {level : BitVec 4} {s t : State} (h : exec (.create level) s = .next t) :
    t = s.uncreated.ended .createFailed ∨ level.toNat ≤ 9 ∧ t = (s.created level).ended .success := by
  by_cases hl : levelMax < level.toNat
  · simp only [exec, execCreate, if_pos hl] at h
    cases h
    exact .inl rfl
  · simp only [exec, execCreate, if_neg hl] at h
    cases h
    exact .inr ⟨Nat.not_lt.mp hl, rfl⟩

/-! ## The operand checks (rule R186) -/

theorem checkBuf_iff (base len : Word) : checkBuf base len = true ↔ base.toNat + len.toNat ≤ wordSpan := by simp [checkBuf]

theorem checkTwoBufs_spec {p : Port} (h : checkTwoBufs p = true) :
    p.a0.toNat + p.a1.toNat ≤ wordSpan ∧ p.a2.toNat + p.a3.toNat ≤ wordSpan ∧ disjoint p.a0 p.a1 p.a2 p.a3 = true := by
  simpa [checkTwoBufs, checkBuf_iff, and_assoc] using h

/-! ## COMPRESS and DECOMPRESS -/

/-- COMPRESS refuses its operands, or leaves the compressor's part as `Deflate.compress` has it, with the
destination's bytes hidden after an overflow (rules R233, R246). -/
theorem compressBody_cases (s : State) :
    (compressBody s).1 = s
      ∨ checkTwoBufs s.port = true ∧ ∃ m draws a5,
          (compressBody s).1 = State.setA5 { s.withDeflate (s.deflate.compress s.handle s.port) with mem := m, draws := draws } a5
          ∧ (Memory.wf (s.deflate.compress s.handle s.port).out.mem = true → Memory.wf m = true) := by
  unfold compressBody
  generalize s.deflate.compress s.handle s.port = d
  split
  · refine .inr ⟨‹_›, ?_⟩
    unfold State.endDeflate
    dsimp only
    split
    · exact ⟨_, _, _, rfl, fun h => Memory.wf_scramble _ _ _ _ h⟩
    all_goals exact ⟨_, _, _, rfl, id⟩
  · exact .inl rfl

/-- DECOMPRESS refuses its operands, or leaves the decompressor's part as the run has it, with the
destination's bytes hidden after an error (rules R363, R418). -/
theorem decompressBody_cases (s : State) :
    (decompressBody s).1 = s
      ∨ checkTwoBufs s.port = true ∧ ∃ port m draws,
          (decompressBody s).1
            = { s.withInflate (Inflate.runAll (maxSteps s.port.a1) s.startInflate) with port := port, mem := m, draws := draws }
          ∧ (Memory.wf (Inflate.runAll (maxSteps s.port.a1) s.startInflate).mem = true → Memory.wf m = true) := by
  unfold decompressBody
  generalize Inflate.runAll (maxSteps s.port.a1) s.startInflate = d
  split
  · refine .inr ⟨‹_›, ?_⟩
    unfold State.endInflate
    dsimp only
    split
    · exact ⟨_, _, _, rfl, fun h => Memory.wf_scramble _ _ _ _ h⟩
    all_goals exact ⟨_, _, _, rfl, id⟩
  · exact .inl rfl

end Sys2Proof.Machine
end

section
/-! PROOF. The match-finder through every command (rules R41, R44, R201 to R209): what a slide, an insertion
and an advance keep, every instruction keeps, COMPRESS included. -/

namespace Sys2Proof.Machine

/-! ## What every pass of the match-finder keeps -/

/-- A property a due slide, and at another position an insertion with its advance and an advance alone, keep. -/
structure MatchFinder.Closed (P : MatchFinder → Prop) : Prop where
  slide : ∀ mf, mf.pos.toNat = windowSize → P mf → P mf.slide
  insert : ∀ mf h, h < windowSize → mf.pos.toNat ≠ windowSize → P mf → P (mf.insertAt h).advance
  advance : ∀ mf, mf.pos.toNat ≠ windowSize → P mf → P mf.advance

theorem MatchFinder.pos_slideIfDue_ne (mf : MatchFinder) : mf.slideIfDue.pos.toNat ≠ windowSize := by
  unfold MatchFinder.slideIfDue
  split
  · rw [MatchFinder.slide_pos]
    decide
  · assumption

theorem MatchFinder.Closed.slideIfDue {P : MatchFinder → Prop} (c : MatchFinder.Closed P) {mf : MatchFinder} (h : P mf) :
    P mf.slideIfDue := by
  unfold MatchFinder.slideIfDue
  split
  · exact c.slide mf ‹_› h
  · exact h

theorem MatchFinder.Closed.find {P : MatchFinder → Prop} (c : MatchFinder.Closed P) {mf : MatchFinder} (m : Memory)
    (depth nice : Nat) (h : P mf) : P (mf.find m depth nice).1 := by
  have hs := c.slideIfDue h
  have hne := mf.pos_slideIfDue_ne
  unfold MatchFinder.find
  dsimp only
  split
  · exact c.advance _ hne hs
  · unfold MatchFinder.search
    dsimp only
    split <;> exact c.insert _ _ (MatchFinder.hashAt_lt _ _ _) hne hs

/-- MF.SKIP is a row of searches of depth 0 (rule R207). -/
theorem MatchFinder.Closed.skip {P : MatchFinder → Prop} (c : MatchFinder.Closed P) (m : Memory) (n : Nat) {mf : MatchFinder}
    (h : P mf) : P (MatchFinder.skip m n mf) := by
  induction n generalizing mf with
  | zero => exact h
  | succ n ih =>
    refine ih ?_
    rw [← mf.find_depth_zero m 0]
    exact c.find m 0 0 h

theorem MatchFinder.Closed.lazyStep {P : MatchFinder → Prop} (c : MatchFinder.Closed P) (hd : Handle) (m : Memory)
    (fuel len off : Nat) {p : Parse} (h : P p.mf) : P (Parse.lazyStep hd m fuel len off p).mf := by
  induction fuel generalizing len off p with
  | zero => exact h
  | succ n ih =>
    have hfind := c.find m hd.depth.toNat hd.nice.toNat h
    unfold Parse.lazyStep
    split
    · exact c.skip m _ h
    · dsimp only
      split
      · exact ih _ _ hfind
      · exact c.skip m _ hfind

theorem MatchFinder.Closed.block {P : MatchFinder → Prop} (c : MatchFinder.Closed P) (hd : Handle) (m : Memory) (n bstart fuel : Nat)
    {p : Parse} (h : P p.mf) : P (Parse.block hd m n bstart fuel p).mf := by
  induction fuel generalizing p with
  | zero => exact h
  | succ k ih =>
    unfold Parse.block
    split
    · refine ih ?_
      have hfind := c.find m hd.depth.toNat hd.nice.toNat h
      unfold Parse.step
      dsimp only
      split
      · exact hfind
      · split
        · exact c.lazyStep hd m _ _ _ hfind
        · exact c.skip m _ hfind
    · exact h

theorem MatchFinder.Closed.blocks {P : MatchFinder → Prop} (c : MatchFinder.Closed P) (hd : Handle) (src : Word) (n fuel pos : Nat)
    {d : Deflate} (h : P d.mf) : P (Deflate.blocks hd src n fuel pos d).mf := by
  induction fuel generalizing pos d with
  | zero => exact h
  | succ k ih =>
    have hblock := c.block hd d.out.mem n pos blockTarget (p := ⟨d.mf, [], pos⟩) h
    unfold Deflate.blocks
    dsimp only
    split
    · rw [(Deflate.emitBlock_cp _ _ _ _ _).2]
      exact hblock
    · refine ih _ ?_
      rw [(Deflate.emitBlock_cp _ _ _ _ _).2]
      exact hblock

/-- COMPRESS leaves the match-finder alone at level 0 and else binds it anew (rules R233, R234). -/
theorem MatchFinder.Closed.compress {P : MatchFinder → Prop} (c : MatchFinder.Closed P) (hd : Handle) (p : Port) {d : Deflate}
    (h : P d.mf) (init : P (MatchFinder.init p.a0 p.a1)) : P (d.compress hd p).mf := by
  unfold Deflate.compress Deflate.stream
  dsimp only
  split
  · exact h
  · exact c.blocks hd _ _ _ _ init

/-! ## Through every instruction -/

/-- The instructions that write the match-finder. -/
theorem mf_mem_writes {i : Instr} (h : .mf ∈ writes i) :
    i = .destroy ∨ (∃ level, i = .create level) ∨ i = .compress ∨ i = .mfInit ∨ i = .mfFind ∨ i = .mfSkip ∨ i = .mfSlide
      ∨ i = .twrite .head ∨ i = .twrite .next := by
  cases i with
  | twrite space => cases space <;> simp [writes, spacePart] at h ⊢
  | _ => simp [writes] at h ⊢

/-! ## The position (rules R41, R44 (a)) -/

/-- The position is in the window and the base a multiple of it. -/
def MatchFinder.aligned (mf : MatchFinder) : Prop := mf.pos.toNat ≤ windowSize ∧ mf.base.toNat % windowSize = 0

theorem MatchFinder.closed_aligned : MatchFinder.Closed MatchFinder.aligned where
  slide _ hp h := ⟨(MatchFinder.passes_slide hp).pos h.1, (MatchFinder.passes_slide hp).base h.2⟩
  insert mf k hk hne h :=
    have p := (mf.passes_insertAt hk).trans (MatchFinder.passes_advance (mf := mf.insertAt k) (Nat.lt_of_le_of_ne h.1 hne))
    ⟨p.pos h.1, p.base h.2⟩
  advance _ hne h :=
    have p := MatchFinder.passes_advance (Nat.lt_of_le_of_ne h.1 hne)
    ⟨p.pos h.1, p.base h.2⟩

theorem MatchFinder.Passes.ok {n : Nat} {mf mf' : MatchFinder} (p : MatchFinder.Passes n mf mf') (h : matchFinderOk mf)
    (hn : mf.cur + n ≤ mf.len.toNat) : matchFinderOk mf' := by
  obtain ⟨hpos, hbase, -, hfit⟩ := h
  exact ⟨p.pos hpos, p.base hbase, by rw [p.cur hn hpos, p.len]; exact hn, by rw [p.src, p.len]; exact hfit⟩

/-- A match-finder at the start of an input. -/
theorem matchFinderOk_start {src len : Word} (head next : Slots) (h : src.toNat + len.toNat ≤ wordSpan) :
    matchFinderOk ⟨src, len, 0, 0, head, next⟩ := ⟨Nat.zero_le _, rfl, Nat.zero_le _, h⟩

theorem matchFinderOk_cleared (head next : Slots) : matchFinderOk (MatchFinder.cleared head next) :=
  matchFinderOk_start head next (Nat.zero_le _)

/-- A block ends where its parse stands, inside the input (rule R239). -/
theorem Parse.block_matchFinderOk (hd : Handle) (m : Memory) {mf : MatchFinder} (h : matchFinderOk mf) :
    let q := Parse.block hd m mf.len.toNat mf.cur blockTarget ⟨mf, [], mf.cur⟩
    matchFinderOk q.mf ∧ q.mf.len = mf.len ∧ q.mf.cur = q.pos := by
  obtain ⟨hpos, hbase, hcur, hfit⟩ := h
  have hat : Parse.At mf 0 ⟨mf, [], mf.cur⟩ := ⟨rfl, rfl, hpos, rfl, hcur, by simp⟩
  obtain ⟨hq, -⟩ := Parse.block_spec (mf := mf) hd m mf.cur blockTarget hat (by simp) (by simp) (by dsimp only; omega)
  have haligned := MatchFinder.closed_aligned.block hd m mf.len.toNat mf.cur blockTarget (p := ⟨mf, [], mf.cur⟩) ⟨hpos, hbase⟩
  exact ⟨⟨hq.window, haligned.2, by rw [hq.cur, hq.len]; exact hq.inside, by rw [hq.src, hq.len]; exact hfit⟩, hq.len, hq.cur⟩

theorem Deflate.blocks_matchFinderOk (hd : Handle) (src : Word) (fuel : Nat) {d : Deflate} (h : matchFinderOk d.mf) :
    matchFinderOk (Deflate.blocks hd src d.mf.len.toNat fuel d.mf.cur d).mf := by
  induction fuel generalizing d with
  | zero => exact h
  | succ k ih =>
    obtain ⟨hok, hlen, hcur⟩ := Parse.block_matchFinderOk hd d.out.mem h
    unfold Deflate.blocks
    dsimp only
    generalize Parse.block hd d.out.mem d.mf.len.toNat d.mf.cur blockTarget ⟨d.mf, [], d.mf.cur⟩ = q at hok hlen hcur ⊢
    have hmf := (Deflate.emitBlock_cp { d with mf := q.mf, cp := ⟨q.toks.reverse, BitVec.ofNat 32 d.mf.cur⟩ } src d.mf.cur q.pos
      (decide (q.pos = d.mf.len.toNat))).2
    generalize Deflate.emitBlock _ _ _ _ _ = e at hmf ⊢
    replace hmf : e.mf = q.mf := hmf
    split
    · rwa [hmf]
    · rw [← hlen, ← hcur, ← hmf]
      exact ih (by rwa [hmf])

theorem Deflate.compress_matchFinderOk (hd : Handle) (p : Port) {d : Deflate} (h : matchFinderOk d.mf)
    (hfit : p.a0.toNat + p.a1.toNat ≤ wordSpan) : matchFinderOk (d.compress hd p).mf := by
  unfold Deflate.compress Deflate.stream
  dsimp only
  split
  · exact h
  · exact Deflate.blocks_matchFinderOk hd p.a0 (p.a1.toNat + 1)
      (d := { d with mf := MatchFinder.init p.a0 p.a1, out := ⟨Writer.init p.a2 p.a3, d.out.mem⟩ }) (matchFinderOk_start [] [] hfit)

theorem exec_keeps_matchFinderOk {i : Instr} {s t : State} (h : exec i s = .next t) (hs : matchFinderOk s.mf) :
    matchFinderOk t.mf := by
  have command := exec_command_keeps (Q := fun s => matchFinderOk s.mf) h (ended := fun _ _ h => h) (hs := hs)
  by_cases hw : .mf ∈ writes i
  · rcases mf_mem_writes hw with rfl | ⟨level, rfl⟩ | rfl | rfl | rfl | rfl | rfl | rfl | rfl
    · exact command rfl fun _ => matchFinderOk_cleared _ _
    · rcases exec_create_next h with rfl | ⟨-, rfl⟩
      · exact hs
      · exact matchFinderOk_cleared [] []
    · refine command rfl fun _ => ?_
      show matchFinderOk (compressBody s).1.mf
      rcases compressBody_cases s with e | ⟨hb, m, draws, a5, e, -⟩ <;> rw [e]
      · exact hs
      · exact Deflate.compress_matchFinderOk _ _ hs (checkTwoBufs_spec hb).1
    · refine command rfl fun _ => ?_
      show matchFinderOk (mfInitBody s).1.mf
      unfold mfInitBody
      split
      · exact matchFinderOk_start [] [] ((checkBuf_iff _ _).mp ‹_›)
      · exact hs
    · refine command rfl fun _ => ?_
      show matchFinderOk (mfFindBody s).1.mf
      unfold mfFindBody
      split
      · exact hs
      · exact (MatchFinder.passes_find _ _ _ hs.1).ok hs (by omega)
    · refine command rfl fun _ => ?_
      show matchFinderOk (mfSkipBody s).1.mf
      unfold mfSkipBody
      split
      · exact hs
      · exact (MatchFinder.passes_skip _ _ hs.1).ok hs (by omega)
    · refine command rfl fun _ => ?_
      show matchFinderOk (mfSlideBody s).1.mf
      unfold mfSlideBody
      split
      · exact (MatchFinder.passes_slide ‹_›).ok hs hs.2.2.1
      · exact hs
    all_goals
      refine command rfl fun _ => ?_
      show matchFinderOk (twriteBody _ s).1.mf
      unfold twriteBody
      repeat' split
      all_goals exact hs
  · rw [show t.mf = s.mf from State.frame_same (exec_frame h) hw]
    exact hs

/-- Settles O59, by the invariant through each instruction that writes the match-finder. -/
theorem stepKeepsMatchFinderPosition : Obligations.StepKeepsMatchFinderPosition := fun _ _ h hs =>
  step_keeps (P := fun s => matchFinderOk s.mf) h (port := fun _ _ _ _ h => h) (poke := fun _ _ _ h => h)
    (reset := fun _ _ => matchFinderOk_cleared _ _) (run := fun _ _ _ _ => exec_keeps_matchFinderOk) hs

end Sys2Proof.Machine
end

section
/-! PROOF. The chains of the match-finder (rules R44 (b), (d), R205, R209, R458): a slide, an insertion and an
advance keep the slots in canonical form and the chains in order, so every command but a TWRITE does. -/

namespace Sys2Proof.Machine

/-! ## The slots in canonical form (rules R42, R43) -/

/-- HEAD and NEXT are in their canonical form. -/
def MatchFinder.slotsOk (mf : MatchFinder) : Prop := Slots.wf mf.head = true ∧ Slots.wf mf.next = true

theorem MatchFinder.closed_slotsOk : MatchFinder.Closed MatchFinder.slotsOk where
  slide mf _ h := ⟨by rw [mf.slide_head]; exact Slots.wfFrom_rebase h.1, by rw [mf.slide_next]; exact Slots.wfFrom_rebase h.2⟩
  insert _ _ hk _ h := ⟨Slots.wf_set _ h.1 hk, Slots.wf_set _ h.2 (nextSlot_lt _)⟩
  advance _ _ h := h

/-! ## Positions as slots (rules R43, R209) -/

/-- A position's NEXT slot is the position modulo 32768, for negative positions too (rule R43). -/
theorem nextSlot_eq (v : BitVec 16) : (nextSlot v : Int) = v.toInt % 32768 := by
  have := v.isLt
  rw [nextSlot, windowSize, BitVec.toInt_eq_toNat_cond]
  split <;> omega

/-- Positions less than a window apart have different NEXT slots. -/
theorem toInt_eq_of_nextSlot {v w : BitVec 16} (h : nextSlot v = nextSlot w) (hlo : w.toInt - 32768 < v.toInt)
    (hhi : v.toInt < w.toInt + 32768) : v.toInt = w.toInt := by
  have hv := nextSlot_eq v
  have hw := nextSlot_eq w
  omega

theorem toInt_position {n : Nat} (h : n < 32768) : (BitVec.ofNat 16 n).toInt = n := by
  rw [BitVec.toInt_eq_toNat_cond, BitVec.toNat_ofNat]
  omega

/-- A slide takes 32768 off a position, and stops at the sentinel (rule R209). -/
theorem toInt_satSub (e : BitVec 16) : (satSub e).toInt = max (-32768) (e.toInt - 32768) := by
  have he := e.isLt
  have hsentinel : sentinel.toInt = -32768 := by decide
  unfold satSub
  split
  · have hnat : (e - 0x8000#16).toNat = (65536 - 32768 + e.toNat) % 65536 := BitVec.toNat_sub _ _
    rw [BitVec.toInt_eq_toNat_cond] at *
    rw [BitVec.toInt_eq_toNat_cond, hnat]
    omega
  · rw [hsentinel]
    omega

/-! ## The chains in order (rule R44 (b), (d)) -/

/-- A match-finder bound anew has empty chains. -/
theorem MatchFinder.ordered_start (src len : Word) : MatchFinder.ordered ⟨src, len, 0, 0, [], []⟩ := by
  have hsentinel : sentinel.toInt = -32768 := by decide
  have hempty : ∀ k, Slots.get [] k = sentinel := fun _ => rfl
  refine ⟨Nat.zero_le _, fun k _ => ?_, fun v hlo hhi => ?_⟩
  · simp [hempty, hsentinel]
  · simp only [hempty, hsentinel] at hlo ⊢
    omega

theorem MatchFinder.ordered_slide {mf : MatchFinder} (hp : mf.pos.toNat = windowSize) (hs : mf.slotsOk) (h : mf.ordered) :
    mf.slide.ordered := by
  have hw : windowSize = 32768 := rfl
  obtain ⟨-, hslots, hchain⟩ := h
  rw [hp, hw] at hslots hchain
  unfold MatchFinder.ordered
  rw [mf.slide_pos, mf.slide_head, mf.slide_next]
  refine ⟨Nat.zero_le _, fun k hk => ?_, fun v hlo hhi => ?_⟩
  · obtain ⟨hhead, hnext⟩ := hslots k hk
    rw [Slots.get_rebase hs.1, Slots.get_rebase hs.2, toInt_satSub, toInt_satSub]
    omega
  · -- Before the slide the position `v` was `u`, at the same slot.
    have hu : (BitVec.ofNat 16 (v.toInt + 32768).toNat).toInt = v.toInt + 32768 := by rw [toInt_position (by omega)]; omega
    have hold := hchain (BitVec.ofNat 16 (v.toInt + 32768).toNat) (by omega) (by omega)
    have hslot : nextSlot (BitVec.ofNat 16 (v.toInt + 32768).toNat) = nextSlot v := by
      have h1 := nextSlot_eq v
      have h2 := nextSlot_eq (BitVec.ofNat 16 (v.toInt + 32768).toNat)
      omega
    rw [hslot, hu] at hold
    rw [Slots.get_rebase hs.2, toInt_satSub]
    omega

theorem MatchFinder.advance_pos {mf : MatchFinder} (h : mf.pos.toNat < windowSize) : mf.advance.pos.toNat = mf.pos.toNat + 1 := by
  have hw : windowSize = 32768 := rfl
  have hone : (1 : BitVec 17).toNat = 1 := rfl
  rw [MatchFinder.advance, BitVec.toNat_add, hone]
  omega

theorem MatchFinder.ordered_advance {mf : MatchFinder} (hlt : mf.pos.toNat < windowSize) (h : mf.ordered) :
    mf.advance.ordered := by
  obtain ⟨-, hslots, hchain⟩ := h
  unfold MatchFinder.ordered
  rw [MatchFinder.advance_pos hlt]
  refine ⟨hlt, fun k hk => ?_, fun v hlo hhi => ?_⟩
  · obtain ⟨hhead, hnext⟩ := hslots k hk
    exact ⟨by show (mf.head.get k).toInt < _; omega, by show (mf.next.get k).toInt < _; omega⟩
  · show (mf.next.get (nextSlot v)).toInt < _
    by_cases hv : v.toInt = mf.pos.toNat
    · rw [hv]
      exact (hslots _ (nextSlot_lt v)).2
    · exact hchain v (by omega) (by omega)

/-- The current position goes in front of its chain (rule R205). -/
theorem MatchFinder.ordered_insert {mf : MatchFinder} {k : Nat} (hk : k < windowSize) (hlt : mf.pos.toNat < windowSize)
    (h : mf.ordered) : (mf.insertAt k).advance.ordered := by
  have hw : windowSize = 32768 := rfl
  obtain ⟨-, hslots, hchain⟩ := h
  have hpos : (BitVec.ofNat 16 mf.pos.toNat).toInt = mf.pos.toNat := toInt_position (by omega)
  have hold := (hslots k hk).1
  unfold MatchFinder.ordered
  rw [MatchFinder.advance_pos (mf := mf.insertAt k) hlt]
  show mf.pos.toNat + 1 ≤ windowSize ∧ (∀ j, j < windowSize →
    ((mf.head.set k (BitVec.ofNat 16 mf.pos.toNat)).get j).toInt < (mf.pos.toNat + 1 : Nat)
      ∧ ((mf.next.set (nextSlot (BitVec.ofNat 16 mf.pos.toNat)) (mf.head.get k)).get j).toInt < (mf.pos.toNat + 1 : Nat))
    ∧ ∀ v : BitVec 16, ((mf.pos.toNat + 1 : Nat) : Int) - 32768 < v.toInt → v.toInt < (mf.pos.toNat + 1 : Nat) →
      ((mf.next.set (nextSlot (BitVec.ofNat 16 mf.pos.toNat)) (mf.head.get k)).get (nextSlot v)).toInt < v.toInt
  simp only [Slots.get_set]
  refine ⟨hlt, fun j hj => ?_, fun v hlo hhi => ?_⟩
  · obtain ⟨hhead, hnext⟩ := hslots j hj
    constructor <;> split <;> omega
  · split
    · have := toInt_eq_of_nextSlot ‹_› (by omega) (by omega)
      omega
    · rename_i hne
      have hv : v.toInt ≠ mf.pos.toNat := fun e => hne (by rw [BitVec.eq_of_toInt_eq (e.trans hpos.symm)])
      exact hchain v (by omega) (by omega)

/-- Slots in canonical form and chains in order. -/
def MatchFinder.chained (mf : MatchFinder) : Prop := mf.slotsOk ∧ mf.ordered

theorem MatchFinder.closed_chained : MatchFinder.Closed MatchFinder.chained where
  slide mf hp h := ⟨MatchFinder.closed_slotsOk.slide mf hp h.1, MatchFinder.ordered_slide hp h.1 h.2⟩
  insert mf _ hk hne h :=
    ⟨MatchFinder.closed_slotsOk.insert mf _ hk hne h.1, MatchFinder.ordered_insert hk (Nat.lt_of_le_of_ne h.2.1 hne) h.2⟩
  advance _ hne h := ⟨h.1, MatchFinder.ordered_advance (Nat.lt_of_le_of_ne h.2.1 hne) h.2⟩

theorem MatchFinder.chained_start (src len : Word) : MatchFinder.chained ⟨src, len, 0, 0, [], []⟩ :=
  ⟨⟨rfl, rfl⟩, MatchFinder.ordered_start src len⟩

/-! ## Through every instruction -/

/-- The instruction binds the match-finder anew. -/
def bindsMatchFinder (i : Instr) : Prop := i = .mfInit ∨ i = .compress ∨ ∃ level, i = .create level

/-- A property every pass of the match-finder keeps, and that holds of one bound anew, is kept by every command
but DESTROY and a TWRITE to its slots. -/
theorem exec_keeps_closed {P : MatchFinder → Prop} (c : MatchFinder.Closed P) {i : Instr} {s t : State} (h : exec i s = .next t)
    (start : bindsMatchFinder i → ∀ src len, P ⟨src, len, 0, 0, [], []⟩)
    (hd : i ≠ .destroy) (hhead : i ≠ .twrite .head) (hnext : i ≠ .twrite .next) (hs : P s.mf) : P t.mf := by
  have command := exec_command_keeps (Q := fun s => P s.mf) h (ended := fun _ _ h => h) (hs := hs)
  by_cases hw : .mf ∈ writes i
  · rcases mf_mem_writes hw with rfl | ⟨level, rfl⟩ | rfl | rfl | rfl | rfl | rfl | rfl | rfl
    · exact absurd rfl hd
    · rcases exec_create_next h with rfl | ⟨-, rfl⟩
      · exact hs
      · exact start (.inr (.inr ⟨level, rfl⟩)) 0 0
    · refine command rfl fun _ => ?_
      show P (compressBody s).1.mf
      rcases compressBody_cases s with e | ⟨-, m, draws, a5, e, -⟩ <;> rw [e]
      · exact hs
      · exact c.compress _ _ hs (start (.inr (.inl rfl)) _ _)
    · refine command rfl fun _ => ?_
      show P (mfInitBody s).1.mf
      unfold mfInitBody
      split
      · exact start (.inl rfl) _ _
      · exact hs
    · refine command rfl fun _ => ?_
      show P (mfFindBody s).1.mf
      unfold mfFindBody
      split
      · exact hs
      · exact c.find _ _ _ hs
    · refine command rfl fun _ => ?_
      show P (mfSkipBody s).1.mf
      unfold mfSkipBody
      split
      · exact hs
      · exact c.skip _ _ hs
    · refine command rfl fun _ => ?_
      show P (mfSlideBody s).1.mf
      unfold mfSlideBody
      split
      · exact c.slide _ ‹_› hs
      · exact hs
    · exact absurd rfl hhead
    · exact absurd rfl hnext
  · rw [show t.mf = s.mf from State.frame_same (exec_frame h) hw]
    exact hs

/-- The instructions that write the handle. -/
theorem handle_mem_writes {i : Instr} (h : .handle ∈ writes i) : i = .destroy ∨ ∃ level, i = .create level := by
  cases i with
  | twrite space => cases space <;> simp [writes, spacePart] at h
  | _ => simp [writes] at h ⊢

/-- After DESTROY no handle is alive (rule R183). -/
theorem exec_destroy_dead {s t : State} (h : exec .destroy s = .next t) : t.handle.alive = false := by
  rcases withHandle_next (show execDestroy s = .next t from h) with ⟨-, rfl⟩ | ⟨hdead, rfl⟩
  · rfl
  · exact hdead

/-- Settles O60: a handle alive afterwards was alive before, or is CREATE's, whose chains are empty. -/
theorem chainsStayOrdered : Obligations.ChainsStayOrdered := by
  intro i s t htables h hhead hnext hs hlive
  by_cases hw : .handle ∈ writes i
  · rcases handle_mem_writes hw with rfl | ⟨level, rfl⟩
    · rw [exec_destroy_dead h] at hlive
      cases hlive
    · rcases exec_create_next h with rfl | ⟨-, rfl⟩
      · cases hlive
      · exact MatchFinder.ordered_start 0 0
  · have hsame : t.handle = s.handle := State.frame_same (exec_frame h) hw
    have hd : i ≠ .destroy := by rintro rfl; exact hw (by decide)
    exact (exec_keeps_closed MatchFinder.closed_chained h (fun _ => MatchFinder.chained_start) hd hhead hnext
      ⟨⟨htables.1, htables.2.1⟩, hs (hsame ▸ hlive)⟩).2

end Sys2Proof.Machine
end

section
/-! PROOF. The bit writer through every command (rules R65, R66, R322 to R327): packed, within its
capacity and full after an overflow; and exactly where a writer command overflows. -/

namespace Sys2Proof.Machine

/-! ## The writer stays in form -/

/-- A packed writer after some commits is in form again. -/
theorem Sink.Extends.writerOk {k k' : Sink} (e : Sink.Extends k k') (h : writerOk k.bw) (hp : k'.bw.packed) : writerOk k'.bw := by
  obtain ⟨-, -, hfit, hfull, hdst⟩ := h
  exact ⟨hp.1, hp.2, e.fits hfit, e.full hfull hfit, by rw [e.dst, e.cap]; exact hdst⟩

theorem writerOk.packed {w : Writer} (h : writerOk w) : w.packed := ⟨h.1, h.2.1⟩

theorem writerOk_init {dst cap : Word} (h : dst.toNat + cap.toNat ≤ wordSpan) : writerOk (Writer.init dst cap) :=
  ⟨Nat.zero_lt_succ _, Nat.one_pos, Nat.zero_le _, (nomatch ·), h⟩

theorem writerOk_reset : writerOk Writer.reset := writerOk_init (dst := 0) (cap := 0) (Nat.zero_le _)

/-- The bytes of a buffer disjoint from another are outside it (rule R186). -/
theorem disjoint_outside {b1 l1 b2 l2 : Word} (h : disjoint b1 l1 b2 l2 = true) (h1 : b1.toNat + l1.toNat ≤ wordSpan) (j : Nat)
    (hj : j < l1.toNat) : ¬ inBuffer b2 l2.toNat (bufferAddr b1 (0 + j)) := by
  simp only [disjoint, Bool.or_eq_true, decide_eq_true_eq] at h
  rw [Nat.zero_add, inBuffer, bufferAddr_toNat (by omega)]
  rcases h with ((rfl | rfl) | h) | h
  · cases hj
  · rw [show (0 : Word).toNat = 0 from rfl]
    omega
  · omega
  · omega

/-- COMPRESS commits to the writer it bound, and every value it puts fits its width (rules R233, R322). -/
theorem Deflate.compress_writes (h : Handle) (p : Port) (d : Deflate) (hb : checkTwoBufs p = true) :
    Sink.Extends ⟨Writer.init p.a2 p.a3, d.out.mem⟩ (d.compress h p).out ∧ (d.compress h p).out.bw.packed := by
  obtain ⟨hsrc, hdst, hapart⟩ := checkTwoBufs_spec hb
  have outside := disjoint_outside hapart hsrc
  have ok := (Sink.ok_init d.out.mem hdst).1
  have aligned : ∀ {k : Sink} {bs : List Bool}, Sink.Writes bs ⟨Writer.init p.a2 p.a3, d.out.mem⟩ k →
      Sink.Extends ⟨Writer.init p.a2 p.a3, d.out.mem⟩ k.align ∧ k.align.bw.packed := fun w =>
    ⟨w.ext.trans (Sink.extends_align _), Sink.packed_align (w.ok ok).packed⟩
  unfold Deflate.compress Deflate.stream
  dsimp only
  split
  · obtain ⟨_, w, -⟩ := Sink.storedOnly_decodes p.a0 p.a1.toNat (p.a1.toNat + 1) 0 (Nat.zero_le _) (Nat.lt_succ_self _) ok outside
    exact aligned w
  · obtain ⟨_, w, -⟩ := Deflate.blocks_decodes h p.a0 p.a1.toNat (p.a1.toNat + 1) 0
      (d := { d with out := ⟨Writer.init p.a2 p.a3, d.out.mem⟩, mf := MatchFinder.init p.a0 p.a1 }) rfl rfl rfl (Nat.zero_le _)
      (Nat.zero_le _) (Nat.lt_succ_self _) ok outside
    exact aligned w

/-- The instructions that write the writer. -/
theorem bw_mem_writes {i : Instr} (h : .bw ∈ writes i) :
    i = .destroy ∨ (∃ level, i = .create level) ∨ i = .compress ∨ i = .bwInit ∨ i = .bwPut ∨ i = .bwAlign ∨ i = .bwFlush
      ∨ i = .bwBytes := by
  cases i with
  | twrite space => cases space <;> simp [writes, spacePart] at h
  | _ => simp [writes] at h ⊢

/-- What BW.PUT, where it accepts its operands, puts fits its width (rule R322). -/
theorem put_operands_fit {a0 a1 : Word} (h1 : ¬ maxPut < a1.toNat) (h2 : ¬ 2 ^ a1.toNat ≤ a0.toNat) :
    a1.toNat ≤ 32 ∧ a0.toNat < 2 ^ a1.toNat := ⟨Nat.le_of_not_lt h1, Nat.lt_of_not_le h2⟩

theorem exec_keeps_writerOk {i : Instr} {s t : State} (h : exec i s = .next t) (hs : writerOk s.bw) : writerOk t.bw := by
  have command := exec_command_keeps (Q := fun s => writerOk s.bw) h (ended := fun _ _ h => h) (hs := hs)
  have halign : writerOk s.sink.align.bw := s.sink.extends_align.writerOk hs (Sink.packed_align hs.packed)
  by_cases hw : .bw ∈ writes i
  · rcases bw_mem_writes hw with rfl | ⟨level, rfl⟩ | rfl | rfl | rfl | rfl | rfl | rfl
    · exact command rfl fun _ => writerOk_reset
    · rcases exec_create_next h with rfl | ⟨-, rfl⟩
      · exact hs
      · exact writerOk_reset
    · refine command rfl fun _ => ?_
      show writerOk (compressBody s).1.bw
      rcases compressBody_cases s with e | ⟨hb, m, draws, a5, e, -⟩ <;> rw [e]
      · exact hs
      · obtain ⟨ext, packed⟩ := Deflate.compress_writes s.handle s.port s.deflate hb
        exact ext.writerOk (writerOk_init (checkTwoBufs_spec hb).2.1) packed
    · refine command rfl fun _ => ?_
      show writerOk (bwInitBody s).1.bw
      unfold bwInitBody
      split
      · exact writerOk_init ((checkBuf_iff _ _).mp ‹_›)
      · exact hs
    · refine command rfl fun _ => ?_
      show writerOk (bwPutBody s).1.bw
      unfold bwPutBody
      split
      · exact hs
      · split
        · exact hs
        · obtain ⟨hn, hv⟩ := put_operands_fit ‹_› ‹_›
          exact (s.sink.extends_put _ _).writerOk hs (Sink.packed_put hs.packed hn hv)
    · exact command rfl fun _ => halign
    · exact command rfl fun _ => halign
    · refine command rfl fun _ => ?_
      show writerOk (bwBytesBody s).1.bw
      unfold bwBytesBody
      repeat' split
      all_goals first | exact hs | exact (Sink.extends_putBytes _ _ _ s.sink).writerOk hs (Sink.packed_putBytes _ _ _ hs.packed)
  · rw [show t.bw = s.bw from State.frame_same (exec_frame h) hw]
    exact hs

/-- Settles O57, by the invariant through each instruction that writes the writer. -/
theorem stepKeepsWriterPacked : Obligations.StepKeepsWriterPacked := fun _ _ h hs =>
  step_keeps (P := fun s => writerOk s.bw) h (port := fun _ _ _ _ h => h) (poke := fun _ _ _ h => h)
    (reset := fun _ _ => writerOk_reset) (run := fun _ _ _ _ => exec_keeps_writerOk) hs

/-! ## Where a writer command overflows (rules R323, R327) -/

/-- `k'` is `k` after `n` bytes were sent: they all fit and are committed, or the writer has overflowed; after an
overflow none is committed. -/
structure Sink.Sends (n : Nat) (k k' : Sink) : Prop where
  ext : Sink.Extends k k'
  fit : k.bw.nbytes.toNat + n ≤ k.bw.cap.toNat → k'.bw.ovf = k.bw.ovf ∧ k'.bw.nbytes.toNat = k.bw.nbytes.toNat + n
  overflow : k.bw.cap.toNat < k.bw.nbytes.toNat + n → k.bw.nbytes.toNat ≤ k.bw.cap.toNat → k'.bw.ovf = true
  full : k.bw.nbytes = k.bw.cap → k'.mem = k.mem

theorem Sink.Sends.refl (k : Sink) : Sink.Sends 0 k k :=
  ⟨.refl k, fun _ => ⟨rfl, rfl⟩, fun h h' => absurd h (Nat.not_lt.mpr h'), fun _ => rfl⟩

theorem Sink.Sends.congr {a b : Nat} {k k' : Sink} (h : Sink.Sends a k k') (e : a = b) : Sink.Sends b k k' := e ▸ h

theorem Sink.Sends.trans {a b : Nat} {k k' k'' : Sink} (h : Sink.Sends a k k') (g : Sink.Sends b k' k'') :
    Sink.Sends (a + b) k k'' where
  ext := h.ext.trans g.ext
  fit hroom := by
    obtain ⟨h1, h2⟩ := h.fit (by omega)
    obtain ⟨g1, g2⟩ := g.fit (by rw [h2, h.ext.cap]; omega)
    exact ⟨g1.trans h1, by omega⟩
  overflow hroom hle := by
    by_cases ha : k.bw.nbytes.toNat + a ≤ k.bw.cap.toNat
    · obtain ⟨-, h2⟩ := h.fit ha
      exact g.overflow (by rw [h2, h.ext.cap]; omega) (by rw [h2, h.ext.cap]; exact ha)
    · exact g.ext.ovf (h.overflow (by omega) hle)
  full hfull := by
    have hle : k.bw.nbytes.toNat ≤ k.bw.cap.toNat := by rw [hfull]
    have hstill : k'.bw.nbytes = k'.bw.cap :=
      BitVec.eq_of_toNat_eq (Nat.le_antisymm (h.ext.fits hle) (by rw [h.ext.cap, ← hfull]; exact h.ext.nbytes_le))
    exact (g.full hstill).trans (h.full hfull)

/-- A change of the pending bits alone sends nothing. -/
theorem Sink.sends_pending (k : Sink) (acc : BitVec 64) (nbits : BitVec 7) :
    Sink.Sends 0 k { k with bw := { k.bw with acc := acc, nbits := nbits } } :=
  ⟨.pending k acc nbits, fun _ => ⟨rfl, rfl⟩, fun h h' => absurd h (Nat.not_lt.mpr h'), fun _ => rfl⟩

theorem Sink.sends_putByte (k : Sink) (b : Byte) : Sink.Sends 1 k (k.putByte b) := by
  refine ⟨k.extends_putByte b, fun h => ?_, fun h hle => ?_, fun h => ?_⟩
  · rw [Sink.putByte_room (Nat.lt_of_succ_le h)]
    exact ⟨rfl, word_succ_toNat (Nat.lt_of_succ_le h)⟩
  · rw [Sink.putByte_full (Nat.le_of_lt_succ h)]
  · rw [Sink.putByte_full (by rw [h])]

theorem Sink.sends_drain (n : Nat) (k : Sink) : Sink.Sends n k (Sink.drain n k) := by
  induction n generalizing k with
  | zero => exact .refl k
  | succ n ih =>
    exact (((k.sends_putByte _).trans (Sink.sends_pending _ _ _)).trans (ih _)).congr (by omega)

theorem Sink.sends_put (k : Sink) (v n : Nat) : Sink.Sends ((k.bw.nbits.toNat + n) / 8) k (k.put v n) := by
  have h := (k.sends_pending (k.bw.acc ||| (BitVec.ofNat 64 v <<< k.bw.nbits.toNat)) k.bw.nbits).trans
    (Sink.sends_drain ((k.bw.nbits.toNat + n) / 8) _)
  exact (h.trans (Sink.sends_pending _ _ (BitVec.ofNat 7 ((k.bw.nbits.toNat + n) % 8)))).congr (by omega)

theorem Sink.sends_align (k : Sink) : Sink.Sends (if k.bw.nbits = 0 then 0 else 1) k k.align := by
  by_cases h : k.bw.nbits = 0
  · rw [if_pos h, Sink.align, if_neg (by rw [h]; decide)]
    exact .refl k
  · have hpos : 0 < k.bw.nbits.toNat := Nat.pos_of_ne_zero fun e => h (BitVec.eq_of_toNat_eq e)
    rw [if_neg h, Sink.align, if_pos hpos]
    exact (k.sends_putByte _).trans (Sink.sends_pending _ _ _)

theorem Sink.sends_putBytes (base : Word) (i n : Nat) (k : Sink) : Sink.Sends n k (Sink.putBytes base i n k) := by
  induction n generalizing i k with
  | zero => exact .refl k
  | succ n ih =>
    exact ((k.sends_putByte _).trans (ih _ _)).congr (by omega)

/-- An overflow is set exactly where the bytes sent do not fit, and it stays. -/
theorem Sink.Sends.ovf_iff {n : Nat} {k k' : Sink} (h : Sink.Sends n k k') (ok : writerOk k.bw) :
    k'.bw.ovf = true ↔ k.bw.ovf = true ∨ k.bw.cap.toNat < k.bw.nbytes.toNat + n := by
  obtain ⟨-, -, hfit, -, -⟩ := ok
  constructor
  · intro o
    by_cases hroom : k.bw.nbytes.toNat + n ≤ k.bw.cap.toNat
    · exact .inl ((h.fit hroom).1 ▸ o)
    · exact .inr (by omega)
  · rintro (o | o)
    · exact h.ext.ovf o
    · exact h.overflow o hfit

/-- A writer command whose body sends its bytes and reports as rule R327 has it overflows as O40 states. -/
theorem overflow_of_sends {i : Instr} {s : State} (hi : isHandleCommand i = true) (ha : s.handle.alive = true)
    (ok : writerOk s.bw) {k : Sink} (hsend : Sink.Sends (bytesSent i s) s.sink k) (hbw : (commandBody i s).1.bw = k.bw)
    (hmem : (commandBody i s).1.mem = k.mem) (hres : (commandBody i s).2 = k.bw.verdict)
    (hflush : i = .bwFlush → (commandBody i s).1.port.a5 = BitVec.ofNat 32 k.bw.report) :
    ∃ t, exec i s = .next t
      ∧ (t.bw.ovf = true ↔ s.bw.ovf = true ∨ s.bw.cap.toNat < s.bw.nbytes.toNat + bytesSent i s)
      ∧ (t.bw.ovf = true →
          t.port.result = .insufficientSpace ∧ t.bw.nbytes = s.bw.cap ∧ (i = .bwFlush → t.port.a5 = 0))
      ∧ (t.bw.ovf = false → t.port.result = .success ∧ t.bw.nbytes.toNat = s.bw.nbytes.toNat + bytesSent i s)
      ∧ (s.bw.ovf = true → ∀ addr, t.mem.read addr = s.mem.read addr) := by
  have hiff := hsend.ovf_iff ok
  obtain ⟨-, -, hfit, hfull, -⟩ := ok
  refine ⟨_, exec_alive hi ha, ?_, fun o => ?_, fun o => ?_, fun o addr => ?_⟩
  · rw [State.ended_bw, hbw]
    exact hiff
  · rw [State.ended_bw, hbw] at o
    refine ⟨?_, ?_, fun e => ?_⟩
    · rw [State.ended_result, hres, Writer.verdict, if_pos o]
    · rw [State.ended_bw, hbw, hsend.ext.full hfull hfit o, hsend.ext.cap, State.sink_bw]
    · rw [State.ended_a5, hflush e, Writer.report, if_pos o]
      rfl
  · rw [State.ended_bw, hbw] at o
    have hroom : s.bw.nbytes.toNat + bytesSent i s ≤ s.bw.cap.toNat := by
      by_contra hc
      have := hiff.mpr (.inr (Nat.lt_of_not_le hc))
      rw [o] at this
      cases this
    refine ⟨?_, ?_⟩
    · rw [State.ended_result, hres, Writer.verdict, o]
      rfl
    · rw [State.ended_bw, hbw]
      exact (hsend.fit hroom).2
  · rw [State.ended_mem, hmem, hsend.full (hfull o)]
    rfl

theorem disjoint_iff (b1 l1 b2 l2 : Word) :
    disjoint b1 l1 b2 l2 = true
      ↔ ¬ (l1 ≠ 0 ∧ l2 ≠ 0 ∧ b2.toNat < b1.toNat + l1.toNat ∧ b1.toNat < b2.toNat + l2.toNat) := by
  simp only [disjoint, Bool.or_eq_true, decide_eq_true_eq]
  by_cases h1 : l1 = 0
  · simp [h1]
  · by_cases h2 : l2 = 0
    · simp [h2]
    · simp only [h1, h2, ne_eq, not_false_eq_true, true_and, false_or]
      omega

/-- BW.PUT with operands it accepts (rules R322, R415). -/
theorem bwPutBody_accepted {s : State} (h : ¬ badOperands .bwPut s) :
    bwPutBody s = (s.withSink (s.sink.put s.port.a0.toNat s.port.a1.toNat), (s.sink.put s.port.a0.toNat s.port.a1.toNat).bw.verdict) := by
  simp only [badOperands, not_or, not_and, Nat.not_lt, Nat.not_le] at h
  obtain ⟨hn, hv⟩ := h
  have hfit : s.port.a0.toNat < 2 ^ s.port.a1.toNat := by
    rcases Nat.lt_or_ge s.port.a1.toNat 32 with hlt | hge
    · exact hv hlt
    · rw [show s.port.a1.toNat = 32 by omega]
      exact s.port.a0.isLt
  rw [bwPutBody, if_neg (show ¬ maxPut < _ from Nat.not_lt.mpr hn), if_neg (Nat.not_le.mpr hfit)]

/-- BW.BYTES with operands it accepts (rules R326, R415). -/
theorem bwBytesBody_accepted {s : State} (h : ¬ badOperands .bwBytes s) :
    bwBytesBody s = (s.withSink (Sink.putBytes s.port.a0 0 s.port.a1.toNat s.sink),
      (Sink.putBytes s.port.a0 0 s.port.a1.toNat s.sink).bw.verdict) := by
  simp only [badOperands, not_or, Nat.not_lt] at h
  obtain ⟨hbuf, hapart, hbits⟩ := h
  rw [bwBytesBody, if_neg (by simpa [checkBuf_iff] using hbuf), if_neg (by rw [(disjoint_iff _ _ _ _).mpr hapart]; decide),
    if_neg hbits]

/-- Settles O40: each of the four commands sends its bytes through the same `PutByte`. -/
theorem bwOverflowIsSticky : Obligations.BwOverflowIsSticky := by
  intro i s hi ha ok hbad
  rcases hi with rfl | rfl | rfl | rfl
  · have hbody : commandBody .bwPut s = _ := bwPutBody_accepted hbad
    exact overflow_of_sends (k := s.sink.put s.port.a0.toNat s.port.a1.toNat) rfl ha ok
      (s.sink.sends_put s.port.a0.toNat s.port.a1.toNat) (by rw [hbody]; rfl) (by rw [hbody]; rfl) (by rw [hbody]) (nomatch ·)
  · exact overflow_of_sends (k := s.sink.align) rfl ha ok s.sink.sends_align rfl rfl rfl (nomatch ·)
  · exact overflow_of_sends (k := s.sink.align) rfl ha ok s.sink.sends_align rfl rfl rfl fun _ => rfl
  · have hbody : commandBody .bwBytes s = _ := bwBytesBody_accepted hbad
    exact overflow_of_sends (k := Sink.putBytes s.port.a0 0 s.port.a1.toNat s.sink) rfl ha ok (Sink.sends_putBytes _ _ _ _)
      (by rw [hbody]; rfl) (by rw [hbody]; rfl) (by rw [hbody]) (nomatch ·)

end Sys2Proof.Machine
end

section
/-! PROOF. Memory and the tables keep their canonical form and range through every command (rules R42, R51
to R55, R58, R90, R306). -/

namespace Sys2Proof.Machine

/-! ## The builder's tables -/

/-- The builder's tables are in canonical form and range. -/
def Huff.tablesOk (b : Huff) : Prop :=
  Trio.wf Alphabet.slots b.freq = true ∧ Trio.wf Alphabet.slots b.lens = true ∧ Trio.wf Alphabet.slots b.code = true
    ∧ Table.wf 316 b.hb.items = true

theorem Trio.wf_put_set {w : Nat} {n : Alphabet → Nat} {t : Trio w} (h : Trio.wf n t = true) (x : Alphabet) {i : Nat} (hi : i < n x)
    (v : BitVec w) : Trio.wf n (t.put x ((t.table x).set i v)) = true :=
  Trio.wf_put h (Table.wf_set v ((Trio.wf_iff n t).mp h x) hi)

theorem Huff.tablesOk_tally {b : Huff} (h : b.tablesOk) {x : Alphabet} {s : Nat} (hs : s < x.slots) : (b.tally x s).tablesOk :=
  ⟨Trio.wf_put_set h.1 x hs _, h.2⟩

theorem Huff.tablesOk_tallyMatch {b : Huff} (h : b.tablesOk) (len off : Nat) : (b.tallyMatch len off).tablesOk :=
  Huff.tablesOk_tally (Huff.tablesOk_tally (x := .litlen) h (Nat.lt_of_le_of_lt (lenSym_le len) (by decide))) (x := .offset)
    (Nat.lt_of_le_of_lt (offSym_le off) (by decide))

theorem Huff.tablesOk_tallyToken {b : Huff} (h : b.tablesOk) (t : Token) : (b.tallyToken t).tablesOk := by
  cases t with
  | lit v => exact Huff.tablesOk_tally (x := .litlen) h (Nat.lt_trans v.isLt (by decide))
  | copy len off => exact Huff.tablesOk_tallyMatch h _ _

theorem Huff.tablesOk_buildLens {b : Huff} (h : b.tablesOk) (x : Alphabet) : (b.buildLens x).tablesOk :=
  ⟨h.1, Trio.wf_put h.2.1 (Table.wf_ofList 4 _ (Nat.le_of_eq (length_lengthsFor x _))), h.2.2⟩

theorem length_codesFor (lens : List Nat) : (codesFor lens).length = lens.length := by simp [codesFor]

theorem Huff.tablesOk_buildCodes {b : Huff} (h : b.tablesOk) (x : Alphabet) : (b.buildCodes x).tablesOk :=
  ⟨h.1, h.2.1, Trio.wf_put h.2.2.1 (Table.wf_ofList 16 _ (by rw [length_codesFor, length_lengths])), h.2.2.2⟩

theorem Huff.tablesOk_loadFixed {b : Huff} (h : b.tablesOk) : b.loadFixed.tablesOk :=
  have hlens : Huff.tablesOk { b with lens := b.lens.loadFixed } := ⟨h.1, Trio.wf_loadFixed h.2.1, h.2.2⟩
  Huff.tablesOk_buildCodes (Huff.tablesOk_buildCodes hlens .litlen) .offset

theorem wf_writeItems {n i : Nat} {items : List (Nat × Nat)} {t : Table 16} (h : Table.wf n t = true) (hn : i + items.length ≤ n) :
    Table.wf n (writeItems i items t) = true := by
  induction items generalizing i t with
  | nil => exact h
  | cons it r ih =>
    rw [List.length_cons] at hn
    exact ih (Table.wf_set _ h (by omega)) (by omega)

/-- Lengths are held in four bits (rule R52). -/
theorem Trio.lengths_le (t : Trio 4) (x : Alphabet) : ∀ l ∈ t.lengths x, l ≤ 15 := by
  intro l hl
  obtain ⟨i, -, rfl⟩ := List.mem_map.mp hl
  exact Nat.le_of_lt_succ ((t.table x).get i).isLt

/-- A dynamic block's description has at most 316 items (rule R55). -/
theorem length_items_le (t : Trio 4) : (rle (lengthSequence (t.lengths .litlen) (t.lengths .offset))).length ≤ 316 := by
  obtain ⟨hle, hlen⟩ := lengthSequence_legal (t.lengths_le .litlen) (t.lengths_le .offset)
  exact Nat.le_trans (rle_spec _ hle).2.2 hlen

theorem Huff.tablesOk_buildPrecode {b : Huff} (h : b.tablesOk) : b.buildPrecode.tablesOk := by
  have hitems := length_items_le b.lens
  obtain ⟨efreq, elens, ecode, ehb⟩ := b.buildPrecode_fields _ rfl
  generalize rle (lengthSequence (b.lens.lengths .litlen) (b.lens.lengths .offset)) = items at *
  have hfreq : Huff.tablesOk ⟨b.freq.put .precode (Table.ofList 32 (itemCounts items)), b.lens, b.code, b.hb⟩ :=
    ⟨Trio.wf_put h.1 (Table.wf_ofList 32 _ (by simp [itemCounts, Alphabet.slots])), h.2⟩
  have hbuilt := Huff.tablesOk_buildCodes (Huff.tablesOk_buildLens hfreq .precode) .precode
  refine ⟨by rw [efreq]; exact hbuilt.1, by rw [elens]; exact hbuilt.2.1, by rw [ecode]; exact hbuilt.2.2.1, ?_⟩
  rw [ehb]
  exact wf_writeItems h.2.2.2 (by omega)

/-! ## The builder through COMPRESS (rules R238 to R241) -/

theorem Huff.tablesOk_foldl {b : Huff} (h : b.tablesOk) (toks : List Token) : (toks.foldl Huff.tallyToken b).tablesOk := by
  induction toks generalizing b with
  | nil => exact h
  | cons t toks ih => exact ih (Huff.tablesOk_tallyToken h t)

theorem Huff.tablesOk_statistics {b : Huff} (h : b.tablesOk) (toks : List Token) : (b.statistics toks).tablesOk := by
  have hclear : b.clear.tablesOk := ⟨rfl, h.2⟩
  have hcount := Huff.tablesOk_tally (x := .litlen) (s := eobSymbol) (Huff.tablesOk_foldl hclear toks) (by decide)
  exact Huff.tablesOk_buildPrecode (Huff.tablesOk_buildLens (Huff.tablesOk_buildLens hcount .litlen) .offset)

/-- A property of the builder that a block's statistics and the codes it is sent with keep, COMPRESS keeps. -/
theorem Deflate.compress_keeps_huff {P : Huff → Prop} (statistics : ∀ b toks, P b → P (b.statistics toks))
    (loadFixed : ∀ b, P b → P b.loadFixed) (buildCodes : ∀ b x, P b → P (b.buildCodes x)) (hd : Handle) (p : Port) {d : Deflate}
    (h : P d.huff) : P (d.compress hd p).huff := by
  have block : ∀ (d : Deflate) src bstart bend final, P d.huff → P (d.emitBlock src bstart bend final).huff := by
    intro d src bstart bend final h
    have hstat := statistics d.huff d.cp.tok h
    unfold Deflate.emitBlock
    dsimp only
    split
    · exact hstat
    · split
      · exact loadFixed _ hstat
      · exact buildCodes _ _ (buildCodes _ _ hstat)
  have blocks : ∀ src n fuel pos (d : Deflate), P d.huff → P (Deflate.blocks hd src n fuel pos d).huff := by
    intro src n fuel
    induction fuel with
    | zero => exact fun _ _ h => h
    | succ k ih =>
      intro pos d h
      unfold Deflate.blocks
      dsimp only
      split
      · exact block _ _ _ _ _ h
      · exact ih _ _ (block _ _ _ _ _ h)
  unfold Deflate.compress Deflate.stream
  dsimp only
  split
  · exact h
  · exact blocks _ _ _ _ _ h

/-! ## Through every instruction -/

/-- TWRITE refuses its operands, or writes one entry of the space (rule R190). -/
theorem twriteBody_cases (space : Space) (s : State) :
    (twriteBody space s).1 = s ∨ s.port.a0.toNat < spaceSize space
      ∧ (twriteBody space s).1 = writeSpace s space s.port.a0.toNat s.port.a1 := by
  unfold twriteBody
  split
  · exact .inl rfl
  · split
    · exact .inl rfl
    · split
      · exact .inl rfl
      · exact .inr ⟨Nat.lt_of_not_le ‹_›, rfl⟩

/-- TWRITE keeps the tables in canonical form and range (rules R42, R190). -/
theorem tablesOk_writeSpace {s : State} (h : tablesOk s) (space : Space) {i : Nat} (hi : i < spaceSize space) (v : Word) :
    tablesOk (writeSpace s space i v) := by
  obtain ⟨hhead, hnext, hfreq, hlens, hcode, hdtab, hitems⟩ := h
  cases space with
  | head => exact ⟨Slots.wf_set _ hhead hi, hnext, hfreq, hlens, hcode, hdtab, hitems⟩
  | next => exact ⟨hhead, Slots.wf_set _ hnext hi, hfreq, hlens, hcode, hdtab, hitems⟩
  | freqLL => exact ⟨hhead, hnext, Trio.wf_put_set hfreq .litlen hi _, hlens, hcode, hdtab, hitems⟩
  | freqOF => exact ⟨hhead, hnext, Trio.wf_put_set hfreq .offset hi _, hlens, hcode, hdtab, hitems⟩
  | freqPC => exact ⟨hhead, hnext, Trio.wf_put_set hfreq .precode hi _, hlens, hcode, hdtab, hitems⟩
  | lensLL => exact ⟨hhead, hnext, hfreq, Trio.wf_put_set hlens .litlen hi _, hcode, hdtab, hitems⟩
  | lensOF => exact ⟨hhead, hnext, hfreq, Trio.wf_put_set hlens .offset hi _, hcode, hdtab, hitems⟩
  | lensPC => exact ⟨hhead, hnext, hfreq, Trio.wf_put_set hlens .precode hi _, hcode, hdtab, hitems⟩
  | codeLL => exact ⟨hhead, hnext, hfreq, hlens, Trio.wf_put_set hcode .litlen hi _, hdtab, hitems⟩
  | codeOF => exact ⟨hhead, hnext, hfreq, hlens, Trio.wf_put_set hcode .offset hi _, hdtab, hitems⟩
  | codePC => exact ⟨hhead, hnext, hfreq, hlens, Trio.wf_put_set hcode .precode hi _, hdtab, hitems⟩
  | dtabLL => exact ⟨hhead, hnext, hfreq, hlens, hcode, Trio.wf_put_set hdtab .litlen hi _, hitems⟩
  | dtabOF => exact ⟨hhead, hnext, hfreq, hlens, hcode, Trio.wf_put_set hdtab .offset hi _, hitems⟩
  | dtabPC => exact ⟨hhead, hnext, hfreq, hlens, hcode, Trio.wf_put_set hdtab .precode hi _, hitems⟩
  | items => exact ⟨hhead, hnext, hfreq, hlens, hcode, hdtab, Table.wf_set _ hitems hi⟩
  | misc => exact ⟨hhead, hnext, hfreq, hlens, hcode, hdtab, hitems⟩

theorem exec_keeps_memoryOk {i : Instr} {s t : State} (hi : isCommand i = true) (h : exec i s = .next t) (hs : memoryOk s) :
    memoryOk t := by
  have command := exec_command_keeps (Q := memoryOk) h (ended := fun _ _ h => h) (hs := hs)
  have stays : .mem ∉ writes i → memoryOk t := fun hw => (congrArg (Memory.wf · = true) (State.frame_mem (exec_frame h) hw)).mpr hs
  cases i with
  | compress =>
    refine command rfl fun _ => ?_
    show memoryOk (compressBody s).1
    rcases compressBody_cases s with e | ⟨hb, m, draws, a5, e, hm⟩ <;> rw [e]
    · exact hs
    · exact hm ((Deflate.compress_writes s.handle s.port s.deflate hb).1.mem_wf hs)
  | decompress =>
    refine command rfl fun _ => ?_
    show memoryOk (decompressBody s).1
    rcases decompressBody_cases s with e | ⟨-, port, m, draws, e, hm⟩ <;> rw [e]
    · exact hs
    · exact hm ((Inflate.extends_runAll _ s.startInflate).mem_wf hs)
  | bwPut =>
    refine command rfl fun _ => ?_
    show memoryOk (bwPutBody s).1
    unfold bwPutBody
    split
    · exact hs
    · split
      · exact hs
      · exact (s.sink.extends_put _ _).mem_wf hs
  | bwAlign => exact command rfl fun _ => s.sink.extends_align.mem_wf hs
  | bwFlush => exact command rfl fun _ => s.sink.extends_align.mem_wf hs
  | bwBytes =>
    refine command rfl fun _ => ?_
    show memoryOk (bwBytesBody s).1
    unfold bwBytesBody
    repeat' split
    all_goals first | exact hs | exact (Sink.extends_putBytes _ _ _ s.sink).mem_wf hs
  | brBytes =>
    refine command rfl fun _ => ?_
    show memoryOk (brBytesBody s).1
    unfold brBytesBody
    repeat' split
    all_goals first | exact hs | exact Memory.wf_copyForward _ _ _ _ _ hs
  | dxStep => exact command rfl fun _ => s.inflate.extends_step.mem_wf hs
  | twrite space => exact stays (by cases space <;> decide)
  | storedBody | lit | copyMatch => simp [isCommand, encodeCommand] at hi
  | _ => exact stays (by simp [writes])

/-- The tables of every unit, unit by unit. -/
theorem tablesOk_iff (s : State) : tablesOk s ↔ s.mf.slotsOk ∧ s.huff.tablesOk ∧ Trio.wf Alphabet.tableSize s.dtab = true := by
  simp only [tablesOk, MatchFinder.slotsOk, Huff.tablesOk, State.huff]
  tauto

theorem tablesOk_clearUnits (s : State) : tablesOk s.clearUnits := by
  have trio : ∀ draw space (w : Nat) n, Trio.wf n (freeTrio draw space w n) = true := fun draw space w n =>
    (Trio.wf_iff n _).mpr fun x => by cases x <;> exact Table.wf_freeTable _ _ _ _
  unfold tablesOk
  rw [s.clearUnits_mf, s.clearUnits_freq, s.clearUnits_lens, s.clearUnits_code, s.clearUnits_dtab, s.clearUnits_hb]
  dsimp only [MatchFinder.cleared]
  exact ⟨Slots.wf_freeSlots s.draws 0, Slots.wf_freeSlots s.draws 1, trio s.draws 2 32 _, trio s.draws 5 4 _, trio s.draws 8 16 _,
    trio s.draws 11 32 _, Table.wf_freeTable s.draws 14 16 316⟩

theorem tablesOk_created (s : State) (level : BitVec 4) : tablesOk (s.created level) := ⟨rfl, rfl, rfl, rfl, rfl, rfl, rfl⟩

theorem exec_keeps_tablesOk {i : Instr} {s t : State} (hi : isCommand i = true) (h : exec i s = .next t) (hs : tablesOk s) :
    tablesOk t := by
  have command := exec_command_keeps (Q := tablesOk) h (ended := fun _ _ h => h) (hs := hs)
  obtain ⟨hmf, hhuff, hdtab⟩ := (tablesOk_iff s).mp hs
  have withHuff : ∀ b : Huff, b.tablesOk → tablesOk (s.withHuff b) := fun b hb => (tablesOk_iff _).mpr ⟨hmf, hb, hdtab⟩
  have slots : i ≠ .destroy → i ≠ .twrite .head → i ≠ .twrite .next → t.mf.slotsOk := fun hd hhead hnext =>
    exec_keeps_closed MatchFinder.closed_slotsOk h (fun _ _ _ => ⟨rfl, rfl⟩) hd hhead hnext hmf
  have stays : i ≠ .destroy → i ≠ .twrite .head → i ≠ .twrite .next →
      (∀ p ∈ [Part.freq, .lens, .code, .hb, .dtab], p ∉ writes i) → tablesOk t := by
    intro hd hhead hnext hw
    have frame := exec_frame h
    have efreq : t.freq = s.freq := State.frame_same frame (hw .freq (by simp))
    have elens : t.lens = s.lens := State.frame_same frame (hw .lens (by simp))
    have ecode : t.code = s.code := State.frame_same frame (hw .code (by simp))
    have ehb : t.hb = s.hb := State.frame_same frame (hw .hb (by simp))
    have edtab : t.dtab = s.dtab := State.frame_same frame (hw .dtab (by simp))
    rw [tablesOk_iff, State.huff, efreq, elens, ecode, ehb, edtab]
    exact ⟨slots hd hhead hnext, hhuff, hdtab⟩
  cases i with
  | destroy => exact command rfl fun _ => tablesOk_clearUnits s
  | create level =>
    rcases exec_create_next h with rfl | ⟨-, rfl⟩
    · exact hs
    · exact tablesOk_created s level
  | compress =>
    refine command rfl fun _ => ?_
    show tablesOk (compressBody s).1
    rcases compressBody_cases s with e | ⟨hb, m, draws, a5, e, -⟩ <;> rw [e]
    · exact hs
    · exact (tablesOk_iff _).mpr ⟨MatchFinder.closed_slotsOk.compress _ _ hmf ⟨rfl, rfl⟩,
        Deflate.compress_keeps_huff (P := Huff.tablesOk) (fun _ _ h => Huff.tablesOk_statistics h _) (fun _ h => Huff.tablesOk_loadFixed h)
          (fun _ x h => Huff.tablesOk_buildCodes h x) _ _ hhuff, hdtab⟩
  | decompress =>
    refine command rfl fun _ => ?_
    show tablesOk (decompressBody s).1
    rcases decompressBody_cases s with e | ⟨-, port, m, draws, e, -⟩ <;> rw [e]
    · exact hs
    · have ext := Inflate.extends_runAll (maxSteps s.port.a1) s.startInflate
      exact (tablesOk_iff _).mpr ⟨hmf, ⟨hhuff.1, ext.lens_wf hhuff.2.1, hhuff.2.2⟩, ext.dtab_wf hdtab⟩
  | dxStep =>
    have ext := s.inflate.extends_step
    exact command rfl fun _ => (tablesOk_iff _).mpr ⟨hmf, ⟨hhuff.1, ext.lens_wf hhuff.2.1, hhuff.2.2⟩, ext.dtab_wf hdtab⟩
  | twrite space =>
    refine command rfl fun _ => ?_
    show tablesOk (twriteBody space s).1
    rcases twriteBody_cases space s with e | ⟨hlt, e⟩ <;> rw [e]
    · exact hs
    · exact tablesOk_writeSpace hs space hlt _
  | hbClear => exact command rfl fun _ => withHuff _ ⟨rfl, hhuff.2⟩
  | hbTally x =>
    refine command rfl fun _ => ?_
    show tablesOk (hbTallyBody x s).1
    unfold hbTallyBody
    split
    · exact hs
    · exact withHuff _ (Huff.tablesOk_tally hhuff (Nat.lt_of_lt_of_le (Nat.lt_of_not_le ‹_›) (slots_facts x).1))
  | hbMatch =>
    refine command rfl fun _ => ?_
    show tablesOk (hbMatchBody s).1
    unfold hbMatchBody
    split
    · exact withHuff _ (Huff.tablesOk_tallyMatch hhuff _ _)
    · exact hs
  | hbLens x => exact command rfl fun _ => withHuff _ (Huff.tablesOk_buildLens hhuff x)
  | hbCodes x => exact command rfl fun _ => withHuff _ (Huff.tablesOk_buildCodes hhuff x)
  | hbFixed => exact command rfl fun _ => withHuff _ (Huff.tablesOk_loadFixed hhuff)
  | hbPrecode => exact command rfl fun _ => withHuff _ (Huff.tablesOk_buildPrecode hhuff)
  | dtBuild x =>
    refine command rfl fun _ => ?_
    show tablesOk (dtBuildBody x s).1
    unfold dtBuildBody
    split
    · exact hs
    · exact (tablesOk_iff _).mpr ⟨hmf, hhuff, Trio.wf_put hdtab (wf_buildTable (length_lengths _ _) ‹_›)⟩
  | dynamicHeader => simp [isCommand, encodeCommand] at hi
  | _ => exact stays (by simp) (by simp) (by simp) (by simp [writes])

/-- Settles O56, by the canonical form of memory and of each unit's tables through every command. -/
theorem stepKeepsMemoryAndTables : Obligations.StepKeepsMemoryAndTables := fun _ _ h hs =>
  step_keeps (P := fun s => memoryOk s ∧ tablesOk s) h (port := fun _ _ _ _ h => h)
    (poke := fun _ _ _ h => ⟨Memory.wf_write h.1 _ _, h.2⟩)
    (reset := fun s h => ⟨h.1, tablesOk_clearUnits s⟩)
    (run := fun _ _ _ hi he h => ⟨exec_keeps_memoryOk hi he h.1, exec_keeps_tablesOk hi he h.2⟩) hs

end Sys2Proof.Machine
end

section
/-! PROOF. TREAD and TWRITE by table space (rules R82, R83, R189, R190), and the codewords HB.CODES stores
(rules R54, R280). -/

namespace Sys2Proof.Machine

/-! ## TREAD -/

/-- A flag is a number below two. -/
theorem toNat_ofNat_flag (w : Nat) (b : Bool) : (BitVec.ofNat (w + 1) b.toNat).toNat = b.toNat := by
  rw [BitVec.toNat_ofNat, Nat.mod_eq_of_lt]
  exact Nat.lt_of_lt_of_le b.toNat_lt (Nat.pow_le_pow_right (n := 2) (by decide) (Nat.le_add_left 1 w))

theorem toNat_shiftHigh (v : BitVec 64) : ((v >>> 32).setWidth 32 : Word).toNat = v.toNat / 4294967296 := by
  have := v.isLt
  rw [BitVec.toNat_setWidth, BitVec.toNat_ushiftRight, Nat.shiftRight_eq_div_pow]
  omega

/-- Each index of MISC reads its scalar, zero-extended (rule R83). -/
theorem miscEntry_toNat (s : State) :
    (List.range 31).map (fun k => (miscEntry s k).toNat)
      = [s.mf.src.toNat, s.mf.len.toNat, s.mf.base.toNat, s.mf.pos.toNat, s.bw.dst.toNat, s.bw.cap.toNat,
          s.bw.nbytes.toNat, s.bw.nbits.toNat, s.bw.acc.toNat % 4294967296, s.bw.ovf.toNat, s.br.src.toNat,
          s.br.len.toNat, s.br.bitpos.toNat % 4294967296, s.br.bitpos.toNat / 4294967296, s.dx.state.code,
          s.dx.err.code, s.dx.bfinal.toNat, s.dx.btype.toNat, s.dx.dst.toNat, s.dx.cap.toNat, s.dx.outpos.toNat,
          s.hb.nlit.toNat, s.hb.ndist.toNat, s.hb.npre.toNat, s.hb.nitems.toNat, s.handle.lazy.toNat,
          s.handle.depth.toNat, s.handle.nice.toNat, s.dx.nlit.toNat, s.dx.ndist.toNat, s.dx.npre.toNat] := by
  have widen : ∀ {w : Nat}, w ≤ 32 → ∀ v : BitVec w, (v.setWidth 32).toNat = v.toNat := fun h v =>
    BitVec.toNat_setWidth_of_le h
  have hstate : (BitVec.ofNat 32 s.dx.state.code).toNat = s.dx.state.code :=
    Nat.mod_eq_of_lt (Nat.lt_trans (DxState.code_lt _) (by decide))
  have herr : (BitVec.ofNat 32 s.dx.err.code).toNat = s.dx.err.code :=
    Nat.mod_eq_of_lt (Nat.lt_trans (Result.code_lt _) (by decide))
  have hrange : List.range 31 = [0, 1, 2, 3, 4, 5, 6, 7, 8, 9, 10, 11, 12, 13, 14, 15, 16, 17, 18, 19, 20, 21, 22, 23, 24, 25, 26, 27,
    28, 29, 30] := rfl
  simp only [hrange, List.map_cons, List.map_nil, miscEntry, hstate, herr, toNat_shiftHigh, toNat_ofNat_flag 31]
  rw [widen (by decide) s.mf.pos, widen (by decide) s.bw.nbits, widen (by decide) s.dx.btype, widen (by decide) s.hb.nlit,
    widen (by decide) s.hb.ndist, widen (by decide) s.hb.npre, widen (by decide) s.hb.nitems, widen (by decide) s.handle.depth,
    widen (by decide) s.handle.nice, widen (by decide) s.dx.nlit, widen (by decide) s.dx.ndist, widen (by decide) s.dx.npre,
    BitVec.toNat_setWidth, BitVec.toNat_setWidth]

/-- Settles O19: an accepted index is answered from `readSpace`. -/
theorem treadReturnsTheEntry : Obligations.TreadReturnsTheEntry := by
  intro s space ha hindex
  refine ⟨⟨_, exec_alive (i := .tread space) rfl ha, ?_⟩, miscEntry_toNat s⟩
  have hbody : commandBody (.tread space) s = (s.setA4 (readSpace s space s.port.a0.toNat).toNat, .success) :=
    if_neg (Nat.not_le.mpr hindex)
  rw [hbody]
  exact ⟨rfl, by simp [State.ended, State.setA4]⟩

/-! ## TWRITE -/

theorem readSpace_writeSpace_other (s : State) {space space' : Space} (h : space' ≠ space) (i : Nat) (v : Word) (j : Nat) :
    readSpace (writeSpace s space i v) space' j = readSpace s space' j := by
  cases space <;> cases space' <;> first | rfl | exact absurd rfl h

/-- An accepted value comes back whole (rule R82). -/
theorem readSpace_writeSpace_same (s : State) {space : Space} {i : Nat} {v : Word} (h : spaceAccepts space v = true) (j : Nat) :
    readSpace (writeSpace s space i v) space j = if j = i then v else readSpace s space j := by
  have narrow : ∀ w, v.toNat < 2 ^ w → (v.setWidth w).setWidth 32 = v := fun w hv =>
    BitVec.eq_of_toNat_eq (by rw [BitVec.toNat_setWidth, BitVec.toNat_setWidth, Nat.mod_eq_of_lt hv, Nat.mod_eq_of_lt v.isLt])
  cases space with
  | misc => cases h
  | head | next =>
    simp only [readSpace, writeSpace, Slots.get_set]
    split
    · exact of_decide_eq_true h
    · rfl
  | lensLL | lensOF | lensPC =>
    simp only [readSpace, writeSpace, Table.get_set]
    split
    · exact narrow 4 (Nat.lt_succ_of_le (of_decide_eq_true h))
    · rfl
  | codeLL | codeOF | codePC | items =>
    simp only [readSpace, writeSpace, Table.get_set]
    split
    · exact narrow 16 (Nat.lt_succ_of_le (of_decide_eq_true h))
    · rfl
  | freqLL | freqOF | freqPC | dtabLL | dtabOF | dtabPC => simp only [readSpace, writeSpace, Table.get_set]

theorem writeSpace_port (s : State) (space : Space) (i : Nat) (v : Word) : (writeSpace s space i v).port = s.port := by
  cases space <;> rfl

/-- The end of a command touches no table space. -/
theorem readSpace_ended (s : State) (r : Result) (space : Space) (j : Nat) : readSpace (s.ended r) space j = readSpace s space j := by
  cases space <;> rfl

/-- Settles O20, by what `writeSpace` leaves to be read. -/
theorem twriteChangesOneEntry : Obligations.TwriteChangesOneEntry := by
  intro s space ha hmisc hindex haccepts
  have hbody : commandBody (.twrite space) s = (writeSpace s space s.port.a0.toNat s.port.a1, .success) := by
    show twriteBody space s = _
    rw [twriteBody, if_neg hmisc, if_neg (Nat.not_le.mpr hindex), haccepts]
    rfl
  refine ⟨_, exec_alive (i := .twrite space) rfl ha, ?_, fun space' j => ?_⟩ <;> rw [hbody]
  · simp [State.ended, writeSpace_port]
  · rw [readSpace_ended]
    by_cases hsame : space' = space
    · subst hsame
      simp only [readSpace_writeSpace_same s haccepts, true_and]
    · rw [readSpace_writeSpace_other s hsame, if_neg (fun h => hsame h.1)]

/-! ## The codewords HB.CODES stores -/

/-- A stored codeword fits its length. -/
theorem storedCode_lt (len word : Nat) : storedCode len word < 2 ^ len := by
  unfold storedCode
  split
  · exact Nat.two_pow_pos _
  · exact rev_lt _ _

/-- HB.CODES stores the canonical codewords reversed (rule R280). -/
theorem Huff.get_buildCodes (b : Huff) {x : Alphabet} {s : Nat} (hs : s < x.slots) :
    (((b.buildCodes x).code.table x).get s).toNat
      = storedCode ((b.lens.lengths x).getD s 0) ((canonical (b.lens.lengths x)).getD s 0) := by
  have hlen := length_lengths b.lens x
  have h15 := getD_le_of_all (b.lens.lengths_le x) s
  have hentry : (codesFor (b.lens.lengths x)).getD s 0
      = storedCode ((b.lens.lengths x).getD s 0) ((canonical (b.lens.lengths x)).getD s 0) := by
    have hs' : s < (canonical (b.lens.lengths x)).length := by rw [length_canonical, hlen]; exact hs
    rw [codesFor, List.getD_eq_getElem _ _ (by simp; omega), List.getElem_zipWith, List.getD_eq_getElem _ _ (by omega),
      List.getD_eq_getElem _ _ hs']
  have hfit := Nat.lt_of_lt_of_le (storedCode_lt ((b.lens.lengths x).getD s 0) ((canonical (b.lens.lengths x)).getD s 0))
    (Nat.pow_le_pow_right (by decide) (Nat.le_succ_of_le h15))
  show (((b.code.put x _).table x).get s).toNat = _
  rw [Trio.table_put_same, Table.get_ofList, hentry, BitVec.toNat_ofNat, Nat.mod_eq_of_lt hfit]

/-- An accepted set of lengths is not over-subscribed (rules R302, R303). -/
theorem acceptedLengths_valid {x : Alphabet} {lens : List Nat} (h : acceptedLengths x lens) :
    (∀ l ∈ lens, l ≤ x.maxLen) ∧ kraftSum x.maxLen lens ≤ 2 ^ x.maxLen := by
  obtain ⟨hle, hsum⟩ := h
  rw [kraft_eq] at hsum
  refine ⟨hle, ?_⟩
  rcases hsum with hfull | hzero | ⟨-, hhalf⟩
  · exact Nat.le_of_eq hfull
  · rw [← kraft_eq, kraft, List.filter_eq_nil_iff.mpr fun l hl => by simp [hzero l hl]]
    exact Nat.zero_le _
  · rw [hhalf]
    exact Nat.pow_le_pow_right (by decide) (Nat.sub_le _ _)

/-- A codeword whose stored bits begin another's is that codeword (rules R54, R282). -/
theorem storedCode_prefix_free {maxLen : Nat} {lens : List Nat} (hle : ∀ l ∈ lens, l ≤ maxLen) (h15 : maxLen ≤ 15)
    (hk : kraftSum maxLen lens ≤ 2 ^ maxLen) {a b : Nat} (ha : a < lens.length) (hb : b < lens.length) (h0 : 0 < lens.getD a 0)
    (hab : lens.getD a 0 ≤ lens.getD b 0)
    (e : storedCode (lens.getD b 0) ((canonical lens).getD b 0) % 2 ^ lens.getD a 0
      = storedCode (lens.getD a 0) ((canonical lens).getD a 0)) : a = b := by
  have hb15 : lens.getD b 0 ≤ 15 := Nat.le_trans (getD_le_of_all hle b) h15
  have hwa := canonical_lt hle hk ha (Nat.ne_of_gt h0) (Nat.le_trans hab hb15)
  have hwb := canonical_lt hle hk hb (by omega) hb15
  rw [storedCode, if_neg (by omega), storedCode, if_neg (by omega), Nat.mod_eq_of_lt hwa, Nat.mod_eq_of_lt hwb, rev_mod _ hab] at e
  exact canonical_prefix_free ha hb (Nat.ne_of_gt h0) hb15 hab (rev_injective (div_pow_lt hwb hab) hwa e)

/-- Settles O31: no canonical codeword begins another, and reversal turns a beginning into the low bits. -/
theorem hbCodesArePrefixFree : Obligations.HbCodesArePrefixFree := by
  intro s x halive haccepted
  obtain ⟨hle, hk⟩ := acceptedLengths_valid haccepted
  have hlen := length_lengths s.lens x
  refine ⟨_, exec_alive (i := .hbCodes x) rfl halive, fun a b ha hb hne h0 hab e => hne ?_⟩
  rw [State.ended_code] at e
  change (((s.huff.buildCodes x).code.table x).get b).toNat % _ = (((s.huff.buildCodes x).code.table x).get a).toNat at e
  rw [Huff.get_buildCodes _ ha, Huff.get_buildCodes _ hb] at e
  exact storedCode_prefix_free hle (maxLen_le x) hk (by omega) (by omega) h0 hab e

end Sys2Proof.Machine
end

section
/-! PROOF. Bindings stand and streams go forward (rules R40, R64, R70, R71, R77, R192). The reader goes forward
from every position: past the overread bound (rule R344) no field is read, and no byte is left to copy. -/

namespace Sys2Proof.Machine

/-! ## The match-finder's input -/

/-- The match-finder reads this input. -/
def MatchFinder.reads (src len : Word) (mf : MatchFinder) : Prop := mf.src = src ∧ mf.len = len

theorem MatchFinder.closed_reads (src len : Word) : MatchFinder.Closed (MatchFinder.reads src len) where
  slide _ hp h := ⟨(MatchFinder.passes_slide hp).src.trans h.1, (MatchFinder.passes_slide hp).len.trans h.2⟩
  insert _ _ _ _ h := h
  advance _ _ h := h

theorem exec_keeps_input {i : Instr} {s t : State} (h : exec i s = .next t) (hd : i ≠ .destroy) (hcr : ∀ level, i ≠ .create level)
    (hin : i ≠ .mfInit) (hco : i ≠ .compress) : t.mf.reads s.mf.src s.mf.len := by
  have hs : s.mf.reads s.mf.src s.mf.len := ⟨rfl, rfl⟩
  by_cases hw : ∃ space, i = .twrite space
  · obtain ⟨space, rfl⟩ := hw
    refine exec_command_keeps (Q := fun t => t.mf.reads s.mf.src s.mf.len) h rfl (ended := fun _ _ h => h) (hs := hs) fun _ => ?_
    show (twriteBody space s).1.mf.reads _ _
    rcases twriteBody_cases space s with e | ⟨-, e⟩ <;> rw [e]
    · exact hs
    · cases space <;> exact hs
  · have unbound : ¬ bindsMatchFinder i := by
      rintro (e | e | ⟨level, e⟩)
      · exact hin e
      · exact hco e
      · exact hcr level e
    exact exec_keeps_closed (MatchFinder.closed_reads s.mf.src s.mf.len) h (fun b => absurd b unbound) hd
      (fun e => hw ⟨_, e⟩) (fun e => hw ⟨_, e⟩) hs

/-! ## The writer -/

/-- A writer command only commits to the writer's buffer; no other touches the writer. -/
theorem exec_extends_writer {i : Instr} {s t : State} (h : exec i s = .next t) (hd : i ≠ .destroy) (hcr : ∀ level, i ≠ .create level)
    (hin : i ≠ .bwInit) (hco : i ≠ .compress) : ∃ k, Sink.Extends s.sink k ∧ t.bw = k.bw := by
  by_cases hw : .bw ∈ writes i
  · have command := exec_command_keeps (Q := fun t => ∃ k, Sink.Extends s.sink k ∧ t.bw = k.bw) h (ended := fun _ _ h => h)
      (hs := ⟨_, .refl s.sink, rfl⟩)
    rcases bw_mem_writes hw with rfl | ⟨level, rfl⟩ | rfl | rfl | rfl | rfl | rfl | rfl
    · exact absurd rfl hd
    · exact absurd rfl (hcr level)
    · exact absurd rfl hco
    · exact absurd rfl hin
    · refine command rfl fun _ => ?_
      show ∃ k, Sink.Extends s.sink k ∧ (bwPutBody s).1.bw = k.bw
      unfold bwPutBody
      split
      · exact ⟨_, .refl _, rfl⟩
      · split
        · exact ⟨_, .refl _, rfl⟩
        · exact ⟨_, s.sink.extends_put _ _, rfl⟩
    · exact command rfl fun _ => ⟨_, s.sink.extends_align, rfl⟩
    · exact command rfl fun _ => ⟨_, s.sink.extends_align, rfl⟩
    · refine command rfl fun _ => ?_
      show ∃ k, Sink.Extends s.sink k ∧ (bwBytesBody s).1.bw = k.bw
      unfold bwBytesBody
      repeat' split
      all_goals first | exact ⟨_, .refl _, rfl⟩ | exact ⟨_, Sink.extends_putBytes _ _ _ s.sink, rfl⟩
  · exact ⟨_, .refl s.sink, State.frame_same (exec_frame h) hw⟩

/-! ## The reader -/

/-- The reader after bits or bytes were consumed: the same buffer, at a position not before, whether or not it was
within the overread bound; it stays within it. -/
structure Reader.Forward (r r' : Reader) : Prop where
  src : r'.src = r.src
  len : r'.len = r.len
  le : r.bitpos.toNat ≤ r'.bitpos.toNat
  bound : r.bitpos.toNat ≤ 8 * r.len.toNat + 64 → r'.bitpos.toNat ≤ 8 * r.len.toNat + 64

theorem Reader.Forward.refl (r : Reader) : Reader.Forward r r := ⟨rfl, rfl, Nat.le_refl _, id⟩

theorem Reader.Forward.trans {r r' r'' : Reader} (h : Reader.Forward r r') (g : Reader.Forward r' r'') : Reader.Forward r r'' :=
  ⟨g.src.trans h.src, g.len.trans h.len, Nat.le_trans h.le g.le, fun b => by rw [← h.len]; exact g.bound (by rw [h.len]; exact h.bound b)⟩

theorem Reader.Forward.of_eq {r r' : Reader} (h : r' = r) : Reader.Forward r r' := h ▸ .refl r'

theorem Reader.forward_drop {r r' : Reader} {n : Nat} (h : r.drop n = some r') : Reader.Forward r r' := by
  obtain ⟨hfit, hsrc, hlen, hpos⟩ := Reader.drop_some h
  exact ⟨hsrc, hlen, by omega, fun _ => by omega⟩

theorem Reader.forward_get (r : Reader) (m : Memory) (n : Nat) : Reader.Forward r (r.get m n).1 := by
  unfold Reader.get
  split
  · exact .refl r
  · exact Reader.forward_drop ‹_›

theorem Reader.forward_finishDecode (e : BitVec 32) (r : Reader) : Reader.Forward r (finishDecode e r).1 := by
  unfold finishDecode
  split
  · split
    · exact .refl r
    · exact Reader.forward_drop ‹_›
  · exact .refl r

theorem Reader.forward_decodeSymbol (x : Alphabet) (t : Table 32) (m : Memory) (r : Reader) :
    Reader.Forward r (decodeSymbol x t m r).1 := by
  unfold decodeSymbol
  dsimp only
  split
  · split
    · exact .refl r
    · split
      · exact Reader.forward_drop ‹_›
      · exact (Reader.forward_drop ‹_›).trans (Reader.forward_finishDecode _ _)
  · exact Reader.forward_finishDecode _ _

/-- Bytes that are left to read are copied from inside the buffer; past its end there are none (rules R348, R375). -/
theorem Reader.forward_advanceBytes {r : Reader} {n : Nat} (h : ¬ r.left < n) : Reader.Forward r (r.advanceBytes n) := by
  have hpos := r.bitpos.isLt
  have hlen := r.len.isLt
  simp only [Reader.left, Reader.start] at h
  have hnat : (r.advanceBytes n).bitpos.toNat = r.bitpos.toNat + 8 * n := by
    rw [Reader.advanceBytes, BitVec.toNat_ofNat, Nat.mod_eq_of_lt (by omega)]
  exact ⟨rfl, rfl, by omega, fun _ => by omega⟩

theorem Inflate.source_forward (d : Inflate) : SourceRel d.source Reader.Forward where
  refl := .refl
  trans := fun _ _ _ => .trans
  bits := fun n r => r.forward_get d.mem n
  symbol := fun x r => r.forward_decodeSymbol x _ d.mem

theorem Inflate.forward_fetch (d : Inflate) : Reader.Forward d.br d.fetch.1 := by
  unfold Inflate.fetch
  split
  · exact d.source_forward.readHeader _
  · exact d.source_forward.readDynamic _
  · exact d.source_forward.readLitlen _
  · split
    · exact .refl _
    · exact (Reader.forward_drop ‹_›).trans (d.source_forward.readStored _)
  · exact .refl _
  · exact .refl _

theorem Inflate.blockDone_br (d : Inflate) : d.blockDone.br = d.br := by
  unfold Inflate.blockDone Inflate.finish
  repeat' split
  all_goals rfl

theorem Inflate.forward_storedBody (d : Inflate) (len nlen : BitVec 16) : Reader.Forward d.br (d.storedBody len nlen).br := by
  unfold Inflate.storedBody
  split
  · exact .refl _
  · split
    · exact .refl _
    · split
      · exact .refl _
      · rw [Inflate.blockDone_br]
        exact Reader.forward_advanceBytes ‹_›

/-- Past the overread bound a dynamic header ends at its first precode length. -/
theorem Inflate.dynamicHeader_br_of_past (d : Inflate) (hlit hdist : BitVec 5) (hclen : BitVec 4)
    (h : 8 * d.br.len.toNat + 64 < d.br.bitpos.toNat) : (d.dynamicHeader hlit hdist hclen).br = d.br := by
  have horder : precodeOrder.take (hclen.toNat + 4) = 16 :: precodeOrder.tail.take (hclen.toNat + 3) := rfl
  have hget : ∀ m, d.br.get m 3 = (d.br, none) := fun m => by rw [Reader.get_eq, if_neg (by omega)]
  unfold Inflate.dynamicHeader
  dsimp only
  split
  · rfl
  · rw [horder, Inflate.readPrecodeLens]
    simp only [hget]
    rfl

theorem Inflate.forward_dynamicHeader (d : Inflate) (hlit hdist : BitVec 5) (hclen : BitVec 4) :
    Reader.Forward d.br (d.dynamicHeader hlit hdist hclen).br := by
  have ext := (d.extends_dynamicHeader hlit hdist hclen).reader
  by_cases h : d.br.bitpos.toNat ≤ 8 * d.br.len.toNat + 64
  · exact ⟨ext.src, ext.len, ext.le h, ext.bound⟩
  · exact .of_eq (d.dynamicHeader_br_of_past _ _ _ (Nat.lt_of_not_le h))

theorem Inflate.forward_run (d : Inflate) (i : Instr) : Reader.Forward d.br (d.run i).br := by
  cases i with
  | storedBody len nlen => exact d.forward_storedBody len nlen
  | dynamicHeader hlit hdist hclen => exact d.forward_dynamicHeader hlit hdist hclen
  | eob => exact .of_eq d.blockDone_br
  | _ =>
    -- No other element names the reader.
    refine .of_eq ?_
    simp only [Inflate.run, Inflate.preLen, Inflate.preRep, Inflate.preZrep3, Inflate.preZrep11, Inflate.extend, Inflate.literal,
      Inflate.copyMatch, Inflate.replay]
    repeat' split
    all_goals rfl

theorem Inflate.forward_step (d : Inflate) : Reader.Forward d.br d.step.br := by
  have fetchAndRun : Reader.Forward d.br d.fetchAndRun.br := by
    have h := d.forward_fetch
    unfold Inflate.fetchAndRun
    split
    · rename_i e
      rw [e] at h
      exact h
    · rename_i r i e
      rw [e] at h
      exact h.trans (Inflate.forward_run { d with br := r } i)
  unfold Inflate.step
  split
  · exact fetchAndRun
  · split
    · exact .of_eq (Inflate.built_buildBoth _).2
    · exact fetchAndRun
  · exact fetchAndRun
  · exact fetchAndRun
  · exact .refl _
  · exact .refl _

theorem exec_forward_reader {i : Instr} {s t : State} (h : exec i s = .next t) (hd : i ≠ .destroy) (hcr : ∀ level, i ≠ .create level)
    (hin : i ≠ .brInit) (hde : i ≠ .decompress) : Reader.Forward s.br t.br := by
  have command := exec_command_keeps (Q := fun t => Reader.Forward s.br t.br) h (ended := fun _ _ h => h) (hs := .refl s.br)
  have stays : .br ∉ writes i → Reader.Forward s.br t.br := fun hw => .of_eq (State.frame_same (exec_frame h) hw)
  cases i with
  | destroy => exact absurd rfl hd
  | create level => exact absurd rfl (hcr level)
  | brInit => exact absurd rfl hin
  | decompress => exact absurd rfl hde
  | brDrop =>
    refine command rfl fun _ => ?_
    show Reader.Forward s.br (brDropBody s).1.br
    unfold brDropBody
    split
    · exact .refl _
    · split
      · exact .refl _
      · exact Reader.forward_drop ‹_›
  | brGet =>
    refine command rfl fun _ => ?_
    have hget := s.br.forward_get s.mem s.port.a0.toNat
    show Reader.Forward s.br (brGetBody s).1.br
    unfold brGetBody
    split
    · exact .refl _
    · split
      · exact .refl _
      · rename_i e
        rw [e] at hget
        exact hget
  | brAlign =>
    refine command rfl fun _ => ?_
    show Reader.Forward s.br (brAlignBody s).1.br
    unfold brAlignBody
    split
    · exact .refl _
    · exact Reader.forward_drop ‹_›
  | brBytes =>
    refine command rfl fun _ => ?_
    show Reader.Forward s.br (brBytesBody s).1.br
    unfold brBytesBody
    repeat' split
    all_goals first | exact .refl _ | exact Reader.forward_advanceBytes ‹_›
  | dtDecode x =>
    refine command rfl fun _ => ?_
    have hdecode := s.br.forward_decodeSymbol x (s.dtab.table x) s.mem
    show Reader.Forward s.br (dtDecodeBody x s).1.br
    unfold dtDecodeBody
    split
    all_goals
      rename_i e
      rw [e] at hdecode
      exact hdecode
  | dxStep => exact command rfl fun _ => s.inflate.forward_step
  | storedBody len nlen =>
    cases h
    exact s.inflate.forward_storedBody len nlen
  | dynamicHeader hlit hdist hclen =>
    cases h
    exact s.inflate.forward_dynamicHeader hlit hdist hclen
  | twrite space => exact stays (by cases space <;> decide)
  | _ => exact stays (by simp [writes])

/-! ## The output -/

/-- The commands that write the decompressor. -/
theorem dx_mem_writes {i : Instr} (hi : isCommand i = true) (h : .dx ∈ writes i) :
    i = .destroy ∨ (∃ level, i = .create level) ∨ i = .decompress ∨ i = .dxInit ∨ i = .dxStep := by
  cases i with
  | twrite space => cases space <;> simp [writes, spacePart] at h
  | _ => simp_all [writes, isCommand, encodeCommand]

/-- A stream element and DX.STEP go on with the output; no other command touches the decompressor. -/
theorem exec_extends_output {i : Instr} {s t : State} (h : exec i s = .next t) (hd : i ≠ .destroy) (hcr : ∀ level, i ≠ .create level)
    (hin : i ≠ .dxInit) (hde : i ≠ .decompress) : ∃ d, Inflate.Extends s.inflate d ∧ t.dx = d.dx := by
  by_cases hi : isCommand i = true
  · by_cases hw : .dx ∈ writes i
    · rcases dx_mem_writes hi hw with rfl | ⟨level, rfl⟩ | rfl | rfl | rfl
      · exact absurd rfl hd
      · exact absurd rfl (hcr level)
      · exact absurd rfl hde
      · exact absurd rfl hin
      · exact exec_command_keeps (Q := fun t => ∃ d, Inflate.Extends s.inflate d ∧ t.dx = d.dx) h rfl (ended := fun _ _ h => h)
          (hs := ⟨_, .refl s.inflate, rfl⟩) fun _ => ⟨_, s.inflate.extends_step, rfl⟩
    · exact ⟨_, .refl s.inflate, State.frame_same (exec_frame h) hw⟩
  · rw [exec_element (by simpa using hi)] at h
    cases h
    exact ⟨_, s.inflate.extends_run i, rfl⟩

/-- Settles O14, unit by unit. -/
theorem bindingsStandAndStreamsGoForward : Obligations.BindingsStandAndStreamsGoForward := by
  intro i s t h hd hcr
  refine ⟨fun hin hco => exec_keeps_input h hd hcr hin hco, fun hin hco => ?_, fun hin hde => ?_, fun hin hde hfit => ?_⟩
  · obtain ⟨k, ext, e⟩ := exec_extends_writer h hd hcr hin hco
    rw [e]
    exact ⟨ext.dst, ext.cap, ext.nbytes_le⟩
  · obtain ⟨src, len, le, -⟩ := exec_forward_reader h hd hcr hin hde
    exact ⟨src, len, le⟩
  · obtain ⟨d, ext, e⟩ := exec_extends_output h hd hcr hin hde
    rw [e]
    exact ⟨ext.dst, ext.cap, ext.outpos_le hfit⟩

end Sys2Proof.Machine
end

section
/-! PROOF. The ranges of the reader, the decompressor, the handle, the declared counts and the symbol stream
through every command (rules R38, R48, R55, R71, R75 to R78, R235, R344). -/

namespace Sys2Proof.Machine

/-! ## The declared counts (rules R55, R78) -/

/-- The builder's counts are in their ranges. -/
def Builder.counted (b : Builder) : Prop :=
  (257 ≤ b.nlit.toNat ∧ b.nlit.toNat ≤ 286) ∧ (1 ≤ b.ndist.toNat ∧ b.ndist.toNat ≤ 30) ∧ (4 ≤ b.npre.toNat ∧ b.npre.toNat ≤ 19)
    ∧ b.nitems.toNat ≤ 316

/-- The decompressor's counts are in their ranges. -/
def Decomp.counted (d : Decomp) : Prop :=
  (257 ≤ d.nlit.toNat ∧ d.nlit.toNat ≤ 288) ∧ (1 ≤ d.ndist.toNat ∧ d.ndist.toNat ≤ 32) ∧ (4 ≤ d.npre.toNat ∧ d.npre.toNat ≤ 19)

theorem countsOk_iff (s : State) : countsOk s ↔ (s.handle.alive = true → s.hb.counted ∧ s.dx.counted) := by
  simp only [countsOk, Builder.counted, Decomp.counted, and_assoc]

/-- HB.PRECODE leaves its counts in their ranges, whatever they were (rules R284, R285). -/
theorem Huff.counted_buildPrecode (b : Huff) : b.buildPrecode.hb.counted := by
  have hitems := length_items_le b.lens
  obtain ⟨-, -, -, e⟩ := b.buildPrecode_fields _ rfl
  generalize rle (lengthSequence (b.lens.lengths .litlen) (b.lens.lengths .offset)) = items at *
  rw [e]
  generalize (Huff.buildLens _ .precode).lens.lengths .precode = pre
  have hlit := trimLitlen_le (b.lens.lengths .litlen)
  have hlit' : 257 ≤ trimLitlen (b.lens.lengths .litlen) := Nat.le_max_left _ _
  have hdist := trimOffset_le (b.lens.lengths .offset)
  have hdist' : 1 ≤ trimOffset (b.lens.lengths .offset) := Nat.le_max_left _ _
  have hpre := trimPrecode_le pre
  have hpre' : 4 ≤ trimPrecode pre := Nat.le_max_left _ _
  simp only [Builder.counted, BitVec.toNat_ofNat]
  omega

theorem Huff.counted_statistics (b : Huff) (toks : List Token) : (b.statistics toks).hb.counted := by
  unfold Huff.statistics
  exact Huff.counted_buildPrecode _

theorem Huff.loadFixed_hb (b : Huff) : b.loadFixed.hb = b.hb := by
  unfold Huff.loadFixed Huff.buildCodes
  rfl

/-! ## Between the decompressor's steps -/

/-- From `d` to `d'` no length sequence is left behind and the counts stay in their ranges (rules R78, R368). -/
structure Inflate.Rests (d d' : Inflate) : Prop where
  seq : d.dx.seq = [] → d'.dx.seq = []
  counted : d.dx.counted → d'.dx.counted

theorem Inflate.Rests.refl (d : Inflate) : Inflate.Rests d d := ⟨id, id⟩

theorem Inflate.Rests.trans {d d' d'' : Inflate} (h : Inflate.Rests d d') (g : Inflate.Rests d' d'') : Inflate.Rests d d'' :=
  ⟨g.seq ∘ h.seq, g.counted ∘ h.counted⟩

theorem Inflate.blockDone_dx (d : Inflate) : ∃ q e, d.blockDone.dx = { d.dx with state := q, err := e } := by
  unfold Inflate.blockDone Inflate.finish
  split
  · split <;> exact ⟨_, _, rfl⟩
  · exact ⟨_, _, rfl⟩

theorem Inflate.buildBoth_dx (d : Inflate) : ∃ q e, d.buildBoth.dx = { d.dx with state := q, err := e } := by
  unfold Inflate.buildBoth
  split
  · exact ⟨_, _, rfl⟩
  · rename_i d1 h1
    have e1 := (Inflate.build_dx h1).1
    split
    · exact ⟨_, _, by rw [Inflate.error, e1]⟩
    · rename_i d2 h2
      have e2 := (Inflate.build_dx h2).1
      exact ⟨_, _, by rw [Inflate.goto, e2, e1]⟩

/-- A dynamic table build keeps the declared counts and drops the sequence. -/
theorem Inflate.buildDynamic_counts (d : Inflate) :
    d.buildDynamic.dx.nlit = d.dx.nlit ∧ d.buildDynamic.dx.ndist = d.dx.ndist ∧ d.buildDynamic.dx.npre = d.dx.npre
      ∧ d.buildDynamic.dx.seq = [] := by
  unfold Inflate.buildDynamic
  cases hb : d.build .precode with
  | none => exact ⟨rfl, rfl, rfl, rfl⟩
  | some d1 =>
    have e1 := (Inflate.build_dx hb).1
    obtain ⟨nlit, ndist, npre, -⟩ := Inflate.counted_readLengths d1.total d1.dropSeq
    replace nlit := nlit.trans (show d1.dx.nlit = d.dx.nlit from congrArg Decomp.nlit e1)
    replace ndist := ndist.trans (show d1.dx.ndist = d.dx.ndist from congrArg Decomp.ndist e1)
    replace npre := npre.trans (show d1.dx.npre = d.dx.npre from congrArg Decomp.npre e1)
    dsimp only [Option.elim]
    generalize Inflate.readLengths d1.total d1.dropSeq = q at *
    obtain ⟨st, er, hbuilt⟩ := q.loadLengths.buildBoth_dx
    unfold Inflate.andThen
    split
    · exact ⟨nlit, ndist, npre, rfl⟩
    all_goals
      simp only [Inflate.dropSeq, hbuilt]
      exact ⟨nlit, ndist, npre, trivial⟩

theorem Inflate.rests_dynamicHeader (d : Inflate) (hlit hdist : BitVec 5) (hclen : BitVec 4) :
    Inflate.Rests d (d.dynamicHeader hlit hdist hclen) := by
  have declared : ∀ d' : Inflate, d'.dx.nlit = BitVec.ofNat 9 (hlit.toNat + 257) → d'.dx.ndist = BitVec.ofNat 6 (hdist.toNat + 1) →
      d'.dx.npre = BitVec.ofNat 5 (hclen.toNat + 4) → d'.dx.counted := by
    intro d' h1 h2 h3
    have := hlit.isLt
    have := hdist.isLt
    have := hclen.isLt
    simp only [Decomp.counted, h1, h2, h3, BitVec.toNat_ofNat]
    omega
  unfold Inflate.dynamicHeader
  dsimp only
  split
  · exact ⟨id, fun _ => declared _ rfl rfl rfl⟩
  · obtain ⟨nlit, ndist, npre, seq⟩ := Inflate.readPrecodeLens_counts (precodeOrder.take (hclen.toNat + 4))
      { d with
        dx := { d.dx with
          nlit := BitVec.ofNat 9 (hlit.toNat + 257)
          ndist := BitVec.ofNat 6 (hdist.toNat + 1)
          npre := BitVec.ofNat 5 (hclen.toNat + 4) }
        lens := { d.lens with precode := [] } }
    generalize Inflate.readPrecodeLens _ _ = q at *
    obtain ⟨nlit', ndist', npre', seq'⟩ := q.buildDynamic_counts
    unfold Inflate.andThen
    split
    · exact ⟨fun h => seq.trans h, fun _ => declared _ nlit ndist npre⟩
    all_goals exact ⟨fun _ => seq', fun _ => declared _ (nlit'.trans nlit) (ndist'.trans ndist) (npre'.trans npre)⟩

/-- No element of a length sequence is fetched by a step: it stands inside a dynamic header (rule R368). -/
theorem Inflate.fetch_expect {d : Inflate} {r : Reader} {i : Instr} (h : d.fetch = (r, .ok i)) : i.expect ≠ .precode := by
  unfold Inflate.fetch at h
  split at h
  · unfold readHeader at h
    split at h
    · cases h
    · cases h
      unfold headerInstr
      dsimp only
      repeat' split
      all_goals simp [Instr.expect]
  · unfold readDynamic at h
    split at h
    · cases h
    · cases h
      simp [Instr.expect]
  · cases readLitlen_kind h <;> simp [Instr.expect]
  · split at h
    · cases h
    · unfold readStored at h
      split at h
      · cases h
      · split at h
        · cases h
        · cases h
          simp [Instr.expect]
  · cases h
  · cases h

theorem Inflate.rests_blockDone (d : Inflate) : Inflate.Rests d d.blockDone := by
  obtain ⟨q, e, h⟩ := d.blockDone_dx
  exact ⟨fun hs => by rw [h]; exact hs, fun hc => by rw [h]; exact hc⟩

theorem Inflate.rests_run (d : Inflate) {i : Instr} (h : i.expect ≠ .precode) : Inflate.Rests d (d.run i) := by
  cases i with
  | preLen | preRep | preZrep3 | preZrep11 => exact absurd rfl h
  | storedBody len nlen =>
    show Inflate.Rests d (d.storedBody len nlen)
    unfold Inflate.storedBody
    split
    · exact ⟨id, id⟩
    · split
      · exact ⟨id, id⟩
      · split
        · exact ⟨id, id⟩
        · exact Inflate.Rests.trans (d' := d.copyInput len.toNat) ⟨id, id⟩ (Inflate.rests_blockDone _)
  | dynamicHeader hlit hdist hclen => exact d.rests_dynamicHeader hlit hdist hclen
  | lit value =>
    show Inflate.Rests d (d.literal value)
    unfold Inflate.literal
    split <;> exact ⟨id, id⟩
  | eob => exact d.rests_blockDone
  | copyMatch ls lx os ox =>
    show Inflate.Rests d (d.replay _ _)
    unfold Inflate.replay
    repeat' split
    all_goals exact ⟨id, id⟩
  | _ => exact ⟨id, id⟩

theorem Inflate.rests_step (d : Inflate) : Inflate.Rests d d.step := by
  have fetchAndRun : Inflate.Rests d d.fetchAndRun := by
    unfold Inflate.fetchAndRun
    split
    · exact ⟨id, id⟩
    · rename_i r i e
      exact Inflate.Rests.trans (d' := { d with br := r }) ⟨id, id⟩ (Inflate.rests_run _ (Inflate.fetch_expect e))
  unfold Inflate.step
  split
  · exact fetchAndRun
  · split
    · obtain ⟨q, e, h⟩ := Inflate.buildBoth_dx { d with lens := d.lens.loadFixed }
      exact ⟨fun hs => by rw [Inflate.buildFixed, h]; exact hs, fun hc => by rw [Inflate.buildFixed, h]; exact hc⟩
    · exact fetchAndRun
  · exact fetchAndRun
  · exact fetchAndRun
  · exact .refl d
  · exact .refl d

theorem Inflate.rests_runAll (n : Nat) (d : Inflate) : Inflate.Rests d (Inflate.runAll n d) := by
  induction n generalizing d with
  | zero => exact .refl d
  | succ n ih =>
    unfold Inflate.runAll
    split
    · exact .refl d
    · exact .refl d
    all_goals exact d.rests_step.trans (ih _)

/-! ## The control state (rules R75, R76, R377) -/

/-- A litlen element records a sound result, whatever tables it was decoded with. -/
theorem Inflate.sound_run_litlen {d : Inflate} {i : Instr} (h : LitlenKind i) (hd : d.dx.Sound) (hs : d.dx.state ≠ .error) :
    (d.run i).dx.Sound := by
  cases h with
  | lit v =>
    show (d.literal v).dx.Sound
    unfold Inflate.literal
    split
    · exact d.sound_error stepError_insufficientSpace
    · exact ⟨hd.failed, hd.fine, hd.typed⟩
  | eob => exact (Inflate.good_blockDone (hd.fine hs)).sound
  | copy ls lx os ox =>
    show (d.replay _ _).dx.Sound
    unfold Inflate.replay
    split
    · exact d.sound_error stepError_badData
    · split
      · exact d.sound_error stepError_insufficientSpace
      · exact ⟨hd.failed, hd.fine, hd.typed⟩
  | ll s => exact d.sound_error stepError_badData
  | off s => exact d.sound_error stepError_badData

theorem Inflate.sound_step {d : Inflate} (h : d.dx.Sound) : d.step.dx.Sound := by
  by_cases hloop : d.dx.state = .decodeLoop
  · have hstep : d.step = d.fetchAndRun := by unfold Inflate.step; rw [hloop]
    rw [hstep]
    unfold Inflate.fetchAndRun
    split
    · exact Inflate.sound_error _ stepError_badData
    · rename_i r i e
      simp only [Inflate.fetch, hloop] at e
      exact Inflate.sound_run_litlen (d := { d with br := r }) (readLitlen_kind e) h (by rw [hloop]; decide)
  · exact (Inflate.good_step ⟨h, fun e => absurd e hloop⟩).sound

theorem decompOk_iff (d : Decomp) :
    decompOk d ↔ (d.outpos.toNat ≤ d.cap.toNat ∧ d.dst.toNat + d.cap.toNat ≤ wordSpan) ∧ d.Sound ∧ d.seq = [] :=
  ⟨fun ⟨hpos, hbuf, hfail, hfine, htype, hseq⟩ => ⟨⟨hpos, hbuf⟩, ⟨hfail, hfine, htype⟩, hseq⟩,
    fun ⟨⟨hpos, hbuf⟩, ⟨hfail, hfine, htype⟩, hseq⟩ => ⟨hpos, hbuf, hfail, hfine, htype, hseq⟩⟩

theorem Inflate.Extends.decompOk {d d' : Inflate} (ext : Inflate.Extends d d') (rests : Inflate.Rests d d') (sound : d'.dx.Sound)
    (h : decompOk d.dx) : decompOk d'.dx := by
  obtain ⟨⟨hpos, hbuf⟩, -, hseq⟩ := (decompOk_iff _).mp h
  exact (decompOk_iff _).mpr ⟨⟨by rw [ext.cap]; exact ext.outpos_fits hpos, by rw [ext.dst, ext.cap]; exact hbuf⟩, sound, rests.seq hseq⟩

theorem decompOk_init {dst cap : Word} (h : dst.toNat + cap.toNat ≤ wordSpan) : decompOk (Decomp.init dst cap) :=
  (decompOk_iff _).mpr ⟨⟨Nat.zero_le _, h⟩, ⟨(nomatch ·), fun _ => rfl, (nomatch ·)⟩, rfl⟩

theorem Decomp.counted_init (dst cap : Word) : (Decomp.init dst cap).counted := by
  simp [Decomp.counted, Decomp.init]

theorem decompOk_reset : decompOk Decomp.reset :=
  (decompOk_iff _).mpr ⟨⟨Nat.zero_le _, Nat.zero_le _⟩, ⟨(nomatch ·), fun _ => rfl, (nomatch ·)⟩, rfl⟩

theorem exec_keeps_decompOk {i : Instr} {s t : State} (hi : isCommand i = true) (h : exec i s = .next t) (hs : decompOk s.dx) :
    decompOk t.dx := by
  have command := exec_command_keeps (Q := fun s => decompOk s.dx) h (ended := fun _ _ h => h) (hs := hs)
  by_cases hw : .dx ∈ writes i
  · rcases dx_mem_writes hi hw with rfl | ⟨level, rfl⟩ | rfl | rfl | rfl
    · exact command rfl fun _ => decompOk_reset
    · rcases exec_create_next h with rfl | ⟨-, rfl⟩
      · exact hs
      · exact decompOk_init (dst := 0) (cap := 0) (Nat.zero_le _)
    · refine command rfl fun _ => ?_
      show decompOk (decompressBody s).1.dx
      rcases decompressBody_cases s with e | ⟨hb, port, m, draws, e, -⟩ <;> rw [e]
      · exact hs
      · exact (Inflate.extends_runAll _ s.startInflate).decompOk (Inflate.rests_runAll _ _)
          (Inflate.good_runAll _ s.good_startInflate).sound (decompOk_init (checkTwoBufs_spec hb).2.1)
    · refine command rfl fun _ => ?_
      show decompOk (dxInitBody s).1.dx
      unfold dxInitBody
      split
      · exact decompOk_init ((checkBuf_iff _ _).mp ‹_›)
      · exact hs
    · exact command rfl fun _ =>
        s.inflate.extends_step.decompOk s.inflate.rests_step (Inflate.sound_step ((decompOk_iff _).mp hs).2.1) hs
  · rw [show t.dx = s.dx from State.frame_same (exec_frame h) hw]
    exact hs

/-! ## The reader (rules R71, R344) -/

theorem Reader.Advances.readerOk {r r' : Reader} (a : Reader.Advances r r') (h : readerOk r) : readerOk r' :=
  ⟨by rw [a.len]; exact a.bound h.1, by rw [a.src, a.len]; exact h.2⟩

theorem Reader.Forward.advances {r r' : Reader} (f : Reader.Forward r r') : Reader.Advances r r' := ⟨f.src, f.len, fun _ => f.le, f.bound⟩

theorem readerOk_init {src len : Word} (h : src.toNat + len.toNat ≤ wordSpan) : readerOk (Reader.init src len) := ⟨Nat.zero_le _, h⟩

theorem readerOk_reset : readerOk Reader.reset := readerOk_init (src := 0) (len := 0) (Nat.zero_le _)

theorem exec_keeps_readerOk {i : Instr} {s t : State} (h : exec i s = .next t) (hs : readerOk s.br) : readerOk t.br := by
  have command := exec_command_keeps (Q := fun s => readerOk s.br) h (ended := fun _ _ h => h) (hs := hs)
  by_cases hd : i = .destroy
  · subst hd
    exact command rfl fun _ => readerOk_reset
  by_cases hcr : ∃ level, i = .create level
  · obtain ⟨level, rfl⟩ := hcr
    rcases exec_create_next h with rfl | ⟨-, rfl⟩
    · exact hs
    · exact readerOk_reset
  by_cases hin : i = .brInit
  · subst hin
    refine command rfl fun _ => ?_
    show readerOk (brInitBody s).1.br
    unfold brInitBody
    split
    · exact readerOk_init ((checkBuf_iff _ _).mp ‹_›)
    · exact hs
  by_cases hde : i = .decompress
  · subst hde
    refine command rfl fun _ => ?_
    show readerOk (decompressBody s).1.br
    rcases decompressBody_cases s with e | ⟨hb, port, m, draws, e, -⟩ <;> rw [e]
    · exact hs
    · exact (Inflate.extends_runAll _ s.startInflate).reader.readerOk (readerOk_init (checkTwoBufs_spec hb).1)
  exact (exec_forward_reader h hd (fun level e => hcr ⟨level, e⟩) hin hde).advances.readerOk hs

/-! ## The handle, the counts, the symbol stream -/

theorem exec_keeps_handleOk {i : Instr} {s t : State} (h : exec i s = .next t) (hs : handleOk s.handle) : handleOk t.handle := by
  by_cases hw : .handle ∈ writes i
  · rcases handle_mem_writes hw with rfl | ⟨level, rfl⟩
    · exact fun ha => absurd ((exec_destroy_dead h).symm.trans ha) (by decide)
    · rcases exec_create_next h with rfl | ⟨hl, rfl⟩
      · exact (nomatch ·)
      · exact fun _ => ⟨hl, rfl⟩
  · rw [show t.handle = s.handle from State.frame_same (exec_frame h) hw]
    exact hs

/-- The commands that write the builder's scalars or items. -/
theorem hb_mem_writes {i : Instr} (h : .hb ∈ writes i) :
    i = .destroy ∨ (∃ level, i = .create level) ∨ i = .compress ∨ i = .hbPrecode ∨ i = .twrite .items := by
  cases i with
  | twrite space => cases space <;> simp [writes, spacePart] at h ⊢
  | _ => simp [writes] at h ⊢

theorem countsOk_of_counted {s : State} (hhb : s.hb.counted) (hdx : s.dx.counted) : countsOk s :=
  (countsOk_iff s).mpr fun _ => ⟨hhb, hdx⟩

theorem countsOk_of_dead {s : State} (h : s.handle.alive = false) : countsOk s :=
  (countsOk_iff s).mpr fun ha => absurd (h.symm.trans ha) (by decide)

theorem exec_keeps_countsOk {i : Instr} {s t : State} (hi : isCommand i = true) (h : exec i s = .next t) (hs : countsOk s) :
    countsOk t := by
  have command := exec_command_keeps (Q := countsOk) h (ended := fun _ _ h => h) (hs := hs)
  have counted := (countsOk_iff s).mp hs
  cases i with
  | destroy => exact countsOk_of_dead (exec_destroy_dead h)
  | create level =>
    rcases exec_create_next h with rfl | ⟨-, rfl⟩
    · exact countsOk_of_dead rfl
    · exact countsOk_of_counted (show Builder.counted ⟨[], 0, 257, 1, 4⟩ by simp [Builder.counted]) (Decomp.counted_init 0 0)
  | compress =>
    refine command rfl fun ha => ?_
    obtain ⟨hhb, hdx⟩ := counted ha
    show countsOk (compressBody s).1
    rcases compressBody_cases s with e | ⟨hb, m, draws, a5, e, -⟩ <;> rw [e]
    · exact hs
    · exact countsOk_of_counted (Deflate.compress_keeps_huff (P := fun b => b.hb.counted) (fun b toks _ => b.counted_statistics toks)
        (fun b h => b.loadFixed_hb ▸ h) (fun _ _ h => h) _ _ hhb) hdx
  | hbPrecode =>
    refine command rfl fun ha => ?_
    have hhb := s.huff.counted_buildPrecode
    show countsOk (s.withHuff s.huff.buildPrecode)
    generalize s.huff.buildPrecode = b at hhb ⊢
    exact countsOk_of_counted (s := s.withHuff b) hhb (counted ha).2
  | twrite space =>
    refine command rfl fun ha => ?_
    obtain ⟨hhb, hdx⟩ := counted ha
    show countsOk (twriteBody space s).1
    rcases twriteBody_cases space s with e | ⟨-, e⟩ <;> rw [e]
    · exact hs
    · exact countsOk_of_counted (by cases space <;> exact hhb) (by cases space <;> exact hdx)
  | decompress =>
    refine command rfl fun ha => ?_
    show countsOk (decompressBody s).1
    rcases decompressBody_cases s with e | ⟨hb, port, m, draws, e, -⟩ <;> rw [e]
    · exact hs
    · exact countsOk_of_counted (counted ha).1 ((Inflate.rests_runAll _ s.startInflate).counted (Decomp.counted_init _ _))
  | dxInit =>
    refine command rfl fun ha => ?_
    show countsOk (dxInitBody s).1
    unfold dxInitBody
    split
    · exact countsOk_of_counted (counted ha).1 (Decomp.counted_init _ _)
    · exact hs
  | dxStep =>
    refine command rfl fun ha => ?_
    obtain ⟨hhb, hdx⟩ := counted ha
    exact countsOk_of_counted hhb (s.inflate.rests_step.counted hdx)
  | blockStored | blockFixed | blockDynamic | blockReserved | storedBody | dynamicHeader | preLen | preRep | preZrep3 | preZrep11
  | lit | eob | copyMatch | llReserved | ofReserved => simp [isCommand, encodeCommand] at hi
  | _ =>
    have frame := exec_frame h
    have ehandle : t.handle = s.handle := State.frame_same (p := .handle) frame (by simp [writes])
    have ehb : t.hb = s.hb := State.frame_same (p := .hb) frame (by simp [writes])
    have edx : t.dx = s.dx := State.frame_same (p := .dx) frame (by simp [writes])
    rw [countsOk_iff, ehandle, ehb, edx]
    exact counted

/-- The commands that write the symbol stream. -/
theorem cp_mem_writes {i : Instr} (h : .cp ∈ writes i) : i = .destroy ∨ (∃ level, i = .create level) ∨ i = .compress := by
  cases i with
  | twrite space => cases space <;> simp [writes, spacePart] at h
  | _ => simp [writes] at h ⊢

theorem tokensOk_empty (start : Word) : tokensOk ⟨[], start⟩ := ⟨Nat.zero_le _, fun _ _ h => nomatch h⟩

/-- COMPRESS leaves the stream alone at level 0, and else leaves that of its last block (rules R234, R235). -/
theorem Deflate.compress_tokensOk (h : Handle) (p : Port) {d : Deflate} (hd : tokensOk d.cp) : tokensOk (d.compress h p).cp := by
  unfold Deflate.compress Deflate.stream
  dsimp only
  split
  · exact hd
  · exact (Deflate.blocks_spec h p.a0 p.a1.toNat (p.a1.toNat + 1) 0
      { d with out := ⟨Writer.init p.a2 p.a3, d.out.mem⟩, mf := MatchFinder.init p.a0 p.a1 } rfl rfl (Nat.zero_le _)
      (Nat.eq_zero_or_pos _ |>.symm.imp id Eq.symm) (Nat.lt_succ_self _) (Nat.zero_lt_succ _)).1

theorem exec_keeps_tokensOk {i : Instr} {s t : State} (h : exec i s = .next t) (hs : tokensOk s.cp) : tokensOk t.cp := by
  have command := exec_command_keeps (Q := fun s => tokensOk s.cp) h (ended := fun _ _ h => h) (hs := hs)
  by_cases hw : .cp ∈ writes i
  · rcases cp_mem_writes hw with rfl | ⟨level, rfl⟩ | rfl
    · exact command rfl fun _ => tokensOk_empty 0
    · rcases exec_create_next h with rfl | ⟨-, rfl⟩
      · exact hs
      · exact tokensOk_empty 0
    · refine command rfl fun _ => ?_
      show tokensOk (compressBody s).1.cp
      rcases compressBody_cases s with e | ⟨hb, m, draws, a5, e, -⟩ <;> rw [e]
      · exact hs
      · exact Deflate.compress_tokensOk _ _ hs
  · rw [show t.cp = s.cp from State.frame_same (exec_frame h) hw]
    exact hs

/-- Settles O58, unit by unit. -/
theorem stepKeepsStateRanges : Obligations.StepKeepsStateRanges := fun _ _ h hs =>
  step_keeps (P := fun s => readerOk s.br ∧ decompOk s.dx ∧ handleOk s.handle ∧ countsOk s ∧ tokensOk s.cp) h
    (port := fun _ _ _ _ h => h) (poke := fun _ _ _ h => h)
    (reset := fun _ _ => ⟨readerOk_reset, decompOk_reset, (nomatch ·), countsOk_of_dead rfl, tokensOk_empty 0⟩)
    (run := fun _ _ _ hi he ⟨hbr, hdx, hhandle, hcounts, htok⟩ => ⟨exec_keeps_readerOk he hbr, exec_keeps_decompOk hi he hdx,
      exec_keeps_handleOk he hhandle, exec_keeps_countsOk hi he hcounts, exec_keeps_tokensOk he htok⟩) hs

end Sys2Proof.Machine
end

section
/-! PROOF. The bits of every instruction decode to it (rules R96, R122, R131 to R143). -/

namespace Sys2Proof.Laws

/-- Settles O3, constructor by constructor. -/
theorem everyInstructionDecodesBack : Obligations.EveryInstructionDecodesBack := by
  intro i
  cases i with
  | nop => exact EncodesBack.nop
  | create level => exact EncodesBack.create level
  | destroy => exact EncodesBack.destroy
  | compress => exact EncodesBack.compress
  | bound => exact EncodesBack.bound
  | decompress => exact EncodesBack.decompress
  | tread space => exact EncodesBack.tread space
  | twrite space => exact EncodesBack.twrite space
  | mfInit => exact EncodesBack.mfInit
  | mfFind => exact EncodesBack.mfFind
  | mfSkip => exact EncodesBack.mfSkip
  | mfSlide => exact EncodesBack.mfSlide
  | hbClear => exact EncodesBack.hbClear
  | hbTally x => exact EncodesBack.hbTally x
  | hbMatch => exact EncodesBack.hbMatch
  | hbLens x => exact EncodesBack.hbLens x
  | hbCodes x => exact EncodesBack.hbCodes x
  | hbFixed => exact EncodesBack.hbFixed
  | hbPrecode => exact EncodesBack.hbPrecode
  | dtBuild x => exact EncodesBack.dtBuild x
  | dtDecode x => exact EncodesBack.dtDecode x
  | bwInit => exact EncodesBack.bwInit
  | bwPut => exact EncodesBack.bwPut
  | bwAlign => exact EncodesBack.bwAlign
  | bwFlush => exact EncodesBack.bwFlush
  | bwBytes => exact EncodesBack.bwBytes
  | brInit => exact EncodesBack.brInit
  | brPeek => exact EncodesBack.brPeek
  | brDrop => exact EncodesBack.brDrop
  | brGet => exact EncodesBack.brGet
  | brAlign => exact EncodesBack.brAlign
  | brBytes => exact EncodesBack.brBytes
  | dxInit => exact EncodesBack.dxInit
  | dxStep => exact EncodesBack.dxStep
  | blockStored final => exact EncodesBack.blockStored final
  | blockFixed final => exact EncodesBack.blockFixed final
  | blockDynamic final => exact EncodesBack.blockDynamic final
  | blockReserved final => exact EncodesBack.blockReserved final
  | storedBody len nlen => exact EncodesBack.storedBody len nlen
  | dynamicHeader hlit hdist hclen => exact EncodesBack.dynamicHeader hlit hdist hclen
  | preLen value => exact EncodesBack.preLen value
  | preRep extra => exact EncodesBack.preRep extra
  | preZrep3 extra => exact EncodesBack.preZrep3 extra
  | preZrep11 extra => exact EncodesBack.preZrep11 extra
  | lit value => exact EncodesBack.lit value
  | eob => exact EncodesBack.eob
  | copyMatch ls lx os ox => exact EncodesBack.copyMatch ls lx os ox
  | llReserved symbol => exact EncodesBack.llReserved symbol
  | ofReserved symbol => exact EncodesBack.ofReserved symbol

end Sys2Proof.Laws
end

section
/-! PROOF. Where memory is written (rules R91, R92, R99): every access the spec defines completes, no
instruction writes a byte outside its destination buffer, and the new bytes of BW.PUT and of a match stand
exactly behind the output so far. -/

namespace Sys2Proof.Machine

/-! ## Every access completes -/

/-- A CMD write completes, whatever the word, and leaves the host's further accesses. -/
theorem command_next (w : Word) (s : State) : ∃ t, command w s = .next t ∧ t.host = s.host := by
  unfold command
  split
  · exact ⟨_, rfl, rfl⟩
  · rename_i i _
    obtain ⟨t, ht⟩ := exec_total i (s.latchCommand w)
    exact ⟨t, ht, by rw [exec_frame ht]; rfl⟩

theorem State.portWrite_host (s : State) (index : Nat) (w : Word) : (s.portWrite index w).host = s.host := by
  unfold State.portWrite
  split <;> rfl

/-- Settles O10, access by access; a command completes by `exec_total`. -/
theorem everyDefinedAccessCompletes : Obligations.EveryDefinedAccessCompletes := by
  intro s op rest
  have served (op : HostOp) (hh : s.host = op :: rest) : step s = serve op { s with host := rest } := by simp only [step, hh]
  refine ⟨fun hh hd => ?_, served _, fun w => served _, fun hh => by simp only [step, hh]⟩
  rw [served op hh]
  cases op with
  | write index w =>
    simp only [serve]
    split
    · exact command_next w _
    · exact ⟨_, rfl, State.portWrite_host _ _ _⟩
  | read index => exact ⟨_, rfl, rfl⟩
  | poke address b => exact ⟨_, rfl, rfl⟩
  | hardReset => exact ⟨_, rfl, rfl⟩
  | narrowAccess => cases hd
  | contended w => cases hd

/-! ## Bytes outside a buffer -/

/-- Every byte outside the buffer reads as before. -/
def Memory.keptOutside (base : Word) (len : Nat) (m m' : Memory) : Prop := ∀ a, ¬ inBuffer base len a → m'.read a = m.read a

theorem Memory.keptOutside.refl (base : Word) (len : Nat) (m : Memory) : Memory.keptOutside base len m m := fun _ _ => rfl

theorem Memory.keptOutside.trans {base : Word} {len : Nat} {m m' m'' : Memory} (h : Memory.keptOutside base len m m')
    (g : Memory.keptOutside base len m' m'') : Memory.keptOutside base len m m'' := fun a ha => (g a ha).trans (h a ha)

theorem ne_bufferAddr_of_outside {base a : Word} {len k : Nat} (h : base.toNat + len ≤ wordSpan) (ha : ¬ inBuffer base len a)
    (hk : k < len) : a ≠ bufferAddr base k := fun e => ha (e ▸ inBuffer_bufferAddr h hk)

theorem Memory.keptOutside_scramble (draw : Nat) {base : Word} {len : Nat} (h : base.toNat + len ≤ wordSpan) (i n : Nat)
    (hn : i + n ≤ len) (m : Memory) : Memory.keptOutside base len m (Memory.scramble draw base i n m) := by
  induction n generalizing i m with
  | zero => exact .refl _ _ m
  | succ n ih =>
    have write : Memory.keptOutside base len m (m.write (bufferAddr base i) (Config.freeByte draw (bufferAddr base i).toNat)) :=
      fun a ha => Memory.read_write_ne m _ (ne_bufferAddr_of_outside h ha (by omega))
    exact write.trans (ih (i + 1) (by omega) _)

theorem Memory.keptOutside_copyForward (src : Word) {dst : Word} {len : Nat} (h : dst.toNat + len ≤ wordSpan) (i : Nat) {j n : Nat}
    (hn : j + n ≤ len) (m : Memory) : Memory.keptOutside dst len m (Memory.copyForward src dst i j n m) :=
  fun _ ha => Memory.copyForward_frame fun _ _ => ne_bufferAddr_of_outside h ha (by omega)

theorem Sink.Extends.keptOutside {k k' : Sink} (e : Sink.Extends k k') (h : k.bw.dst.toNat + k.bw.cap.toNat ≤ wordSpan) :
    Memory.keptOutside k.bw.dst k.bw.cap.toNat k.mem k'.mem := e.frame h

theorem Inflate.Extends.keptOutside {d d' : Inflate} (e : Inflate.Extends d d') (h : d.dx.dst.toNat + d.dx.cap.toNat ≤ wordSpan)
    (ho : d.dx.outpos.toNat ≤ d.dx.cap.toNat) : Memory.keptOutside d.dx.dst d.dx.cap.toNat d.mem d'.mem :=
  fun a ha => e.frame h ho a fun _ _ hk => ne_bufferAddr_of_outside h ha hk

/-- The end of COMPRESS hides bytes of the destination only (rule R246, U5). -/
theorem State.keptOutside_endDeflate {s : State} (h : s.port.a2.toNat + s.port.a3.toNat ≤ wordSpan) :
    Memory.keptOutside s.port.a2 s.port.a3.toNat s.mem s.endDeflate.mem := by
  unfold State.endDeflate
  split
  · exact Memory.keptOutside_scramble _ h 0 _ (by omega) _
  all_goals exact .refl _ _ _

/-- The end of DECOMPRESS hides bytes of the destination only (rule R363, U5). -/
theorem State.keptOutside_endInflate {s : State} (d : Inflate) (h : s.port.a2.toNat + s.port.a3.toNat ≤ wordSpan) :
    Memory.keptOutside s.port.a2 s.port.a3.toNat d.mem (s.endInflate d).mem := by
  unfold State.endInflate
  split
  · exact Memory.keptOutside_scramble _ h 0 _ (by omega) _
  all_goals exact .refl _ _ _

theorem keptOutside_compressBody (s : State) :
    Memory.keptOutside s.port.a2 s.port.a3.toNat s.mem (compressBody s).1.mem := by
  unfold compressBody
  split
  · have hdst := (checkTwoBufs_spec ‹_›).2.1
    have run := (Deflate.compress_writes s.handle s.port s.deflate ‹_›).1.keptOutside hdst
    exact run.trans (State.keptOutside_endDeflate (s := s.withDeflate (s.deflate.compress s.handle s.port)) hdst)
  · exact .refl _ _ _

theorem keptOutside_decompressBody (s : State) :
    Memory.keptOutside s.port.a2 s.port.a3.toNat s.mem (decompressBody s).1.mem := by
  unfold decompressBody
  split
  · have hdst := (checkTwoBufs_spec ‹_›).2.1
    have run := (Inflate.extends_runAll (maxSteps s.port.a1) s.startInflate).keptOutside hdst (Nat.zero_le _)
    exact run.trans (State.keptOutside_endInflate _ hdst)
  · exact .refl _ _ _

/-- Settles O15: of the instructions that write memory, the writer's commit to its buffer, the decompressor's put out
behind the output so far, and COMPRESS, DECOMPRESS and BR.BYTES check their destination first. -/
theorem noWriteOutsideTheDestination : Obligations.NoWriteOutsideTheDestination := by
  intro i s t ⟨hbw, hdx, hout⟩ h
  have command := exec_command_keeps (Q := fun t => Memory.keptOutside (destination i s).1 (destination i s).2 s.mem t.mem) h
    (ended := fun _ _ h => h) (hs := .refl _ _ _)
  have stays (hw : .mem ∉ writes i) : Memory.keptOutside (destination i s).1 (destination i s).2 s.mem t.mem :=
    fun a _ => congrArg (Memory.read · a) (State.frame_mem (exec_frame h) hw)
  have element (hi : isCommand i = false) : Memory.keptOutside s.dx.dst s.dx.cap.toNat s.mem t.mem := by
    rw [exec_element hi] at h
    cases h
    exact (s.inflate.extends_run i).keptOutside hdx hout
  cases i with
  | compress => exact command rfl fun _ => keptOutside_compressBody s
  | decompress => exact command rfl fun _ => keptOutside_decompressBody s
  | bwPut =>
    refine command rfl fun _ => ?_
    show Memory.keptOutside _ _ s.mem (bwPutBody s).1.mem
    unfold bwPutBody
    repeat' split
    · exact .refl _ _ _
    · exact .refl _ _ _
    · exact (s.sink.extends_put _ _).keptOutside hbw
  | bwAlign => exact command rfl fun _ => s.sink.extends_align.keptOutside hbw
  | bwFlush => exact command rfl fun _ => s.sink.extends_align.keptOutside hbw
  | bwBytes =>
    refine command rfl fun _ => ?_
    show Memory.keptOutside _ _ s.mem (bwBytesBody s).1.mem
    unfold bwBytesBody
    repeat' split
    · exact .refl _ _ _
    · exact .refl _ _ _
    · exact .refl _ _ _
    · exact (Sink.extends_putBytes _ _ _ s.sink).keptOutside hbw
  | brBytes =>
    refine command rfl fun _ => ?_
    show Memory.keptOutside _ _ s.mem (brBytesBody s).1.mem
    unfold brBytesBody
    split
    · exact .refl _ _ _
    · have hdst : s.port.a0.toNat + s.port.a1.toNat ≤ wordSpan := (checkBuf_iff _ _).mp (by simpa using ‹¬ checkBuf _ _ = false›)
      repeat' split
      · exact .refl _ _ _
      · exact .refl _ _ _
      · exact .refl _ _ _
      · exact Memory.keptOutside_copyForward _ hdst _ (by omega) _
  | dxStep => exact command rfl fun _ => s.inflate.extends_step.keptOutside hdx hout
  | storedBody len nlen => exact element rfl
  | lit value => exact element rfl
  | copyMatch ls lx os ox => exact element rfl
  | twrite space => exact stays (by cases space <;> decide)
  | _ => exact stays (by simp [writes])

/-! ## The bytes of BW.PUT -/

/-- A drain writes the bytes behind those written before and no other. -/
theorem Sink.drain_frame (n : Nat) {k : Sink} {a : Word} (h : k.bw.nbytes.toNat + n ≤ k.bw.cap.toNat)
    (ha : ∀ j, j < n → a ≠ bufferAddr k.bw.dst (k.bw.nbytes.toNat + j)) : (Sink.drain n k).mem.read a = k.mem.read a := by
  induction n generalizing k with
  | zero => rfl
  | succ n ih =>
    have hlt : k.bw.nbytes.toNat < k.bw.cap.toNat := by omega
    have hs := word_succ_toNat hlt
    simp only [Sink.drain, Sink.putByte_room hlt]
    refine (ih (by simp only [hs]; omega) fun j hj => ?_).trans (Memory.read_write_ne _ _ (ha 0 (by omega)))
    simp only [hs]
    rw [show k.bw.nbytes.toNat + 1 + j = k.bw.nbytes.toNat + (j + 1) by omega]
    exact ha (j + 1) (by omega)

theorem Sink.put_frame {k : Sink} {v n : Nat} {a : Word}
    (h : k.bw.nbytes.toNat + (k.bw.nbits.toNat + n) / 8 ≤ k.bw.cap.toNat)
    (ha : ∀ j, j < (k.bw.nbits.toNat + n) / 8 → a ≠ bufferAddr k.bw.dst (k.bw.nbytes.toNat + j)) :
    (k.put v n).mem.read a = k.mem.read a :=
  Sink.drain_frame _ (k := { k with bw := { k.bw with acc := k.bw.acc ||| (BitVec.ofNat 64 v <<< k.bw.nbits.toNat) } }) h ha

/-- A byte outside the `n` bytes from index `i` of a buffer on, none of which wraps, has the address of none of them. -/
theorem ne_bufferAddr_of_outside_from {base index a : Word} {n j : Nat} (h : base.toNat + (index.toNat + n) ≤ wordSpan)
    (ha : ¬ inBuffer (base + index) n a) (hj : j < n) : a ≠ bufferAddr base (index.toNat + j) := by
  have hbase : (base + index).toNat = base.toNat + index.toNat := by
    simp only [wordSpan] at h
    rw [BitVec.toNat_add]
    omega
  rintro rfl
  refine ha ?_
  rw [inBuffer, hbase, bufferAddr_toNat (by omega)]
  omega

/-- Operands BW.PUT accepts fit (rules R322, R415). -/
theorem bwPut_operands_fit {s : State} (h : ¬ badOperands .bwPut s) :
    s.port.a1.toNat ≤ 32 ∧ s.port.a0.toNat < 2 ^ s.port.a1.toNat := by
  simp only [badOperands, not_or, not_and, Nat.not_lt, Nat.not_le] at h
  obtain ⟨hn, hv⟩ := h
  refine ⟨hn, ?_⟩
  rcases Nat.lt_or_ge s.port.a1.toNat 32 with hlt | hge
  · exact hv hlt
  · rw [show s.port.a1.toNat = 32 by omega]
    exact s.port.a0.isLt

/-- Settles O37, by what `Put` writes. -/
theorem bwPutAppendsItsBits : Obligations.BwPutAppendsItsBits := by
  intro s ha ok hovf hbad hroom
  obtain ⟨hn, hv⟩ := bwPut_operands_fit hbad
  obtain ⟨hovf', hbytes⟩ := (s.sink.sends_put s.port.a0.toNat s.port.a1.toNat).fit hroom
  have hovf' : (s.sink.put s.port.a0.toNat s.port.a1.toNat).bw.ovf = false := hovf'.trans hovf
  have writes := s.sink.writes_put hn hv
  have packed := ok.packed
  obtain ⟨-, -, hfit, -, hdst⟩ := ok
  rw [exec_alive rfl ha, show commandBody .bwPut s = _ from bwPutBody_accepted hbad]
  refine ⟨_, rfl, ?_, writes.bits ⟨packed, hfit, hdst⟩ hovf', hbytes, fun a hout => ?_⟩
  · rw [State.ended_result, Writer.verdict, hovf']
    rfl
  · have hspan : s.bw.dst.toNat + (s.bw.nbytes.toNat + (s.bw.nbits.toNat + s.port.a1.toNat) / 8) ≤ wordSpan := by omega
    exact Sink.put_frame (k := s.sink) hroom fun j hj => ne_bufferAddr_of_outside_from hspan hout hj

/-! ## The bytes of a match -/

theorem offBase_pos {t : Nat} (h : t < 30) : 0 < offBase t := by interval_cases t <;> decide

theorem Inflate.replay_far {d : Inflate} {len off : Nat} (h : d.dx.outpos.toNat < off) : d.replay len off = d.error .badData :=
  if_pos h

theorem Inflate.replay_full {d : Inflate} {len off : Nat} (h : off ≤ d.dx.outpos.toNat) (hc : d.room < len) :
    d.replay len off = d.error .insufficientSpace := (if_neg (Nat.not_lt.mpr h)).trans (if_pos hc)

theorem Inflate.replay_room {d : Inflate} {len off : Nat} (h : off ≤ d.dx.outpos.toNat) (hc : len ≤ d.room) :
    d.replay len off =
      { d with
        mem := Memory.copyForward d.dx.dst d.dx.dst (d.dx.outpos.toNat - off) d.dx.outpos.toNat len d.mem
        dx := { d.dx with outpos := d.dx.outpos + BitVec.ofNat 32 len } } :=
  (if_neg (Nat.not_lt.mpr h)).trans (if_neg (Nat.not_lt.mpr hc))

/-- Settles O49; the bytes replayed are those of `Memory.copyForward_repeats`. -/
theorem matchReplaysHistory : Obligations.MatchReplaysHistory := by
  rintro s ls lx os ox hw ⟨hout, hdst, -⟩ len off
  simp only [Instr.wellFormed, Bool.and_eq_true, decide_eq_true_eq] at hw
  obtain ⟨⟨⟨-, -⟩, hos⟩, -⟩ := hw
  have hoff : 0 < off := Nat.add_pos_left (offBase_pos hos) _
  have hrun : exec (.copyMatch ls lx os ox) s = .next (s.withInflate (s.inflate.replay len off)) := exec_element rfl s
  have hroom : s.inflate.room = s.dx.cap.toNat - s.dx.outpos.toNat := rfl
  rw [hrun]
  refine ⟨fun hfar => ?_, fun hnear hfull => ?_, fun hnear hfits => ?_⟩
  · rw [Inflate.replay_far (d := s.inflate) hfar]
    rfl
  · rw [Inflate.replay_full (d := s.inflate) hnear (by omega)]
    rfl
  · rw [Inflate.replay_room (d := s.inflate) hnear (by omega)]
    have hspan : s.dx.dst.toNat + (s.dx.outpos.toNat + len) ≤ wordSpan := by omega
    exact ⟨_, rfl, rfl, fun _ hk => Memory.copyForward_repeats hspan hoff hnear hk,
      fun _ ha => Memory.copyForward_frame fun _ hj => ne_bufferAddr_of_outside_from hspan ha hj⟩

end Sys2Proof.Machine
end

section
/-! PROOF. A command on two memories (rules R91, R92, R208): with the same bytes in its input buffer, and for
DX.STEP in the output so far, it does the same, and what it writes is the same byte in both. -/

namespace Sys2Proof.Machine

/-! ## Two memories -/

/-- The first `len` bytes from `base` on are the same in both memories. -/
def Memory.sameBytes (m n : Memory) (base : Word) (len : Nat) : Prop :=
  ∀ i, i < len → n.read (bufferAddr base i) = m.read (bufferAddr base i)

theorem Memory.sameBytes_of_agreeOn {m n : Memory} {base : Word} {len : Nat} (h : agreeOn m n base len)
    (hfit : base.toNat + len ≤ wordSpan) : Memory.sameBytes m n base len := fun _ hi => h _ (inBuffer_bufferAddr hfit hi)

/-- From the memories `m` and `n` to `m'` and `n'`: each byte ends the same in both, or untouched in both. -/
def Memory.sameOrKept (m n m' n' : Memory) : Prop := ∀ a, n'.read a = m'.read a ∨ (n'.read a = n.read a ∧ m'.read a = m.read a)

theorem Memory.sameOrKept.refl (m n : Memory) : Memory.sameOrKept m n m n := fun _ => .inr ⟨rfl, rfl⟩

theorem Memory.sameOrKept.trans {m n m' n' m'' n'' : Memory} (h : Memory.sameOrKept m n m' n')
    (g : Memory.sameOrKept m' n' m'' n'') : Memory.sameOrKept m n m'' n'' := by
  intro a
  rcases g a with same | ⟨en, em⟩
  · exact .inl same
  · rw [en, em]
    exact h a

/-- A byte that was the same stays the same. -/
theorem Memory.sameOrKept.same {m n m' n' : Memory} (h : Memory.sameOrKept m n m' n') {a : Word} (ha : n.read a = m.read a) :
    n'.read a = m'.read a := by
  rcases h a with same | ⟨en, em⟩
  · exact same
  · rw [en, em, ha]

theorem Memory.sameOrKept_write (m n : Memory) (a : Word) (b : Byte) : Memory.sameOrKept m n (m.write a b) (n.write a b) := by
  intro c
  by_cases h : c = a
  · subst h
    exact .inl (by simp)
  · exact .inr ⟨Memory.read_write_ne _ _ h, Memory.read_write_ne _ _ h⟩

/-! ## The match-finder (rule R208) -/

theorem MatchFinder.matchLen_sameBytes {mf : MatchFinder} {m n : Memory} (h : Memory.sameBytes m n mf.src mf.len.toNat)
    (count b a : Nat) (hb : b ≤ a) (ha : a + count ≤ mf.len.toNat) : mf.matchLen n count b a = mf.matchLen m count b a := by
  induction count generalizing b a with
  | zero => rfl
  | succ count ih =>
    have byte (i : Nat) (hi : i < mf.len.toNat) : mf.byteAt n i = mf.byteAt m i := h i hi
    rw [MatchFinder.matchLen, MatchFinder.matchLen, byte b (by omega), byte a (by omega), ih (b + 1) (a + 1) (by omega) (by omega)]

/-- The walk compares bytes at a usable candidate, which lies before the position, and at the position. -/
theorem MatchFinder.walk_sameBytes {mf : MatchFinder} {m n : Memory} (h : Memory.sameBytes m n mf.src mf.len.toNat)
    {cur maxLen : Nat} (hcur : mf.base.toNat + cur + maxLen ≤ mf.len.toNat) (nice depth : Nat) (node : BitVec 16) (bl bo : Nat) :
    mf.walk n cur maxLen nice depth node bl bo = mf.walk m cur maxLen nice depth node bl bo := by
  induction depth generalizing node bl bo with
  | zero => rfl
  | succ depth ih =>
    rw [MatchFinder.walk, MatchFinder.walk]
    by_cases hw : inWindow mf.base.toNat node cur
    · obtain ⟨-, hlt, -⟩ := inWindow_spec hw
      rw [MatchFinder.matchLen_sameBytes h maxLen _ (mf.base.toNat + cur) (by omega) hcur]
      simp only [ih]
    · rw [if_neg hw, if_neg hw]

theorem MatchFinder.find_sameBytes {mf : MatchFinder} {m n : Memory} (h : Memory.sameBytes m n mf.src mf.len.toNat)
    (depth nice : Nat) : mf.find n depth nice = mf.find m depth nice := by
  obtain ⟨hsrc, hlen⟩ := (MatchFinder.closed_reads mf.src mf.len).slideIfDue ⟨rfl, rfl⟩
  rw [← hsrc, ← hlen] at h
  unfold MatchFinder.find
  generalize mf.slideIfDue = q at h
  dsimp only
  split
  · rfl
  · rename_i hmin
    have hroom : q.cur + min maxMatch (q.len.toNat - q.cur) ≤ q.len.toNat := by
      simp only [minMatch] at hmin
      omega
    have hthree : q.cur + 2 < q.len.toNat := by
      simp only [minMatch] at hmin
      omega
    have hhash : q.hashAt n q.cur = q.hashAt m q.cur := by
      have byte (i : Nat) (hi : i < q.len.toNat) : q.byteAt n i = q.byteAt m i := h i hi
      rw [MatchFinder.hashAt, MatchFinder.hashAt, byte _ (by omega), byte _ (by omega), byte _ hthree]
    have hwalk (k nice : Nat) (node : BitVec 16) (bl bo : Nat) :=
      MatchFinder.walk_sameBytes (mf := q.insertAt k) h (cur := q.pos.toNat) hroom nice depth node bl bo
    unfold MatchFinder.search
    simp only [hhash, hwalk]

theorem MatchFinder.skip_sameBytes {m n : Memory} (count : Nat) {mf : MatchFinder}
    (h : Memory.sameBytes m n mf.src mf.len.toNat) : MatchFinder.skip n count mf = MatchFinder.skip m count mf := by
  induction count generalizing mf with
  | zero => rfl
  | succ count ih =>
    have hone : mf.skipOne n = mf.skipOne m := by
      rw [← MatchFinder.find_depth_zero mf n 0, ← MatchFinder.find_depth_zero mf m 0, MatchFinder.find_sameBytes h]
    obtain ⟨hsrc, hlen⟩ := (MatchFinder.closed_reads mf.src mf.len).skip m 1 (mf := mf) ⟨rfl, rfl⟩
    rw [MatchFinder.skip, MatchFinder.skip, hone]
    exact ih (by rw [← hsrc, ← hlen] at h; exact h)

/-! ## The reader (rules R94, R342) -/

/-- The reader's input is the same in both memories. -/
def Reader.sameInput (r : Reader) (m n : Memory) : Prop := Memory.sameBytes m n r.src r.len.toNat

theorem Reader.sameInput.moved {r r' : Reader} {m n : Memory} (h : r.sameInput m n) (hsrc : r'.src = r.src) (hlen : r'.len = r.len) :
    r'.sameInput m n := by
  unfold Reader.sameInput
  rw [hsrc, hlen]
  exact h

theorem Reader.sameInput.bit {r : Reader} {m n : Memory} (h : r.sameInput m n) (i : Nat) : r.bit n i = r.bit m i := by
  unfold Reader.bit
  split
  · rw [h (i / 8) (by omega)]
  · rfl

theorem Reader.sameInput.peek {r : Reader} {m n : Memory} (h : r.sameInput m n) (k : Nat) : r.peek n k = r.peek m k :=
  Reader.field_congr fun _ _ => h.bit _

theorem Reader.sameInput.get {r : Reader} {m n : Memory} (h : r.sameInput m n) (k : Nat) : r.get n k = r.get m k := by
  rw [Reader.get, Reader.get, h.peek]

theorem Reader.sameInput.decodeSymbol {r : Reader} {m n : Memory} (h : r.sameInput m n) (x : Alphabet) (t : Table 32) :
    decodeSymbol x t n r = decodeSymbol x t m r := by
  unfold Machine.decodeSymbol
  rw [h.peek]
  cases hd : r.drop x.tableBits with
  | none => rfl
  | some r' =>
    obtain ⟨-, hsrc, hlen, -⟩ := Reader.drop_some hd
    simp only [(h.moved hsrc hlen).peek]

/-- A copy from the reader's input leaves each byte the same, or untouched. -/
theorem Reader.sameInput.copyForward {r : Reader} {m n : Memory} (h : r.sameInput m n) (dst : Word) (j : Nat) {count : Nat}
    (hc : ¬ r.left < count) :
    Memory.sameOrKept m n (Memory.copyForward r.src dst r.start j count m) (Memory.copyForward r.src dst r.start j count n) :=
  Memory.copyForward_agree fun k hk => .inl (h (r.start + k) (by simp only [Reader.left] at hc; omega))

/-! ## Fetching from two sources -/

/-- Two sources read the same at every position of a set their reads do not leave. -/
structure SourceAgree {σ : Type} (a b : Source σ) (P : σ → Prop) : Prop where
  bits : ∀ n st, P st → b.bits n st = a.bits n st
  symbol : ∀ x st, P st → b.symbol x st = a.symbol x st
  bits_stays : ∀ n st, P st → P (a.bits n st).1
  symbol_stays : ∀ x st, P st → P (a.symbol x st).1

namespace SourceAgree

variable {σ : Type} {a b : Source σ} {P : σ → Prop} {st : σ}

theorem readHeader (h : SourceAgree a b P) (hst : P st) : readHeader b st = readHeader a st := by
  unfold Sys2Proof.readHeader
  rw [h.bits _ _ hst]

theorem readDynamic (h : SourceAgree a b P) (hst : P st) : readDynamic b st = readDynamic a st := by
  unfold Sys2Proof.readDynamic
  rw [h.bits _ _ hst]

theorem readStored (h : SourceAgree a b P) (hst : P st) : readStored b st = readStored a st := by
  have stays := h.bits_stays 16 st hst
  unfold Sys2Proof.readStored
  rw [h.bits _ _ hst]
  rcases hb : a.bits 16 st with ⟨st', _ | len⟩
  · rfl
  · rw [hb] at stays
    simp only [h.bits _ _ stays]

theorem readPrecode (h : SourceAgree a b P) (previous : Bool) (hst : P st) : readPrecode b previous st = readPrecode a previous st := by
  have stays := h.symbol_stays .precode st hst
  unfold Sys2Proof.readPrecode
  rw [h.symbol _ _ hst]
  rcases hs : a.symbol .precode st with ⟨st', _ | s⟩
  · rfl
  · rw [hs] at stays
    simp only [h.bits _ _ stays]

theorem readMatchOffset (h : SourceAgree a b P) (ls lx : Nat) (hst : P st) : readMatchOffset b ls lx st = readMatchOffset a ls lx st := by
  have stays := h.symbol_stays .offset st hst
  unfold Sys2Proof.readMatchOffset
  rw [h.symbol _ _ hst]
  rcases hs : a.symbol .offset st with ⟨st', _ | t⟩
  · rfl
  · rw [hs] at stays
    simp only [h.bits _ _ stays]

theorem readLitlen (h : SourceAgree a b P) (hst : P st) : readLitlen b st = readLitlen a st := by
  have stays := h.symbol_stays .litlen st hst
  unfold Sys2Proof.readLitlen
  rw [h.symbol _ _ hst]
  rcases hs : a.symbol .litlen st with ⟨st', _ | s⟩
  · rfl
  · rw [hs] at stays
    have stays' := h.bits_stays (lenExtra (s - 257)) st' stays
    rcases hb : a.bits (lenExtra (s - 257)) st' with ⟨st'', _ | lx⟩
    · simp only [h.bits _ _ stays, hb]
    · rw [hb] at stays'
      simp only [h.bits _ _ stays, hb, h.readMatchOffset _ _ stays']

end SourceAgree

/-! ## The decompressor on another memory -/

/-- The decompressor with another memory. -/
def Inflate.withMem (d : Inflate) (n : Memory) : Inflate := { d with mem := n }

@[simp] theorem Inflate.withMem_dx (d : Inflate) (n : Memory) : (d.withMem n).dx = d.dx := rfl
@[simp] theorem Inflate.withMem_br (d : Inflate) (n : Memory) : (d.withMem n).br = d.br := rfl
@[simp] theorem Inflate.withMem_lens (d : Inflate) (n : Memory) : (d.withMem n).lens = d.lens := rfl

theorem Inflate.source_agree (d : Inflate) (n : Memory) :
    SourceAgree d.source (d.withMem n).source fun r => r.sameInput d.mem n where
  bits k _ h := h.get k
  symbol x _ h := h.decodeSymbol x _
  bits_stays k r h := h.moved (r.forward_get d.mem k).src (r.forward_get d.mem k).len
  symbol_stays x r h := h.moved (r.forward_decodeSymbol x _ d.mem).src (r.forward_decodeSymbol x _ d.mem).len

theorem Inflate.fetch_withMem {d : Inflate} {n : Memory} (h : d.br.sameInput d.mem n) : (d.withMem n).fetch = d.fetch := by
  have agree := d.source_agree n
  unfold Inflate.fetch
  rw [Inflate.withMem_dx, Inflate.withMem_br]
  cases d.dx.state with
  | blockHeader => exact agree.readHeader h
  | buildTables => exact agree.readDynamic h
  | decodeLoop => exact agree.readLitlen h
  | copyStored =>
    cases ha : d.br.align with
    | none => rfl
    | some r =>
      have f := Reader.forward_drop ha
      exact agree.readStored (h.moved f.src f.len)
  | done => rfl
  | error => rfl

theorem Inflate.blockDone_withMem (d : Inflate) (n : Memory) : (d.withMem n).blockDone = d.blockDone.withMem n := by
  unfold Inflate.blockDone Inflate.finish
  simp only [apply_ite (Inflate.withMem · n)]
  rfl

/-! ### A dynamic header (rules R366 to R369) -/

theorem Inflate.andThen_withMem {d : Inflate} {n : Memory} {f : Inflate → Inflate} (h : f (d.withMem n) = (f d).withMem n) :
    (d.withMem n).andThen f = (d.andThen f).withMem n := by
  unfold Inflate.andThen
  rw [Inflate.withMem_dx]
  split
  · rfl
  all_goals exact h

theorem Inflate.extend_withMem (d : Inflate) (n : Memory) (v : BitVec 4) (r : Nat) :
    (d.withMem n).extend v r = (d.extend v r).withMem n := by
  unfold Inflate.extend
  rw [apply_ite (Inflate.withMem · n)]
  rfl

theorem Inflate.preRep_withMem (d : Inflate) (n : Memory) (e : BitVec 2) : (d.withMem n).preRep e = (d.preRep e).withMem n := by
  unfold Inflate.preRep
  rw [Inflate.withMem_dx]
  split
  · rfl
  · exact d.extend_withMem n _ _

theorem Inflate.runPrecode_withMem (d : Inflate) (n : Memory) (i : Instr) : (d.withMem n).runPrecode i = (d.runPrecode i).withMem n := by
  cases i with
  | preLen value => exact d.extend_withMem n _ _
  | preRep extra => exact d.preRep_withMem n extra
  | preZrep3 extra => exact d.extend_withMem n _ _
  | preZrep11 extra => exact d.extend_withMem n _ _
  | _ => rfl

theorem Inflate.precodeStep_withMem {d : Inflate} {n : Memory} (h : d.br.sameInput d.mem n) :
    (d.withMem n).precodeStep = d.precodeStep.withMem n := by
  unfold Inflate.precodeStep
  rw [Inflate.withMem_dx, Inflate.withMem_br, (d.source_agree n).readPrecode _ h]
  split
  · rfl
  · rename_i r i _
    exact Inflate.runPrecode_withMem { d with br := r } n i

theorem Inflate.precodeStep_mem (d : Inflate) : d.precodeStep.mem = d.mem := by
  unfold Inflate.precodeStep
  split
  · rfl
  · exact Inflate.runPrecode_mem _ _

theorem Inflate.sameInput_extends {d d' : Inflate} {n : Memory} (h : d.br.sameInput d.mem n) (e : Inflate.Extends d d')
    (hm : d'.mem = d.mem) : d'.br.sameInput d'.mem n := by
  rw [hm]
  exact h.moved e.reader.src e.reader.len

theorem Inflate.readLengths_withMem (fuel : Nat) {d : Inflate} {n : Memory} (h : d.br.sameInput d.mem n) :
    Inflate.readLengths fuel (d.withMem n) = (Inflate.readLengths fuel d).withMem n := by
  induction fuel generalizing d with
  | zero => rfl
  | succ fuel ih =>
    have hnext := Inflate.sameInput_extends h d.extends_precodeStep d.precodeStep_mem
    rw [Inflate.readLengths, Inflate.readLengths, Inflate.precodeStep_withMem h, Inflate.andThen_withMem (ih hnext),
      apply_ite (Inflate.withMem · n)]
    rfl

theorem Inflate.readPrecodeLens_withMem (order : List Nat) {d : Inflate} {n : Memory} (h : d.br.sameInput d.mem n) :
    Inflate.readPrecodeLens order (d.withMem n) = (Inflate.readPrecodeLens order d).withMem n := by
  induction order generalizing d with
  | nil => rfl
  | cons s order ih =>
    have f := d.br.forward_get d.mem 3
    have hget : (d.withMem n).br.get (d.withMem n).mem 3 = d.br.get d.mem 3 := h.get 3
    unfold Inflate.readPrecodeLens
    rw [hget]
    generalize d.br.get d.mem 3 = g at f
    obtain ⟨r, _ | v⟩ := g
    · rfl
    · exact ih (d := { d with br := r, lens := _ }) (h.moved f.src f.len)

theorem Inflate.build_withMem (d : Inflate) (n : Memory) (x : Alphabet) :
    (d.withMem n).build x = (d.build x).map (Inflate.withMem · n) := by
  unfold Inflate.build
  rw [Inflate.withMem_lens]
  split <;> rfl

theorem Inflate.buildBoth_withMem (d : Inflate) (n : Memory) : (d.withMem n).buildBoth = d.buildBoth.withMem n := by
  unfold Inflate.buildBoth
  rw [Inflate.build_withMem]
  cases d.build .litlen with
  | none => rfl
  | some d' =>
    simp only [Option.map_some, Inflate.build_withMem]
    cases d'.build .offset <;> rfl

theorem Inflate.loadBoth_withMem (d : Inflate) (n : Memory) :
    (d.withMem n).loadLengths.buildBoth = d.loadLengths.buildBoth.withMem n := d.loadLengths.buildBoth_withMem n

theorem Inflate.buildDynamic_withMem {d : Inflate} {n : Memory} (h : d.br.sameInput d.mem n) :
    (d.withMem n).buildDynamic = d.buildDynamic.withMem n := by
  unfold Inflate.buildDynamic
  rw [Inflate.build_withMem]
  cases hb : d.build .precode with
  | none => rfl
  | some d' =>
    have hlengths := Inflate.readLengths_withMem d'.total (d := d'.dropSeq)
      (Inflate.sameInput_extends h ((Inflate.extends_build hb).trans d'.extends_dropSeq) (show d'.mem = d.mem from Inflate.build_mem hb))
    show ((Inflate.readLengths d'.total (d'.dropSeq.withMem n)).andThen fun d => d.loadLengths.buildBoth).dropSeq = _
    rw [hlengths, Inflate.andThen_withMem (f := fun d => d.loadLengths.buildBoth) (Inflate.loadBoth_withMem _ n)]
    rfl

theorem Inflate.dynamicHeader_withMem {d : Inflate} {n : Memory} (h : d.br.sameInput d.mem n) (hlit hdist : BitVec 5) (hclen : BitVec 4) :
    (d.withMem n).dynamicHeader hlit hdist hclen = (d.dynamicHeader hlit hdist hclen).withMem n := by
  have horder : ∀ s ∈ precodeOrder.take (hclen.toNat + 4), s < 19 := fun s hs =>
    (by decide : ∀ s ∈ precodeOrder, s < 19) s (List.mem_of_mem_take hs)
  have build (e : Inflate) (he : e.br.sameInput e.mem n) :
      (Inflate.readPrecodeLens (precodeOrder.take (hclen.toNat + 4)) (e.withMem n)).andThen Inflate.buildDynamic
        = ((Inflate.readPrecodeLens (precodeOrder.take (hclen.toNat + 4)) e).andThen Inflate.buildDynamic).withMem n := by
    rw [Inflate.readPrecodeLens_withMem _ he, Inflate.andThen_withMem (Inflate.buildDynamic_withMem
      (Inflate.sameInput_extends he (Inflate.extends_readPrecodeLens _ horder e) (Inflate.readPrecodeLens_mem _ e)))]
  unfold Inflate.dynamicHeader
  dsimp only
  rw [apply_ite (Inflate.withMem · n)]
  exact if_congr Iff.rfl rfl (build { d with dx := _, lens := _ } h)

/-! ### A step -/

/-- From memory `n` the operation does the same as from the decompressor's own, and writes the same bytes. -/
def Inflate.Alike (d : Inflate) (n : Memory) (f : Inflate → Inflate) : Prop :=
  ∃ n', f (d.withMem n) = (f d).withMem n' ∧ Memory.sameOrKept d.mem n (f d).mem n'

/-- An operation that writes no memory. -/
theorem Inflate.Alike.unwritten {d : Inflate} {n : Memory} {f : Inflate → Inflate} (h : f (d.withMem n) = (f d).withMem n)
    (hm : (f d).mem = d.mem) : d.Alike n f := ⟨n, h, by rw [hm]; exact .refl _ _⟩

theorem Inflate.blockDone_mem (d : Inflate) : d.blockDone.mem = d.mem := by
  unfold Inflate.blockDone Inflate.finish
  repeat' split
  all_goals rfl

theorem Inflate.alike_storedBody {d : Inflate} {n : Memory} (h : d.br.sameInput d.mem n) (len nlen : BitVec 16) :
    d.Alike n (·.storedBody len nlen) := by
  have copied := h.copyForward d.dx.dst d.dx.outpos.toNat (count := len.toNat)
  unfold Inflate.Alike Inflate.storedBody
  simp only [Inflate.withMem_br, show (d.withMem n).room = d.room from rfl]
  by_cases hlen : len ≠ nlen ^^^ 0xFFFF#16
  · rw [if_pos hlen, if_pos hlen]
    exact ⟨n, rfl, .refl _ _⟩
  · rw [if_neg hlen, if_neg hlen]
    by_cases hleft : d.br.left < len.toNat
    · rw [if_pos hleft, if_pos hleft]
      exact ⟨n, rfl, .refl _ _⟩
    · rw [if_neg hleft, if_neg hleft]
      by_cases hroom : d.room < len.toNat
      · rw [if_pos hroom, if_pos hroom]
        exact ⟨n, rfl, .refl _ _⟩
      · rw [if_neg hroom, if_neg hroom]
        refine ⟨_, (d.copyInput len.toNat).blockDone_withMem _, ?_⟩
        rw [Inflate.blockDone_mem]
        exact copied hleft

theorem Inflate.alike_literal (d : Inflate) (n : Memory) (b : Byte) : d.Alike n (·.literal b) := by
  dsimp only [Inflate.Alike, Inflate.literal]
  rw [Inflate.withMem_dx]
  split
  · exact ⟨n, rfl, .refl _ _⟩
  · exact ⟨_, rfl, Memory.sameOrKept_write _ _ _ _⟩

/-- A replay reads the output so far and, past it, what it wrote itself (rule R104). -/
theorem Inflate.alike_replay {d : Inflate} {n : Memory} (hist : Memory.sameBytes d.mem n d.dx.dst d.dx.outpos.toNat) (len : Nat)
    {off : Nat} (hoff : 0 < off) : d.Alike n (·.replay len off) := by
  rcases Nat.lt_or_ge d.dx.outpos.toNat off with hfar | hnear
  · exact .unwritten ((Inflate.replay_far (d := d.withMem n) hfar).trans (by rw [Inflate.replay_far hfar]; rfl)) (by rw [Inflate.replay_far hfar]; rfl)
  · rcases Nat.lt_or_ge d.room len with hfull | hroom
    · exact .unwritten ((Inflate.replay_full (d := d.withMem n) hnear hfull).trans (by rw [Inflate.replay_full hnear hfull]; rfl))
        (by rw [Inflate.replay_full hnear hfull]; rfl)
    · dsimp only [Inflate.Alike]
      rw [Inflate.replay_room hnear hroom, Inflate.replay_room (d := d.withMem n) hnear hroom]
      refine ⟨_, rfl, Memory.copyForward_agree fun k hk => ?_⟩
      rw [Inflate.withMem_dx]
      rcases Nat.lt_or_ge k off with hbefore | hpast
      · exact .inl (hist _ (by omega))
      · exact .inr ⟨k - off, by omega, by congr 1; omega⟩

/-- The offset symbol of a match is one a match may have (rule R141). -/
def offsetInRange : Instr → Prop
  | .copyMatch _ _ os _ => os.toNat < 30
  | _ => True

theorem readMatchOffset_inRange {σ : Type} {src : Source σ} {ls lx : Nat} {st st' : σ} {i : Instr}
    (h : readMatchOffset src ls lx st = (st', .ok i)) : offsetInRange i := by
  unfold readMatchOffset at h
  split at h
  · cases h
  · split at h
    · cases h
      trivial
    · split at h
      · cases h
      · cases h
        simp only [offsetInRange, BitVec.toNat_ofNat]
        omega

theorem readLitlen_inRange {σ : Type} {src : Source σ} {st st' : σ} {i : Instr} (h : readLitlen src st = (st', .ok i)) :
    offsetInRange i := by
  unfold readLitlen at h
  split at h
  · cases h
  · repeat' split at h
    · cases h
      trivial
    · cases h
      trivial
    · cases h
    · exact readMatchOffset_inRange h
    · cases h
      trivial

theorem Inflate.fetch_inRange {d : Inflate} {r : Reader} {i : Instr} (h : d.fetch = (r, .ok i)) : offsetInRange i := by
  unfold Inflate.fetch at h
  split at h
  · unfold readHeader at h
    split at h
    · cases h
    · cases h
      unfold headerInstr
      dsimp only
      repeat' split
      all_goals trivial
  · unfold readDynamic at h
    split at h
    · cases h
    · cases h
      trivial
  · exact readLitlen_inRange h
  · split at h
    · cases h
    · unfold readStored at h
      split at h
      · cases h
      · split at h
        · cases h
        · cases h
          trivial
  · cases h
  · cases h

/-- An element reads the reader's input and the output so far, and nothing else (rule R91). -/
theorem Inflate.alike_run {d : Inflate} {n : Memory} (hin : d.br.sameInput d.mem n)
    (hist : Memory.sameBytes d.mem n d.dx.dst d.dx.outpos.toNat) {i : Instr} (hi : offsetInRange i) : d.Alike n (·.run i) := by
  cases i with
  | storedBody len nlen => exact Inflate.alike_storedBody hin len nlen
  | dynamicHeader hlit hdist hclen =>
    exact .unwritten (Inflate.dynamicHeader_withMem hin hlit hdist hclen) (d.dynamicHeader_mem hlit hdist hclen)
  | preLen value => exact .unwritten (d.extend_withMem n _ _) (d.extend_mem _ _)
  | preRep extra => exact .unwritten (d.preRep_withMem n extra) (d.preRep_mem extra)
  | preZrep3 extra => exact .unwritten (d.extend_withMem n _ _) (d.extend_mem _ _)
  | preZrep11 extra => exact .unwritten (d.extend_withMem n _ _) (d.extend_mem _ _)
  | lit value => exact d.alike_literal n value
  | eob => exact .unwritten (d.blockDone_withMem n) d.blockDone_mem
  | copyMatch ls lx os ox => exact Inflate.alike_replay hist _ (Nat.add_pos_left (offBase_pos hi) _)
  | _ => exact .unwritten rfl rfl

theorem Inflate.alike_fetchAndRun {d : Inflate} {n : Memory} (hin : d.br.sameInput d.mem n)
    (hist : Memory.sameBytes d.mem n d.dx.dst d.dx.outpos.toNat) : d.Alike n Inflate.fetchAndRun := by
  have hfetch := Inflate.fetch_withMem hin
  have f := d.forward_fetch
  rcases hf : d.fetch with ⟨r, reject | i⟩
  · have stopped (c : Inflate) (hc : c.fetch = (r, .error reject)) : c.fetchAndRun = Inflate.error { c with br := r } .badData := by
      unfold Inflate.fetchAndRun
      rw [hc]
    have hd := stopped d hf
    exact .unwritten ((stopped _ (hfetch.trans hf)).trans (by rw [hd]; rfl)) (by rw [hd]; rfl)
  · rw [hf] at f
    unfold Inflate.Alike
    rw [Inflate.fetchAndRun_eq hf, Inflate.fetchAndRun_eq (hfetch.trans hf)]
    exact Inflate.alike_run (d := { d with br := r }) (hin.moved f.src f.len) hist (Inflate.fetch_inRange hf)

theorem Inflate.alike_step {d : Inflate} {n : Memory} (hin : d.br.sameInput d.mem n)
    (hist : Memory.sameBytes d.mem n d.dx.dst d.dx.outpos.toNat) : d.Alike n Inflate.step := by
  have fetched := Inflate.alike_fetchAndRun hin hist
  unfold Inflate.Alike Inflate.step
  rw [Inflate.withMem_dx]
  split
  · exact fetched
  · split
    · exact Inflate.Alike.unwritten (f := Inflate.buildFixed) (Inflate.buildBoth_withMem { d with lens := _ } n) (Inflate.buildBoth_mem _)
    · exact fetched
  · exact fetched
  · exact fetched
  · exact ⟨n, rfl, .refl _ _⟩
  · exact ⟨n, rfl, .refl _ _⟩

/-! ## The writer on another memory -/

theorem Sink.putByte_alike (k : Sink) (n : Memory) (b : Byte) :
    ∃ n', Sink.putByte ⟨k.bw, n⟩ b = ⟨(k.putByte b).bw, n'⟩ ∧ Memory.sameOrKept k.mem n (k.putByte b).mem n' := by
  rcases Nat.lt_or_ge k.bw.nbytes.toNat k.bw.cap.toNat with h | h
  · rw [Sink.putByte_room h, Sink.putByte_room (k := ⟨k.bw, n⟩) h]
    exact ⟨_, rfl, Memory.sameOrKept_write _ _ _ _⟩
  · rw [Sink.putByte_full h, Sink.putByte_full (k := ⟨k.bw, n⟩) h]
    exact ⟨n, rfl, .refl _ _⟩

theorem Sink.putBytes_alike {base : Word} (count : Nat) {i len : Nat} {k : Sink} {n : Memory} (hlen : i + count ≤ len)
    (h : Memory.sameBytes k.mem n base len) :
    ∃ n', Sink.putBytes base i count ⟨k.bw, n⟩ = ⟨(Sink.putBytes base i count k).bw, n'⟩
      ∧ Memory.sameOrKept k.mem n (Sink.putBytes base i count k).mem n' := by
  induction count generalizing i k n with
  | zero => exact ⟨n, rfl, .refl _ _⟩
  | succ count ih =>
    obtain ⟨n1, e1, alike⟩ := k.putByte_alike n (k.mem.read (bufferAddr base i))
    obtain ⟨n2, e2, alike'⟩ := ih (i := i + 1) (k := k.putByte (k.mem.read (bufferAddr base i))) (n := n1) (by omega)
      fun j hj => alike.same (h j hj)
    refine ⟨n2, ?_, alike.trans alike'⟩
    rw [Sink.putBytes, Sink.putBytes, h i (by omega), e1, e2]

/-! ## Commands on another memory -/

/-- A command whose body does the same on another memory does the same there. -/
theorem exec_on_memory {P : Memory → Memory → Prop} {i : Instr} (hi : isHandleCommand i = true) {s t : State} {n : Memory}
    (h : exec i s = .next t) (dead : P s.mem n)
    (body : ∃ n', commandBody i { s with mem := n } = ({ (commandBody i s).1 with mem := n' }, (commandBody i s).2)
      ∧ P (commandBody i s).1.mem n') : ∃ n', exec i { s with mem := n } = .next { t with mem := n' } ∧ P t.mem n' := by
  cases ha : s.handle.alive
  · rw [exec_dead hi ha] at h
    cases h
    exact ⟨n, exec_dead hi ha, dead⟩
  · rw [exec_alive hi ha] at h
    cases h
    obtain ⟨n', e, hP⟩ := body
    refine ⟨n', ?_, hP⟩
    rw [exec_alive hi (s := { s with mem := n }) ha, e]
    rfl

/-- The commands that only read. -/
theorem exec_reads_on_memory {i : Instr} (hi : isHandleCommand i = true) {s t : State} {n : Memory} (h : exec i s = .next t)
    (body : commandBody i { s with mem := n } = ({ (commandBody i s).1 with mem := n }, (commandBody i s).2)) :
    exec i { s with mem := n } = .next { t with mem := n } := by
  obtain ⟨n', e, rfl⟩ := exec_on_memory (P := fun _ n' => n' = n) hi h rfl ⟨n, body, rfl⟩
  exact e

theorem mfFindBody_on_memory {s : State} {n : Memory} (h : Memory.sameBytes s.mem n s.mf.src s.mf.len.toNat) :
    mfFindBody { s with mem := n } = ({ (mfFindBody s).1 with mem := n }, (mfFindBody s).2) := by
  unfold mfFindBody
  dsimp only
  rw [MatchFinder.find_sameBytes h]
  split <;> rfl

theorem mfSkipBody_on_memory {s : State} {n : Memory} (h : Memory.sameBytes s.mem n s.mf.src s.mf.len.toNat) :
    mfSkipBody { s with mem := n } = ({ (mfSkipBody s).1 with mem := n }, (mfSkipBody s).2) := by
  unfold mfSkipBody
  dsimp only
  rw [MatchFinder.skip_sameBytes _ h]
  split <;> rfl

theorem brPeekBody_on_memory {s : State} {n : Memory} (h : s.br.sameInput s.mem n) :
    brPeekBody { s with mem := n } = ({ (brPeekBody s).1 with mem := n }, (brPeekBody s).2) := by
  unfold brPeekBody
  dsimp only
  rw [h.peek]
  split <;> rfl

theorem brDropBody_on_memory (s : State) (n : Memory) :
    brDropBody { s with mem := n } = ({ (brDropBody s).1 with mem := n }, (brDropBody s).2) := by
  unfold brDropBody
  dsimp only
  repeat' split
  all_goals rfl

theorem brGetBody_on_memory {s : State} {n : Memory} (h : s.br.sameInput s.mem n) :
    brGetBody { s with mem := n } = ({ (brGetBody s).1 with mem := n }, (brGetBody s).2) := by
  unfold brGetBody
  dsimp only
  rw [h.get]
  repeat' split
  all_goals rfl

theorem brAlignBody_on_memory (s : State) (n : Memory) :
    brAlignBody { s with mem := n } = ({ (brAlignBody s).1 with mem := n }, (brAlignBody s).2) := by
  unfold brAlignBody
  dsimp only
  split <;> rfl

theorem dtDecodeBody_on_memory (x : Alphabet) {s : State} {n : Memory} (h : s.br.sameInput s.mem n) :
    dtDecodeBody x { s with mem := n } = ({ (dtDecodeBody x s).1 with mem := n }, (dtDecodeBody x s).2) := by
  unfold dtDecodeBody
  dsimp only
  rw [h.decodeSymbol]
  split <;> rfl

theorem brBytesBody_on_memory {s : State} {n : Memory} (h : s.br.sameInput s.mem n) :
    ∃ n', brBytesBody { s with mem := n } = ({ (brBytesBody s).1 with mem := n' }, (brBytesBody s).2)
      ∧ Memory.sameOrKept s.mem n (brBytesBody s).1.mem n' := by
  unfold brBytesBody
  dsimp only
  repeat' split
  · exact ⟨n, rfl, .refl _ _⟩
  · exact ⟨n, rfl, .refl _ _⟩
  · exact ⟨n, rfl, .refl _ _⟩
  · exact ⟨n, rfl, .refl _ _⟩
  · exact ⟨_, rfl, h.copyForward s.port.a0 0 ‹_›⟩

theorem bwBytesBody_on_memory {s : State} {n : Memory}
    (h : s.port.a0.toNat + s.port.a1.toNat ≤ wordSpan → Memory.sameBytes s.mem n s.port.a0 s.port.a1.toNat) :
    ∃ n', bwBytesBody { s with mem := n } = ({ (bwBytesBody s).1 with mem := n' }, (bwBytesBody s).2)
      ∧ Memory.sameOrKept s.mem n (bwBytesBody s).1.mem n' := by
  unfold bwBytesBody
  dsimp only
  split
  · exact ⟨n, rfl, .refl _ _⟩
  · have hfit := (checkBuf_iff s.port.a0 s.port.a1).mp (by simpa using ‹¬ checkBuf _ _ = false›)
    split
    · exact ⟨n, rfl, .refl _ _⟩
    · split
      · exact ⟨n, rfl, .refl _ _⟩
      · obtain ⟨n', e, alike⟩ := Sink.putBytes_alike s.port.a1.toNat (i := 0) (k := s.sink) (by omega) (h hfit)
        refine ⟨n', ?_, alike⟩
        rw [show State.sink { s with mem := n } = ⟨s.sink.bw, n⟩ from rfl, e]
        rfl

theorem dxStepBody_on_memory {s : State} {n : Memory} (hin : s.br.sameInput s.mem n)
    (hist : Memory.sameBytes s.mem n s.dx.dst s.dx.outpos.toNat) :
    ∃ n', dxStepBody { s with mem := n } = ({ (dxStepBody s).1 with mem := n' }, (dxStepBody s).2)
      ∧ Memory.sameOrKept s.mem n (dxStepBody s).1.mem n' := by
  obtain ⟨n', e, alike⟩ := Inflate.alike_step (d := s.inflate) hin hist
  refine ⟨n', ?_, alike⟩
  unfold dxStepBody
  rw [show State.inflate { s with mem := n } = s.inflate.withMem n from rfl, e]
  rfl

/-- Settles O16, command by command. -/
theorem unitsReadOnlyTheirInput : Obligations.UnitsReadOnlyTheirInput := by
  intro i s t n hin h
  have input (hr : readerOk s.br) (hi : inputBuffer i s = (s.br.src, s.br.len.toNat)) : s.br.sameInput s.mem n := by
    rw [hi] at hin
    exact Memory.sameBytes_of_agreeOn hin hr.2
  refine ⟨fun hi hmf hr => ?_, fun hi hr hdx hist => ?_⟩
  · have window (hi : inputBuffer i s = (s.mf.src, s.mf.len.toNat)) : Memory.sameBytes s.mem n s.mf.src s.mf.len.toNat := by
      rw [hi] at hin
      exact Memory.sameBytes_of_agreeOn hin hmf.2.2.2
    rcases hi with rfl | rfl | rfl | rfl | rfl | rfl | ⟨x, rfl⟩
    · exact exec_reads_on_memory rfl h (mfFindBody_on_memory (window rfl))
    · exact exec_reads_on_memory rfl h (mfSkipBody_on_memory (window rfl))
    · exact exec_reads_on_memory rfl h (brPeekBody_on_memory (input hr rfl))
    · exact exec_reads_on_memory rfl h (brDropBody_on_memory s n)
    · exact exec_reads_on_memory rfl h (brGetBody_on_memory (input hr rfl))
    · exact exec_reads_on_memory rfl h (brAlignBody_on_memory s n)
    · exact exec_reads_on_memory rfl h (dtDecodeBody_on_memory x (input hr rfl))
  · rcases hi with rfl | rfl | rfl
    · exact exec_on_memory rfl h (.refl _ _) (brBytesBody_on_memory (input hr rfl))
    · exact exec_on_memory rfl h (.refl _ _) (bwBytesBody_on_memory (Memory.sameBytes_of_agreeOn hin))
    · obtain ⟨hout, hdst, -⟩ := hdx
      exact exec_on_memory rfl h (.refl _ _) (dxStepBody_on_memory (input hr rfl) (Memory.sameBytes_of_agreeOn hist (by
        show s.dx.dst.toNat + s.dx.outpos.toNat ≤ wordSpan
        omega)))

end Sys2Proof.Machine
end

section
/-! PROOF. DX.STEP runs the element that stands in the input (rules R143, R308, R362, R377): a fetch answers an
element exactly where its bits stand next, but for a reserved offset symbol reached inside a match. -/

namespace Sys2Proof.Machine

/-! ## Reading what is expected -/

/-- Read the element expected; nothing is read of what is no element of a step's own (rules R143, R362). -/
def Inflate.readExpected (d : Inflate) (e : Expect) (r : Reader) : Reader × Except Reject Instr :=
  match e with
  | .header => readHeader d.source r
  | .stored => readStored d.source r
  | .dynamic => readDynamic d.source r
  | .litlen => readLitlen d.source r
  | .command | .precode | .offset => (r, .error .outOfBits)

theorem elementStart_len (s : State) : (elementStart s).len = s.br.len := by
  unfold elementStart
  split <;> rfl

/-- A fetch reads what the state expects, from where the next element starts. -/
theorem fetch_eq_readExpected {s : State} {e : Expect} (hr : readerOk s.br) (he : s.dx.state.expects = some e) :
    s.inflate.fetch = s.inflate.readExpected e (elementStart s) := by
  have hstate : s.inflate.dx.state = s.dx.state := rfl
  unfold Inflate.fetch elementStart
  rw [hstate]
  cases hq : s.dx.state <;> rw [hq] at he <;> cases he
  case copyStored =>
    show (match s.br.align with | none => _ | some r => _) = _
    rw [Reader.align_eq hr.1]
    rfl
  all_goals rfl

theorem elementNext_iff (s : State) (c : Codes) (e : Expect) (i : Instr) :
    elementNext s c e i ↔ i.expect = e ∧ s.inflate.stands c (elementStart s) i := by
  unfold elementNext Inflate.stands
  rw [elementStart_len]
  rfl

/-! ## What stands next is read -/

theorem length_encode_header {i : Instr} (h : i.expect = .header) (c : Codes) : (encode c i).length = 3 := by
  cases i with
  | blockStored _ | blockFixed _ | blockDynamic _ | blockReserved _ => rfl
  | _ => cases h

theorem length_encode_stored {i : Instr} (h : i.expect = .stored) (c : Codes) : (encode c i).length = 32 := by
  cases i with
  | storedBody _ _ => simp [encode]
  | _ => cases h

theorem length_encode_dynamic {i : Instr} (h : i.expect = .dynamic) (c : Codes) : (encode c i).length = 14 := by
  cases i with
  | dynamicHeader _ _ _ => simp [encode]
  | _ => cases h

/-- A reader on the bits of an element a state expects reads that element (rules R143, R308). -/
theorem Inflate.readExpected_of_stands {d : Inflate} {c : Codes} {q : DxState} {r : Reader} {i : Instr}
    (he : q.expects = some i.expect) (hf : q = .decodeLoop → d.From c) (h : d.stands c r i) :
    d.readExpected i.expect r = (r.past (encode c i).length, .ok i) := by
  obtain ⟨hcover, hwf, hholds, hbound⟩ := h
  cases q with
  | blockHeader =>
    have hi : i.expect = .header := (Option.some.inj he).symm
    rw [length_encode_header hi] at hbound ⊢
    rw [hi]
    exact readHeader_of_holds hi hholds hbound
  | buildTables =>
    have hi : i.expect = .dynamic := (Option.some.inj he).symm
    rw [length_encode_dynamic hi] at hbound ⊢
    rw [hi]
    exact readDynamic_of_holds hi hholds hbound
  | decodeLoop =>
    have hi : i.expect = .litlen := (Option.some.inj he).symm
    rw [hi]
    exact readLitlen_of_holds (hf rfl) hi hwf hcover hholds hbound
  | copyStored =>
    have hi : i.expect = .stored := (Option.some.inj he).symm
    rw [length_encode_stored hi] at hbound ⊢
    rw [hi]
    exact readStored_of_holds hi hholds hbound
  | done => cases he
  | error => cases he

/-! ## What is read stands next -/

theorem encode_headerInstr (c : Codes) {h : Nat} (hlt : h < 8) : encode c (headerInstr h) = bitsOf 3 h := by
  interval_cases h <;> rfl

/-- Of an element that stands for no symbol, only the bits have to stand. -/
theorem Inflate.stands_of_bits {d : Inflate} {c : Codes} {r : Reader} {i : Instr} {bs : List Bool} (hsym : i.symbols = [])
    (hwf : i.wellFormed = true) (he : encode c i = bs) (hh : r.holds d.mem bs)
    (hb : r.bitpos.toNat + bs.length ≤ 8 * r.len.toNat + 64) : d.stands c r i := by
  subst he
  exact ⟨by simp [Codes.cover, hsym], hwf, hh, hb⟩

theorem readHeader_sound (c : Codes) {d : Inflate} {r r' : Reader} {i : Instr} (h : readHeader d.source r = (r', .ok i)) :
    i.expect = .header ∧ d.stands c r i := by
  unfold readHeader at h
  rcases d.bits_cases 3 r with ⟨q, e⟩ | ⟨e, hholds, hlt, hbound⟩ <;> rw [e] at h <;> cases h
  generalize r.peek d.mem 3 = v at *
  refine ⟨?_, d.stands_of_bits ?_ ?_ (encode_headerInstr c hlt) hholds (by rwa [length_bitsOf])⟩ <;> interval_cases v <;> rfl

theorem readStored_sound (c : Codes) {d : Inflate} {r r' : Reader} {i : Instr} (h : readStored d.source r = (r', .ok i)) :
    i.expect = .stored ∧ d.stands c r i := by
  unfold readStored at h
  rcases d.bits_cases 16 r with ⟨q, e⟩ | ⟨e, hlen, -, hbound⟩ <;> rw [e] at h
  · cases h
  · dsimp only at h
    rcases d.bits_cases 16 (r.past 16) with ⟨q, e'⟩ | ⟨e', hnlen, -, hbound'⟩ <;> rw [e'] at h
    · cases h
    · generalize r.peek d.mem 16 = len at *
      generalize (r.past 16).peek d.mem 16 = nlen at *
      cases h
      rw [Reader.past_bitpos hbound] at hbound'
      change _ ≤ 8 * r.len.toNat + 64 at hbound'
      refine ⟨rfl, d.stands_of_bits rfl rfl (bs := bitsOf 16 len ++ bitsOf 16 nlen) ?_ ?_ ?_⟩
      · simp only [encode, BitVec.toNat_ofNat, bitsOf_mod]
      · exact Reader.holds_concat hlen (by rwa [length_bitsOf]) (by rwa [length_bitsOf])
      · rw [List.length_append, length_bitsOf, length_bitsOf]
        omega

/-- The three fields cut from one field have that field's bits (rule R134). -/
theorem encode_dynamicHeader (c : Codes) (v : Nat) :
    encode c (.dynamicHeader (BitVec.ofNat 5 v) (BitVec.ofNat 5 (v / 32)) (BitVec.ofNat 4 (v / 1024))) = bitsOf 14 v := by
  rw [encode, dynamicFields, ← bitsOf_mod 14 v, BitVec.toNat_ofNat, BitVec.toNat_ofNat, BitVec.toNat_ofNat]
  congr 1
  omega

theorem readDynamic_sound (c : Codes) {d : Inflate} {r r' : Reader} {i : Instr} (h : readDynamic d.source r = (r', .ok i)) :
    i.expect = .dynamic ∧ d.stands c r i := by
  unfold readDynamic at h
  rcases d.bits_cases 14 r with ⟨q, e⟩ | ⟨e, hholds, -, hbound⟩ <;> rw [e] at h
  · cases h
  · generalize r.peek d.mem 14 = v at *
    cases h
    exact ⟨rfl, d.stands_of_bits rfl rfl (encode_dynamicHeader c v) hholds (by rwa [length_bitsOf])⟩

/-- What is read where a state expects an element stands there; a reserved offset symbol is the one other thing
a litlen read can answer (rules R370, R373, R374). -/
theorem Inflate.readExpected_sound {d : Inflate} {c : Codes} {q : DxState} {e : Expect} {r r' : Reader} {i : Instr}
    (he : q.expects = some e) (hf : q = .decodeLoop → d.From c) (h : d.readExpected e r = (r', .ok i)) :
    (i.expect = e ∧ d.stands c r i) ∨ ∃ symbol, i = .ofReserved symbol := by
  cases q with
  | blockHeader => cases he; exact .inl (readHeader_sound c h)
  | buildTables => cases he; exact .inl (readDynamic_sound c h)
  | decodeLoop => cases he; exact readLitlen_sound (hf rfl) h
  | copyStored => cases he; exact .inl (readStored_sound c h)
  | done => cases he
  | error => cases he

/-- A reserved offset symbol after a length symbol is read through to its last bit (rules R373, R374). -/
theorem readLitlen_reserved_offset {d : Inflate} {c : Codes} (f : d.From c) {r : Reader} {ls lx symbol : Nat} (hls : ls ≤ 28)
    (hsym : 30 ≤ symbol) (h1 : c.litlen.getD (257 + ls) 0 ≠ 0) (h2 : c.offset.getD symbol 0 ≠ 0)
    (hh : r.holds d.mem (codewordBits c.litlen (257 + ls) ++ (bitsOf (lenExtra ls) lx ++ codewordBits c.offset symbol)))
    (hb : r.bitpos.toNat + (codewordBits c.litlen (257 + ls) ++ (bitsOf (lenExtra ls) lx ++ codewordBits c.offset symbol)).length
      ≤ 8 * r.len.toNat + 64) :
    readLitlen d.source r
      = (r.past (codewordBits c.litlen (257 + ls) ++ (bitsOf (lenExtra ls) lx ++ codewordBits c.offset symbol)).length,
          .ok (.ofReserved (BitVec.ofNat 16 symbol))) := by
  simp only [List.length_append, length_codewordBits, length_bitsOf] at hb ⊢
  obtain ⟨hlen, hh⟩ := Reader.holds_append hh (by rw [length_codewordBits]; omega)
  rw [length_codewordBits] at hh
  have p1 := Reader.past_bitpos (r := r) (n := c.litlen.getD (257 + ls) 0) (by omega)
  have b1 : (r.past (c.litlen.getD (257 + ls) 0)).bitpos.toNat + lenExtra ls ≤ 8 * r.len.toNat + 64 := by omega
  obtain ⟨hextra, hoff⟩ := Reader.holds_append hh (by rwa [length_bitsOf])
  rw [length_bitsOf] at hoff
  have p2 := Reader.past_bitpos b1
  rw [readLitlen, Inflate.source_litlen f h1 hlen (by omega)]
  simp only [if_neg (show ¬ 257 + ls ≤ 255 by omega), if_neg (show ¬ 257 + ls = 256 by omega),
    if_pos (show 257 + ls ≤ 285 by omega), Nat.add_sub_cancel_left]
  rw [Inflate.source_bits hextra b1]
  simp only [readMatchOffset]
  rw [Inflate.source_offset f h2 hoff (by show _ ≤ 8 * r.len.toNat + 64; omega)]
  simp only [if_pos hsym]
  rw [Reader.past_past b1, Reader.past_past (by omega)]

/-! ## DX.STEP -/

theorem Inflate.from_of_tablesBuiltFrom {s : State} {c : Codes} (h : tablesBuiltFrom s c) : s.inflate.From c := by
  obtain ⟨hlitlen, hoffset, builtLL, builtOF⟩ := h
  exact ⟨hlitlen, hoffset, builtLL, builtOF⟩

/-- A state's element is no command. -/
theorem isCommand_of_expects {q : DxState} {i : Instr} (h : q.expects = some i.expect) : isCommand i = false := by
  have hne : i.expect ≠ .command := fun he => by
    rw [he] at h
    cases q <;> cases h
  cases i <;> first | rfl | exact absurd rfl hne

/-- Where a state expects an element, a step fetches and runs it; only the table build of a fixed block fetches
nothing (rules R362, R365). -/
theorem Inflate.step_eq_fetchAndRun {d : Inflate} {e : Expect} (he : d.dx.state.expects = some e)
    (hb : d.dx.state = .buildTables → d.dx.btype = 2) : d.step = d.fetchAndRun := by
  unfold Inflate.step
  cases hq : d.dx.state with
  | buildTables => rw [hb hq]; rfl
  | blockHeader | decodeLoop | copyStored => rfl
  | done | error => rw [hq] at he; cases he

theorem Inflate.fetchAndRun_of_error {d : Inflate} {r : Reader} {x : Reject} (h : d.fetch = (r, .error x)) :
    d.fetchAndRun = Inflate.error { d with br := r } .badData := by
  rw [Inflate.fetchAndRun, h]

theorem exec_dxStep {s : State} (ha : s.handle.alive = true) {d : Inflate} (h : s.inflate.step = d) :
    exec .dxStep s = .next (((s.withInflate d).setA4 d.dx.state.code).ended d.dx.verdict) := by
  subst h
  exact exec_alive (i := .dxStep) rfl ha

/-- A step that ends in BAD_DATA, its reader at `r` (rule R377). -/
theorem exec_dxStep_stopped {s : State} (ha : s.handle.alive = true) {r : Reader}
    (h : s.inflate.step = Inflate.error { s.inflate with br := r } .badData) :
    exec .dxStep s = .next ((stoppedAt s r).ended .badData) := exec_dxStep ha h

/-- A step that fetches an element executes exactly that element (rule R362). -/
theorem exec_dxStep_run {s : State} (ha : s.handle.alive = true) {r : Reader} {i : Instr} (hi : isCommand i = false)
    (h : s.inflate.step = Inflate.run { s.inflate with br := r } i) :
    ∃ t, exec i { s with br := r } = .next t ∧ exec .dxStep s = .next ((t.setA4 t.dx.state.code).ended t.dx.verdict) :=
  ⟨_, exec_element hi _, exec_dxStep ha h⟩

/-- Settles O6: `readExpected_of_stands` gives the element that stands next, `readExpected_sound` that nothing else is
run, and `readLitlen_reserved_offset` the reserved offset symbol. -/
theorem dxStepRunsTheFetchedElement : Obligations.DxStepRunsTheFetchedElement := by
  intro s c e ha hr he hbt htab
  have hfrom : s.dx.state = .decodeLoop → s.inflate.From c := fun hq => Inflate.from_of_tablesBuiltFrom (htab hq)
  have hfetch := fetch_eq_readExpected hr he
  have hstep : s.inflate.step = s.inflate.fetchAndRun := Inflate.step_eq_fetchAndRun he hbt
  refine ⟨fun i hi => ?_, fun hnone => ?_, ?_⟩
  · obtain ⟨rfl, hstands⟩ := (elementNext_iff s c e i).mp hi
    rw [Inflate.readExpected_of_stands he hfrom hstands] at hfetch
    exact exec_dxStep_run ha (isCommand_of_expects he) (hstep.trans (Inflate.fetchAndRun_eq hfetch))
  · obtain ⟨⟨r, result⟩, hread⟩ : ∃ x, s.inflate.readExpected e (elementStart s) = x := ⟨_, rfl⟩
    rw [hread] at hfetch
    refine ⟨r, exec_dxStep_stopped ha (hstep.trans ?_)⟩
    cases result with
    | error x => exact Inflate.fetchAndRun_of_error hfetch
    | ok i =>
      rcases Inflate.readExpected_sound he hfrom hread with hstands | ⟨symbol, rfl⟩
      · exact absurd ((elementNext_iff s c e i).mpr hstands) (hnone i)
      · exact Inflate.fetchAndRun_eq hfetch
  · intro ls lx symbol hq hls hsym h1 h2 bits hh hb
    have hread := readLitlen_reserved_offset (hfrom hq) hls hsym h1 h2 hh hb
    have hfetch : s.inflate.fetch = (s.br.past bits.length, .ok (.ofReserved (BitVec.ofNat 16 symbol))) := by
      rw [← hread, Inflate.fetch, show s.inflate.dx.state = .decodeLoop from hq]
      rfl
    exact exec_dxStep_stopped ha (hstep.trans (Inflate.fetchAndRun_eq hfetch))

end Sys2Proof.Machine
end

section
/-! PROOF. What HB.PRECODE leaves (rules R284 to R286): least counts, items that stand for the lengths, and the
precode of their counts. -/

namespace Sys2Proof.Machine

/-! ## Least counts (rule R285) -/

/-- The last length a least count covers is not 0. -/
theorem getD_usedLength_pred (l : List Nat) (h : 0 < usedLength l) : l.getD (usedLength l - 1) 0 ≠ 0 := by
  induction l with
  | nil => cases h
  | cons v vs ih =>
    unfold usedLength at h ⊢
    split
    · rename_i h0
      rw [if_pos h0] at h
      split
      · rename_i hv
        rw [if_pos hv] at h
        cases h
      · assumption
    · rename_i h0
      rw [Nat.add_sub_cancel]
      obtain ⟨n, hn⟩ := Nat.exists_eq_succ_of_ne_zero h0
      have := ih (by omega)
      rw [hn] at this ⊢
      exact this

/-- `n` is the least count, `lo` or more, that covers every length before `hi` (rules R284, R285). -/
def LeastCount (lo hi n : Nat) (get : Nat → Nat) : Prop :=
  lo ≤ n ∧ n ≤ hi ∧ (∀ a, n ≤ a → a < hi → get a = 0) ∧ (lo < n → get (n - 1) ≠ 0)

theorem leastCount_max_usedLength {lo hi : Nat} (l : List Nat) (hlo : lo ≤ hi) (hl : l.length ≤ hi) :
    LeastCount lo hi (max lo (usedLength l)) fun a => l.getD a 0 := by
  have hlen := usedLength_le l
  refine ⟨Nat.le_max_left _ _, by omega, fun a ha _ => getD_usedLength l (by omega), fun h => ?_⟩
  rw [Nat.max_eq_right (by omega)]
  exact getD_usedLength_pred l (by omega)

theorem LeastCount.congr {lo hi n : Nat} {get get' : Nat → Nat} (h : LeastCount lo hi n get) (e : ∀ a, a < hi → get' a = get a)
    (hlo : 0 < lo) : LeastCount lo hi n get' := by
  obtain ⟨h1, h2, h3, h4⟩ := h
  exact ⟨h1, h2, fun a ha hhi => (e a hhi).trans (h3 a ha hhi), fun hn => by rw [e _ (by omega)]; exact h4 hn⟩

theorem trimLitlen_least (l : List Nat) : LeastCount 257 286 (trimLitlen l) fun a => l.getD a 0 :=
  (leastCount_max_usedLength (l.take 286) (by decide) (by simp)).congr (fun a ha => (getD_take l 286 a ha).symm) (by decide)

theorem trimOffset_least (l : List Nat) : LeastCount 1 30 (trimOffset l) fun a => l.getD a 0 :=
  (leastCount_max_usedLength (l.take 30) (by decide) (by simp)).congr (fun a ha => (getD_take l 30 a ha).symm) (by decide)

theorem trimPrecode_least (l : List Nat) : LeastCount 4 19 (trimPrecode l) fun j => l.getD (precodeOrder.getD j 0) 0 := by
  refine (leastCount_max_usedLength (precodeOrder.map fun s => l.getD s 0) (by decide)
    (by rw [List.length_map, length_precodeOrder])).congr (fun j hj => ?_) (by decide)
  have hj' : j < precodeOrder.length := hj
  simp [hj']

theorem trimPrecode_least_table (t : Trio 4) :
    LeastCount 4 19 (trimPrecode (t.lengths .precode)) fun j => (t.precode.get (precodeOrder.getD j 0)).toNat := by
  have hslot : ∀ j, j < 19 → precodeOrder.getD j 0 < 19 := by decide
  refine (trimPrecode_least (t.lengths .precode)).congr (fun j hj => ?_) (by decide)
  exact ((Table.getD_toList _ _ _).trans (if_pos (hslot j hj))).symm

/-! ## Items and their counts -/

/-- A legal item fits its 16 bits (rule R55). -/
theorem itemLegal.fits {it : Nat × Nat} (h : itemLegal it) : it.1 + 256 * it.2 < 65536 := by
  obtain ⟨hsym, hextra⟩ := h
  have : preExtra it.1 ≤ 7 := by
    unfold preExtra
    repeat' split
    all_goals omega
  have := Nat.lt_of_lt_of_le hextra (Nat.pow_le_pow_right (by decide) this)
  omega

/-- The items stand for the length sequence, legally, and there are at most 316 (rules R55, R286). -/
theorem rle_lengths (t : Trio 4) {items : List (Nat × Nat)} (hi : rle (lengthSequence (t.lengths .litlen) (t.lengths .offset)) = items) :
    expandItems [] items = some (lengthSequence (t.lengths .litlen) (t.lengths .offset)) ∧ (∀ it ∈ items, itemLegal it)
      ∧ items.length ≤ 316 := by
  obtain ⟨hle, -⟩ := lengthSequence_legal (t.lengths_le .litlen) (t.lengths_le .offset)
  obtain ⟨hexpand, hlegal, -⟩ := rle_spec _ hle
  have hlen := length_items_le t
  subst hi
  exact ⟨hexpand, hlegal, hlen⟩

/-- ITEMS holds the items, and past them what it held (rule R284). -/
theorem get_written {items : List (Nat × Nat)} (hlegal : ∀ it ∈ items, itemLegal it) (t : Table 16) (k : Nat) :
    ((writeItems 0 items t).get k).toNat
      = if k < items.length then (items.getD k (0, 0)).1 + 256 * (items.getD k (0, 0)).2 else (t.get k).toNat := by
  rw [get_writeItems, Nat.sub_zero, Nat.zero_add]
  by_cases hk : k < items.length
  · have hmem : items.getD k (0, 0) ∈ items := by
      rw [List.getD_eq_getElem _ _ hk]
      exact List.getElem_mem hk
    rw [if_pos ⟨Nat.zero_le k, hk⟩, if_pos hk, BitVec.toNat_ofNat, Nat.mod_eq_of_lt (hlegal _ hmem).fits]
  · rw [if_neg fun h => hk h.2, if_neg hk]

/-- `FREQ_PC` counts the items of each symbol (rule R284). -/
theorem get_itemCounts {items : List (Nat × Nat)} (hlegal : ∀ it ∈ items, itemLegal it) (hlen : items.length ≤ 316) (a : Nat) :
    ((Table.ofList 32 (itemCounts items)).get a).toNat = items.countP fun it => decide (it.1 = a) := by
  have hcount : (items.map Prod.fst).count a = items.countP fun it => decide (it.1 = a) := by
    rw [List.count, List.countP_map]
    exact List.countP_congr fun it _ => by simp
  have hle := List.countP_le_length (p := fun it : Nat × Nat => decide (it.1 = a)) (l := items)
  have hentry : (itemCounts items).getD a 0 = items.countP fun it => decide (it.1 = a) := by
    rcases Nat.lt_or_ge a 19 with ha | ha
    · rw [← hcount, itemCounts, List.getD_eq_getElem _ _ (by simpa using ha), List.getElem_map, List.getElem_range]
    · rw [List.getD_eq_default _ _ (by simpa [itemCounts] using ha), eq_comm, List.countP_eq_zero]
      intro it hit
      have := (hlegal it hit).1
      simp
      omega
  rw [Table.get_ofList, hentry, BitVec.toNat_ofNat]
  omega

/-! ## The description -/

/-- What HB.PRECODE leaves, as numbers (rule R284). -/
theorem Huff.buildPrecode_hb (b : Huff) {items : List (Nat × Nat)}
    (hi : rle (lengthSequence (b.lens.lengths .litlen) (b.lens.lengths .offset)) = items) (hlen : items.length ≤ 316) :
    b.buildPrecode.hb.items = writeItems 0 items b.hb.items ∧ b.buildPrecode.hb.nitems.toNat = items.length
      ∧ b.buildPrecode.hb.nlit.toNat = trimLitlen (b.lens.lengths .litlen)
      ∧ b.buildPrecode.hb.ndist.toNat = trimOffset (b.lens.lengths .offset)
      ∧ b.buildPrecode.hb.npre.toNat = trimPrecode (b.buildPrecode.lens.lengths .precode) := by
  obtain ⟨-, elens, -, ehb⟩ := b.buildPrecode_fields items hi
  have := trimLitlen_le (b.lens.lengths .litlen)
  have := trimOffset_le (b.lens.lengths .offset)
  have := trimPrecode_le (b.buildPrecode.lens.lengths .precode)
  rw [ehb, ← elens]
  simp only [BitVec.toNat_ofNat]
  exact ⟨trivial, by omega, by omega, by omega, by omega⟩

/-- Settles O33: the items are those of `rle_lengths`, the counts `LeastCount`s. -/
theorem hbPrecodeDescribesTheLengths : Obligations.HbPrecodeDescribesTheLengths := by
  intro s ha litlen offset
  obtain ⟨items, hi⟩ : ∃ items, rle (lengthSequence litlen offset) = items := ⟨_, rfl⟩
  obtain ⟨hexpand, hlegal, hlen⟩ := rle_lengths s.lens hi
  obtain ⟨efreq, elens, ecode, -⟩ := s.huff.buildPrecode_fields items hi
  obtain ⟨hitems, hnitems, hnlit, hndist, hnpre⟩ := s.huff.buildPrecode_hb hi hlen
  have hfreq : s.huff.buildPrecode.freq = s.freq.put .precode (Table.ofList 32 (itemCounts items)) := efreq
  refine ⟨(s.withHuff s.huff.buildPrecode).ended .success, items, exec_alive (i := .hbPrecode) rfl ha, rfl, ?_⟩
  simp only [State.ended_hb, State.ended_freq, State.ended_lens, State.ended_code, State.withHuff_hb, State.withHuff_freq,
    State.withHuff_lens, State.withHuff_code]
  rw [hnlit, hndist, hnitems, hitems, hnpre, hfreq]
  refine ⟨trimLitlen_least litlen, trimOffset_least offset, rfl, hlen, hlegal, hexpand, get_written hlegal _,
    get_itemCounts hlegal hlen, rfl, rfl, ?_, ?_⟩
  · exact ⟨_, _, exec_alive (i := .hbLens .precode) rfl ha, exec_alive (i := .hbCodes .precode) rfl ha, elens, ecode⟩
  · obtain ⟨h4, h19, hzero, hlast⟩ := trimPrecode_least_table s.huff.buildPrecode.lens
    refine ⟨h4, h19, fun j hj hlt => BitVec.eq_of_toNat_eq (hzero j hj hlt), fun h he => hlast h ?_⟩
    dsimp only
    rw [he]
    rfl

end Sys2Proof.Machine
end

section
/-! PROOF. A dynamic header's bits, within the overread bound (rules R134 to R137, R366 to R369): the precode
lengths, then the length sequence, are loaded and the three tables built. -/

namespace Sys2Proof.Machine

/-- The decompressor with a header's counts declared and the precode's lengths cleared (rules R366, R367). -/
def Inflate.declared (d : Inflate) (hlit hdist : BitVec 5) (hclen : BitVec 4) : Inflate :=
  { d with
    lens := { d.lens with precode := [] }
    dx :=
      { d.dx with
        nlit := BitVec.ofNat 9 (hlit.toNat + 257)
        ndist := BitVec.ofNat 6 (hdist.toNat + 1)
        npre := BitVec.ofNat 5 (hclen.toNat + 4) } }

theorem Inflate.declared_nlit (d : Inflate) (hlit hdist : BitVec 5) (hclen : BitVec 4) :
    (d.declared hlit hdist hclen).dx.nlit.toNat = hlit.toNat + 257 := by
  have := hlit.isLt
  show (BitVec.ofNat 9 _).toNat = _
  rw [BitVec.toNat_ofNat]
  omega

theorem Inflate.declared_ndist (d : Inflate) (hlit hdist : BitVec 5) (hclen : BitVec 4) :
    (d.declared hlit hdist hclen).dx.ndist.toNat = hdist.toNat + 1 := by
  have := hdist.isLt
  show (BitVec.ofNat 6 _).toNat = _
  rw [BitVec.toNat_ofNat]
  omega

/-- Counts within 286 and 30 are not refused (rule R366). -/
theorem Inflate.dynamicHeader_eq (d : Inflate) {hlit hdist : BitVec 5} (hclen : BitVec 4) (h1 : hlit.toNat ≤ 29)
    (h2 : hdist.toNat ≤ 29) : d.dynamicHeader hlit hdist hclen
      = (Inflate.readPrecodeLens (precodeOrder.take (hclen.toNat + 4)) (d.declared hlit hdist hclen)).andThen
          Inflate.buildDynamic := by
  have n1 := d.declared_nlit hlit hdist hclen
  have n2 := d.declared_ndist hlit hdist hclen
  have hc : (d.declared hlit hdist hclen).countsRefused = false := by
    rw [Inflate.countsRefused_eq, n1, n2]
    simp
    omega
  exact if_neg (ne_true_of_eq_false hc)

theorem length_precodeBits (npre : Nat) (pc : List Nat) :
    (precodeBits npre pc).length = 3 * (precodeOrder.take npre).length := by
  unfold precodeBits
  generalize precodeOrder.take npre = order
  induction order with
  | nil => rfl
  | cons s order ih =>
    rw [List.flatMap_cons, List.length_append, length_bitsOf, List.length_cons, ih]
    omega

/-- The sequence's elements are read, loaded and both tables built (rules R368, R369). -/
theorem Inflate.buildDynamic_of_holds {d : Inflate} {pc : List Nat} {items : List Instr} {ls : List (BitVec 4)} {tpre tll tof : Table 32}
    {k1 k2 : Nat} (hs : d.dx.state = .buildTables) (hn1 : d.dx.nlit.toNat + k1 = 288) (hn2 : d.dx.ndist.toNat + k2 = 32)
    (hpc : d.lens.lengths .precode = pc) (hpre : buildTable .precode pc = some tpre)
    (hc : ∀ i ∈ items, (preCodes pc).cover i = true)
    (hls : lengthsOf [] items = some ls) (hlen : ls.length = d.dx.nlit.toNat + d.dx.ndist.toNat)
    (hll : buildTable .litlen ((ls.take d.dx.nlit.toNat).map BitVec.toNat ++ List.replicate k1 0) = some tll)
    (hof : buildTable .offset ((ls.drop d.dx.nlit.toNat).map BitVec.toNat ++ List.replicate k2 0) = some tof)
    (hh : d.br.holds d.mem (items.flatMap (encode (preCodes pc))))
    (hb : d.br.bitpos.toNat + (items.flatMap (encode (preCodes pc))).length ≤ 8 * d.br.len.toNat + 64) :
    d.buildDynamic = { d with
      br := d.br.past (items.flatMap (encode (preCodes pc))).length
      lens :=
        ⟨Table.ofList 4 ((ls.take d.dx.nlit.toNat).map BitVec.toNat), Table.ofList 4 ((ls.drop d.dx.nlit.toNat).map BitVec.toNat),
          d.lens.precode⟩
      dtab := ⟨tll, tof, tpre⟩
      dx := { d.dx with seq := [], state := .decodeLoop } } := by
  subst hpc
  have hread := Inflate.readLengths_of_holds (length_lengths d.lens .precode) items d.total
    (d := { d with dtab := d.dtab.put .precode tpre, dx := { d.dx with seq := [] } }) hpre hs hls hlen (Nat.le_refl _) hc hh hb
  refine Inflate.buildDynamic_eq (by rw [hs]; decide) hpre hread (hll ▸ congrArg _ ?_) (hof ▸ congrArg _ ?_)
  · exact loaded_lengths _ 288 _ (by rw [List.length_take]; omega)
  · exact loaded_lengths _ 32 _ (by rw [List.length_drop]; omega)

/-- A loaded length is the sequence's (rule R369). -/
theorem get_loaded (l : List (BitVec 4)) (i : Nat) : (Table.ofList 4 (l.map BitVec.toNat)).get i = l.getD i 0 := by
  rw [Table.get_ofList]
  rcases Nat.lt_or_ge i l.length with h | h <;> simp [List.getD, h]

/-- Settles O47: `readPrecodeLens_of_holds` reads the precode's lengths, `buildDynamic_of_holds` the rest. -/
theorem dynamicHeaderLoadsItsLengths : Obligations.DynamicHeaderLoadsItsLengths := by
  intro s hlit hdist hclen pc items ls tpre tll tof hdx hs h1 h2 hpc hle hzero hpre hcover hls hlen hll hof bits hh hb
  have hbl : bits.length = 3 * (precodeOrder.take (hclen.toNat + 4)).length + (items.flatMap (encode (preCodes pc))).length := by
    rw [← length_precodeBits (hclen.toNat + 4) pc]
    exact List.length_append
  have hfirst : s.br.bitpos.toNat + 3 * (precodeOrder.take (hclen.toNat + 4)).length ≤ 8 * s.br.len.toNat + 64 := by omega
  obtain ⟨hbits, hitems⟩ := Reader.holds_append hh (by rw [length_precodeBits]; exact hfirst)
  rw [length_precodeBits] at hitems
  set d := s.inflate.declared hlit hdist hclen with hd
  obtain ⟨t, hread, hget⟩ := Inflate.readPrecodeLens_of_holds hle (precodeOrder.take (hclen.toNat + 4)) (d := d) hbits hfirst
  have hlengths : Trio.lengths { d.lens with precode := t } .precode = pc := precode_lengths hpc hle hzero hget
  have p := Reader.past_bitpos hfirst
  have n1 : d.dx.nlit.toNat = _ := s.inflate.declared_nlit hlit hdist hclen
  have n2 : d.dx.ndist.toNat = _ := s.inflate.declared_ndist hlit hdist hclen
  have hbuild := Inflate.buildDynamic_of_holds (ls := ls) (tpre := tpre) (tll := tll) (tof := tof) (items := items)
    (d := { d with br := d.br.past (3 * (precodeOrder.take (hclen.toNat + 4)).length), lens := { d.lens with precode := t } })
    (k1 := 31 - hlit.toNat) (k2 := 31 - hdist.toNat)
    hs (by rw [n1]; omega) (by rw [n2]; omega) hlengths hpre hcover hls (by rw [n1, n2]; exact hlen) (by rw [n1]; exact hll)
    (by rw [n1]; exact hof) hitems (by show (s.br.past _).bitpos.toNat + _ ≤ 8 * s.br.len.toNat + 64; omega)
  have hne : s.dx.state ≠ .error := by rw [hs]; decide
  refine ⟨_, exec_element (i := .dynamicHeader hlit hdist hclen) rfl s, ?_⟩
  rw [show s.inflate.run (.dynamicHeader hlit hdist hclen) = _ from Inflate.dynamicHeader_eq _ hclen h1 h2, ← hd, hread,
    Inflate.andThen_of_ne hne, hbuild]
  refine ⟨rfl, ?_, fun a ha => ?_, fun a ha => ?_, rfl⟩
  · rw [hbl]
    exact Reader.past_past (r := s.br) hfirst
  · refine (get_loaded _ a).trans ?_
    rw [n1]
    simp [List.getD, ha]
  · refine (get_loaded _ a).trans ?_
    rw [n1]
    simp [List.getD]

end Sys2Proof.Machine
end

section
/-! PROOF. The opcode map (rules R120 to R124): a word decodes to a command exactly when it is the word the encoder
gives that command, and the words of R124 are exactly those that decode to none. -/

namespace Sys2Proof.Machine

/-! ## Command words -/

theorem selOfSpace_spaceOf {sel : Nat} (h : sel < 16) : selOfSpace (spaceOf sel) = sel := by interval_cases sel <;> rfl

theorem selOfSpace_lt (space : Space) : selOfSpace space < 16 := by cases space <;> decide

theorem selOfAlphabet_lt (x : Alphabet) : selOfAlphabet x < 3 := by cases x <;> decide

theorem plainCommand_iff {sel : Nat} {i j : Instr} : plainCommand sel i = .ok j ↔ sel = 0 ∧ i = j := by
  unfold plainCommand
  split <;> simp_all

/-- An alphabet command is decoded with the alphabet SEL names (rule R123). -/
theorem alphabetCommand_sel {sel : Nat} {i : Alphabet → Instr} {j : Instr} (h : alphabetCommand sel i = .ok j) :
    ∃ x, selOfAlphabet x = sel ∧ i x = j := by
  unfold alphabetCommand at h
  split at h <;> cases h
  · exact ⟨.litlen, rfl, rfl⟩
  · exact ⟨.offset, rfl, rfl⟩
  · exact ⟨.precode, rfl, rfl⟩

/-- What OPC and SEL spell is sent as exactly that OPC and SEL (rule R122). -/
theorem encodeCommand_of_decodeOpc {opc sel : Nat} {i : Instr} (hsel : sel < 16) (h : decodeOpc opc sel = .ok i) :
    encodeCommand i = some (commandWord opc sel) := by
  unfold decodeOpc at h
  split at h
  case h_2 =>
    cases h
    simp [encodeCommand, Nat.mod_eq_of_lt hsel]
  case h_7 | h_8 =>
    cases h
    simp only [encodeCommand, selOfSpace_spaceOf hsel]
  case h_35 => cases h
  all_goals
    first
      | obtain ⟨rfl, rfl⟩ := plainCommand_iff.mp h; rfl
      | obtain ⟨x, rfl, rfl⟩ := alphabetCommand_sel h; rfl

theorem toNat_commandWord {opc sel : Nat} (hopc : opc < 256) (hsel : sel < 16) : (commandWord opc sel).toNat = opc + 256 * sel := by
  rw [commandWord, BitVec.toNat_ofNat]
  omega

/-- A word without reserved bits is the word of its OPC and SEL (rule R120). -/
theorem commandWord_fields {w : Word} (h : w.toNat / 4096 = 0) : commandWord (w.toNat % 256) (w.toNat / 256 % 16) = w := by
  apply BitVec.eq_of_toNat_eq
  rw [toNat_commandWord (by omega) (by omega)]
  omega

/-- Codes without any codeword: what a command word is read in. -/
def noCodes : Codes := ⟨[], [], []⟩

theorem readable_noCodes (x : Alphabet) : readable (noCodes.lens x) := by
  cases x <;> exact ⟨fun _ h => (List.not_mem_nil h).elim, Nat.zero_le _⟩

/-- An instruction with a command word is sent as that word's bits and holds no symbol (rules R120, R122). -/
theorem encode_of_encodeCommand {i : Instr} {w : Word} (h : encodeCommand i = some w) (c : Codes) :
    i.expect = .command ∧ encode c i = bitsOf 32 w.toNat ∧ c.cover i = true ∧ i.wellFormed = true := by
  cases i <;> cases h <;> exact ⟨rfl, rfl, rfl, rfl⟩

/-- A word decodes to a command exactly when it is that command's word (rules R121, R122). -/
theorem decodeCommand_iff (w : Word) (i : Instr) : decodeCommand w = .ok i ↔ encodeCommand i = some w := by
  constructor
  · intro h
    unfold decodeCommand at h
    split at h
    · cases h
    · rename_i hw
      rw [encodeCommand_of_decodeOpc (by omega) h, commandWord_fields (not_not.mp hw)]
  · intro h
    obtain ⟨hexpect, hencode, hcover, hwf⟩ := encode_of_encodeCommand h noCodes
    have hback := Laws.everyInstructionDecodesBack i noCodes [] readable_noCodes hcover hwf
    rw [hexpect, hencode, Laws.decode_command] at hback
    exact (Prod.mk.inj hback).2

/-! ## The opcode map (rule R122) -/

/-- A row's mask and match are those of its OPC, with all SEL bits in the mask where the command has none. -/
theorem encodeCommand_of_opcodeRow {i : Instr} {mask code : Word} (h : opcodeRow i = some (mask, code)) :
    encodeCommand i = some (commandWord code.toNat (selOf i)) ∧ code.toNat < 256 ∧ selOf i < 16
      ∧ (mask = 0xFFFFFFFF#32 ∧ selOf i = 0 ∨ mask = 0xFFFFF0FF#32) := by
  cases i with
  | create level => cases h; exact ⟨rfl, by decide, level.isLt, .inr rfl⟩
  | tread space | twrite space => cases h; exact ⟨rfl, by decide, selOfSpace_lt space, .inr rfl⟩
  | hbTally x | hbLens x | hbCodes x | dtBuild x | dtDecode x =>
    cases h; exact ⟨rfl, by decide, Nat.lt_trans (selOfAlphabet_lt x) (by decide), .inr rfl⟩
  | _ => cases h <;> exact ⟨rfl, by decide, by decide, .inl ⟨rfl, rfl⟩⟩

theorem opcodeRow_of_encodeCommand {i : Instr} {w : Word} (h : encodeCommand i = some w) :
    ∃ mask code, opcodeRow i = some (mask, code) := by
  cases i <;> cases h <;> exact ⟨_, _, rfl⟩

/-- The mask that leaves SEL out clears it and keeps every other bit. -/
theorem toNat_and_maskWithoutSel (w : Word) : (w &&& 0xFFFFF0FF#32).toNat = 4096 * (w.toNat / 4096) + w.toNat % 256 := by
  rw [BitVec.toNat_and, show (0xFFFFF0FF#32).toNat = 0xFFFFF0FF from rfl]
  have hw : w.toNat / 2 ^ 12 < 2 ^ 20 := by have := w.isLt; omega
  have low : (w.toNat &&& 0xFFFFF0FF) % 2 ^ 8 = w.toNat % 2 ^ 8 := by
    rw [Nat.and_mod_two_pow]
    exact Nat.and_two_pow_sub_one_of_lt_two_pow (n := 8) (Nat.mod_lt _ (by decide))
  have sel : (w.toNat &&& 0xFFFFF0FF) / 2 ^ 8 % 2 ^ 4 = 0 := by
    rw [Nat.and_div_two_pow, Nat.and_mod_two_pow]
    exact Nat.and_zero _
  have high : (w.toNat &&& 0xFFFFF0FF) / 2 ^ 12 = w.toNat / 2 ^ 12 := by
    rw [Nat.and_div_two_pow]
    exact Nat.and_two_pow_sub_one_of_lt_two_pow (n := 20) hw
  omega

/-- A masked word and its SEL are a row's match and a SEL exactly when the word is that of the OPC and the SEL. -/
theorem masked_iff {w mask code : Word} {sel : Nat} (hcode : code.toNat < 256) (hsel : sel < 16)
    (hmask : mask = 0xFFFFFFFF#32 ∧ sel = 0 ∨ mask = 0xFFFFF0FF#32) :
    w &&& mask = code ∧ w.toNat / 256 % 16 = sel ↔ commandWord code.toNat sel = w := by
  have hw := w.isLt
  rw [← BitVec.toNat_inj, ← BitVec.toNat_inj, toNat_commandWord hcode hsel]
  rcases hmask with ⟨rfl, rfl⟩ | rfl
  · rw [show w &&& 0xFFFFFFFF#32 = w from BitVec.and_allOnes]
    omega
  · rw [toNat_and_maskWithoutSel]
    omega

/-- Settles O1: a row's mask and match, with SEL, fix the command's word. -/
theorem opcodeMapMatchesMasks : Obligations.OpcodeMapMatchesMasks := by
  intro w i
  rw [decodeCommand_iff]
  constructor
  · intro h
    obtain ⟨mask, code, hrow⟩ := opcodeRow_of_encodeCommand h
    obtain ⟨hword, hcode, hsel, hmask⟩ := encodeCommand_of_opcodeRow hrow
    exact ⟨mask, code, hrow, (masked_iff hcode hsel hmask).mpr (Option.some.inj (hword.symm.trans h))⟩
  · rintro ⟨mask, code, hrow, hw⟩
    obtain ⟨hword, hcode, hsel, hmask⟩ := encodeCommand_of_opcodeRow hrow
    rw [hword, (masked_iff hcode hsel hmask).mp hw]

/-! ## Illegal words (rule R124) -/

theorem plainCommand_spells (sel : Nat) (i : Instr) : (∃ j, plainCommand sel i = .ok j) ↔ sel = 0 := by
  simp [plainCommand_iff]

theorem alphabetCommand_spells (sel : Nat) (i : Alphabet → Instr) : (∃ j, alphabetCommand sel i = .ok j) ↔ sel ≤ 2 := by
  constructor
  · rintro ⟨j, h⟩
    obtain ⟨x, rfl, -⟩ := alphabetCommand_sel h
    exact Nat.le_of_lt_succ (selOfAlphabet_lt x)
  · intro h
    interval_cases sel <;> exact ⟨_, rfl⟩

/-- OPC and SEL spell a command exactly outside the ranges of rule R124. -/
theorem decodeOpc_spells (opc sel : Nat) : (∃ i, decodeOpc opc sel = .ok i) ↔ ¬ illegalOpc opc ∧ ¬ illegalSel opc sel := by
  unfold decodeOpc
  split
  case h_35 =>
    refine ⟨fun ⟨_, h⟩ => (nomatch h), fun ⟨hopc, _⟩ => absurd ?_ hopc⟩
    unfold illegalOpc
    simp only [imp_false] at *
    omega
  all_goals simp [plainCommand_spells, alphabetCommand_spells, illegalOpc, illegalSel]

/-- A word spells a command exactly when it is not one of rule R124's. -/
theorem decodeCommand_spells (w : Word) : (∃ i, decodeCommand w = .ok i) ↔ ¬ illegalWord w := by
  unfold decodeCommand illegalWord
  split
  · simp [*]
  · rw [decodeOpc_spells]
    simp_all

/-- Settles O2: `decodeCommand_spells`, and what a CMD write of a word that spells none does. -/
theorem illegalWordsAnswerBadCmd : Obligations.IllegalWordsAnswerBadCmd := by
  intro s w rest hh
  refine ⟨fun hw => ?_, (decodeCommand_spells w).mpr⟩
  have hnone : ¬ ∃ i, decodeCommand w = .ok i := fun h => (decodeCommand_spells w).mp h hw
  obtain ⟨reject, hreject⟩ : ∃ reject, decodeCommand w = .error reject := by
    cases h : decodeCommand w with
    | error reject => exact ⟨reject, rfl⟩
    | ok i => exact absurd ⟨i, h⟩ hnone
  simp only [step, hh, serve, command, hreject, if_true]
  rfl

end Sys2Proof.Machine
end

section
/-! PROOF. The fixed code of RFC 1951 (rules R140, R281, R283). -/

namespace Sys2Proof.Machine

/-- How often a value stands before index `a` of a constant run. -/
theorem count_take_replicate (n v w a : Nat) : ((List.replicate n v).take a).count w = if v = w then min a n else 0 := by
  rw [List.take_replicate, List.count_replicate]
  simp

/-- The symbols before `a` with a given length, run by run of the fixed litlen lengths (rule R140). -/
theorem count_take_fixedLitlenLens (a l : Nat) : (fixedLitlenLens.take a).count l
    = (if 8 = l then min a 144 else 0) + ((if 9 = l then min (a - 144) 112 else 0)
      + ((if 7 = l then min (a - 256) 24 else 0) + (if 8 = l then min (a - 280) 8 else 0))) := by
  simp only [fixedLitlenLens, List.take_append, List.count_append, count_take_replicate, List.length_replicate, Nat.sub_sub]

theorem getD_fixedLitlenLens {a : Nat} (h : a < 288) :
    fixedLitlenLens.getD a 0 = if a < 144 then 8 else if a < 256 then 9 else if a < 280 then 7 else 8 := by
  simp only [fixedLitlenLens, List.getD, List.getElem?_append, List.length_replicate, List.getElem?_replicate]
  repeat' split
  all_goals first | rfl | omega

/-- The first codewords of RFC 1951 (rule R281). -/
theorem firstCode_fixedLitlenLens :
    firstCode fixedLitlenLens 7 = 0 ∧ firstCode fixedLitlenLens 8 = 0x30 ∧ firstCode fixedLitlenLens 9 = 0x190 := by
  have count (l : Nat) : fixedLitlenLens.count l
      = (if 8 = l then 144 else 0) + ((if 9 = l then 112 else 0) + ((if 7 = l then 24 else 0) + (if 8 = l then 8 else 0))) := by
    rw [← List.take_length (l := fixedLitlenLens), length_fixedLitlenLens, count_take_fixedLitlenLens]
    simp
  simp [firstCode, count]

/-- The codewords of RFC 1951, length by length (rule R140). -/
theorem canonical_fixedLitlenLens {a : Nat} (h : a < 288) : (canonical fixedLitlenLens).getD a 0
    = if a < 144 then 0x30 + a else if a < 256 then 0x190 + (a - 144) else if a < 280 then a - 256 else 0xC0 + (a - 280) := by
  obtain ⟨h7, h8, h9⟩ := firstCode_fixedLitlenLens
  have word (l : Nat) (hl : fixedLitlenLens.getD a 0 = l) (h1 : 7 ≤ l ∧ l ≤ 9) :
      (canonical fixedLitlenLens).getD a 0 = firstCode fixedLitlenLens l + (fixedLitlenLens.take a).count l := by
    subst hl
    exact getD_canonical (by rw [length_fixedLitlenLens]; exact h) (by omega) (by omega)
  have hlen := getD_fixedLitlenLens h
  split_ifs at hlen ⊢
  · rw [word 8 hlen (by decide), h8, count_take_fixedLitlenLens]
    simp
    omega
  · rw [word 9 hlen (by decide), h9, count_take_fixedLitlenLens]
    simp
    omega
  · rw [word 7 hlen (by decide), h7, count_take_fixedLitlenLens]
    simp
    omega
  · rw [word 8 hlen (by decide), h8, count_take_fixedLitlenLens]
    simp
    omega

theorem firstCode_fixedOffsetLens : firstCode fixedOffsetLens 5 = 0 := by
  simp [firstCode, fixedOffsetLens]

theorem getD_fixedOffsetLens {a : Nat} (h : a < 32) : fixedOffsetLens.getD a 0 = 5 := by
  rw [fixedOffsetLens, List.getD_eq_getElem _ _ (by simpa using h), List.getElem_replicate]

theorem canonical_fixedOffsetLens {a : Nat} (h : a < 32) : (canonical fixedOffsetLens).getD a 0 = a := by
  have hlen := getD_fixedOffsetLens h
  rw [getD_canonical (by rw [length_fixedOffsetLens]; exact h) (by omega) (by omega), hlen, firstCode_fixedOffsetLens,
    fixedOffsetLens, count_take_replicate, if_pos rfl]
  omega

/-- A codeword that fits its length is stored reversed (rules R280, R282). -/
theorem storedCode_of_lt {len word : Nat} (h0 : len ≠ 0) (h : word < 2 ^ len) : storedCode len word = rev len word := by
  rw [storedCode, if_neg h0, Nat.mod_eq_of_lt h]

/-- HB.FIXED's tables, symbol by symbol: the length, and the codeword cut to it and reversed (rule R283). -/
theorem Huff.get_loadFixed (b : Huff) {x : Alphabet} (hx : x ≠ .precode) {a : Nat} (ha : a < x.slots) :
    ((b.loadFixed.lens.table x).get a).toNat = (Codes.fixed.lens x).getD a 0
      ∧ ((b.loadFixed.code.table x).get a).toNat
          = storedCode ((Codes.fixed.lens x).getD a 0) ((canonical (Codes.fixed.lens x)).getD a 0) := by
  obtain ⟨hlitlen, hoffset⟩ := fixed_lengths b.lens
  have hlengths : b.lens.loadFixed.lengths x = Codes.fixed.lens x := by
    cases x with
    | litlen => exact hlitlen
    | offset => exact hoffset
    | precode => exact absurd rfl hx
  constructor
  · rw [← hlengths]
    exact ((Table.getD_toList _ _ _).trans (if_pos ha)).symm
  · rw [← hlengths]
    cases x with
    | litlen => exact Huff.get_buildCodes { b with lens := b.lens.loadFixed } (x := .litlen) ha
    | offset => exact Huff.get_buildCodes (Huff.buildCodes { b with lens := b.lens.loadFixed } .litlen) (x := .offset) ha
    | precode => exact absurd rfl hx

/-- Settles O32, by the closed form of the fixed code. -/
theorem hbFixedLoadsTheFixedCode : Obligations.HbFixedLoadsTheFixedCode := by
  intro s halive
  refine ⟨_, exec_alive (i := .hbFixed) rfl halive, rfl, rfl, rfl, fun a ha => ?_, fun a ha => ?_⟩
  · obtain ⟨hlen, hcode⟩ := s.huff.get_loadFixed (x := .litlen) (by decide) ha
    refine ⟨hlen.trans (getD_fixedLitlenLens ha), hcode.trans ?_⟩
    show storedCode (fixedLitlenLens.getD a 0) ((canonical fixedLitlenLens).getD a 0) = _
    rw [getD_fixedLitlenLens ha, canonical_fixedLitlenLens ha]
    split_ifs
    all_goals exact storedCode_of_lt (by decide) (by omega)
  · obtain ⟨hlen, hcode⟩ := s.huff.get_loadFixed (x := .offset) (by decide) ha
    refine ⟨hlen.trans (getD_fixedOffsetLens ha), hcode.trans ?_⟩
    show storedCode (fixedOffsetLens.getD a 0) ((canonical fixedOffsetLens).getD a 0) = _
    rw [getD_fixedOffsetLens ha, canonical_fixedOffsetLens ha]
    exact storedCode_of_lt (by decide) ha

end Sys2Proof.Machine
end

section
/-! PROOF. Two stream elements whole: what an element of the length sequence appends (rules R136, R368), and a stored
block (rules R132, R375, R376). -/

namespace Sys2Proof.Machine

/-! ## The length sequence -/

theorem Inflate.extend_fits {d : Inflate} (v : BitVec 4) {n : Nat} (h : d.dx.seq.length + n ≤ d.total) :
    d.extend v n = { d with dx := { d.dx with seq := d.dx.seq ++ List.replicate n v } } := if_neg (Nat.not_lt.mpr h)

theorem Inflate.extend_passes {d : Inflate} (v : BitVec 4) {n : Nat} (h : d.total < d.dx.seq.length + n) :
    d.extend v n = d.error .badData := if_pos h

theorem Inflate.preRep_of_getLast? {d : Inflate} {v : BitVec 4} (extra : BitVec 2) (h : d.dx.seq.getLast? = some v) :
    d.preRep extra = d.extend v (3 + extra.toNat) := by
  unfold Inflate.preRep
  rw [h]

theorem Inflate.preRep_of_empty {d : Inflate} (extra : BitVec 2) (h : d.dx.seq = []) : d.preRep extra = d.error .badData := by
  unfold Inflate.preRep
  rw [h]
  rfl

/-- Settles O48: each element extends the sequence, and `extend` tests the total. -/
theorem precodeElementsExtendTheSequence : Obligations.PrecodeElementsExtendTheSequence := by
  refine ⟨fun s i v n hi => ?_, fun s extra hempty => ?_⟩
  · have hrun : exec i s = .next (s.withInflate (s.inflate.extend v n)) := by
      rcases hi with ⟨rfl, rfl⟩ | ⟨extra, rfl, hlast, rfl⟩ | ⟨extra, rfl, rfl, rfl⟩ | ⟨extra, rfl, rfl, rfl⟩
      · rfl
      · rw [← Inflate.preRep_of_getLast? (d := s.inflate) extra hlast]
        rfl
      · rfl
      · rfl
    rw [hrun]
    refine ⟨fun hfits => ?_, fun hpasses => ?_⟩
    · rw [Inflate.extend_fits (d := s.inflate) v hfits]
      rfl
    · rw [Inflate.extend_passes (d := s.inflate) v hpasses]
      rfl
  · rw [exec_element rfl, show s.inflate.run (.preRep extra) = _ from Inflate.preRep_of_empty (d := s.inflate) extra hempty]
    rfl

/-! ## A stored block -/

theorem overreadResult_eq (cfg : Config) :
    overreadResult cfg = if cfg.overreadAtDone = .badData then .badData else .shortInput := by
  unfold overreadResult
  cases cfg.overreadAtDone <;> rfl

/-- What follows a block (rules R372, R376). -/
theorem Inflate.blockDone_eq_afterBlock {d : Inflate} {s : State} (hcfg : s.cfg = d.cfg) (hbr : s.br = d.br)
    (hfinal : s.dx.bfinal = d.dx.bfinal) (herr : s.dx.err = d.dx.err) :
    d.blockDone = { d with dx := { d.dx with state := (afterBlock s).1, err := (afterBlock s).2 } } := by
  unfold Inflate.blockDone Inflate.finish afterBlock
  rw [hcfg, hbr, hfinal, herr]
  cases d.dx.bfinal with
  | false => rfl
  | true =>
    simp only [if_true, Bool.true_eq_false, if_false]
    split <;> rfl

theorem Inflate.storedBody_mismatch {d : Inflate} {len nlen : BitVec 16} (h : len ≠ nlen ^^^ 0xFFFF#16) :
    d.storedBody len nlen = d.error .badData := if_pos h

theorem Inflate.storedBody_short {d : Inflate} {len nlen : BitVec 16} (h : len = nlen ^^^ 0xFFFF#16) (hleft : d.br.left < len.toNat) :
    d.storedBody len nlen = d.error (overreadResult d.cfg) := (if_neg (not_not.mpr h)).trans (if_pos hleft)

theorem Inflate.storedBody_full {d : Inflate} {len nlen : BitVec 16} (h : len = nlen ^^^ 0xFFFF#16) (hleft : len.toNat ≤ d.br.left)
    (hroom : d.room < len.toNat) : d.storedBody len nlen = d.error .insufficientSpace :=
  (if_neg (not_not.mpr h)).trans ((if_neg (Nat.not_lt.mpr hleft)).trans (if_pos hroom))

theorem Inflate.storedBody_room {d : Inflate} {len nlen : BitVec 16} (h : len = nlen ^^^ 0xFFFF#16) (hleft : len.toNat ≤ d.br.left)
    (hroom : len.toNat ≤ d.room) : d.storedBody len nlen = (d.copyInput len.toNat).blockDone :=
  (if_neg (not_not.mpr h)).trans ((if_neg (Nat.not_lt.mpr hleft)).trans (if_neg (Nat.not_lt.mpr hroom)))

/-- Bytes of disjoint buffers have different addresses (rule R186). -/
theorem bufferAddr_ne_of_disjoint {b1 l1 b2 l2 : Word} (h : disjoint b1 l1 b2 l2 = true) (h1 : b1.toNat + l1.toNat ≤ wordSpan)
    (h2 : b2.toNat + l2.toNat ≤ wordSpan) {i j : Nat} (hi : i < l1.toNat) (hj : j < l2.toNat) : bufferAddr b1 i ≠ bufferAddr b2 j := by
  have := disjoint_outside h h1 i hi
  rw [Nat.zero_add] at this
  exact ne_bufferAddr_of_outside h2 this hj

/-- Settles O45: the tests are `storedBody`'s branches, and a copy between disjoint buffers is verbatim. -/
theorem storedBodyCopiesVerbatim : Obligations.StoredBodyCopiesVerbatim := by
  rintro s len nlen ⟨hbound, hsrc⟩ ⟨hout, hdst, -⟩ hapart
  have hrun : exec (.storedBody len nlen) s = .next (s.withInflate (s.inflate.storedBody len nlen)) := exec_element rfl s
  have hleft : s.inflate.br.left = s.br.len.toNat - s.br.bitpos.toNat / 8 := rfl
  have hroom : s.inflate.room = s.dx.cap.toNat - s.dx.outpos.toNat := rfl
  rw [hrun]
  refine ⟨fun hne => ?_, fun heq => ⟨fun hshort => ?_, fun hin => ⟨fun hfull => ?_, fun hfits => ?_⟩⟩⟩
  · rw [Inflate.storedBody_mismatch hne]
    rfl
  · rw [Inflate.storedBody_short heq (by omega), ← overreadResult_eq]
    rfl
  · rw [Inflate.storedBody_full heq (by omega) (by omega)]
    rfl
  · rw [Inflate.storedBody_room heq (by omega) (by omega), Inflate.blockDone_eq_afterBlock
      (s := { s with br := s.br.advanceBytes len.toNat }) rfl rfl rfl rfl]
    have hspan : s.dx.dst.toNat + (s.dx.outpos.toNat + len.toNat) ≤ wordSpan := by omega
    refine ⟨_, rfl, ?_, outpos_add hfits, fun k hk => ?_, fun a ha => ?_, rfl, rfl, rfl, rfl⟩
    · exact Reader.bitpos_ofNat (n := s.br.bitpos.toNat + 8 * len.toNat) s.br.len (by omega)
    · exact Memory.copyForward_disjoint hspan
        (fun i j hi hj => bufferAddr_ne_of_disjoint hapart hsrc hdst
          (by show s.br.bitpos.toNat / 8 + i < _; omega) (by omega)) hk
    · exact Memory.copyForward_frame fun k hk => ne_bufferAddr_of_outside_from hspan ha hk

end Sys2Proof.Machine
end

section
/-! PROOF. Words written out by hand (rules R122, R131 to R141). -/

namespace Sys2Proof.Machine

set_option maxRecDepth 20000 in
/-- Settles O4, by running the decoder on each word. -/
theorem handWrittenWordsDecode : Obligations.HandWrittenWordsDecode := by
  unfold Obligations.HandWrittenWordsDecode
  decide

end Sys2Proof.Machine
end

section
/-! PROOF. A fresh handle, a lost handle and no handle (rules R181 to R185, R414, R450, R451). -/

namespace Sys2Proof.Machine

/-- Settles O11: a command that needs a handle answers NO_HANDLE without running its body. -/
theorem noHandleAndNopChangeNothing : Obligations.NoHandleAndNopChangeNothing := by
  intro s
  refine ⟨fun i hcommand hneeds hdead => exec_dead ?_ hdead, rfl⟩
  simp [isHandleCommand, hcommand, hneeds]

/-- In a fresh handle every slot is the sentinel and every other entry 0 (rules R182, R451). -/
theorem readSpace_created (s : State) (level : BitVec 4) {space : Space} (h : space ≠ .misc) (i : Nat) :
    readSpace (s.created level) space i = if space = .head ∨ space = .next then 0xFFFF8000#32 else 0 := by
  cases space with
  | misc => exact absurd rfl h
  | _ => rfl

/-- Settles O17: `State.created` item by item. -/
theorem createMakesAFreshHandle : Obligations.CreateMakesAFreshHandle := by
  intro s level
  refine ⟨fun hlegal => ⟨(s.created level).ended .success, if_neg (Nat.not_lt.mpr hlegal), ?_⟩, fun habove => if_pos habove⟩
  refine ⟨rfl, rfl, rfl, rfl, rfl, fun space i hspace _ => ?_, ?_⟩
  · rw [readSpace_ended]
    exact readSpace_created s level hspace i
  · exact ⟨⟨rfl, rfl, rfl, rfl⟩, ⟨rfl, rfl⟩, ⟨rfl, rfl, rfl, rfl⟩, rfl, rfl, rfl, rfl, rfl, rfl, rfl, rfl, rfl, rfl, rfl, rfl⟩

/-- A hard reset between commands leaves what rule R450 fixes. -/
theorem hardResetValues_hardReset (s : State) : hardResetValues s.hardReset := by
  refine ⟨fun index => ?_, rfl, ⟨rfl, rfl, rfl, rfl⟩, ⟨rfl, rfl⟩, ⟨rfl, rfl, rfl, rfl⟩, rfl, rfl,
    ⟨rfl, rfl, rfl, rfl, rfl, rfl, rfl, rfl, rfl, rfl⟩⟩
  unfold State.portRead
  split
  · show Port.operand Port.reset index = 0
    unfold Port.operand
    split <;> rfl
  · split
    · rfl
    · split <;> rfl

/-- Settles O18: but for the port registers, DESTROY is a hard reset. -/
theorem destroyDropsTheHandle : Obligations.DestroyDropsTheHandle := fun s halive =>
  ⟨s.clearUnits.ended .success, exec_alive rfl halive, rfl, rfl, hardResetValues_hardReset s⟩

end Sys2Proof.Machine
end

section
/-! PROOF. What the two whole-buffer commands, each run twice, have in common (rules R186, R188). -/

namespace Sys2Proof.Machine

/-- An address in a buffer is one of its bytes. -/
theorem eq_bufferAddr_of_inBuffer {base a : Word} {len : Nat} (h : inBuffer base len a) :
    a = bufferAddr base (a.toNat - base.toNat) := by
  obtain ⟨hlow, -⟩ := h
  have hspan := a.isLt
  apply BitVec.eq_of_toNat_eq
  rw [bufferAddr_toNat (by simp only [wordSpan]; omega)]
  omega

theorem agreeOn_of_sameBytes {m n : Memory} {base : Word} {len : Nat} (h : Memory.sameBytes m n base len) :
    agreeOn m n base len := by
  intro a ha
  obtain ⟨hlow, hhigh⟩ := id ha
  rw [eq_bufferAddr_of_inBuffer ha]
  exact h _ (by omega)

/-- Operands COMPRESS and DECOMPRESS accept (rules R186, R415). -/
theorem checkTwoBufs_of_operands {s : State} (h : ¬ badOperands .compress s) : checkTwoBufs s.port = true := by
  simp only [badOperands, not_or, Nat.not_lt] at h
  obtain ⟨hsrc, hdst, hapart⟩ := h
  simp only [checkTwoBufs, Bool.and_eq_true, checkBuf_iff]
  exact ⟨⟨hsrc, hdst⟩, (disjoint_iff _ _ _ _).mpr hapart⟩

theorem checkTwoBufs_congr {p p' : Port} (h0 : p'.a0 = p.a0) (h1 : p'.a1 = p.a1) (h2 : p'.a2 = p.a2) (h3 : p'.a3 = p.a3) :
    checkTwoBufs p' = checkTwoBufs p := by
  unfold checkTwoBufs
  rw [h0, h1, h2, h3]

end Sys2Proof.Machine
end

section
/-! PROOF. Two runs of COMPRESS (rule R188): match-finder, builder and tokens of the past are no part of its stream, for
each is made anew before it is read. -/

namespace Sys2Proof.Machine

/-! ## Two writers in step -/

/-- Two writers in step: the same registers, and memories that read the same in a source buffer and in the
output so far. -/
structure Sink.Twin (src : Word) (len : Nat) (k k' : Sink) : Prop where
  bw : k'.bw = k.bw
  source : Memory.sameBytes k.mem k'.mem src len
  output : Memory.sameBytes k.mem k'.mem k.bw.dst k.bw.nbytes.toNat

section
variable {src : Word} {len : Nat} {k k' : Sink}

/-- A change of registers that leaves the output where it is. -/
theorem Sink.Twin.registers (h : Sink.Twin src len k k') {w w' : Writer} (same : w' = w) (hdst : w.dst = k.bw.dst)
    (hbytes : w.nbytes = k.bw.nbytes) : Sink.Twin src len ⟨w, k.mem⟩ ⟨w', k'.mem⟩ :=
  ⟨same, h.source, by rw [hdst, hbytes]; exact h.output⟩

theorem Sink.Twin.putByte (h : Sink.Twin src len k k') (b : Byte) : Sink.Twin src len (k.putByte b) (k'.putByte b) := by
  obtain ⟨w, n⟩ := k'
  obtain ⟨rfl, source, output⟩ := h
  rcases Nat.lt_or_ge k.bw.nbytes.toNat k.bw.cap.toNat with hroom | hfull
  · rw [Sink.putByte_room hroom, Sink.putByte_room (k := ⟨k.bw, n⟩) hroom]
    have written := Memory.sameOrKept_write k.mem n (bufferAddr k.bw.dst k.bw.nbytes.toNat) b
    refine ⟨rfl, fun i hi => written.same (source i hi), fun i hi => ?_⟩
    replace hi : i < k.bw.nbytes.toNat + 1 := by rwa [← word_succ_toNat hroom]
    rcases Nat.lt_succ_iff_lt_or_eq.mp hi with hold | rfl
    · exact written.same (output i hold)
    · simp
  · rw [Sink.putByte_full hfull, Sink.putByte_full (k := ⟨k.bw, n⟩) hfull]
    exact ⟨rfl, source, output⟩

theorem Sink.Twin.drain (h : Sink.Twin src len k k') (n : Nat) : Sink.Twin src len (Sink.drain n k) (Sink.drain n k') := by
  induction n generalizing k k' with
  | zero => exact h
  | succ n ih =>
    have next := h.putByte (k.bw.acc.setWidth 8)
    unfold Sink.drain
    rw [h.bw]
    exact ih (next.registers (by rw [next.bw]) rfl rfl)

theorem Sink.Twin.put (h : Sink.Twin src len k k') (v n : Nat) : Sink.Twin src len (k.put v n) (k'.put v n) := by
  unfold Sink.put
  rw [h.bw]
  have next := (h.registers (w := { k.bw with acc := k.bw.acc ||| (BitVec.ofNat 64 v <<< k.bw.nbits.toNat) }) rfl rfl rfl).drain
    ((k.bw.nbits.toNat + n) / 8)
  exact next.registers (by rw [next.bw]) rfl rfl

theorem Sink.Twin.align (h : Sink.Twin src len k k') : Sink.Twin src len k.align k'.align := by
  have next := h.putByte (k.bw.acc.setWidth 8)
  unfold Sink.align
  rw [h.bw]
  split
  · exact next.registers (by rw [next.bw]) rfl rfl
  · exact h

theorem Sink.Twin.putBytes (h : Sink.Twin src len k k') {i n : Nat} (hn : i + n ≤ len) :
    Sink.Twin src len (Sink.putBytes src i n k) (Sink.putBytes src i n k') := by
  induction n generalizing i k k' with
  | zero => exact h
  | succ n ih =>
    rw [Sink.putBytes, Sink.putBytes, h.source i (by omega)]
    exact ih (h.putByte _) (by omega)

theorem Sink.Twin.foldl {α : Type} {f : Sink → α → Sink}
    (hf : ∀ {k k'} a, Sink.Twin src len k k' → Sink.Twin src len (f k a) (f k' a)) (l : List α) (h : Sink.Twin src len k k') :
    Sink.Twin src len (l.foldl f k) (l.foldl f k') := by
  induction l generalizing k k' with
  | nil => exact h
  | cons a l ih => exact ih (hf a h)

/-! ## Emission (rules R242 to R245) -/

theorem Sink.Twin.emitStored (h : Sink.Twin src len k k') {start blen : Nat} (hn : start + blen ≤ len) (final : Bool) :
    Sink.Twin src len (k.emitStored src start blen final) (k'.emitStored src start blen final) :=
  (((((h.put _ _).put _ _).align).put _ _).put _ _).putBytes hn

theorem Sink.Twin.putSymbol (h : Sink.Twin src len k k') (b : Huff) (x : Alphabet) (s : Nat) :
    Sink.Twin src len (k.putSymbol b x s) (k'.putSymbol b x s) := h.put _ _

theorem Sink.Twin.emitToken (h : Sink.Twin src len k k') (b : Huff) (t : Token) :
    Sink.Twin src len (Sink.emitToken b k t) (Sink.emitToken b k' t) := by
  cases t with
  | lit v => exact h.putSymbol b _ _
  | copy length off => exact (((h.putSymbol b _ _).put _ _).putSymbol b _ _).put _ _

theorem Sink.Twin.emitTokens (h : Sink.Twin src len k k') (b : Huff) (toks : List Token) :
    Sink.Twin src len (k.emitTokens b toks) (k'.emitTokens b toks) :=
  (Sink.Twin.foldl (fun t h => h.emitToken b t) toks h).putSymbol b _ _

theorem Sink.Twin.emitItem (h : Sink.Twin src len k k') (b : Huff) (it : Nat × Nat) :
    Sink.Twin src len (Sink.emitItem b k it) (Sink.emitItem b k' it) := by
  have symbol := h.putSymbol b .precode it.1
  unfold Sink.emitItem
  dsimp only
  split
  · exact symbol.put _ _
  · exact symbol

theorem Sink.Twin.emitDynamicHeader (h : Sink.Twin src len k k') (b : Huff) (final : Bool) :
    Sink.Twin src len (k.emitDynamicHeader b final) (k'.emitDynamicHeader b final) := by
  have counts := ((((h.put final.toNat 1).put 2 2).put (b.hb.nlit.toNat - 257) 5).put
    (b.hb.ndist.toNat - 1) 5).put (b.hb.npre.toNat - 4) 4
  have lengths := Sink.Twin.foldl (fun s h => h.put (Table.get b.lens.precode s).toNat 3) (precodeOrder.take b.hb.npre.toNat) counts
  exact Sink.Twin.foldl (fun it h => h.emitItem b it) b.hb.itemList lengths

end

/-! ## The codes of a block (rules R238, R244, R245) -/

/-- The two builders send the same block: they agree in all but the codes of litlen and offset symbols, which are
built anew for a block, and the items past the last one sent. -/
structure Huff.SendsAs (b b' : Huff) : Prop where
  freq : b'.freq = b.freq
  lens : b'.lens = b.lens
  precode : b'.code.precode = b.code.precode
  items : b'.hb.itemList = b.hb.itemList
  nlit : b'.hb.nlit = b.hb.nlit
  ndist : b'.hb.ndist = b.hb.ndist
  npre : b'.hb.npre = b.hb.npre

/-- The counts after tallying depend on the counts before alone. -/
theorem Huff.foldl_tallyToken_freq (toks : List Token) {b b' : Huff} (h : b'.freq = b.freq) :
    (toks.foldl Huff.tallyToken b').freq = (toks.foldl Huff.tallyToken b).freq := by
  induction toks generalizing b b' with
  | nil => exact h
  | cons t toks ih =>
    refine ih ?_
    cases t <;> simp only [Huff.tallyToken, Huff.tallyMatch, Huff.tally, h]

/-- `Lens(litlen)`, `Lens(offset)`, `Precode()` overwrite every length. -/
theorem Huff.built_of_freq {b b' : Huff} (h : b'.freq = b.freq) :
    ((b'.buildLens .litlen).buildLens .offset).buildPrecode.freq = ((b.buildLens .litlen).buildLens .offset).buildPrecode.freq
      ∧ ((b'.buildLens .litlen).buildLens .offset).buildPrecode.lens
        = ((b.buildLens .litlen).buildLens .offset).buildPrecode.lens := by
  obtain ⟨freq, lens, code, hb⟩ := b
  obtain ⟨freq', lens', code', hb'⟩ := b'
  cases h
  exact ⟨rfl, rfl⟩

/-- The statistics of a block depend on its tokens alone. -/
theorem Huff.statistics_sendsAs (b b' : Huff) (toks : List Token) : Huff.SendsAs (b.statistics toks) (b'.statistics toks) := by
  obtain ⟨freq, lens⟩ : (b'.statistics toks).freq = (b.statistics toks).freq
      ∧ (b'.statistics toks).lens = (b.statistics toks).lens :=
    Huff.built_of_freq (congrArg (fun t => t.put .litlen (Table.bump (t.table .litlen) eobSymbol))
      (Huff.foldl_tallyToken_freq toks (b := b.clear) (b' := b'.clear) rfl))
  have d := b.described_statistics toks
  have d' := b'.described_statistics toks
  refine ⟨freq, lens, ?_, ?_, BitVec.eq_of_toNat_eq ?_, BitVec.eq_of_toNat_eq ?_, BitVec.eq_of_toNat_eq ?_⟩
  · exact d'.coded.code.trans (by rw [lens]; exact d.coded.code.symm)
  · rw [d'.items, d.items, lens]
  · rw [d'.nlit, d.nlit, lens]
  · rw [d'.ndist, d.ndist, lens]
  · rw [d'.npre, d.npre, lens]

section
variable {b b' : Huff} (h : Huff.SendsAs b b')
include h

theorem Huff.SendsAs.costFixed (extra : Nat) : b'.costFixed extra = b.costFixed extra := by
  unfold Huff.costFixed
  rw [h.freq]

theorem Huff.SendsAs.costDynamic (extra : Nat) : b'.costDynamic extra = b.costDynamic extra := by
  unfold Huff.costDynamic
  rw [h.freq, h.lens, h.items, h.npre]

/-- Building the codes of litlen and offset symbols makes all codes the same. -/
theorem Huff.SendsAs.buildCodes :
    ((b'.buildCodes .litlen).buildCodes .offset).lens = ((b.buildCodes .litlen).buildCodes .offset).lens
      ∧ ((b'.buildCodes .litlen).buildCodes .offset).code = ((b.buildCodes .litlen).buildCodes .offset).code := by
  obtain ⟨freq, lens, ⟨l, o, p⟩, hb⟩ := b
  obtain ⟨freq', lens', ⟨l', o', p'⟩, hb'⟩ := b'
  obtain ⟨-, rfl, rfl⟩ := h
  exact ⟨rfl, rfl⟩

theorem Huff.SendsAs.loadFixed : b'.loadFixed.lens = b.loadFixed.lens ∧ b'.loadFixed.code = b.loadFixed.code := by
  refine Huff.SendsAs.buildCodes (b := { b with lens := _ }) (b' := { b' with lens := _ })
    ⟨h.freq, ?_, h.precode, h.items, h.nlit, h.ndist, h.npre⟩
  rw [h.lens]

theorem Huff.SendsAs.emitDynamicHeader (k : Sink) (final : Bool) : k.emitDynamicHeader b' final = k.emitDynamicHeader b final := by
  have item : Sink.emitItem b' = Sink.emitItem b := by
    funext k it
    simp only [Sink.emitItem, Sink.putSymbol, Trio.table, h.lens, h.precode]
  unfold Sink.emitDynamicHeader
  rw [h.nlit, h.ndist, h.npre, h.lens, h.items, item]

end

/-- Emitting tokens reads the codes and their lengths alone (rule R245). -/
theorem Sink.emitTokens_congr {b b' : Huff} (h : b'.lens = b.lens ∧ b'.code = b.code) (k : Sink) (toks : List Token) :
    k.emitTokens b' toks = k.emitTokens b toks := by
  obtain ⟨freq, lens, code, hb⟩ := b
  obtain ⟨freq', lens', code', hb'⟩ := b'
  obtain ⟨rfl, rfl⟩ := h
  have token : Sink.emitToken ⟨freq', lens', code', hb'⟩ = Sink.emitToken ⟨freq, lens', code', hb⟩ := by
    funext k t
    cases t <;> rfl
  unfold Sink.emitTokens
  rw [token]
  rfl

/-- A block is sent the same whatever the builder held before (rules R238 to R245). -/
theorem Deflate.emitBlock_twin {src : Word} {len bstart bend : Nat} {d d' : Deflate} (htok : d'.cp.tok = d.cp.tok)
    (h : Sink.Twin src len d.out d'.out) (hle : bstart ≤ bend) (hend : bend ≤ len) (final : Bool) :
    Sink.Twin src len (d.emitBlock src bstart bend final).out (d'.emitBlock src bstart bend final).out := by
  have same := d.huff.statistics_sendsAs d'.huff d.cp.tok
  unfold Deflate.emitBlock
  dsimp only
  rw [htok, h.bw, same.costFixed, same.costDynamic]
  split
  · exact h.emitStored (by omega) final
  · split
    · rw [Sink.emitTokens_congr same.loadFixed]
      exact ((h.put _ _).put _ _).emitTokens _ _
    · rw [Sink.emitTokens_congr same.buildCodes, same.emitDynamicHeader]
      exact (h.emitDynamicHeader _ final).emitTokens _ _

/-! ## Parsing (rules R235 to R237) -/

section
variable {mf : MatchFinder} {m n : Memory} (same : Memory.sameBytes m n mf.src mf.len.toNat)
include same

theorem Parse.At.find_sameBytes {k : Nat} {p : Parse} (h : Parse.At mf k p) (depth nice : Nat) :
    p.mf.find n depth nice = p.mf.find m depth nice :=
  MatchFinder.find_sameBytes (by rwa [h.src, h.len]) depth nice

theorem Parse.At.take_sameBytes {k : Nat} {p : Parse} (h : Parse.At mf k p) (len off skip : Nat) :
    p.take n len off skip = p.take m len off skip := by
  unfold Parse.take
  rw [MatchFinder.skip_sameBytes skip (by rwa [h.src, h.len])]

theorem Parse.At.literal_sameBytes {k : Nat} {p : Parse} (h : Parse.At mf k p) (hp : p.pos < mf.len.toNat) :
    p.literal n = p.literal m := by
  have byte : p.mf.byteAt n p.pos = p.mf.byteAt m p.pos := by
    unfold MatchFinder.byteAt
    rw [h.src]
    exact same _ hp
  unfold Parse.literal
  rw [byte]

theorem Parse.lazyStep_sameBytes (hd : Handle) (fuel : Nat) {len off : Nat} {p : Parse} (h : Parse.At mf 1 p) (h3 : 3 ≤ len)
    (hp : p.pos + len ≤ mf.len.toNat) : Parse.lazyStep hd n fuel len off p = Parse.lazyStep hd m fuel len off p := by
  induction fuel generalizing len off p with
  | zero => rfl
  | succ fuel ih =>
    have found := Parse.at_find h (by omega) m hd.depth.toNat hd.nice.toNat
    have spec := MatchFinder.find_spec (mf := p.mf) m hd.depth.toNat hd.nice.toNat h.window (by rw [h.cur, h.len]; omega)
    rw [h.cur, h.len] at spec
    unfold Parse.lazyStep
    dsimp only
    rw [h.find_sameBytes same, h.take_sameBytes same, found.take_sameBytes same, found.literal_sameBytes same (by dsimp only; omega)]
    split
    · rfl
    · split
      · rename_i longer
        rcases spec with nothing | ⟨hmin, -, hfit, -⟩
        · rw [nothing] at longer
          cases longer
        · exact ih (Parse.at_literal found (by dsimp only; omega) m).1 hmin (by simp only [Parse.literal]; omega)
      · rfl

theorem Parse.step_sameBytes (hd : Handle) {p : Parse} (h : Parse.At mf 0 p) (hp : p.pos < mf.len.toNat) :
    p.step hd n = p.step hd m := by
  have found := Parse.at_find h hp m hd.depth.toNat hd.nice.toNat
  have spec := MatchFinder.find_spec (mf := p.mf) m hd.depth.toNat hd.nice.toNat h.window (by rw [h.cur, h.len]; exact hp)
  rw [h.cur, h.len] at spec
  unfold Parse.step
  dsimp only
  rw [h.find_sameBytes same, found.take_sameBytes same, found.literal_sameBytes same hp]
  split
  · rfl
  · rename_i hit
    rcases spec with nothing | ⟨hmin, -, hfit, -⟩
    · rw [nothing] at hit
      exact absurd rfl hit
    · rw [Parse.lazyStep_sameBytes same hd maxMatch found hmin (by dsimp only; omega)]

theorem Parse.block_sameBytes (hd : Handle) (bstart fuel : Nat) {p : Parse} (h : Parse.At mf 0 p) :
    Parse.block hd n mf.len.toNat bstart fuel p = Parse.block hd m mf.len.toNat bstart fuel p := by
  induction fuel generalizing p with
  | zero => rfl
  | succ fuel ih =>
    unfold Parse.block
    split
    · rename_i more
      rw [Parse.step_sameBytes same hd h more.1]
      exact ih (Parse.step_spec hd m h more.1).1
    · rfl

end

/-! ## The stream (rules R233, R234) -/

theorem Deflate.blocks_twin (hd : Handle) {src : Word} {len : Nat} (fuel : Nat) {pos : Nat} {d d' : Deflate} (hmf : d'.mf = d.mf)
    (hsrc : d.mf.src = src) (hlen : d.mf.len.toNat = len) (hcur : d.mf.cur = pos) (hwin : d.mf.pos.toNat ≤ windowSize)
    (hpos : pos ≤ len) (h : Sink.Twin src len d.out d'.out) :
    Sink.Twin src len (Deflate.blocks hd src len fuel pos d).out (Deflate.blocks hd src len fuel pos d').out := by
  induction fuel generalizing pos d d' with
  | zero => exact h
  | succ fuel ih =>
    have start : Parse.At d.mf 0 ⟨d.mf, [], pos⟩ := ⟨rfl, rfl, hwin, hcur, by rw [hlen]; exact hpos, by simp⟩
    have parsed := Parse.block_sameBytes (n := d'.out.mem) (by rw [hsrc, hlen]; exact h.source) hd pos blockTarget start
    obtain ⟨stop, hle, -⟩ := Parse.block_spec hd d.out.mem pos blockTarget start (by simp) (by simp) (by dsimp only; omega)
    rw [hlen] at parsed stop hle
    unfold Deflate.blocks
    dsimp only
    rw [hmf, parsed]
    generalize Parse.block hd d.out.mem len pos blockTarget ⟨d.mf, [], pos⟩ = q at stop hle
    have inside : q.pos ≤ len := hlen ▸ stop.inside
    have sent := Deflate.emitBlock_twin (d := { d with mf := q.mf, cp := ⟨q.toks.reverse, BitVec.ofNat 32 pos⟩ })
      (d' := { d' with mf := q.mf, cp := ⟨q.toks.reverse, BitVec.ofNat 32 pos⟩ }) rfl h hle inside (decide (q.pos = len))
    split
    · exact sent
    · have emitted (d : Deflate) : (Deflate.emitBlock { d with mf := q.mf, cp := ⟨q.toks.reverse, BitVec.ofNat 32 pos⟩ } src pos
          q.pos (decide (q.pos = len))).mf = q.mf := (Deflate.emitBlock_cp _ _ _ _ _).2
      refine ih ((emitted d').trans (emitted d).symm) ?_ ?_ ?_ ?_ inside sent
      · rw [emitted, stop.src, hsrc]
      · rw [emitted, stop.len, hlen]
      · rw [emitted, stop.cur, Nat.add_zero]
      · rw [emitted]
        exact stop.window

theorem Sink.Twin.storedOnly {src : Word} {len : Nat} (fuel : Nat) {pos : Nat} {k k' : Sink} (hpos : pos ≤ len)
    (h : Sink.Twin src len k k') : Sink.Twin src len (Sink.storedOnly src len fuel pos k) (Sink.storedOnly src len fuel pos k') := by
  induction fuel generalizing pos k k' with
  | zero => exact h
  | succ fuel ih =>
    have fits : pos + min storedMax (len - pos) ≤ len := by omega
    have sent := h.emitStored fits (decide (pos + min storedMax (len - pos) = len))
    unfold Sink.storedOnly
    dsimp only
    split
    · exact sent
    · exact ih fits sent

/-- COMPRESS sends the same stream whatever match-finder, builder and tokens it starts from (rule R233). -/
theorem Deflate.compress_twin (hd : Handle) (p : Port) {d d' : Deflate} (hfit : p.a0.toNat + p.a1.toNat ≤ wordSpan)
    (h : Memory.sameBytes d.out.mem d'.out.mem p.a0 p.a1.toNat) :
    Sink.Twin p.a0 p.a1.toNat (d.compress hd p).out (d'.compress hd p).out := by
  have start : Sink.Twin p.a0 p.a1.toNat ⟨Writer.init p.a2 p.a3, d.out.mem⟩ ⟨Writer.init p.a2 p.a3, d'.out.mem⟩ :=
    ⟨rfl, h, fun _ hi => absurd hi (Nat.not_lt_zero _)⟩
  obtain ⟨hwin, -, -, -⟩ := matchFinderOk_start [] [] hfit
  unfold Deflate.compress Deflate.stream
  dsimp only
  split
  · exact (Sink.Twin.storedOnly (p.a1.toNat + 1) (Nat.zero_le _) start).align
  · exact (Deflate.blocks_twin hd (p.a1.toNat + 1) (d := { d with mf := MatchFinder.init p.a0 p.a1, out := ⟨_, d.out.mem⟩ })
      (d' := { d' with mf := MatchFinder.init p.a0 p.a1, out := ⟨_, d'.out.mem⟩ }) rfl rfl rfl rfl hwin (Nat.zero_le _) start).align

/-! ## COMPRESS -/

/-- Handles of one level have the same parse parameters (rule R38). -/
theorem handle_eq_of_level {h h' : Handle} (ha : h.alive = true) (ha' : h'.alive = true) (ok : handleOk h) (ok' : handleOk h')
    (hl : h'.level = h.level) : h' = h := by
  obtain ⟨-, hrow⟩ := ok ha
  obtain ⟨-, hrow'⟩ := ok' ha'
  rw [hl, ← hrow] at hrow'
  obtain ⟨alive, level, lazy, depth, nice⟩ := h
  obtain ⟨alive', level', lazy', depth', nice'⟩ := h'
  cases ha
  cases ha'
  cases hl
  cases hrow'
  rfl

/-- COMPRESS reads `a0..a3` of the port alone. -/
theorem Deflate.compress_port (hd : Handle) {p p' : Port} (d : Deflate) (h0 : p'.a0 = p.a0) (h1 : p'.a1 = p.a1) (h2 : p'.a2 = p.a2)
    (h3 : p'.a3 = p.a3) : d.compress hd p' = d.compress hd p := by
  unfold Deflate.compress
  rw [h0, h1, h2, h3]

/-- COMPRESS with operands it accepts (rule R233). -/
theorem compressBody_accepted {s : State} (h : checkTwoBufs s.port = true) :
    compressBody s = ((s.withDeflate (s.deflate.compress s.handle s.port)).endDeflate.setA5
        (s.deflate.compress s.handle s.port).out.bw.report, (s.deflate.compress s.handle s.port).out.bw.verdict) := if_pos h

theorem Writer.ovf_of_success {w : Writer} (h : w.verdict = .success) : w.ovf = false := by
  unfold Writer.verdict at h
  split at h
  · cases h
  · simpa using ‹¬ w.ovf = true›

/-- Without an overflow the size reported is the number of bytes committed (rule R233). -/
theorem Writer.report_of_success {w : Writer} (h : w.verdict = .success) : BitVec.ofNat 32 w.report = w.nbytes := by
  rw [Writer.report, Writer.ovf_of_success h, if_neg (by decide), BitVec.ofNat_toNat, BitVec.setWidth_eq]

/-- Without an overflow the destination is shown (rule R246). -/
theorem State.endDeflate_of_success {s : State} (h : s.bw.verdict = .success) : s.endDeflate = s := by
  unfold State.endDeflate
  rw [Writer.ovf_of_success h]

/-- Settles O54: the writers of both runs stay in step from BW.INIT to the final alignment. -/
theorem compressIgnoresHistory : Obligations.CompressIgnoresHistory := by
  intro s s' ha ha' ok ok' hl hops h0 h1 h2 h3 hin
  have hcheck := checkTwoBufs_of_operands hops
  obtain ⟨hsrc, hdst, -⟩ := checkTwoBufs_spec hcheck
  have hcheck' := (checkTwoBufs_congr h0 h1 h2 h3).trans hcheck
  have twin := Deflate.compress_twin s.handle s.port (d := s.deflate) (d' := s'.deflate) hsrc
    (Memory.sameBytes_of_agreeOn hin hsrc)
  have bound := (Deflate.compress_writes s.handle s.port s.deflate hcheck).1.dst
  refine ⟨_, _, exec_alive rfl ha, exec_alive rfl ha', ?_⟩
  simp only [commandBody]
  rw [compressBody_accepted hcheck, compressBody_accepted hcheck', handle_eq_of_level ha ha' ok ok' hl,
    Deflate.compress_port _ _ h0 h1 h2 h3]
  generalize s.deflate.compress s.handle s.port = d at twin bound
  generalize s'.deflate.compress s.handle s.port = d' at twin
  have verdict : d'.out.bw.verdict = d.out.bw.verdict := by rw [twin.bw]
  refine ⟨verdict, by simp [twin.bw], fun success => ?_⟩
  replace success : d.out.bw.verdict = .success := success
  have shown (u : State) (e : Deflate) (h : e.out.bw.verdict = .success) : (u.withDeflate e).endDeflate = u.withDeflate e :=
    State.endDeflate_of_success h
  rw [shown s d success, shown s' d' (verdict.trans success)]
  show agreeOn d.out.mem d'.out.mem s.port.a2 (BitVec.ofNat 32 d.out.bw.report).toNat
  rw [Writer.report_of_success success, ← show d.out.bw.dst = s.port.a2 from bound]
  exact agreeOn_of_sameBytes twin.output

end Sys2Proof.Machine
end

section
/-! PROOF. Two runs of DECOMPRESS (rule R188): the code lengths and decode tables of the past are rebuilt before they
are read, and what a step writes is the same byte in both memories. -/

namespace Sys2Proof.Machine

/-! ## A dynamic header on other tables (rules R366 to R369) -/

/-- The decompressor with other tables. -/
def Inflate.withTables (d : Inflate) (lens : Trio 4) (dtab : Trio 32) : Inflate := { d with lens := lens, dtab := dtab }

/-- The decompressor with other tables but for the precode's lengths, and another output position: what reading a
dynamic header's lengths leaves alone. -/
def Inflate.reframe (d : Inflate) (lens : Trio 4) (dtab : Trio 32) (out : Word) : Inflate :=
  { d with lens := { lens with precode := d.lens.precode }, dtab := dtab, dx := { d.dx with outpos := out } }

section
variable (lens : Trio 4) (dtab : Trio 32) (out : Word)

@[simp] theorem Inflate.withTables_dx (d : Inflate) : (d.withTables lens dtab).dx = d.dx := rfl
@[simp] theorem Inflate.reframe_state (d : Inflate) : (d.reframe lens dtab out).dx.state = d.dx.state := rfl
@[simp] theorem Inflate.reframe_seq (d : Inflate) : (d.reframe lens dtab out).dx.seq = d.dx.seq := rfl
@[simp] theorem Inflate.reframe_br (d : Inflate) : (d.reframe lens dtab out).br = d.br := rfl
@[simp] theorem Inflate.reframe_mem (d : Inflate) : (d.reframe lens dtab out).mem = d.mem := rfl

theorem Inflate.andThen_reframe {d : Inflate} {f : Inflate → Inflate} (h : f (d.reframe lens dtab out) = (f d).reframe lens dtab out) :
    (d.reframe lens dtab out).andThen f = (d.andThen f).reframe lens dtab out := by
  unfold Inflate.andThen
  rw [Inflate.reframe_state]
  split
  · rfl
  all_goals exact h

theorem Inflate.readPrecodeLens_reframe (order : List Nat) (d : Inflate) :
    Inflate.readPrecodeLens order (d.reframe lens dtab out) = (Inflate.readPrecodeLens order d).reframe lens dtab out := by
  induction order generalizing d with
  | nil => rfl
  | cons s order ih =>
    unfold Inflate.readPrecodeLens
    rw [Inflate.reframe_br, Inflate.reframe_mem]
    split
    · rfl
    · rename_i r v _
      exact ih { d with br := r, lens := { d.lens with precode := d.lens.precode.set s (BitVec.ofNat 4 v) } }

theorem Inflate.extend_reframe (d : Inflate) (v : BitVec 4) (r : Nat) :
    (d.reframe lens dtab out).extend v r = (d.extend v r).reframe lens dtab out := by
  unfold Inflate.extend
  rw [apply_ite (Inflate.reframe · lens dtab out)]
  rfl

theorem Inflate.runPrecode_reframe (d : Inflate) (i : Instr) :
    (d.reframe lens dtab out).runPrecode i = (d.runPrecode i).reframe lens dtab out := by
  cases i with
  | preLen value => exact d.extend_reframe lens dtab out _ _
  | preRep extra =>
    show (d.reframe lens dtab out).preRep extra = (d.preRep extra).reframe lens dtab out
    unfold Inflate.preRep
    rw [Inflate.reframe_seq]
    split
    · rfl
    · exact d.extend_reframe lens dtab out _ _
  | preZrep3 extra => exact d.extend_reframe lens dtab out _ _
  | preZrep11 extra => exact d.extend_reframe lens dtab out _ _
  | _ => rfl

theorem Inflate.precodeStep_reframe {d : Inflate} (h : dtab.precode = d.dtab.precode) :
    (d.reframe lens dtab out).precodeStep = d.precodeStep.reframe lens dtab out := by
  obtain ⟨l, o, p⟩ := dtab
  cases h
  have reads (previous : Bool) (r : Reader) : readPrecode (d.reframe lens ⟨l, o, d.dtab.precode⟩ out).source previous r
      = readPrecode d.source previous r := rfl
  unfold Inflate.precodeStep
  rw [reads, Inflate.reframe_seq, Inflate.reframe_br]
  split
  · rfl
  · rename_i r i _
    exact Inflate.runPrecode_reframe lens _ out { d with br := r } i

/-- A length's element leaves the decode tables. -/
theorem Inflate.precodeStep_dtab (d : Inflate) : d.precodeStep.dtab = d.dtab := by
  have own := Inflate.precodeStep_reframe d.lens d.dtab d.dx.outpos (d := d) rfl
  exact congrArg (·.dtab) own

theorem Inflate.readLengths_reframe (fuel : Nat) {d : Inflate} (h : dtab.precode = d.dtab.precode) :
    Inflate.readLengths fuel (d.reframe lens dtab out) = (Inflate.readLengths fuel d).reframe lens dtab out := by
  induction fuel generalizing d with
  | zero => rfl
  | succ fuel ih =>
    rw [Inflate.readLengths, Inflate.readLengths, Inflate.precodeStep_reframe lens dtab out h,
      Inflate.andThen_reframe lens dtab out (ih (by rw [Inflate.precodeStep_dtab, h])), apply_ite (Inflate.reframe · lens dtab out)]
    rfl

end

/-- Reading the precode's lengths moves no output position and does the same with other tables. -/
theorem Inflate.readPrecodeLens_withTables (order : List Nat) {d : Inflate} {lens : Trio 4} (dtab : Trio 32)
    (h : lens.precode = d.lens.precode) :
    (Inflate.readPrecodeLens order d).dx.outpos = d.dx.outpos
      ∧ Inflate.readPrecodeLens order (d.withTables lens dtab) = (Inflate.readPrecodeLens order d).withTables
          { lens with precode := (Inflate.readPrecodeLens order d).lens.precode } dtab := by
  have own := Inflate.readPrecodeLens_reframe d.lens d.dtab d.dx.outpos order d
  have hout : (Inflate.readPrecodeLens order d).dx.outpos = d.dx.outpos := congrArg (·.dx.outpos) own
  have other := Inflate.readPrecodeLens_reframe lens dtab d.dx.outpos order d
  obtain ⟨l, o, p⟩ := lens
  cases h
  refine ⟨hout, other.trans ?_⟩
  rw [Inflate.reframe, ← hout]
  rfl

/-- Reading a length sequence moves no output position and does the same with other tables but for the precode's. -/
theorem Inflate.readLengths_withTables (fuel : Nat) {d : Inflate} {lens : Trio 4} {dtab : Trio 32}
    (h : lens.precode = d.lens.precode) (ht : dtab.precode = d.dtab.precode) :
    (Inflate.readLengths fuel d).dx.outpos = d.dx.outpos
      ∧ Inflate.readLengths fuel (d.withTables lens dtab) = (Inflate.readLengths fuel d).withTables
          { lens with precode := (Inflate.readLengths fuel d).lens.precode } dtab := by
  have own := Inflate.readLengths_reframe d.lens d.dtab d.dx.outpos fuel (d := d) rfl
  have hout : (Inflate.readLengths fuel d).dx.outpos = d.dx.outpos := congrArg (·.dx.outpos) own
  have other := Inflate.readLengths_reframe lens dtab d.dx.outpos fuel ht
  obtain ⟨l, o, p⟩ := lens
  cases h
  refine ⟨hout, other.trans ?_⟩
  rw [Inflate.reframe, ← hout]
  rfl

/-! ## A step on other tables -/

/-- With other tables the operation does the same but for the tables; and where it leads to DECODE_LOOP, the two
tables read there are the same too. -/
def Inflate.Recodes (d : Inflate) (lens : Trio 4) (dtab : Trio 32) (f : Inflate → Inflate) : Prop :=
  ∃ lens' dtab', f (d.withTables lens dtab) = (f d).withTables lens' dtab'
    ∧ ((f d).dx.state = .decodeLoop → dtab'.litlen = (f d).dtab.litlen ∧ dtab'.offset = (f d).dtab.offset)

section
variable {d : Inflate} {lens : Trio 4} {dtab : Trio 32}

/-- An operation that leaves the tables alone and leads to DECODE_LOOP from there only. -/
theorem Inflate.Recodes.untouched {f : Inflate → Inflate}
    (h : d.dx.state = .decodeLoop → dtab.litlen = d.dtab.litlen ∧ dtab.offset = d.dtab.offset)
    (same : ∀ lens dtab, f (d.withTables lens dtab) = (f d).withTables lens dtab)
    (loop : (f d).dx.state = .decodeLoop → d.dx.state = .decodeLoop) : d.Recodes lens dtab f := by
  have own := congrArg (·.dtab) (same d.lens d.dtab)
  refine ⟨lens, dtab, same lens dtab, fun e => ?_⟩
  rw [show (f d).dtab = d.dtab from own]
  exact h (loop e)

/-- An operation given by what it makes of the decompressor with either tables. -/
theorem Inflate.Recodes.of_eq {f : Inflate → Inflate} {r r' : Inflate} (hd : f d = r) (hd' : f (d.withTables lens dtab) = r')
    {lens' : Trio 4} {dtab' : Trio 32} (same : r' = r.withTables lens' dtab')
    (loop : r.dx.state = .decodeLoop → dtab'.litlen = r.dtab.litlen ∧ dtab'.offset = r.dtab.offset) : d.Recodes lens dtab f := by
  subst hd hd'
  exact ⟨lens', dtab', same, loop⟩

end

theorem Inflate.andThen_of_error {d : Inflate} (h : d.dx.state = .error) (f : Inflate → Inflate) : d.andThen f = d := by
  rw [Inflate.andThen, h]

theorem Inflate.buildBoth_refused_litlen {d : Inflate} (ha : buildTable .litlen (d.lens.lengths .litlen) = none) :
    d.buildBoth = d.error .badData := by
  rw [Inflate.buildBoth, Inflate.build, ha]

theorem Inflate.buildBoth_refused_offset {d : Inflate} {a : Table 32} (ha : buildTable .litlen (d.lens.lengths .litlen) = some a)
    (hb : buildTable .offset (d.lens.lengths .offset) = none) :
    d.buildBoth = Inflate.error { d with dtab := d.dtab.put .litlen a } .badData := by
  simp only [Inflate.buildBoth, Inflate.build, ha, hb]

theorem Inflate.buildDynamic_refused {d : Inflate} (ha : buildTable .precode (d.lens.lengths .precode) = none) :
    d.buildDynamic = (d.error .badData).dropSeq := by
  rw [Inflate.buildDynamic, Inflate.build, ha]
  rfl

theorem Inflate.dynamicHeader_refused {d : Inflate} {hlit hdist : BitVec 5} {hclen : BitVec 4}
    (h : (d.declared hlit hdist hclen).countsRefused = true) :
    d.dynamicHeader hlit hdist hclen = Inflate.error { d.declared hlit hdist hclen with lens := d.lens } .badData := if_pos h

theorem Inflate.dynamicHeader_accepted {d : Inflate} {hlit hdist : BitVec 5} {hclen : BitVec 4}
    (h : ¬ (d.declared hlit hdist hclen).countsRefused = true) :
    d.dynamicHeader hlit hdist hclen = (Inflate.readPrecodeLens (precodeOrder.take (hclen.toNat + 4))
      (d.declared hlit hdist hclen)).andThen Inflate.buildDynamic := if_neg h

theorem Inflate.buildDynamic_built {d : Inflate} {a : Table 32} (ha : buildTable .precode (d.lens.lengths .precode) = some a) :
    d.buildDynamic = ((Inflate.readLengths d.total (Inflate.dropSeq { d with dtab := d.dtab.put .precode a })).andThen
      fun d => d.loadLengths.buildBoth).dropSeq := by
  rw [Inflate.buildDynamic, Inflate.build, ha]
  rfl

section
variable {d : Inflate} {lens : Trio 4} {dtab : Trio 32}

/-- The two code tables are built from the lengths alone (rules R365, R369). -/
theorem Inflate.buildBoth_recodes (hl : lens.litlen = d.lens.litlen) (ho : lens.offset = d.lens.offset) :
    d.Recodes lens dtab Inflate.buildBoth := by
  obtain ⟨l, o, p⟩ := lens
  cases hl
  cases ho
  cases ha : buildTable .litlen (d.lens.lengths .litlen) with
  | none =>
    exact .of_eq (Inflate.buildBoth_refused_litlen ha)
      (Inflate.buildBoth_refused_litlen (d := d.withTables ⟨d.lens.litlen, d.lens.offset, p⟩ dtab) ha) rfl nofun
  | some a =>
    cases hb : buildTable .offset (d.lens.lengths .offset) with
    | none =>
      exact .of_eq (Inflate.buildBoth_refused_offset ha hb)
        (Inflate.buildBoth_refused_offset (d := d.withTables ⟨d.lens.litlen, d.lens.offset, p⟩ dtab) ha hb) rfl nofun
    | some b =>
      exact .of_eq (Inflate.buildBoth_eq ha hb)
        (Inflate.buildBoth_eq (d := d.withTables ⟨d.lens.litlen, d.lens.offset, p⟩ dtab) ha hb) rfl fun _ => ⟨rfl, rfl⟩

theorem Inflate.buildFixed_recodes : d.Recodes lens dtab Inflate.buildFixed := by
  have fixed (t t' : Trio 4) : t.loadFixed.litlen = t'.loadFixed.litlen ∧ t.loadFixed.offset = t'.loadFixed.offset := ⟨rfl, rfl⟩
  have hd (c : Inflate) : c.buildFixed = Inflate.buildBoth { c with lens := c.lens.loadFixed } := rfl
  obtain ⟨hl, ho⟩ := fixed lens d.lens
  obtain ⟨lens', dtab', same, loop⟩ := Inflate.buildBoth_recodes (d := { d with lens := d.lens.loadFixed }) (lens := lens.loadFixed)
    (dtab := dtab) hl ho
  exact .of_eq (hd d) (hd _) same loop

/-- The precode's table is built, the sequence read with it and both code tables built from the sequence. -/
theorem Inflate.buildDynamic_recodes (hp : lens.precode = d.lens.precode) : d.Recodes lens dtab Inflate.buildDynamic := by
  obtain ⟨l, o, p⟩ := lens
  cases hp
  cases ha : buildTable .precode (d.lens.lengths .precode) with
  | none =>
    exact .of_eq (Inflate.buildDynamic_refused ha)
      (Inflate.buildDynamic_refused (d := d.withTables ⟨l, o, d.lens.precode⟩ dtab) ha) rfl nofun
  | some a =>
    obtain ⟨-, lengths⟩ := Inflate.readLengths_withTables d.total (d := Inflate.dropSeq { d with dtab := d.dtab.put .precode a })
      (lens := ⟨l, o, d.lens.precode⟩) (dtab := dtab.put .precode a) rfl rfl
    have hd := Inflate.buildDynamic_built ha
    have hd' := (Inflate.buildDynamic_built (d := d.withTables ⟨l, o, d.lens.precode⟩ dtab) ha).trans
      (congrArg (fun d => (d.andThen fun d => d.loadLengths.buildBoth).dropSeq) lengths)
    generalize Inflate.readLengths d.total _ = q at hd hd'
    by_cases hq : q.dx.state = .error
    · rw [Inflate.andThen_of_error hq] at hd
      rw [Inflate.andThen_of_error (by exact hq)] at hd'
      exact .of_eq hd hd' rfl fun e => by cases hq.symm.trans e
    · rw [Inflate.andThen_of_ne hq] at hd
      rw [Inflate.andThen_of_ne (by exact hq)] at hd'
      obtain ⟨lens', dtab', same, loop⟩ := Inflate.buildBoth_recodes (d := q.loadLengths)
        (lens := ⟨q.loadLengths.lens.litlen, q.loadLengths.lens.offset, q.lens.precode⟩) (dtab := dtab.put .precode a) rfl rfl
      exact .of_eq hd hd' (lens' := lens') (dtab' := dtab') (by exact congrArg Inflate.dropSeq same) loop

/-- A dynamic header (rules R366 to R369). -/
theorem Inflate.dynamicHeader_recodes (hlit hdist : BitVec 5) (hclen : BitVec 4) :
    d.Recodes lens dtab (·.dynamicHeader hlit hdist hclen) := by
  obtain ⟨l, o, p⟩ := lens
  by_cases hc : (d.declared hlit hdist hclen).countsRefused = true
  · exact .of_eq (Inflate.dynamicHeader_refused hc) (Inflate.dynamicHeader_refused (d := d.withTables ⟨l, o, p⟩ dtab) hc) rfl nofun
  · have hd := Inflate.dynamicHeader_accepted hc
    obtain ⟨-, lengths⟩ := Inflate.readPrecodeLens_withTables (precodeOrder.take (hclen.toNat + 4)) (d := d.declared hlit hdist hclen)
      (lens := ⟨l, o, []⟩) dtab rfl
    have hd' := (Inflate.dynamicHeader_accepted (d := d.withTables ⟨l, o, p⟩ dtab) hc).trans
      (congrArg (·.andThen Inflate.buildDynamic) lengths)
    generalize Inflate.readPrecodeLens _ (d.declared hlit hdist hclen) = q at hd hd'
    by_cases hq : q.dx.state = .error
    · rw [Inflate.andThen_of_error hq] at hd
      rw [Inflate.andThen_of_error (by exact hq)] at hd'
      exact .of_eq hd hd' rfl fun e => by cases hq.symm.trans e
    · rw [Inflate.andThen_of_ne hq] at hd
      rw [Inflate.andThen_of_ne (by exact hq)] at hd'
      obtain ⟨lens', dtab', same, loop⟩ := Inflate.buildDynamic_recodes (d := q) (lens := ⟨l, o, q.lens.precode⟩) (dtab := dtab) rfl
      exact .of_eq hd hd' same loop

theorem Inflate.blockDone_withTables : (d.withTables lens dtab).blockDone = d.blockDone.withTables lens dtab := by
  unfold Inflate.blockDone Inflate.finish
  simp only [apply_ite (Inflate.withTables · lens dtab)]
  rfl

theorem Inflate.storedBody_withTables (len nlen : BitVec 16) :
    (d.withTables lens dtab).storedBody len nlen = (d.storedBody len nlen).withTables lens dtab := by
  unfold Inflate.storedBody
  simp only [apply_ite (Inflate.withTables · lens dtab), ← Inflate.blockDone_withTables]
  rfl

theorem Inflate.literal_withTables (b : Byte) : (d.withTables lens dtab).literal b = (d.literal b).withTables lens dtab := by
  unfold Inflate.literal
  rw [apply_ite (Inflate.withTables · lens dtab)]
  rfl

theorem Inflate.replay_withTables (len off : Nat) :
    (d.withTables lens dtab).replay len off = (d.replay len off).withTables lens dtab := by
  unfold Inflate.replay
  simp only [apply_ite (Inflate.withTables · lens dtab)]
  rfl

theorem Inflate.blockDone_ne_decodeLoop (d : Inflate) : d.blockDone.dx.state ≠ .decodeLoop := by
  unfold Inflate.blockDone Inflate.finish
  repeat' split
  all_goals nofun

/-- No element but a dynamic header leads to DECODE_LOOP from another state (rules R364, R371 to R376). -/
theorem Inflate.run_loops {i : Instr} (hi : ∀ hlit hdist hclen, i ≠ .dynamicHeader hlit hdist hclen) (hpre : i.expect ≠ .precode)
    (e : (d.run i).dx.state = .decodeLoop) : d.dx.state = .decodeLoop := by
  cases i with
  | preLen | preRep | preZrep3 | preZrep11 => exact absurd rfl hpre
  | dynamicHeader hlit hdist hclen => exact absurd rfl (hi _ _ _)
  | storedBody len nlen =>
    change (d.storedBody len nlen).dx.state = _ at e
    unfold Inflate.storedBody at e
    repeat' split at e
    · cases e
    · cases e
    · cases e
    · exact absurd e (Inflate.blockDone_ne_decodeLoop _)
  | lit value =>
    change (d.literal value).dx.state = _ at e
    unfold Inflate.literal at e
    split at e
    · cases e
    · exact e
  | eob => exact absurd e d.blockDone_ne_decodeLoop
  | copyMatch ls lx os ox =>
    change (d.replay _ _).dx.state = _ at e
    unfold Inflate.replay at e
    repeat' split at e
    · cases e
    · cases e
    · exact e
  | blockStored | blockFixed | blockDynamic | blockReserved | llReserved | ofReserved => cases e
  | _ => exact e

variable (h : d.dx.state = .decodeLoop → dtab.litlen = d.dtab.litlen ∧ dtab.offset = d.dtab.offset)
include h

/-- An element on other tables: only a dynamic header touches them (rules R364, R366 to R375). -/
theorem Inflate.run_recodes {i : Instr} (hpre : i.expect ≠ .precode) : d.Recodes lens dtab (·.run i) := by
  cases i with
  | preLen | preRep | preZrep3 | preZrep11 => exact absurd rfl hpre
  | dynamicHeader hlit hdist hclen => exact Inflate.dynamicHeader_recodes hlit hdist hclen
  | storedBody len nlen => exact .untouched h (fun _ _ => Inflate.storedBody_withTables len nlen) (Inflate.run_loops nofun hpre)
  | lit value => exact .untouched h (fun _ _ => Inflate.literal_withTables value) (Inflate.run_loops nofun hpre)
  | eob => exact .untouched h (fun _ _ => Inflate.blockDone_withTables) (Inflate.run_loops nofun hpre)
  | copyMatch ls lx os ox => exact .untouched h (fun _ _ => Inflate.replay_withTables _ _) (Inflate.run_loops nofun hpre)
  | _ => exact .untouched h (fun _ _ => rfl) (Inflate.run_loops nofun hpre)

/-- Only DECODE_LOOP reads symbols, of litlen and offset (rule R362). -/
theorem Inflate.fetch_withTables : (d.withTables lens dtab).fetch = d.fetch := by
  unfold Inflate.fetch
  rw [Inflate.withTables_dx]
  cases hs : d.dx.state with
  | decodeLoop =>
    obtain ⟨l, o, p⟩ := dtab
    obtain ⟨rfl, rfl⟩ := h hs
    rfl
  | _ => rfl

theorem Inflate.fetchAndRun_recodes : d.Recodes lens dtab Inflate.fetchAndRun := by
  have fetched := Inflate.fetch_withTables (lens := lens) h
  rcases hf : d.fetch with ⟨r, reject | i⟩
  · exact .of_eq (Inflate.fetchAndRun_of_error hf) (Inflate.fetchAndRun_of_error (fetched.trans hf)) rfl nofun
  · obtain ⟨lens', dtab', same, loop⟩ := Inflate.run_recodes (d := { d with br := r }) (lens := lens) h (Inflate.fetch_expect hf)
    exact .of_eq (Inflate.fetchAndRun_eq hf) (Inflate.fetchAndRun_eq (fetched.trans hf)) same loop

theorem Inflate.step_recodes : d.Recodes lens dtab Inflate.step := by
  have fetched := Inflate.fetchAndRun_recodes (lens := lens) h
  unfold Inflate.Recodes Inflate.step
  rw [Inflate.withTables_dx]
  split
  · exact fetched
  · split
    · exact Inflate.buildFixed_recodes
    · exact fetched
  · exact fetched
  · exact fetched
  · exact ⟨lens, dtab, rfl, h⟩
  · exact ⟨lens, dtab, rfl, h⟩

end

/-! ## The output of a step on another memory -/

/-- A forward copy ends with its last byte. -/
theorem Memory.copyForward_last (src dst : Word) (i j n : Nat) (m : Memory) :
    Memory.copyForward src dst i j (n + 1) m = (Memory.copyForward src dst i j n m).write (bufferAddr dst (j + n))
      ((Memory.copyForward src dst i j n m).read (bufferAddr src (i + n))) := by
  induction n generalizing i j m with
  | zero => rfl
  | succ n ih =>
    rw [Memory.copyForward, ih, Memory.copyForward, Nat.succ_add_eq_add_succ, Nat.succ_add_eq_add_succ]

/-- A forward copy behind an output that is the same in both memories, from bytes that are the same or that it wrote
itself, leaves a longer output that is the same (rule R104). -/
theorem Memory.sameBytes_copyForward {src dst : Word} {i j n : Nat} {m m' : Memory}
    (h : ∀ k, k < n → m'.read (bufferAddr src (i + k)) = m.read (bufferAddr src (i + k))
      ∨ ∃ l, l < k ∧ bufferAddr src (i + k) = bufferAddr dst (j + l))
    (out : Memory.sameBytes m m' dst j) :
    Memory.sameBytes (Memory.copyForward src dst i j n m) (Memory.copyForward src dst i j n m') dst (j + n) := by
  induction n with
  | zero => exact out
  | succ n ih =>
    have before : ∀ k, k < n → _ := fun k hk => h k (by omega)
    have grown := ih before
    have copied : Memory.sameOrKept m m' (Memory.copyForward src dst i j n m) (Memory.copyForward src dst i j n m') :=
      Memory.copyForward_agree before
    have byte : (Memory.copyForward src dst i j n m').read (bufferAddr src (i + n))
        = (Memory.copyForward src dst i j n m).read (bufferAddr src (i + n)) := by
      rcases h n (Nat.lt_succ_self n) with same | ⟨l, hl, e⟩
      · exact copied.same same
      · rw [e]
        exact grown (j + l) (by omega)
    rw [Memory.copyForward_last, Memory.copyForward_last, byte]
    intro k hk
    rcases Nat.lt_succ_iff_lt_or_eq.mp hk with hold | rfl
    · exact (Memory.sameOrKept_write _ _ _ _).same (grown k hold)
    · simp

/-- The output position never moves further than the bytes added. -/
theorem toNat_add_le (p : Word) (n : Nat) : (p + BitVec.ofNat 32 n).toNat ≤ p.toNat + n := by
  rw [BitVec.toNat_add, BitVec.toNat_ofNat]
  exact Nat.le_trans (Nat.mod_le _ _) (Nat.add_le_add_left (Nat.mod_le _ _) _)

/-- From memory `n` the operation does the same, and the output is then the same in both memories. -/
def Inflate.Echoes (d : Inflate) (n : Memory) (f : Inflate → Inflate) : Prop :=
  ∃ n', f (d.withMem n) = (f d).withMem n' ∧ Memory.sameOrKept d.mem n (f d).mem n'
    ∧ Memory.sameBytes (f d).mem n' d.dx.dst (f d).dx.outpos.toNat

theorem Inflate.Alike.echoes {d : Inflate} {n : Memory} {f : Inflate → Inflate} (h : d.Alike n f)
    (out : Memory.sameBytes (f d).mem (f (d.withMem n)).mem d.dx.dst (f d).dx.outpos.toNat) : d.Echoes n f := by
  obtain ⟨n', e, kept⟩ := h
  rw [e] at out
  exact ⟨n', e, kept, out⟩

/-- An operation that adds no output. -/
theorem Inflate.Alike.echoes_still {d : Inflate} {n : Memory} {f : Inflate → Inflate} (h : d.Alike n f)
    (hist : Memory.sameBytes d.mem n d.dx.dst d.dx.outpos.toNat) (still : (f d).dx.outpos = d.dx.outpos) : d.Echoes n f := by
  obtain ⟨n', e, kept⟩ := h
  refine ⟨n', e, kept, fun k hk => kept.same (hist k ?_)⟩
  rwa [still] at hk

theorem Inflate.blockDone_outpos (d : Inflate) : d.blockDone.dx.outpos = d.dx.outpos := by
  obtain ⟨q, e, h⟩ := d.blockDone_dx
  rw [h]

theorem Inflate.buildBoth_outpos (d : Inflate) : d.buildBoth.dx.outpos = d.dx.outpos := by
  obtain ⟨q, e, h⟩ := d.buildBoth_dx
  rw [h]

theorem Inflate.buildFixed_outpos (d : Inflate) : d.buildFixed.dx.outpos = d.dx.outpos := by
  rw [Inflate.buildFixed, Inflate.buildBoth_outpos]

theorem Inflate.buildDynamic_outpos (d : Inflate) : d.buildDynamic.dx.outpos = d.dx.outpos := by
  cases ha : buildTable .precode (d.lens.lengths .precode) with
  | none => rw [Inflate.buildDynamic_refused ha]; rfl
  | some a =>
    have still := (Inflate.readLengths_withTables d.total (d := Inflate.dropSeq { d with dtab := d.dtab.put .precode a }) rfl rfl).1
    rw [Inflate.buildDynamic_built ha]
    generalize Inflate.readLengths d.total _ = q at still
    by_cases hq : q.dx.state = .error
    · rw [Inflate.andThen_of_error hq]
      exact still
    · rw [Inflate.andThen_of_ne hq]
      exact q.loadLengths.buildBoth_outpos.trans still

theorem Inflate.dynamicHeader_outpos (d : Inflate) (hlit hdist : BitVec 5) (hclen : BitVec 4) :
    (d.dynamicHeader hlit hdist hclen).dx.outpos = d.dx.outpos := by
  by_cases hc : (d.declared hlit hdist hclen).countsRefused = true
  · rw [Inflate.dynamicHeader_refused hc]
    rfl
  · have still := (Inflate.readPrecodeLens_withTables (precodeOrder.take (hclen.toNat + 4)) (d := d.declared hlit hdist hclen)
      d.dtab rfl).1
    rw [Inflate.dynamicHeader_accepted hc]
    generalize Inflate.readPrecodeLens _ _ = q at still
    by_cases hq : q.dx.state = .error
    · rw [Inflate.andThen_of_error hq]
      exact still
    · rw [Inflate.andThen_of_ne hq, Inflate.buildDynamic_outpos]
      exact still

section
variable {d : Inflate} {n : Memory} (hist : Memory.sameBytes d.mem n d.dx.dst d.dx.outpos.toNat)
include hist

theorem Inflate.echoes_literal (b : Byte) : d.Echoes n (·.literal b) := by
  refine (d.alike_literal n b).echoes ?_
  unfold Inflate.literal
  rw [Inflate.withMem_dx]
  split
  · exact hist
  · intro k hk
    rcases Nat.lt_succ_iff_lt_or_eq.mp (Nat.lt_of_lt_of_le hk (toNat_add_le _ 1)) with hold | rfl
    · exact (Memory.sameOrKept_write _ _ _ _).same (hist k hold)
    · simp

/-- A replay reads the output so far and, past it, what it wrote itself (rule R104). -/
theorem Inflate.echoes_replay (len : Nat) {off : Nat} (hoff : 0 < off) : d.Echoes n (·.replay len off) := by
  have alike := Inflate.alike_replay hist len hoff
  rcases Nat.lt_or_ge d.dx.outpos.toNat off with hfar | hnear
  · exact alike.echoes_still hist (by rw [Inflate.replay_far hfar]; rfl)
  · rcases Nat.lt_or_ge d.room len with hfull | hroom
    · exact alike.echoes_still hist (by rw [Inflate.replay_full hnear hfull]; rfl)
    · refine alike.echoes ?_
      rw [Inflate.replay_room hnear hroom, Inflate.replay_room (d := d.withMem n) hnear hroom]
      refine fun k hk => Memory.sameBytes_copyForward (fun k hk => ?_) hist k (Nat.lt_of_lt_of_le hk (toNat_add_le _ _))
      rw [Inflate.withMem_dx]
      rcases Nat.lt_or_ge k off with hbefore | hpast
      · exact .inl (hist _ (by omega))
      · exact .inr ⟨k - off, by omega, by congr 1; omega⟩

theorem Inflate.echoes_storedBody (hin : d.br.sameInput d.mem n) (len nlen : BitVec 16) : d.Echoes n (·.storedBody len nlen) := by
  have alike := Inflate.alike_storedBody hin len nlen
  by_cases hlen : len = nlen ^^^ 0xFFFF#16
  · rcases Nat.lt_or_ge d.br.left len.toNat with hshort | hleft
    · exact alike.echoes_still hist (by rw [Inflate.storedBody_short hlen hshort]; rfl)
    · rcases Nat.lt_or_ge d.room len.toNat with hfull | hroom
      · exact alike.echoes_still hist (by rw [Inflate.storedBody_full hlen hleft hfull]; rfl)
      · refine alike.echoes ?_
        rw [Inflate.storedBody_room hlen hleft hroom, Inflate.storedBody_room (d := d.withMem n) hlen hleft hroom,
          Inflate.blockDone_mem, Inflate.blockDone_mem, Inflate.blockDone_outpos]
        have source : ∀ k, k < len.toNat →
            n.read (bufferAddr d.br.src (d.br.start + k)) = d.mem.read (bufferAddr d.br.src (d.br.start + k)) :=
          fun k hk => hin _ (by simp only [Reader.left] at hleft; omega)
        exact fun k hk => Memory.sameBytes_copyForward (fun k hk => .inl (source k hk)) hist k (Nat.lt_of_lt_of_le hk (toNat_add_le _ _))
  · exact alike.echoes_still hist (by rw [Inflate.storedBody_mismatch hlen]; rfl)

variable (hin : d.br.sameInput d.mem n)
include hin

theorem Inflate.echoes_run {i : Instr} (hi : offsetInRange i) (hpre : i.expect ≠ .precode) : d.Echoes n (·.run i) := by
  have alike := Inflate.alike_run hin hist hi
  cases i with
  | storedBody len nlen => exact Inflate.echoes_storedBody hist hin len nlen
  | lit value => exact Inflate.echoes_literal hist value
  | copyMatch ls lx os ox => exact Inflate.echoes_replay hist _ (Nat.add_pos_left (offBase_pos hi) _)
  | dynamicHeader hlit hdist hclen => exact alike.echoes_still hist (d.dynamicHeader_outpos hlit hdist hclen)
  | eob => exact alike.echoes_still hist d.blockDone_outpos
  | preLen | preRep | preZrep3 | preZrep11 => exact absurd rfl hpre
  | _ => exact alike.echoes_still hist rfl

theorem Inflate.echoes_fetchAndRun : d.Echoes n Inflate.fetchAndRun := by
  have alike := Inflate.alike_fetchAndRun hin hist
  have f := d.forward_fetch
  rcases hf : d.fetch with ⟨r, reject | i⟩
  · exact alike.echoes_still hist (by rw [Inflate.fetchAndRun_of_error hf]; rfl)
  · rw [hf] at f
    unfold Inflate.Echoes
    rw [Inflate.fetchAndRun_eq hf, Inflate.fetchAndRun_eq ((Inflate.fetch_withMem hin).trans hf)]
    exact Inflate.echoes_run (d := { d with br := r }) hist (hin.moved f.src f.len) (Inflate.fetch_inRange hf) (Inflate.fetch_expect hf)

theorem Inflate.echoes_step : d.Echoes n Inflate.step := by
  have fetched := Inflate.echoes_fetchAndRun hist hin
  unfold Inflate.Echoes Inflate.step
  rw [Inflate.withMem_dx]
  split
  · exact fetched
  · split
    · have alike : d.Alike n Inflate.buildFixed := .unwritten (Inflate.buildBoth_withMem { d with lens := _ } n) (Inflate.buildBoth_mem _)
      exact alike.echoes_still hist d.buildFixed_outpos
    · exact fetched
  · exact fetched
  · exact fetched
  · exact ⟨n, rfl, .refl _ _, hist⟩
  · exact ⟨n, rfl, .refl _ _, hist⟩

end

/-! ## Two decompressors in step -/

/-- Two decompressors in step: the same but for tables and memory, in DECODE_LOOP with the two tables read there the same,
and memories that read the same in the input and in the output so far. -/
structure Inflate.Twin (d e : Inflate) : Prop where
  same : e = (d.withTables e.lens e.dtab).withMem e.mem
  tables : d.dx.state = .decodeLoop → e.dtab.litlen = d.dtab.litlen ∧ e.dtab.offset = d.dtab.offset
  input : d.br.sameInput d.mem e.mem
  output : Memory.sameBytes d.mem e.mem d.dx.dst d.dx.outpos.toNat

theorem Inflate.Twin.step {d e : Inflate} (h : Inflate.Twin d e) : Inflate.Twin d.step e.step := by
  obtain ⟨same, tables, input, output⟩ := h
  generalize e.lens = lens, e.dtab = dtab, e.mem = n at same tables input output
  subst same
  obtain ⟨lens', dtab', recoded, loop⟩ := Inflate.step_recodes (lens := lens) tables
  obtain ⟨n', alike, kept, out⟩ := Inflate.echoes_step (d := d.withTables lens dtab) output input
  rw [recoded] at alike kept out
  rw [alike]
  have f := d.forward_step
  have unread : d.br.sameInput d.step.mem n' := fun i hi => kept.same (input i hi)
  exact ⟨rfl, loop, unread.moved f.src f.len, by rw [d.extends_step.dst]; exact out⟩

theorem Inflate.Twin.runAll (n : Nat) {d e : Inflate} (h : Inflate.Twin d e) : Inflate.Twin (Inflate.runAll n d) (Inflate.runAll n e) := by
  rw [Inflate.runAll_eq, Inflate.runAll_eq]
  induction n generalizing d e with
  | zero => exact h
  | succ n ih => exact ih h.step

theorem Inflate.Twin.dx {d e : Inflate} (h : Inflate.Twin d e) : e.dx = d.dx := congrArg (·.dx) h.same

theorem Inflate.Twin.br {d e : Inflate} (h : Inflate.Twin d e) : e.br = d.br := congrArg (·.br) h.same

/-- BR.INIT and DX.INIT put two decompressors in step (rule R363). -/
theorem State.startInflate_twin {s s' : State} (hcfg : s'.cfg = s.cfg) (h0 : s'.port.a0 = s.port.a0) (h1 : s'.port.a1 = s.port.a1)
    (h2 : s'.port.a2 = s.port.a2) (h3 : s'.port.a3 = s.port.a3) (hin : Memory.sameBytes s.mem s'.mem s.port.a0 s.port.a1.toNat) :
    Inflate.Twin s.startInflate s'.startInflate := by
  refine ⟨?_, nofun, hin, fun _ hi => absurd hi (Nat.not_lt_zero _)⟩
  unfold State.startInflate
  rw [h0, h1, h2, h3]
  simp only [Inflate.withTables, Inflate.withMem, State.inflate, hcfg]

/-! ## DECOMPRESS -/

/-- DECOMPRESS with operands it accepts (rule R363). -/
theorem decompressBody_accepted {s : State} (h : checkTwoBufs s.port = true) :
    decompressBody s = (s.endInflate (Inflate.runAll (maxSteps s.port.a1) s.startInflate),
      (Inflate.runAll (maxSteps s.port.a1) s.startInflate).dx.verdict) := if_pos h

/-- The outcome is shown without an error, and where ERROR_OUTPUT is as_ruled (rules R363, R418). -/
theorem State.endInflate_shown {s : State} {d : Inflate} (h : d.dx.state ≠ .error ∨ s.cfg.errorOutput = .asRuled) :
    s.endInflate d = s.showInflate d := by
  unfold State.endInflate
  split
  · rename_i hstate hcfg
    rcases h with hfine | hruled
    · exact absurd hstate hfine
    · cases hcfg.symm.trans hruled
  all_goals rfl

/-- A run that answers SUCCESS is not in ERROR. -/
theorem Decomp.Sound.ne_error_of_success {d : Decomp} (h : d.Sound) (hv : d.verdict = .success) : d.state ≠ .error := by
  intro he
  rw [Decomp.verdict, he] at hv
  rcases h.failed he with e | e | e <;> cases hv.symm.trans e

/-- Settles O51: the decompressors of both runs stay in step from BR.INIT and DX.INIT to the end. -/
theorem decompressIgnoresHistory : Obligations.DecompressIgnoresHistory := by
  intro s s' ha ha' hops hcfg h0 h1 h2 h3 hin
  have hcheck := checkTwoBufs_of_operands hops
  obtain ⟨hsrc, hdst, -⟩ := checkTwoBufs_spec hcheck
  have hcheck' := (checkTwoBufs_congr h0 h1 h2 h3).trans hcheck
  have twin := (State.startInflate_twin hcfg h0 h1 h2 h3 (Memory.sameBytes_of_agreeOn hin hsrc)).runAll (maxSteps s.port.a1)
  have bound := (Inflate.extends_runAll (maxSteps s.port.a1) s.startInflate).dst
  have sound := (Inflate.good_runAll (maxSteps s.port.a1) s.good_startInflate).sound
  refine ⟨_, _, exec_alive rfl ha, exec_alive rfl ha', ?_⟩
  simp only [commandBody]
  rw [decompressBody_accepted hcheck, decompressBody_accepted hcheck', h1]
  generalize Inflate.runAll (maxSteps s.port.a1) s.startInflate = d at twin bound sound
  generalize Inflate.runAll (maxSteps s.port.a1) s'.startInflate = e at twin
  have verdict : e.dx.verdict = d.dx.verdict := by rw [twin.dx]
  refine ⟨verdict, fun hshown => ?_⟩
  have shown : d.dx.state ≠ .error ∨ s.cfg.errorOutput = .asRuled := hshown.imp_left sound.ne_error_of_success
  rw [State.endInflate_shown shown, State.endInflate_shown (by rw [twin.dx, hcfg]; exact shown)]
  refine ⟨by simp [State.showInflate, twin.dx], by simp [State.showInflate, twin.br], ?_⟩
  show agreeOn d.mem e.mem s.port.a2 (BitVec.ofNat 32 d.dx.outpos.toNat).toNat
  rw [BitVec.ofNat_toNat, BitVec.setWidth_eq, ← show d.dx.dst = s.port.a2 from bound]
  exact agreeOn_of_sameBytes twin.output

end Sys2Proof.Machine
end

section
/-! PROOF. The match-finder's commands (rules R200 to R211): what each answers and leaves. -/

namespace Sys2Proof.Machine

/-- A command whose body's outcome is known. -/
theorem exec_of_body {i : Instr} (hi : isHandleCommand i = true) {s t : State} {r : Result} (ha : s.handle.alive = true)
    (h : commandBody i s = (t, r)) : exec i s = .next (t.ended r) := by rw [exec_alive hi ha, h]

/-! ## A search case by case (rule R206) -/

theorem MatchFinder.slideIfDue_of_lt {mf : MatchFinder} (h : mf.pos.toNat < windowSize) : mf.slideIfDue = mf :=
  if_neg (Nat.ne_of_lt h)

theorem MatchFinder.slideIfDue_idem (mf : MatchFinder) : mf.slideIfDue.slideIfDue = mf.slideIfDue :=
  if_neg mf.pos_slideIfDue_ne

/-- A due slide made beforehand changes nothing of a search. -/
theorem MatchFinder.find_slideIfDue (mf : MatchFinder) (m : Memory) (depth nice : Nat) :
    mf.slideIfDue.find m depth nice = mf.find m depth nice := by
  unfold MatchFinder.find
  rw [mf.slideIfDue_idem]

theorem MatchFinder.find_eq_search {mf : MatchFinder} (m : Memory) (depth nice : Nat) (hp : mf.pos.toNat < windowSize)
    (hc : mf.cur + 3 ≤ mf.len.toNat) : mf.find m depth nice = mf.search m depth nice := by
  unfold MatchFinder.find
  rw [MatchFinder.slideIfDue_of_lt hp]
  exact if_neg (by simp only [maxMatch, minMatch]; omega)

theorem MatchFinder.find_eq_none {mf : MatchFinder} (m : Memory) (depth nice : Nat) (hp : mf.pos.toNat < windowSize)
    (hc : mf.len.toNat < mf.cur + 3) : mf.find m depth nice = (mf.advance, 0, 0) := by
  unfold MatchFinder.find
  rw [MatchFinder.slideIfDue_of_lt hp]
  exact if_pos (by simp only [maxMatch, minMatch]; omega)

theorem MatchFinder.search_fst (mf : MatchFinder) (m : Memory) (depth nice : Nat) :
    (mf.search m depth nice).1 = (mf.insertAt (mf.hashAt m mf.cur)).advance := by
  unfold MatchFinder.search
  dsimp only
  split <;> rfl

/-- The candidates a search at the position visits (rule R206). -/
def MatchFinder.candidates (mf : MatchFinder) (m : Memory) (depth nice : Nat) : List (BitVec 16) :=
  (mf.insertAt (mf.hashAt m mf.cur)).visited m mf.pos.toNat (min maxMatch (mf.len.toNat - mf.cur))
    (min nice (min maxMatch (mf.len.toNat - mf.cur))) depth (mf.head.get (mf.hashAt m mf.cur))

/-- How far a candidate agrees with the position (rule R206). -/
def MatchFinder.agreement (mf : MatchFinder) (m : Memory) (v : BitVec 16) : Nat :=
  (mf.insertAt (mf.hashAt m mf.cur)).agree m mf.pos.toNat (min maxMatch (mf.len.toNat - mf.cur)) v

theorem MatchFinder.agreement_le (mf : MatchFinder) (m : Memory) (v : BitVec 16) : mf.agreement m v ≤ 258 :=
  (MatchFinder.matchLen_spec _ _ _ _ _).1.trans (Nat.min_le_left _ _)

/-- A search answers none where no candidate agrees in three bytes, else the first of the greatest agreement. -/
theorem MatchFinder.search_visited (mf : MatchFinder) (m : Memory) (depth nice : Nat) :
    ((mf.search m depth nice).2 = (0, 0) ∧ ∀ v ∈ mf.candidates m depth nice, mf.agreement m v < 3)
      ∨ ∃ before v after, mf.candidates m depth nice = before ++ v :: after ∧ 3 ≤ mf.agreement m v
        ∧ (mf.search m depth nice).2 = (mf.agreement m v, ((mf.pos.toNat : Int) - v.toInt).toNat) ∧ v.toInt < mf.pos.toNat
        ∧ (∀ u ∈ before, mf.agreement m u < mf.agreement m v) ∧ ∀ u ∈ after, mf.agreement m u ≤ mf.agreement m v := by
  have hmin : minMatch = 3 := rfl
  unfold MatchFinder.search
  dsimp only
  rcases MatchFinder.walk_visited (mf.insertAt (mf.hashAt m mf.cur)) m mf.pos.toNat (min maxMatch (mf.len.toNat - mf.cur))
    (min nice (min maxMatch (mf.len.toNat - mf.cur))) depth (mf.head.get (mf.hashAt m mf.cur)) 2 0 (Nat.le_refl 2) (.inr rfl)
    with ⟨hwalk, hshort⟩ | ⟨before, v, after, hvisited, hlong, hwalk, hv, hbefore, hafter⟩
  · refine .inl ⟨?_, fun v hv => Nat.lt_succ_of_le (hshort v hv)⟩
    rw [hwalk, if_neg (by rw [hmin]; decide)]
  · refine .inr ⟨before, v, after, hvisited, hlong, ?_, hv, hbefore, hafter⟩
    rw [hwalk]
    exact congrArg Prod.snd (if_pos (by rw [hmin]; exact hlong))

/-! ## MF.SLIDE and MF.SKIP -/

/-- MF.SLIDE at position 32768 (rule R209). -/
theorem exec_mfSlide {s : State} (ha : s.handle.alive = true) (hp : s.mf.pos.toNat = windowSize) :
    exec .mfSlide s = .next (State.ended { s with mf := s.mf.slide } .success) :=
  exec_of_body rfl ha (if_pos hp)

/-- The saturated subtraction of a slide, by the sign of the slot (rule R209). -/
theorem toInt_satSub_eq_ite (e : BitVec 16) : (satSub e).toInt = if 0 ≤ e.toInt then e.toInt - 32768 else -32768 := by
  rw [toInt_satSub]
  split <;> omega

/-- Settles O26: a slide rebases each slot. -/
theorem mfSlideRebasesEverySlot : Obligations.MfSlideRebasesEverySlot := by
  intro s ha ⟨hhead, hnext, _⟩ hp
  refine ⟨_, exec_mfSlide ha hp, rfl, s.mf.slide_src, s.mf.slide_len, rfl, rfl, fun h => ?_⟩
  rw [MatchFinder.slide_head, MatchFinder.slide_next, Slots.get_rebase hhead, Slots.get_rebase hnext]
  exact ⟨toInt_satSub_eq_ite _, toInt_satSub_eq_ite _⟩

/-- MF.SKIP passes each position as a search of depth 0 does (rule R207). -/
theorem MatchFinder.skip_eq_iterate_find (m : Memory) (nice n : Nat) (mf : MatchFinder) :
    MatchFinder.skip m n mf = (fun mf => (MatchFinder.find mf m 0 nice).1)^[n] mf := by
  induction n generalizing mf with
  | zero => rfl
  | succ n ih => rw [MatchFinder.skip, ih, Function.iterate_succ_apply, MatchFinder.find_depth_zero]

/-- Settles O25, by the positions skipped. -/
theorem mfSkipInsertsLikeEmptySearches : Obligations.MfSkipInsertsLikeEmptySearches := by
  intro s nice ha hc
  rw [← MatchFinder.skip_eq_iterate_find]
  exact exec_of_body rfl ha (if_neg (Nat.not_lt.mpr hc))

/-! ## MF.FIND -/

/-- MF.FIND inside the input (rule R206). -/
theorem exec_mfFind {s : State} (ha : s.handle.alive = true) (hc : s.mf.cur < s.mf.len.toNat) :
    exec .mfFind s
      = .next ((({ s with mf := (s.mf.find s.mem s.port.a0.toNat s.port.a1.toNat).1 }.setA4
          (s.mf.find s.mem s.port.a0.toNat s.port.a1.toNat).2.1).setA5
          (s.mf.find s.mem s.port.a0.toNat s.port.a1.toNat).2.2).ended .success) :=
  exec_of_body rfl ha (if_neg (Nat.not_le.mpr hc))

/-- Settles O22: the search reports what it has verified. -/
theorem mfFindReportsATrueMatch : Obligations.MfFindReportsATrueMatch := by
  intro s ha hp hc
  refine ⟨_, exec_mfFind ha hc, rfl, (MatchFinder.passes_find _ _ _ hp).cur hc hp, ?_⟩
  simp only [State.ended_a4, State.ended_a5, State.setA5_a4, State.setA4_a4, State.setA5_a5]
  have hspec := MatchFinder.find_spec s.mem s.port.a0.toNat s.port.a1.toNat hp hc
  generalize (s.mf.find s.mem s.port.a0.toNat s.port.a1.toNat).2 = r at hspec
  rcases hspec with rfl | ⟨hlen3, hlen, hend, hoff1, hoff, hback, hbytes⟩
  · exact .inl ⟨rfl, rfl⟩
  · rw [BitVec.toNat_ofNat, BitVec.toNat_ofNat, Nat.mod_eq_of_lt (by omega), Nat.mod_eq_of_lt (by omega)]
    exact .inr ⟨hlen3, hlen, hoff1, hoff, hback, hend, hbytes⟩

/-- Settles O23: the walk against the candidates it visits. -/
theorem mfFindTakesLongestFirstVisited : Obligations.MfFindTakesLongestFirstVisited := by
  intro s ha hp hc maxLen mf agree visited
  have hw : windowSize = 32768 := rfl
  refine ⟨_, exec_mfFind ha (by omega), rfl, ?_⟩
  simp only [State.ended_a4, State.ended_a5, State.setA5_a4, State.setA4_a4, State.setA5_a5]
  rw [MatchFinder.find_eq_search _ _ _ hp hc]
  rcases s.mf.search_visited s.mem s.port.a0.toNat s.port.a1.toNat
    with ⟨hnone, hshort⟩ | ⟨before, v, after, hvisited, hlong, hbest, hv, hbefore, hafter⟩
  · rw [hnone]
    exact .inl ⟨rfl, rfl, hshort⟩
  · have hle := s.mf.agreement_le s.mem v
    have hlow := BitVec.le_toInt v
    refine .inr ⟨before, v, after, hvisited, hlong, ?_, ?_, hbefore, hafter⟩ <;> rw [hbest, BitVec.toNat_ofNat]
    · exact Nat.mod_eq_of_lt (by omega)
    · dsimp only
      omega

/-- Settles O24: the insertion slot by slot; a due slide may be made beforehand. -/
theorem mfFindInsertsThePosition : Obligations.MfFindInsertsThePosition := by
  intro s ha hc
  refine ⟨fun hp => ⟨_, exec_mfFind ha hc, ?_⟩, fun hp => ?_⟩
  · have hw : windowSize = 32768 := rfl
    have hpos := toInt_position (show s.mf.pos.toNat < 32768 from hp)
    simp only [State.ended_mf, State.setA5_mf, State.setA4_mf, State.ended_a4, State.ended_a5, State.setA5_a4, State.setA4_a4,
      State.setA5_a5]
    rcases Nat.lt_or_ge s.mf.len.toNat (s.mf.cur + 3) with hshort | hroom
    · rw [MatchFinder.find_eq_none _ _ _ hp hshort]
      exact ⟨rfl, MatchFinder.advance_pos hp, fun h => absurd hshort (Nat.not_lt.mpr h), fun _ => ⟨rfl, rfl, rfl, rfl⟩⟩
    · rw [MatchFinder.find_eq_search _ _ _ hp hroom, MatchFinder.search_fst]
      refine ⟨rfl, MatchFinder.advance_pos (mf := s.mf.insertAt _) hp, fun _ => ⟨fun h => ?_, fun j => ?_⟩,
        fun h => absurd h (Nat.not_lt.mpr hroom)⟩
      · show (Slots.get (s.mf.head.set _ _) h).toInt = _
        rw [Slots.get_set]
        split
        · exact hpos
        · rfl
      · have hslot : nextSlot (BitVec.ofNat 16 s.mf.pos.toNat) = s.mf.pos.toNat := by
          have := nextSlot_eq (BitVec.ofNat 16 s.mf.pos.toNat)
          omega
        show Slots.get (s.mf.next.set _ _) j = _
        rw [Slots.get_set, hslot]
  · have hslide : s.mf.slideIfDue = s.mf.slide := if_pos hp
    have hpass := MatchFinder.passes_slide hp
    have hcur : s.mf.slide.cur < s.mf.slide.len.toNat := by
      rw [hpass.cur (by omega) (Nat.le_of_eq hp), hpass.len]
      exact hc
    refine ⟨_, exec_mfSlide ha hp, rfl, ?_⟩
    rw [exec_mfFind ha hc, ← s.mf.find_slideIfDue, hslide]
    generalize s.mf.slide = slid at hcur
    exact (exec_mfFind (s := { s with mf := slid }) ha hcur).symm

/-! ## The binding commands (rules R202, R321, R341, R361) -/

/-- Settles O21: with a buffer that does not wrap, each command puts its unit's initial value. -/
theorem initCommandsBindTheirUnit : Obligations.InitCommandsBindTheirUnit := by
  intro s ha hbuf
  have hcheck := (checkBuf_iff _ _).mpr hbuf
  have hempty : sentinel.toInt = -32768 := by decide
  exact ⟨⟨_, exec_of_body rfl ha (if_pos hcheck), rfl, rfl, rfl, rfl, rfl, fun _ => ⟨hempty, hempty⟩⟩,
    exec_of_body rfl ha (if_pos hcheck), exec_of_body rfl ha (if_pos hcheck),
    _, exec_of_body rfl ha (if_pos hcheck), rfl, rfl, rfl, rfl, rfl, rfl, rfl, rfl, rfl, rfl⟩

end Sys2Proof.Machine
end

section
/-! PROOF. The result of every command (rules R210, R411 to R415): BAD_ARG on the operands listed, the other
codes from their lists of causes. -/

namespace Sys2Proof.Machine

/-! ## The outcome of a body -/

/-- The outcome of a command's body is as rules R411 to R415 list it: refused operands leave the state. -/
def endsAsListed (i : Instr) (s : State) (o : State × Result) : Prop :=
  (badOperands i s → o = (s, .badArg)) ∧ (¬ badOperands i s → mayEnd i o.2)

theorem endsAsListed_refused {i : Instr} {s : State} (h : badOperands i s) : endsAsListed i s (s, .badArg) :=
  ⟨fun _ => rfl, fun hn => absurd h hn⟩

theorem endsAsListed_accepted {i : Instr} {s : State} {o : State × Result} (h : ¬ badOperands i s) (hr : mayEnd i o.2) :
    endsAsListed i s o :=
  ⟨fun hb => absurd hb h, fun _ => hr⟩

/-- A body that first refuses the operands rule R415 lists. -/
theorem endsAsListed_unless {i : Instr} {s : State} {refuse : Prop} [Decidable refuse] (h : badOperands i s ↔ refuse)
    {o : State × Result} (hr : mayEnd i o.2) : endsAsListed i s (if refuse then (s, .badArg) else o) := by
  split
  · exact endsAsListed_refused (h.mpr ‹_›)
  · exact endsAsListed_accepted (mt h.mp ‹_›) hr

/-- A body that first accepts the operands rule R415 does not list. -/
theorem endsAsListed_if {i : Instr} {s : State} {accept : Prop} [Decidable accept] (h : accept ↔ ¬ badOperands i s)
    {o : State × Result} (hr : mayEnd i o.2) : endsAsListed i s (if accept then o else (s, .badArg)) := by
  split
  · exact endsAsListed_accepted (h.mp ‹_›) hr
  · exact endsAsListed_refused (not_not.mp (mt h.mpr ‹_›))

/-! ## Results a command may end with (rules R411 to R414) -/

theorem mayEnd_success {i : Instr} (h : isHandleCommand i = true) : mayEnd i .success := by
  rintro level rfl
  cases h

theorem mayEnd_writer {i : Instr} (hi : isHandleCommand i = true) (h : mayEnd i .insufficientSpace) (w : Writer) :
    mayEnd i w.verdict := by
  unfold Writer.verdict
  split
  · exact h
  · exact mayEnd_success hi

theorem mayEnd_inflate {i : Instr} (hi : i = .decompress ∨ i = .dxStep) {d : Decomp} (h : d.Sound) : mayEnd i d.verdict := by
  by_cases he : d.state = .error
  · rw [Decomp.verdict, he]
    rcases h.failed he with e | e | e <;> simp only [e, mayEnd] <;> tauto
  · have hv : d.verdict = .success := by
      unfold Decomp.verdict
      split
      · exact absurd ‹_› he
      all_goals rfl
    rw [hv]
    rcases hi with rfl | rfl <;> exact mayEnd_success rfl

/-! ## The operand checks (rules R186, R273, R415) -/

theorem checkBuf_eq_false_iff (base len : Word) : checkBuf base len = false ↔ wordSpan < base.toNat + len.toNat := by
  simp [checkBuf]

theorem disjoint_eq_false_iff (b1 l1 b2 l2 : Word) :
    disjoint b1 l1 b2 l2 = false
      ↔ l1 ≠ 0 ∧ l2 ≠ 0 ∧ b2.toNat < b1.toNat + l1.toNat ∧ b1.toNat < b2.toNat + l2.toNat := by
  rw [← Bool.not_eq_true, disjoint_iff, not_not]

theorem checkTwoBufs_iff (s : State) : checkTwoBufs s.port = true ↔ ¬ badOperands .compress s := by
  refine ⟨fun h => ?_, checkTwoBufs_of_operands⟩
  obtain ⟨hsrc, hdst, hapart⟩ := checkTwoBufs_spec h
  rintro (hb | hb | hb)
  · exact Nat.not_lt.mpr hsrc hb
  · exact Nat.not_lt.mpr hdst hb
  · exact (disjoint_iff _ _ _ _).mp hapart hb

theorem matchOperandsOk_iff (s : State) :
    matchOperandsOk s.port.a0.toNat s.port.a1.toNat = true ↔ ¬ badOperands .hbMatch s := by
  simp only [matchOperandsOk, badOperands, Bool.and_eq_true, decide_eq_true_eq, not_or, Nat.not_lt, and_assoc]
  rfl

theorem mfSlide_accepted_iff (s : State) : s.mf.pos.toNat = windowSize ↔ ¬ badOperands .mfSlide s :=
  ⟨fun hp hne => hne (BitVec.eq_of_toNat_eq hp), fun h => congrArg BitVec.toNat (not_not.mp h)⟩

/-- A buffer to bind is accepted unless it wraps (rule R186). -/
theorem checkBuf_iff_accepted {i : Instr} {s : State} (h : badOperands i s ↔ wordSpan < s.port.a0.toNat + s.port.a1.toNat) :
    checkBuf s.port.a0 s.port.a1 = true ↔ ¬ badOperands i s := by
  rw [h, checkBuf_iff, Nat.not_lt]

/-! ## The commands with more than one check -/

theorem endsAsListed_bwPut (s : State) : endsAsListed .bwPut s (bwPutBody s) := by
  unfold bwPutBody
  split_ifs with hn hv
  · exact endsAsListed_refused (.inl hn)
  · exact endsAsListed_refused (.inr ⟨(Nat.pow_lt_pow_iff_right (by decide)).mp (Nat.lt_of_le_of_lt hv s.port.a0.isLt), hv⟩)
  · exact endsAsListed_accepted (fun h => h.elim hn fun h => hv h.2) (mayEnd_writer rfl (by simp [mayEnd]) _)

theorem endsAsListed_bwBytes (s : State) : endsAsListed .bwBytes s (bwBytesBody s) := by
  unfold bwBytesBody
  simp only [checkBuf_eq_false_iff, disjoint_eq_false_iff]
  split_ifs with hbuf hapart hbits
  · exact endsAsListed_refused (.inl hbuf)
  · exact endsAsListed_refused (.inr (.inl hapart))
  · exact endsAsListed_refused (.inr (.inr hbits))
  · exact endsAsListed_accepted (fun h => h.elim hbuf fun h => h.elim hapart hbits)
      (mayEnd_writer rfl (by simp [mayEnd]) _)

theorem endsAsListed_brBytes (s : State) : endsAsListed .brBytes s (brBytesBody s) := by
  unfold brBytesBody
  simp only [checkBuf_eq_false_iff, disjoint_eq_false_iff]
  split_ifs with hbuf hapart hbits hleft
  · exact endsAsListed_refused (.inl hbuf)
  · exact endsAsListed_refused (.inr (.inl hapart))
  · exact endsAsListed_refused (.inr (.inr hbits))
  · exact endsAsListed_accepted (fun h => h.elim hbuf fun h => h.elim hapart hbits) (.inr (.inr rfl))
  · exact endsAsListed_accepted (fun h => h.elim hbuf fun h => h.elim hapart hbits) (mayEnd_success rfl)

theorem endsAsListed_twrite (space : Space) (s : State) : endsAsListed (.twrite space) s (twriteBody space s) := by
  unfold twriteBody
  split_ifs with hmisc hsize hvalue
  · exact endsAsListed_refused (.inl hmisc)
  · exact endsAsListed_refused (.inr (.inl hsize))
  · exact endsAsListed_refused (.inr (.inr hvalue))
  · exact endsAsListed_accepted (fun h => h.elim hmisc fun h => h.elim hsize hvalue) (mayEnd_success rfl)

/-- The body of every command ends as listed (rules R411 to R415). -/
theorem endsAsListed_commandBody {i : Instr} (hi : isHandleCommand i = true) {s : State} (hd : decompOk s.dx) (hr : readerOk s.br) :
    endsAsListed i s (commandBody i s) := by
  have success := mayEnd_success hi
  have writer := mayEnd_writer hi
  cases i with
  | destroy => exact endsAsListed_accepted id success
  | bound => exact endsAsListed_accepted id success
  | hbClear => exact endsAsListed_accepted id success
  | hbLens x => exact endsAsListed_accepted id success
  | hbCodes x => exact endsAsListed_accepted id success
  | hbFixed => exact endsAsListed_accepted id success
  | hbPrecode => exact endsAsListed_accepted id success
  | mfInit => exact endsAsListed_if (checkBuf_iff_accepted .rfl) success
  | bwInit => exact endsAsListed_if (checkBuf_iff_accepted .rfl) success
  | brInit => exact endsAsListed_if (checkBuf_iff_accepted .rfl) success
  | dxInit => exact endsAsListed_if (checkBuf_iff_accepted .rfl) success
  | tread space => exact endsAsListed_unless (by rfl) success
  | twrite space => exact endsAsListed_twrite space s
  | mfFind => exact endsAsListed_unless (by rfl) success
  | mfSkip => exact endsAsListed_unless (by rfl) success
  | mfSlide => exact endsAsListed_if (mfSlide_accepted_iff s) success
  | hbTally x => exact endsAsListed_unless (by rfl) success
  | hbMatch => exact endsAsListed_if (matchOperandsOk_iff s) success
  | compress => exact endsAsListed_if (checkTwoBufs_iff s) (writer (by simp [mayEnd]) _)
  | decompress =>
    exact endsAsListed_if (i := .decompress) (checkTwoBufs_iff s)
      (mayEnd_inflate (.inl rfl) (Inflate.good_runAll _ s.good_startInflate).sound)
  | dxStep => exact endsAsListed_accepted id (mayEnd_inflate (.inr rfl) (Inflate.sound_step ((decompOk_iff _).mp hd).2.1))
  | bwPut => exact endsAsListed_bwPut s
  | bwAlign => exact endsAsListed_accepted id (writer (by simp [mayEnd]) _)
  | bwFlush => exact endsAsListed_accepted id (writer (by simp [mayEnd]) _)
  | bwBytes => exact endsAsListed_bwBytes s
  | brPeek => exact endsAsListed_unless (by rfl) success
  | brDrop =>
    refine endsAsListed_unless (by rfl) ?_
    split
    · simp [mayEnd]
    · exact success
  | brGet =>
    refine endsAsListed_unless (by rfl) ?_
    split
    · simp [mayEnd]
    · exact success
  | brAlign =>
    -- Inside the overread bound the padding is never refused.
    show endsAsListed _ s (brAlignBody s)
    rw [brAlignBody, Reader.align_eq hr.1]
    exact endsAsListed_accepted id success
  | brBytes => exact endsAsListed_brBytes s
  | dtBuild x =>
    show endsAsListed _ s (dtBuildBody x s)
    unfold dtBuildBody
    split
    · exact endsAsListed_accepted id (by simp [mayEnd])
    · exact endsAsListed_accepted id success
  | dtDecode x =>
    show endsAsListed _ s (dtDecodeBody x s)
    unfold dtDecodeBody
    split
    · exact endsAsListed_accepted id (by simp [mayEnd])
    · exact endsAsListed_accepted id success
  | _ => cases hi

/-! ## The commands that need no handle -/

theorem needsNoHandle_cases {i : Instr} (h : needsNoHandle i = true) : i = .nop ∨ ∃ level, i = .create level := by
  cases i with
  | nop => exact .inl rfl
  | create level => exact .inr ⟨level, rfl⟩
  | _ => cases h

/-- CREATE's result tells whether the level is one the engine has (rule R414). -/
theorem exec_create_mayEnd {level : BitVec 4} {s t : State} (h : exec (.create level) s = .next t) :
    mayEnd (.create level) t.port.result := by
  obtain ⟨fresh, failed⟩ := createMakesAFreshHandle s level
  rcases Nat.lt_or_ge 9 level.toNat with hl | hl
  · cases (failed hl).symm.trans h
    exact ⟨level, hl, rfl⟩
  · obtain ⟨u, hu, hport, -⟩ := fresh hl
    cases hu.symm.trans h
    rw [hport]
    rintro _ ⟨⟩
    exact hl

/-- Settles O12: a command that needs a handle ends as its body does, NOP and CREATE refuse no operand. -/
theorem resultsExactlyWhereListed : Obligations.ResultsExactlyWhereListed := by
  intro i s hc ha hd hr
  by_cases hi : isHandleCommand i = true
  · obtain ⟨refused, accepted⟩ := endsAsListed_commandBody hi hd hr
    rw [exec_alive hi ha]
    refine ⟨fun hb => by rw [refused hb], fun hb t ht => ?_⟩
    cases ht
    exact accepted hb
  · rcases needsNoHandle_cases (show needsNoHandle i = true by simpa [isHandleCommand, hc] using hi) with rfl | ⟨level, rfl⟩
    · refine ⟨False.elim, fun _ t ht => ?_⟩
      cases ht
      exact nofun
    · exact ⟨False.elim, fun _ t ht => exec_create_mayEnd ht⟩

end Sys2Proof.Machine
end

section
/-! PROOF. The compressor's commands (rules R233, R246, R259): BOUND, and the size COMPRESS reports. -/

namespace Sys2Proof.Machine

/-! ## BOUND (rule R259) -/

theorem boundOf_lt (n : Nat) : boundOf n < 2 ^ 32 := Nat.lt_of_le_of_lt (Nat.min_le_left _ _) (by decide)

/-- Settles O52: BOUND writes `boundOf` to `a4`. -/
theorem boundIsTheStoredSize : Obligations.BoundIsTheStoredSize := fun s ha =>
  ⟨s.setA4 (boundOf s.port.a0.toNat), exec_of_body rfl ha rfl, rfl, (BitVec.toNat_ofNat _ _).trans (Nat.mod_eq_of_lt (boundOf_lt _))⟩

/-! ## What COMPRESS leaves -/

/-- COMPRESS with operands it accepts leaves the writer of its stream; without an overflow it succeeds with the stream's
size and leaves the memory it wrote, and after one it reports 0. -/
theorem exec_compress_accepted {s : State} (ha : s.handle.alive = true) (hops : ¬ badOperands .compress s) :
    ∃ t, exec .compress s = .next t ∧ t.bw = (s.deflate.compress s.handle s.port).out.bw
      ∧ (t.bw.ovf = false →
          t.port.result = .success ∧ t.port.a5 = t.bw.nbytes ∧ t.mem = (s.deflate.compress s.handle s.port).out.mem)
      ∧ (t.bw.ovf = true → t.port.result = .insufficientSpace ∧ t.port.a5 = 0) := by
  have hbody : commandBody .compress s = _ := compressBody_accepted (checkTwoBufs_of_operands hops)
  refine ⟨_, exec_of_body rfl ha hbody, ?_⟩
  generalize s.deflate.compress s.handle s.port = d
  have hbw : (s.withDeflate d).endDeflate.bw = d.out.bw := by
    unfold State.endDeflate
    split <;> rfl
  refine ⟨hbw, fun fits => ?_, fun full => ?_⟩
  · rw [State.ended_bw, State.setA5_bw, hbw] at fits
    have verdict : d.out.bw.verdict = .success := by rw [Writer.verdict, fits]; rfl
    refine ⟨verdict, ?_, ?_⟩
    · rw [State.ended_bw, State.setA5_bw, hbw]
      exact Writer.report_of_success verdict
    · rw [State.endDeflate_of_success (show d.out.bw.verdict = .success from verdict)]
      rfl
  · rw [State.ended_bw, State.setA5_bw, hbw] at full
    refine ⟨if_pos full, ?_⟩
    show BitVec.ofNat 32 d.out.bw.report = 0
    rw [Writer.report, if_pos full]
    rfl

/-! ## The final alignment -/

/-- With room for the byte begun, aligning completes it (rule R324). -/
theorem Sink.align_room {k : Sink} (hn : k.bw.nbits.toNat < 8) (h : ceilDiv k.held 8 ≤ k.bw.cap.toNat) :
    k.align.bw.ovf = k.bw.ovf ∧ k.align.bw.nbytes.toNat = ceilDiv k.held 8 := by
  obtain ⟨appends, aligned⟩ := Sink.appends_align hn
  simp only [ceilDiv, Sink.held] at h ⊢
  obtain ⟨hovf, hheld⟩ := appends.room hn (by rw [Sink.held]; omega)
  rw [Sink.held, Sink.held, aligned] at hheld
  exact ⟨hovf, by omega⟩

/-! ## The size of a stream (rules R234, R259, R260 (b)) -/

/-- At level 0, with room for the input and five bytes a block, the stream has exactly that size. -/
theorem Deflate.compress_size_of_levelZero {h : Handle} {p : Port} (d : Deflate) (hl : h.level = 0)
    (hroom : p.a1.toNat + 5 * max 1 (ceilDiv p.a1.toNat 65535) ≤ p.a3.toNat) :
    (d.compress h p).out.bw.ovf = false
      ∧ (d.compress h p).out.bw.nbytes.toNat = p.a1.toNat + 5 * max 1 (ceilDiv p.a1.toNat 65535) := by
  have hout : (d.compress h p).out
      = (Sink.storedOnly p.a0 p.a1.toNat (p.a1.toNat + 1) 0 ⟨Writer.init p.a2 p.a3, d.out.mem⟩).align := by
    unfold Deflate.compress Deflate.stream
    rw [if_pos hl]
  have appends := Sink.appends_storedOnly p.a0 p.a1.toNat (p.a1.toNat + 1) 0 (k := ⟨Writer.init p.a2 p.a3, d.out.mem⟩)
    (Nat.zero_le _) (Nat.lt_succ_self _) rfl
  rw [hout]
  generalize Sink.storedOnly p.a0 p.a1.toNat (p.a1.toNat + 1) 0 _ = k at appends
  rw [Nat.sub_zero] at appends
  have hcap : k.bw.cap = p.a3 := appends.cap
  have start : Sink.held ⟨Writer.init p.a2 p.a3, d.out.mem⟩ = 0 := rfl
  obtain ⟨hovf, hheld⟩ := appends.room (Nat.zero_lt_succ _) (by rw [start]; show _ ≤ p.a3.toNat; omega)
  rw [start, Nat.zero_add] at hheld
  have bytes : ceilDiv k.held 8 = p.a1.toNat + 5 * max 1 (ceilDiv p.a1.toNat 65535) := by
    rw [hheld, ceilDiv]
    omega
  obtain ⟨hovf', hbytes⟩ := Sink.align_room (appends.bits (Nat.zero_lt_succ _)) (by rw [bytes, hcap]; exact hroom)
  exact ⟨hovf'.trans hovf, hbytes.trans bytes⟩

/-- With room for the bound of rule R259 the stream fits, and is no longer, at every level. -/
theorem Deflate.compress_size_le (h : Handle) (p : Port) (d : Deflate)
    (hroom : p.a1.toNat + 5 * max 1 (ceilDiv p.a1.toNat 32768) ≤ p.a3.toNat) :
    (d.compress h p).out.bw.ovf = false
      ∧ (d.compress h p).out.bw.nbytes.toNat ≤ p.a1.toNat + 5 * max 1 (ceilDiv p.a1.toNat 32768) := by
  by_cases hl : h.level = 0
  · have fewer : ceilDiv p.a1.toNat 65535 ≤ ceilDiv p.a1.toNat 32768 := by
      unfold ceilDiv
      omega
    obtain ⟨hovf, hbytes⟩ := Deflate.compress_size_of_levelZero (p := p) d hl (by omega)
    exact ⟨hovf, by omega⟩
  · have hout : (d.compress h p).out = (Deflate.blocks h p.a0 p.a1.toNat (p.a1.toNat + 1) 0
        { d with out := ⟨Writer.init p.a2 p.a3, d.out.mem⟩, mf := MatchFinder.init p.a0 p.a1 }).out.align := by
      unfold Deflate.compress Deflate.stream
      rw [if_neg hl]
    obtain ⟨-, hcap, fits⟩ := Deflate.blocks_spec h p.a0 p.a1.toNat (p.a1.toNat + 1) 0
      { d with out := ⟨Writer.init p.a2 p.a3, d.out.mem⟩, mf := MatchFinder.init p.a0 p.a1 } rfl rfl (Nat.zero_le _)
      (by omega) (Nat.lt_succ_self _) (Nat.zero_lt_succ _)
    have start : ceilDiv (Sink.held ⟨Writer.init p.a2 p.a3, d.out.mem⟩) 8 = 0 := by
      simp [ceilDiv, Sink.held, Writer.init]
    rw [start, Nat.zero_add, Nat.sub_zero] at fits
    obtain ⟨hovf, hbits, hheld⟩ := fits rfl hroom
    rw [hout]
    generalize (Deflate.blocks h p.a0 p.a1.toNat (p.a1.toNat + 1) 0 _).out = k at hcap hovf hbits hheld
    obtain ⟨hovf', hbytes⟩ := Sink.align_room hbits (by rw [hcap]; exact hheld.trans hroom)
    exact ⟨hovf'.trans hovf, hbytes.trans_le hheld⟩

/-! ## A stream is never empty -/

/-- An engine given no input, with room for any output. -/
def State.givenNoInput : State := { State.reset with port := { Port.reset with a3 := 0xFFFFFFFF } }

/-- No bits are no stream: read from an empty input, they do not end in DONE. -/
theorem not_decodes_nil {y : List Byte} (hy : y.length < wordSpan) : ¬ Decodes 0 [] [] y true := fun g => by
  have hfail : (Inflate.runAll (maxSteps 0) State.givenNoInput.startInflate).dx.state = .error := by decide +kernel
  obtain ⟨hdone, -⟩ := State.inflate_of_bits State.givenNoInput (by decide) (by decide) (by decide) g (pad := []) (by decide) rfl
    (Nat.le_of_lt_succ hy)
  cases hdone.symm.trans hfail

/-- A stream without overflow has at least one byte. -/
theorem Deflate.compress_nbytes_ne_zero (h : Handle) (p : Port) (d : Deflate) (hb : checkTwoBufs p = true)
    (hovf : (d.compress h p).out.bw.ovf = false) : (d.compress h p).out.bw.nbytes ≠ 0 := by
  obtain ⟨hsrc, hdst, hapart⟩ := checkTwoBufs_spec hb
  obtain ⟨-, -, bs, pad, -, stream⟩ := Deflate.compress_decodes h p d hdst (disjoint_outside hapart hsrc)
  obtain ⟨hbits, decodes⟩ := stream hovf
  intro hzero
  have empty : (d.compress h p).out.bytes = [] := by
    rw [Sink.bytes, hzero]
    rfl
  rw [empty] at hbits
  obtain ⟨rfl, -⟩ := List.append_eq_nil_iff.mp hbits.symm
  exact not_decodes_nil (by rw [Memory.length_bytes]; exact p.a1.isLt) decodes

/-- Settles O53: the writer of the stream is aligned and in form, and fits wherever the bound does. -/
theorem compressReportsItsSize : Obligations.CompressReportsItsSize := by
  intro s ha hops
  have hcheck := checkTwoBufs_of_operands hops
  obtain ⟨hsrc, hdst, hapart⟩ := checkTwoBufs_spec hcheck
  obtain ⟨ext, aligned, -⟩ := Deflate.compress_decodes s.handle s.port s.deflate hdst (disjoint_outside hapart hsrc)
  have nonempty := Deflate.compress_nbytes_ne_zero s.handle s.port s.deflate hcheck
  have bounded := Deflate.compress_size_le s.handle s.port s.deflate
  have hfits := ext.fits (Nat.zero_le _)
  rw [ext.cap] at hfits
  obtain ⟨t, ht, hbw, success, failure⟩ := exec_compress_accepted ha hops
  rw [← hbw] at hfits aligned nonempty bounded
  refine ⟨t, ht, aligned, ?_, fun hroom => ?_⟩
  · cases hovf : t.bw.ovf
    · obtain ⟨hresult, hsize, -⟩ := success hovf
      rw [hsize]
      exact .inl ⟨hresult, rfl, rfl, nonempty hovf, hfits⟩
    · obtain ⟨hresult, hsize⟩ := failure hovf
      exact .inr ⟨hresult, rfl, hsize⟩
  · obtain ⟨hovf, hle⟩ := bounded hroom
    obtain ⟨hresult, hsize, -⟩ := success hovf
    rw [hsize]
    exact ⟨hresult, hle⟩

end Sys2Proof.Machine
end

section
/-! PROOF. The stream of COMPRESS stands for its input (rules R230, R234 to R237, R239, R260): DECOMPRESS gives the
input back, level 0 has the stored size, and a block's tokens expand to the bytes it covers. -/

namespace Sys2Proof.Machine

/-! ## DECOMPRESS of a stream (rule R363) -/

/-- The bytes of two buffers are the same where each byte reads the same. -/
theorem Memory.bytes_eq_iff {m m' : Memory} {base base' : Word} {n : Nat} :
    m'.bytes base' 0 n = m.bytes base 0 n ↔ ∀ k, k < n → m'.read (bufferAddr base' k) = m.read (bufferAddr base k) := by
  have byte (m : Memory) (base : Word) (k : Nat) (hk : k < n) : (m.bytes base 0 n).getD k 0 = m.read (bufferAddr base k) := by
    rw [Memory.getD_bytes _ _ _ _ _ hk, Nat.zero_add]
  refine ⟨fun h k hk => by rw [← byte m' base' k hk, h, byte m base k hk], fun h => List.ext_getElem ?_ fun k hk hk' => ?_⟩
  · rw [Memory.length_bytes, Memory.length_bytes]
  · have hn : k < n := by rwa [Memory.length_bytes] at hk
    rw [← List.getD_eq_getElem _ 0 hk, ← List.getD_eq_getElem _ 0 hk', byte m' base' k hn, byte m base k hn, h k hn]

/-- DECOMPRESS of a stream and less than a byte of padding, with room for what the stream stands for: it succeeds, takes
all the input, and writes exactly that. -/
theorem exec_decompress_of_bits {u : State} (ha : u.handle.alive = true) (hops : ¬ badOperands .decompress u)
    {bs pad : List Bool} {y : List Byte} (g : Decodes 0 bs [] y true) (hpad : pad.length < 8)
    (hbits : bitsOfBytes (u.mem.bytes u.port.a0 0 u.port.a1.toNat) = bs ++ pad) (hroom : y.length ≤ u.port.a3.toNat) :
    ∃ v, exec .decompress u = .next v ∧ v.port.result = .success ∧ v.port.a5 = BitVec.ofNat 32 y.length
      ∧ v.port.a6 = u.port.a1 ∧ v.mem.bytes u.port.a2 0 y.length = y := by
  have hcheck : checkTwoBufs u.port = true := checkTwoBufs_of_operands hops
  obtain ⟨hsrc, hdst, hapart⟩ := checkTwoBufs_spec hcheck
  have hbody : commandBody .decompress u = _ := decompressBody_accepted hcheck
  obtain ⟨hdone, -, hcount, hbytes, hconsumed⟩ := State.inflate_of_bits u hsrc hdst hapart g hpad hbits hroom
  generalize Inflate.runAll (maxSteps u.port.a1) u.startInflate = d at hbody hdone hcount hbytes hconsumed
  rw [State.endInflate_shown (.inl (by rw [hdone]; decide))] at hbody
  refine ⟨_, exec_of_body rfl ha hbody, ?_, ?_, ?_, hbytes⟩
  · show d.dx.verdict = _
    rw [Decomp.verdict, hdone]
  · show BitVec.ofNat 32 d.dx.outpos.toNat = _
    rw [hcount]
  · show BitVec.ofNat 32 d.br.consumed = _
    rw [hconsumed, BitVec.ofNat_toNat, BitVec.setWidth_eq]

/-! ## COMPRESS, then DECOMPRESS (rule R260 (a)) -/

/-- Where COMPRESS succeeded, DECOMPRESS of its stream, on any live handle, gives the input back. -/
theorem decompress_of_compress {s t u : State} (hs : s.handle.alive = true) (hops : ¬ badOperands .compress s)
    (ht : exec .compress s = .next t) (success : t.port.result = .success) (hu : u.handle.alive = true)
    (hops' : ¬ badOperands .decompress u) (hlen : u.port.a1 = t.port.a5) (hroom : s.port.a1.toNat ≤ u.port.a3.toNat)
    (hstream : ∀ k, k < t.port.a5.toNat → u.mem.read (bufferAddr u.port.a0 k) = t.mem.read (bufferAddr s.port.a2 k)) :
    ∃ v, exec .decompress u = .next v ∧ v.port.result = .success ∧ v.port.a5 = s.port.a1 ∧ v.port.a6 = t.port.a5
      ∧ ∀ k, k < s.port.a1.toNat → v.mem.read (bufferAddr u.port.a2 k) = s.mem.read (bufferAddr s.port.a0 k) := by
  obtain ⟨hsrc, hdst, hapart⟩ := checkTwoBufs_spec (checkTwoBufs_of_operands hops)
  obtain ⟨ext, -, bs, pad, hpad, stream⟩ := Deflate.compress_decodes s.handle s.port s.deflate hdst (disjoint_outside hapart hsrc)
  obtain ⟨t', ht', hbw, fitting, failure⟩ := exec_compress_accepted hs hops
  cases ht.symm.trans ht'
  have hovf : t.bw.ovf = false := Bool.eq_false_iff.mpr fun full => by cases success.symm.trans (failure full).1
  obtain ⟨-, hsize, hmem⟩ := fitting hovf
  obtain ⟨hbits, decodes⟩ := stream (by rw [← hbw]; exact hovf)
  have written : (s.deflate.compress s.handle s.port).out.bytes = t.mem.bytes s.port.a2 0 t.port.a5.toNat := by
    rw [Sink.bytes, ext.dst, ← hmem, ← hbw, hsize]
    rfl
  rw [written, ← Memory.bytes_eq_iff.mpr hstream, ← hlen] at hbits
  obtain ⟨v, hv, hdone, hcount, htaken, hbytes⟩ := exec_decompress_of_bits hu hops' decodes hpad hbits
    (by rw [Memory.length_bytes]; exact hroom)
  rw [Memory.length_bytes] at hcount hbytes
  refine ⟨v, hv, hdone, ?_, htaken.trans hlen, Memory.bytes_eq_iff.mp hbytes⟩
  rw [hcount, BitVec.ofNat_toNat, BitVec.setWidth_eq]

/-! ## A block (rules R235 to R237, R239) -/

/-- A block goes forward, closes as rule R235 has it, and its tokens stand for the bytes it covers. -/
theorem Parse.block_stands_for_input (h : Handle) (m : Memory) {mf : MatchFinder} (ok : matchFinderOk mf) :
    let p := Parse.block h m mf.len.toNat mf.cur blockTarget ⟨mf, [], mf.cur⟩
    p.mf.cur = p.pos ∧ p.pos ≤ mf.len.toNat ∧ (mf.cur < mf.len.toNat → mf.cur < p.pos)
      ∧ p.pos ≤ mf.cur + 33280 ∧ (p.pos = mf.len.toNat ∨ mf.cur + 32768 ≤ p.pos) ∧ p.toks.length ≤ 33023
      ∧ expandTokens (m.bytes mf.src 0 mf.cur) p.toks.reverse = some (m.bytes mf.src 0 p.pos) := by
  obtain ⟨hpos, -, hcur, -⟩ := ok
  have start : Parse.At mf 0 ⟨mf, [], mf.cur⟩ := ⟨rfl, rfl, hpos, rfl, hcur, nofun⟩
  obtain ⟨stop, -, htoks, hspan, hend⟩ := Parse.block_spec h m mf.cur blockTarget start (Nat.le_refl _) (Nat.zero_le _)
    (Nat.le_of_eq (Nat.add_comm _ _))
  have spells : Parse.Spells mf.src m mf.cur ⟨mf, [], mf.cur⟩ := rfl
  exact ⟨stop.cur, stop.inside, Parse.block_forward h m start rfl, hspan.trans (Nat.max_le.mpr ⟨Nat.le_add_right _ _, Nat.le_refl _⟩),
    hend, htoks, Parse.block_spells h m mf.cur mf.cur blockTarget start spells⟩

/-- Settles O55: the stream's bits decode to the input, and each block's tokens spell the bytes it covers. -/
theorem compressedFormStandsForTheInput : Obligations.CompressedFormStandsForTheInput := by
  refine ⟨fun s ha hops => ?_, fun h m mf => Parse.block_stands_for_input h m⟩
  obtain ⟨t, ht, hbw, fitting, -⟩ := exec_compress_accepted ha hops
  refine ⟨t, ht, fun success u => decompress_of_compress ha hops ht success, fun hl hroom => ?_⟩
  obtain ⟨hovf, hbytes⟩ := Deflate.compress_size_of_levelZero s.deflate hl hroom
  rw [← hbw] at hovf hbytes
  obtain ⟨hresult, hsize, -⟩ := fitting hovf
  exact ⟨hresult, hsize ▸ hbytes⟩

end Sys2Proof.Machine
end

section
/-! PROOF. The Huffman builder's commands (rules R271 to R288), and that the decode table of a built code reads
each of its symbols back (rules R277 (b), R309). -/

namespace Sys2Proof.Machine

/-! ## The histogram (rules R271 to R273) -/

/-- A counter after it is bumped: one more, saturating; the others as before (rule R272). -/
theorem Table.toNat_get_bump (t : Table 32) (i j : Nat) :
    ((Table.bump t i).get j).toNat = if j = i then min 4294967295 ((t.get j).toNat + 1) else (t.get j).toNat := by
  rw [Table.bump, Table.get_set]
  by_cases hj : j = i
  · subst hj
    have hfit : min (wordSpan - 1) ((t.get j).toNat + 1) < 2 ^ 32 := Nat.lt_of_le_of_lt (Nat.min_le_left _ _) (by decide)
    rw [if_pos rfl, if_pos rfl, BitVec.toNat_ofNat, Nat.mod_eq_of_lt hfit]
    rfl
  · rw [if_neg hj, if_neg hj]

/-- What `Tally` leaves of every counter (rule R272). -/
theorem Huff.toNat_get_tally (b : Huff) (x : Alphabet) (sym : Nat) (y : Alphabet) (j : Nat) :
    (((b.tally x sym).freq.table y).get j).toNat
      = if y = x ∧ j = sym then min 4294967295 (((b.freq.table y).get j).toNat + 1) else ((b.freq.table y).get j).toNat := by
  show (((b.freq.put x _).table y).get j).toNat = _
  by_cases hy : y = x
  · subst hy
    rw [Trio.table_put_same, Table.toNat_get_bump]
    simp only [true_and]
  · rw [Trio.table_put_ne _ _ hy, if_neg fun h => hy h.1]

/-- Settles O27, by what `Tally` leaves of each counter. -/
theorem hbClearAndTallyCount : Obligations.HbClearAndTallyCount := by
  intro s halive
  refine ⟨⟨_, exec_alive (i := .hbClear) rfl halive, rfl, fun x j => by cases x <;> rfl⟩, fun x hsym => ?_⟩
  have hbody : commandBody (.hbTally x) s = (s.withHuff (s.huff.tally x s.port.a0.toNat), .success) :=
    if_neg (Nat.not_le.mpr hsym)
  exact ⟨_, exec_of_body rfl halive hbody, rfl, s.huff.toNat_get_tally x s.port.a0.toNat⟩

/-- No later base is at most the value. -/
theorem le_largestAtMost {l : List Nat} (hp : l.Pairwise (· < ·)) {v j : Nat} (h0 : l.headD 0 ≤ v) (hj : j < l.length)
    (hv : l.getD j 0 ≤ v) : j ≤ largestAtMost l v := by
  obtain ⟨-, -, hnext⟩ := largestAtMost_spec hp h0 (List.ne_nil_of_length_pos (Nat.zero_lt_of_lt hj))
  by_contra hlt
  have hbelow := hnext (by omega)
  have hmono : l.getD (largestAtMost l v + 1) 0 ≤ l.getD j 0 := by
    rcases Nat.eq_or_lt_of_le (show largestAtMost l v + 1 ≤ j by omega) with he | hl
    · rw [he]
    · rw [List.getD_eq_getElem _ _ (by omega), List.getD_eq_getElem _ _ hj]
      exact Nat.le_of_lt (List.pairwise_iff_getElem.mp hp _ _ (by omega) hj hl)
  omega

/-- The offset's symbol over the whole range of HB.MATCH, the window size included (rules R141, R273). -/
theorem offSym_covers {off : Nat} (h1 : 1 ≤ off) (h : off ≤ windowSize) :
    offSym off < 30 ∧ offBase (offSym off) ≤ off ∧ off - offBase (offSym off) < 2 ^ offExtra (offSym off) := by
  rcases Nat.eq_or_lt_of_le h with rfl | hlt
  · decide
  · exact offSym_spec h1 (Nat.le_of_lt_succ hlt)

/-- Settles O28: both symbols are the largest of their bases, and `HbMatch` is two `Tally`s. -/
theorem hbMatchMapsToBothSymbols : Obligations.HbMatchMapsToBothSymbols := by
  intro s halive h3 h258 h1 hwindow
  obtain ⟨hls, hlbase, hlextra⟩ := lenSym_spec h3 h258
  obtain ⟨hos, hobase, hoextra⟩ := offSym_covers h1 hwindow
  have hlen : lenSym s.port.a0.toNat = 257 + (lenSym s.port.a0.toNat - 257) := by unfold lenSym; omega
  have hbody : commandBody .hbMatch s = _ :=
    if_pos (by simp [matchOperandsOk, minMatch, maxMatch, windowSize, h3, h258, h1, hwindow])
  refine ⟨_, lenSym s.port.a0.toNat - 257, offSym s.port.a1.toNat, exec_of_body rfl halive hbody, rfl, ?_, by omega, hlbase,
    fun j hj hv => ?_, hlextra, ?_, by omega, hobase, fun j hj hv => ?_, hoextra, fun y j => ?_⟩
  · show (BitVec.ofNat 32 (lenSym s.port.a0.toNat)).toNat = _
    rw [BitVec.toNat_ofNat]
    omega
  · rw [lenSym, Nat.add_sub_cancel_left]
    exact le_largestAtMost (l := lenBases) (by decide) h3 (Nat.lt_succ_of_le hj) hv
  · show (BitVec.ofNat 32 (offSym s.port.a1.toNat)).toNat = _
    rw [BitVec.toNat_ofNat]
    omega
  · exact le_largestAtMost (l := offBases) (by decide) h1 (Nat.lt_succ_of_le hj) hv
  · show (((s.huff.tallyMatch s.port.a0.toNat s.port.a1.toNat).freq.table y).get j).toNat = _
    rw [Huff.tallyMatch, Huff.toNat_get_tally, Huff.toNat_get_tally, ← hlen]
    cases y <;> simp

/-! ## Code lengths (rules R274 to R277) -/

theorem counted_iff {s : State} {x : Alphabet} {a : Nat} : counted s x a ↔ a ∈ usedSymbols (s.freq.table x) x.nsym := by
  rw [mem_usedSymbols, counted, Nat.pos_iff_ne_zero]
  exact and_congr_right fun _ => BitVec.toNat_ne_iff_ne.symm

/-- A length is how often the symbol occurs, in every slot and past them. -/
theorem getD_lengthsFor_eq_count (x : Alphabet) (t : Table 32) (a : Nat) : (lengthsFor x t).getD a 0
    = (lengthOccurrences (fun s => (t.get s).toNat) (usedSymbols t x.nsym) x.maxLen).count a := by
  obtain ⟨hslots, -⟩ := slots_facts x
  obtain ⟨-, -, -, l, -, hlt, hzero, -⟩ := occurrences_spec x t
  rw [getD_lengthsFor]
  split
  · rfl
  · exact (hzero a fun hm => by have := hlt a hm; omega).symm

/-- What HB.LENS stores for every symbol (rule R274). -/
theorem Huff.toNat_get_buildLens (b : Huff) (x : Alphabet) (a : Nat) :
    (((b.buildLens x).lens.table x).get a).toNat = (lengthsFor x (b.freq.table x)).getD a 0 := by
  have hle := getD_le_of_all (lengthsFor_complete x (b.freq.table x)).1 a
  have h15 := maxLen_le x
  show (((b.lens.put x _).table x).get a).toNat = _
  rw [Trio.table_put_same, Table.get_ofList, BitVec.toNat_ofNat, Nat.mod_eq_of_lt (by omega)]

/-- A list of two different symbols holds each of them once, and nothing else. -/
theorem count_pair {u v : Nat} (h : u ≠ v) (c : Nat) : [u, v].count c = if c = u ∨ c = v then 1 else 0 := by
  have hnd : [u, v].Nodup := by simpa using h
  by_cases hc : c = u ∨ c = v
  · rw [if_pos hc, List.count_eq_one_of_mem hnd (by simpa using hc)]
  · rw [if_neg hc, List.count_eq_zero_of_not_mem (by simpa using hc)]

/-- The length is 1 for two symbols and 0 for the others where the occurrences are just these two. -/
theorem Huff.get_buildLens_of_pair {b : Huff} {x : Alphabet} {u v : Nat} (hne : u ≠ v)
    (h : lengthOccurrences (fun s => ((b.freq.table x).get s).toNat) (usedSymbols (b.freq.table x) x.nsym) x.maxLen = [u, v])
    (c : Nat) : ((b.buildLens x).lens.table x).get c = if c = u ∨ c = v then 1 else 0 := by
  refine BitVec.eq_of_toNat_eq ?_
  rw [Huff.toNat_get_buildLens, getD_lengthsFor_eq_count, h, count_pair hne]
  split <;> rfl

/-- Settles O29: two counted symbols or more leave no filler, one or none leaves a pair of occurrences. -/
theorem hbLensLengthsInRange : Obligations.HbLensLengthsInRange := by
  intro s x halive
  obtain ⟨hle, hpos, hunused, -⟩ := occurrences_spec x (s.freq.table x)
  refine ⟨_, exec_alive (i := .hbLens x) rfl halive, rfl, fun y hy => Trio.table_put_ne _ _ hy, fun a ha => ?_,
    fun a b ha hb hab c hc => ?_, fun a ha honly c => ?_, fun hnone c => ?_⟩
  · show 1 ≤ (((s.huff.buildLens x).lens.table x).get a).toNat ∧ (((s.huff.buildLens x).lens.table x).get a).toNat ≤ _
    rw [Huff.toNat_get_buildLens, getD_lengthsFor_eq_count]
    exact ⟨hpos a (counted_iff.mp ha), hle a⟩
  · have htwo : [a, b].length ≤ (usedSymbols (s.freq.table x) x.nsym).length :=
      (List.subperm_of_subset (by simpa using hab) (by simpa using ⟨counted_iff.mp ha, counted_iff.mp hb⟩)).length_le
    refine BitVec.eq_of_toNat_eq ((s.huff.toNat_get_buildLens x c).trans ?_)
    rw [getD_lengthsFor_eq_count]
    exact hunused htwo c (hc ∘ counted_iff.mpr)
  · have hused : usedSymbols (s.freq.table x) x.nsym = [a] :=
      List.perm_singleton.mp ((List.perm_ext_iff_of_nodup (nodup_usedSymbols _ _) (List.nodup_singleton a)).mpr fun b => by
        rw [← counted_iff, List.mem_singleton]
        exact ⟨honly b, fun h => h ▸ ha⟩)
    exact Huff.get_buildLens_of_pair (b := s.huff) (by split <;> omega) (by rw [State.huff_freq, hused]; rfl) c
  · have hused : usedSymbols (s.freq.table x) x.nsym = [] :=
      List.eq_nil_iff_forall_not_mem.mpr fun b => hnone b ∘ counted_iff.mpr
    refine (Huff.get_buildLens_of_pair (b := s.huff) (u := 0) (v := 1) (by decide) (by rw [State.huff_freq, hused]; rfl) c).trans ?_
    simp only [show (c = 0 ∨ c = 1) ↔ c ≤ 1 by omega]

/-! ## Codewords (rules R280 to R282) -/

/-- The sum over the shorter lengths is rule R281's recursion. -/
theorem firstOfLength_eq_firstCode (lens : List Nat) (l : Nat) : firstOfLength lens l = firstCode lens l := by
  induction l with
  | zero => rfl
  | succ l ih =>
    have hdouble : ((List.range l).map fun k => if k = 0 then 0 else lens.count k * 2 ^ (l + 1 - k)).sum
        = firstOfLength lens l * 2 := by
      rw [firstOfLength, ← List.sum_map_mul_right]
      refine congrArg List.sum (List.map_congr_left fun k hk => ?_)
      have := List.mem_range.mp hk
      rw [ite_mul, Nat.zero_mul, Nat.mul_assoc, ← Nat.pow_succ, Nat.succ_sub (by omega)]
    rw [firstOfLength, List.range_succ, List.map_append, List.sum_append, hdouble, ih, firstCode, Nat.add_mul]
    by_cases h0 : l = 0 <;> simp [h0]

/-- Settles O30, by the closed form of a canonical codeword. -/
theorem hbCodesAreCanonical : Obligations.HbCodesAreCanonical := by
  intro s x halive
  refine ⟨_, exec_alive (i := .hbCodes x) rfl halive, rfl, fun y hy => Trio.table_put_ne _ _ hy, fun a ha => ?_⟩
  refine (s.huff.get_buildCodes ha).trans ?_
  show storedCode ((s.lens.lengths x).getD a 0) _ = if (s.lens.lengths x).getD a 0 = 0 then 0 else _
  unfold storedCode
  split
  · rfl
  · rename_i h0
    rw [firstOfLength_eq_firstCode, ← getD_canonical (by rw [length_lengths]; exact ha) h0 (getD_le_of_all (s.lens.lengths_le x) a)]
    rfl

/-! ## From the counts to the decode table (rules R277, R288, R309) -/

/-- The stored bits of a codeword, in the order BW.PUT sends them, are the codeword's, most significant first
(rules R96, R282). -/
theorem bitsOf_storedCode (l word : Nat) : bitsOf l (storedCode l word) = (bitsOf l word).reverse := by
  unfold storedCode
  split
  · rename_i h0
    rw [h0]
    rfl
  · rw [bitsOf_rev, bitsOf_mod]

/-- DT.BUILD of a length set that has a table. -/
theorem exec_dtBuild_built {x : Alphabet} {s : State} {t : Table 32} (ha : s.handle.alive = true)
    (h : buildTable x (s.lens.lengths x) = some t) :
    exec (.dtBuild x) s = .next (State.ended { s with dtab := s.dtab.put x t } .success) :=
  exec_of_body rfl ha (by show dtBuildBody x s = _; rw [dtBuildBody, h])

/-- DT.DECODE where the stream goes on with a symbol. -/
theorem exec_dtDecode_symbol {x : Alphabet} {s : State} {r : Reader} {a : Nat} (ha : s.handle.alive = true)
    (h : decodeSymbol x (s.dtab.table x) s.mem s.br = (r, some a)) :
    exec (.dtDecode x) s = .next (State.ended (State.setA4 { s with br := r } a) .success) :=
  exec_of_body rfl ha (by show dtDecodeBody x s = _; rw [dtDecodeBody, h])

/-- A state whose tables of an alphabet are those of one length set: the codewords made by `Codes`, the
decode table by `Build`. -/
structure CodeInForce (s : State) (x : Alphabet) : Prop where
  code : ∀ a, a < x.slots → ((s.code.table x).get a).toNat
    = storedCode ((s.lens.lengths x).getD a 0) ((canonical (s.lens.lengths x)).getD a 0)
  dtab : buildTable x (s.lens.lengths x) = some (s.dtab.table x)

/-- HB.CODES, then DT.BUILD: the code of the lengths there is in force, where they have a table. -/
theorem exec_hbCodes_dtBuild {s : State} {x : Alphabet} {t : Table 32} (halive : s.handle.alive = true)
    (h : buildTable x (s.lens.lengths x) = some t) :
    ∃ u v, exec (.hbCodes x) s = .next u ∧ exec (.dtBuild x) u = .next v ∧ CodeInForce v x ∧ v.lens = s.lens
      ∧ v.handle = s.handle ∧ v.port.result = .success :=
  have hdtab : ∀ d : Trio 32, buildTable x (s.lens.lengths x) = some ((d.put x t).table x) := fun d => by rw [Trio.table_put_same, h]
  ⟨_, _, exec_alive (i := .hbCodes x) rfl halive, exec_dtBuild_built halive h, ⟨fun _ ha => s.huff.get_buildCodes ha, hdtab s.dtab⟩,
    rfl, rfl, rfl⟩

/-- With one code in force, the bits sent for a symbol decode to that symbol (rules R288, R309). -/
theorem CodeInForce.exec_dtDecode {s : State} {x : Alphabet} (h : CodeInForce s x) (halive : s.handle.alive = true) {a : Nat}
    (h0 : ((s.lens.table x).get a).toNat ≠ 0) (hslot : a < x.slots)
    (hbits : s.br.holds s.mem (bitsOf ((s.lens.table x).get a).toNat ((s.code.table x).get a).toNat))
    (hbound : s.br.bitpos.toNat + ((s.lens.table x).get a).toNat ≤ 8 * s.br.len.toNat + 64) :
    exec (.dtDecode x) s
      = .next (State.ended (State.setA4 { s with br := s.br.past ((s.lens.table x).get a).toNat } a) .success) := by
  have hlen : ((s.lens.table x).get a).toNat = (s.lens.lengths x).getD a 0 := by
    rw [Trio.lengths, Table.getD_toList, if_pos hslot]
  rw [h.code a hslot, hlen, bitsOf_storedCode] at hbits
  rw [hlen] at h0 hbound ⊢
  exact exec_dtDecode_symbol halive (decodeSymbol_of_holds (length_lengths _ _) h.dtab h0 hbits hbound)

/-- Settles O36: the lengths of whatever was counted are a complete code, which has a table. -/
theorem builtCodesDecodeToThemselves : Obligations.BuiltCodesDecodeToThemselves := by
  intro s x halive
  have hlengths : (s.huff.buildLens x).lens.lengths x = lengthsFor x (s.freq.table x) := lengths_buildLens s.huff x
  obtain ⟨t, hbuilt⟩ := lengthsFor_built x (s.freq.table x)
  obtain ⟨u, v, hcodes, hbuild, hforce, hlens, hhandle, hresult⟩ :=
    exec_hbCodes_dtBuild (s := (s.withHuff (s.huff.buildLens x)).ended .success) halive ((congrArg _ hlengths).trans hbuilt)
  have halive' : v.handle.alive = true := hhandle ▸ halive
  refine ⟨_, u, v, exec_alive (i := .hbLens x) rfl halive, hcodes, hbuild, ?_, hresult, fun a h0 hbits hbound => ?_⟩
  · exact (congrArg (kraft x.maxLen) hlengths).trans (lengthsFor_complete x (s.freq.table x)).2
  · refine hforce.exec_dtDecode halive' h0 ?_ hbits hbound
    by_contra hge
    rw [hlens] at h0
    refine h0 ((s.huff.toNat_get_buildLens x a).trans (List.getD_eq_default _ _ ?_))
    rw [length_lengthsFor]
    exact Nat.not_lt.mp hge

end Sys2Proof.Machine
end
section
/-! PROOF. The decode tables (rules R301 to R308): which length sets DT.BUILD accepts, and what DT.DECODE
answers where a codeword comes next and where none does. -/

namespace Sys2Proof.Machine

/-! ## DT.BUILD (rules R301 to R303, R306) -/

/-- `Validate` passes exactly the accepted length sets (rules R302, R303). -/
theorem lengthsValid_iff {x : Alphabet} {lens : List Nat} :
    lengthsValid x.maxLen lens = true ↔ acceptedLengths x lens := by
  have hempty : (lens.filter fun l => decide (l ≠ 0)).length = 0 ↔ ∀ l ∈ lens, l = 0 := by
    simp [List.filter_eq_nil_iff]
  simp only [lengthsValid, acceptedLengths, Bool.and_eq_true, Bool.or_eq_true, decide_eq_true_eq, List.all_eq_true, hempty,
    List.countP_eq_length_filter, or_assoc]
  constructor
  · rintro ⟨⟨hle, -⟩, hshape⟩
    exact ⟨hle, hshape⟩
  · rintro ⟨hle, hshape⟩
    have haccepted : acceptedLengths x lens := ⟨hle, by rwa [List.countP_eq_length_filter]⟩
    exact ⟨⟨hle, kraft_eq _ _ ▸ (acceptedLengths_valid haccepted).2⟩, hshape⟩

/-- A length set that is not accepted has no table. -/
theorem buildTable_eq_none {x : Alphabet} {lens : List Nat} (h : ¬ acceptedLengths x lens) : buildTable x lens = none :=
  if_neg (h ∘ lengthsValid_iff.mp)

/-- Without a codeword nothing is filled (rule R303). -/
theorem buildTable_of_all_zero {x : Alphabet} {lens : List Nat} {t : Table 32} (h : buildTable x lens = some t)
    (hzero : ∀ l ∈ lens, l = 0) : t = [] := by
  have hnone : codewordsOf lens = [] := List.eq_nil_iff_forall_not_mem.mpr fun c hc => by
    obtain ⟨a, ha, h0, -⟩ := mem_codewordsOf.mp hc
    rw [List.getD_eq_getElem _ _ ha] at h0
    exact h0 (hzero _ (List.getElem_mem ha))
  obtain ⟨-, rfl⟩ := buildTable_eq h
  rw [longOf, hnone]
  rfl

/-- DT.BUILD of a length set that has no table. -/
theorem exec_dtBuild_refused {x : Alphabet} {s : State} (ha : s.handle.alive = true)
    (h : buildTable x (s.lens.lengths x) = none) : exec (.dtBuild x) s = .next (s.ended .badData) :=
  exec_of_body rfl ha (by show dtBuildBody x s = _; rw [dtBuildBody, h])

/-- Settles O34: `Validate` passes exactly the accepted sets, and a built table lies in its store. -/
theorem dtBuildAcceptsUsableCodes : Obligations.DtBuildAcceptsUsableCodes := by
  intro s x halive
  refine ⟨fun haccepted => ?_, fun hrefused => exec_dtBuild_refused halive (buildTable_eq_none hrefused)⟩
  obtain ⟨t, ht⟩ := buildTable_some (lengthsValid_iff.mpr haccepted)
  refine ⟨t, exec_dtBuild_built halive ht, wf_buildTable (length_lengths _ _) ht, fun hzero k => ?_⟩
  rw [buildTable_of_all_zero ht hzero]
  rfl

/-! ## DT.DECODE (rules R307, R308) -/

/-- The codeword whose bits come next matches what the reader has ahead (rules R96, R308). -/
theorem matches_of_holds {lens : List Nat} {m : Memory} {r : Reader} {a : Nat} (h15 : lens.getD a 0 ≤ 15)
    (hnext : r.holds m (codewordBits lens a)) :
    (⟨a, lens.getD a 0, (canonical lens).getD a 0⟩ : Codeword).matches (r.ahead m) := by
  have hpeek := Reader.peek_of_holds hnext
  rw [length_codewordBits, codewordBits, ofBits_reverse_bitsOf] at hpeek
  rw [Codeword.matches, Reader.ahead, Reader.field_mod r m _ h15]
  exact hpeek

/-- Past the overread bound a codeword does not decode, though its bits come next (rule R308). -/
theorem decodeSymbol_of_overread {x : Alphabet} {lens : List Nat} {t : Table 32} (hn : lens.length = x.slots)
    (h : buildTable x lens = some t) {m : Memory} {r : Reader} {a : Nat} (h0 : lens.getD a 0 ≠ 0)
    (hnext : r.holds m (codewordBits lens a)) (hpast : 8 * r.len.toNat + 64 < r.bitpos.toNat + lens.getD a 0) :
    (decodeSymbol x t m r).2 = none := by
  have hslot : a < lens.length := by
    by_contra hge
    exact h0 (List.getD_eq_default _ _ (Nat.not_lt.mp hge))
  have h15 := Nat.le_trans (getD_le_of_all (valid_of_lengthsValid hn (buildTable_eq h).1).le a) (maxLen_le x)
  exact (decodeSymbol_hit hn h m r (mem_codewordsOf.mpr ⟨a, hslot, h0, rfl⟩) (matches_of_holds h15 hnext)).2
    (Nat.not_le.mpr hpast)

/-- Where no codeword comes next, none is decoded (rule R308). -/
theorem decodeSymbol_of_not_holds {x : Alphabet} {lens : List Nat} {t : Table 32} (hn : lens.length = x.slots)
    (h : buildTable x lens = some t) {m : Memory} {r : Reader}
    (hnone : ∀ a, lens.getD a 0 ≠ 0 → ¬ r.holds m (codewordBits lens a)) : (decodeSymbol x t m r).2 = none := by
  rcases decodeSymbol_cases hn h m r with ⟨r', hd⟩ | ⟨a, -, h0, hnext, -⟩
  · rw [hd]
  · exact absurd hnext (hnone a h0)

/-- DT.DECODE where the stream does not go on with a symbol: only the result register changes of the port. -/
theorem exec_dtDecode_badData {x : Alphabet} {s : State} (ha : s.handle.alive = true)
    (h : (decodeSymbol x (s.dtab.table x) s.mem s.br).2 = none) :
    ∃ t, exec (.dtDecode x) s = .next t ∧ t.port = { s.port with result := .badData } := by
  obtain ⟨r, hd⟩ : ∃ r, decodeSymbol x (s.dtab.table x) s.mem s.br = (r, none) := ⟨_, Prod.ext rfl h⟩
  have hbody : commandBody (.dtDecode x) s = ({ s with br := r }, .badData) := by
    show dtDecodeBody x s = _
    rw [dtDecodeBody, hd]
  exact ⟨_, exec_of_body rfl ha hbody, rfl⟩

/-- Settles O35, by the three answers of `Decode`: the codeword next, a codeword past the bound, no codeword. -/
theorem dtDecodeReadsTheNextCodeword : Obligations.DtDecodeReadsTheNextCodeword := by
  intro s x lens halive hn hbuilt
  refine ⟨fun a h0 hnext => ⟨fun hbound => ?_, fun hpast => ?_⟩, fun hnone => ?_⟩
  · exact exec_dtDecode_symbol halive (decodeSymbol_of_holds hn hbuilt h0 hnext hbound)
  · exact exec_dtDecode_badData halive (decodeSymbol_of_overread hn hbuilt h0 hnext hpast)
  · exact exec_dtDecode_badData halive (decodeSymbol_of_not_holds hn hbuilt hnone)

end Sys2Proof.Machine
end

section
/-! PROOF. The bytes of BW.ALIGN, BW.FLUSH and BW.BYTES (rules R323 to R326): padding with zero bits, a source appended,
and no other byte touched. -/

namespace Sys2Proof.Machine

/-! ## What the two procedures leave unchanged -/

theorem Sink.putByte_frame {k : Sink} {a : Word} (b : Byte) (ha : a ≠ k.bw.dst + k.bw.nbytes) :
    (k.putByte b).mem.read a = k.mem.read a := by
  rcases Nat.lt_or_ge k.bw.nbytes.toNat k.bw.cap.toNat with hroom | hfull
  · rw [Sink.putByte_room hroom]
    refine Memory.read_write_ne _ _ ?_
    rwa [bufferAddr, BitVec.ofNat_toNat, BitVec.setWidth_eq]
  · rw [Sink.putByte_full hfull]

theorem Sink.align_of_aligned {k : Sink} (h : k.bw.nbits = 0) : k.align = k := by
  rw [Sink.align, if_neg (by rw [h]; decide)]

theorem Sink.align_frame {k : Sink} {a : Word} (ha : a ≠ k.bw.dst + k.bw.nbytes) : k.align.mem.read a = k.mem.read a := by
  unfold Sink.align
  split
  · exact k.putByte_frame _ ha
  · rfl

@[simp] theorem Sink.putBytes_nbits (base : Word) (i n : Nat) (k : Sink) : (Sink.putBytes base i n k).bw.nbits = k.bw.nbits := by
  induction n generalizing i k with
  | zero => rfl
  | succ n ih => rw [Sink.putBytes, ih, Sink.putByte_nbits]

/-- The bytes of a source go behind those written before and nowhere else. -/
theorem Sink.putBytes_frame (base : Word) (i n : Nat) {k : Sink} {a : Word} (h : k.bw.nbytes.toNat + n ≤ k.bw.cap.toNat)
    (ha : ∀ j, j < n → a ≠ bufferAddr k.bw.dst (k.bw.nbytes.toNat + j)) :
    (Sink.putBytes base i n k).mem.read a = k.mem.read a := by
  induction n generalizing i k with
  | zero => rfl
  | succ n ih =>
    have hlt : k.bw.nbytes.toNat < k.bw.cap.toNat := by omega
    have hs := word_succ_toNat hlt
    rw [Sink.putBytes, Sink.putByte_room hlt]
    refine (ih _ (by simp only [hs]; omega) fun j hj => ?_).trans (Memory.read_write_ne _ _ (ha 0 (by omega)))
    simp only [hs]
    rw [Nat.add_right_comm, Nat.add_assoc]
    exact ha (j + 1) (by omega)

/-! ## A writer without overflow -/

/-- A writer in form, with its memory (rules R65, R66). -/
theorem writerOk.sink_ok {s : State} (h : writerOk s.bw) : s.sink.Ok := by
  have packed := h.packed
  obtain ⟨-, -, hfit, -, hdst⟩ := h
  exact ⟨packed, hfit, hdst⟩

theorem Writer.verdict_of_no_overflow {w : Writer} (h : w.ovf = false) : w.verdict = .success := by
  rw [Writer.verdict, h]
  rfl

/-- BW.FLUSH is BW.ALIGN and the bytes written in `a5` (rule R325). -/
theorem bwFlushBody_of_no_overflow {s : State} (h : s.sink.align.bw.ovf = false) :
    bwFlushBody s = ((s.withSink s.sink.align).setA5 s.sink.align.bw.nbytes.toNat, .success) := by
  rw [bwFlushBody, Writer.verdict_of_no_overflow h, Writer.report, h]
  rfl

/-- Settles O38, by what `Align` writes. -/
theorem bwAlignAndFlushPadWithZeros : Obligations.BwAlignAndFlushPadWithZeros := by
  intro s ha ok hovf hroom
  have hsend : s.bw.nbytes.toNat + (if s.bw.nbits = 0 then 0 else 1) ≤ s.bw.cap.toNat := by
    split
    · exact ok.sink_ok.fits
    · exact hroom ‹_›
  have hovf' : s.sink.align.bw.ovf = false := (s.sink.sends_align.fit hsend).1.trans hovf
  obtain ⟨writes, haligned⟩ := s.sink.writes_align ok.packed.1
  have align : commandBody .bwAlign s = (s.withSink s.sink.align, .success) :=
    Prod.ext rfl (Writer.verdict_of_no_overflow hovf')
  have flush : commandBody .bwFlush s = _ := bwFlushBody_of_no_overflow hovf'
  exact ⟨_, exec_of_body rfl ha align, rfl, haligned, writes.bits ok.sink_ok hovf', fun _ => Sink.align_frame (k := s.sink),
    fun h => congrArg Sink.mem (Sink.align_of_aligned (k := s.sink) h), exec_of_body rfl ha flush⟩

/-- Operands BW.BYTES accepts: a source that does not wrap, apart from the destination, and an aligned writer (rules
R326, R415). -/
theorem bwBytes_operands_accepted {s : State} (h : ¬ badOperands .bwBytes s) :
    s.port.a0.toNat + s.port.a1.toNat ≤ wordSpan ∧ disjoint s.port.a0 s.port.a1 s.bw.dst s.bw.cap = true ∧ s.bw.nbits = 0 := by
  simp only [badOperands, not_or, Nat.not_lt, not_not] at h
  obtain ⟨hsrc, hapart, haligned⟩ := h
  exact ⟨hsrc, (disjoint_iff _ _ _ _).mpr hapart, haligned⟩

/-- Settles O39, by what committing a source apart from the destination writes. -/
theorem bwBytesAppendsTheSource : Obligations.BwBytesAppendsTheSource := by
  intro s ha ok hovf hbad hroom
  obtain ⟨hsrc, hapart, haligned⟩ := bwBytes_operands_accepted hbad
  have hovf' : (Sink.putBytes s.port.a0 0 s.port.a1.toNat s.sink).bw.ovf = false :=
    ((Sink.sends_putBytes _ _ _ s.sink).fit hroom).1.trans hovf
  have writes := Sink.writes_putBytes s.port.a0 0 s.port.a1.toNat s.sink haligned (disjoint_outside hapart hsrc)
  have body : commandBody .bwBytes s = (s.withSink (Sink.putBytes s.port.a0 0 s.port.a1.toNat s.sink), .success) :=
    (bwBytesBody_accepted hbad).trans (by rw [Writer.verdict_of_no_overflow hovf'])
  refine ⟨_, exec_of_body rfl ha body, rfl, (Sink.putBytes_nbits _ _ _ _).trans haligned, writes.bits ok.sink_ok hovf',
    fun a hout => Sink.putBytes_frame _ _ _ (k := s.sink) hroom fun j hj => ne_bufferAddr_of_outside_from ?_ hout hj⟩
  exact Nat.le_trans (Nat.add_le_add_left hroom _) ok.sink_ok.dst

end Sys2Proof.Machine
end

section
/-! PROOF. The reader's commands (rules R342 to R348): which bits and bytes are read, and what is consumed. -/

namespace Sys2Proof.Machine

/-! ## A field of up to 32 bits (rules R342 to R346) -/

theorem brPeekBody_accepted {s : State} (h : s.port.a0.toNat ≤ 32) :
    brPeekBody s = (s.setA4 (s.br.peek s.mem s.port.a0.toNat), .success) := if_neg (Nat.not_lt.mpr h)

/-- BR.GET of a field it accepts: its value and the reader past it, or BAD_DATA past the overread bound. -/
theorem brGetBody_accepted {s : State} (h : s.port.a0.toNat ≤ 32) :
    brGetBody s = if s.br.bitpos.toNat + s.port.a0.toNat ≤ 8 * s.br.len.toNat + 64
      then (State.setA4 { s with br := s.br.past s.port.a0.toNat } (s.br.peek s.mem s.port.a0.toNat), .success)
      else (s, .badData) := by
  have hmax : ¬ maxGet < s.port.a0.toNat := Nat.not_lt.mpr h
  rw [brGetBody, if_neg hmax, Reader.get_eq]
  by_cases hwithin : s.br.bitpos.toNat + s.port.a0.toNat ≤ 8 * s.br.len.toNat + 64
  · rw [if_pos hwithin, if_pos hwithin]
    rfl
  · rw [if_neg hwithin, if_neg hwithin]

/-- BR.DROP of a field it accepts. -/
theorem brDropBody_accepted {s : State} (h : s.port.a0.toNat ≤ 32) :
    brDropBody s = if s.br.bitpos.toNat + s.port.a0.toNat ≤ 8 * s.br.len.toNat + 64
      then ({ s with br := s.br.past s.port.a0.toNat }, .success) else (s, .badData) := by
  have hmax : ¬ maxGet < s.port.a0.toNat := Nat.not_lt.mpr h
  rw [brDropBody, if_neg hmax, Reader.drop_eq]
  by_cases hwithin : s.br.bitpos.toNat + s.port.a0.toNat ≤ 8 * s.br.len.toNat + 64
  · rw [if_pos hwithin, if_pos hwithin]
    rfl
  · rw [if_neg hwithin, if_neg hwithin]

/-! ## The next byte boundary (rule R347) -/

/-- A reader within the overread bound steps over less than a byte to the boundary, and stays within the bound. -/
theorem brAlignBody_within {s : State} (h : readerOk s.br) :
    ∃ r, brAlignBody s = ({ s with br := r }, .success) ∧ r.src = s.br.src ∧ r.len = s.br.len ∧ r.bitpos.toNat % 8 = 0
      ∧ s.br.bitpos.toNat ≤ r.bitpos.toNat ∧ r.bitpos.toNat < s.br.bitpos.toNat + 8 := by
  obtain ⟨hbound, -⟩ := h
  have hpos : (BitVec.ofNat 64 ((s.br.bitpos.toNat + 7) / 8 * 8)).toNat = (s.br.bitpos.toNat + 7) / 8 * 8 :=
    Reader.bitpos_ofNat s.br.len (by omega)
  refine ⟨{ s.br with bitpos := BitVec.ofNat 64 ((s.br.bitpos.toNat + 7) / 8 * 8) }, ?_, rfl, rfl, ?_⟩
  · rw [brAlignBody, Reader.align_eq hbound]
  · simp only [hpos]
    omega

/-- Settles O41: the value is `Peek`'s, and `Drop` refuses exactly past the overread bound. -/
theorem brCommandsReadTheNextBits : Obligations.BrCommandsReadTheNextBits := by
  refine fun s ha => ⟨fun hn => ?_, fun ok => ?_⟩
  · have hlt : s.br.peek s.mem s.port.a0.toNat < 2 ^ 32 :=
      Nat.lt_of_lt_of_le (s.br.peek_lt s.mem _) (Nat.pow_le_pow_right (by decide) hn)
    have get : commandBody .brGet s = _ := brGetBody_accepted hn
    have drop : commandBody .brDrop s = _ := brDropBody_accepted hn
    refine ⟨s.br.peek s.mem s.port.a0.toNat, s.br.field_testBit s.mem _ _, hlt, exec_of_body rfl ha (brPeekBody_accepted hn),
      fun hwithin => ?_, fun hpast => ?_⟩
    · exact ⟨exec_of_body rfl ha (get.trans (if_pos hwithin)), exec_of_body rfl ha (drop.trans (if_pos hwithin))⟩
    · exact ⟨exec_of_body rfl ha (get.trans (if_neg (Nat.not_le.mpr hpast))),
        exec_of_body rfl ha (drop.trans (if_neg (Nat.not_le.mpr hpast)))⟩
  · obtain ⟨r, hbody, hr⟩ := brAlignBody_within ok
    exact ⟨r, exec_of_body rfl ha hbody, hr⟩

/-! ## Whole bytes (rule R348) -/

/-- Operands BR.BYTES accepts: a destination that does not wrap, apart from the input, and an aligned reader (rules R348,
R415). -/
theorem brBytes_operands_accepted {s : State} (h : ¬ badOperands .brBytes s) :
    s.port.a0.toNat + s.port.a1.toNat ≤ wordSpan ∧ disjoint s.port.a0 s.port.a1 s.br.src s.br.len = true
      ∧ s.br.bitpos.toNat % 8 = 0 := by
  simp only [badOperands, not_or, Nat.not_lt, not_not] at h
  obtain ⟨hdst, hapart, haligned⟩ := h
  exact ⟨hdst, (disjoint_iff _ _ _ _).mpr hapart, haligned⟩

/-- BR.BYTES with operands it accepts copies, or is short of real input bytes. -/
theorem brBytesBody_accepted {s : State} (h : ¬ badOperands .brBytes s) :
    brBytesBody s = if s.br.left < s.port.a1.toNat then (s, .shortInput) else
      ({ s with
          br := s.br.advanceBytes s.port.a1.toNat
          mem := Memory.copyForward s.br.src s.port.a0 s.br.start 0 s.port.a1.toNat s.mem }, .success) := by
  obtain ⟨hdst, hapart, haligned⟩ := brBytes_operands_accepted h
  rw [brBytesBody, (checkBuf_iff _ _).mpr hdst, hapart, if_neg (by decide), if_neg (by decide), if_neg (not_not.mpr haligned)]

/-- Settles O42: the bytes of the input lie apart from the destination, so the copy is verbatim. -/
theorem brBytesCopiesRealInput : Obligations.BrBytesCopiesRealInput := by
  rintro s ha ⟨hbound, hsrc⟩ hops
  obtain ⟨hdst, hapart, haligned⟩ := brBytes_operands_accepted hops
  have hbody : commandBody .brBytes s = _ := brBytesBody_accepted hops
  have hleft : s.br.left = s.br.len.toNat - s.br.bitpos.toNat / 8 := rfl
  refine ⟨fun hin => ?_, fun hshort => ?_⟩
  · rw [if_neg (by omega)] at hbody
    refine ⟨_, exec_of_body rfl ha hbody, rfl, ?_, fun k hk => ?_, fun a hout => ?_⟩
    · exact Reader.bitpos_ofNat (n := s.br.bitpos.toNat + 8 * s.port.a1.toNat) s.br.len (by omega)
    · have verbatim := Memory.copyForward_disjoint (src := s.br.src) (i := s.br.start) (j := 0) (m := s.mem)
        (by rwa [Nat.zero_add]) (fun i j hi hj => (bufferAddr_ne_of_disjoint hapart hdst hsrc
          (by omega) (by show s.br.bitpos.toNat / 8 + i < _; omega)).symm) hk
      rwa [Nat.zero_add] at verbatim
    · exact Memory.keptOutside_copyForward s.br.src hdst _ (Nat.le_of_eq (Nat.zero_add _)) s.mem a hout
  · rw [if_pos (by omega)] at hbody
    exact exec_of_body rfl ha hbody

end Sys2Proof.Machine
end

section
/-! PROOF. The end of DECOMPRESS (rules R350, R363, R378, R379; U5): how it ends, and which counts it reports. -/

namespace Sys2Proof.Machine

/-- A decompressor that is over shows how: SUCCESS in DONE, the recorded error in ERROR (rule R363). -/
theorem Decomp.over.verdict {d : Decomp} (h : d.over) (sound : d.Sound) :
    (d.state = .done ∧ d.verdict = .success) ∨ (d.state = .error ∧ d.verdict = d.err ∧ stepError d.err) := by
  unfold Decomp.verdict
  rcases h with hdone | hfailed
  · exact .inl ⟨hdone, by rw [hdone]⟩
  · exact .inr ⟨hfailed, by rw [hfailed], sound.failed hfailed⟩

/-- Shown or hidden, DECOMPRESS leaves the decompressor and the reader of its run (log 6). -/
theorem State.endInflate_units (s : State) (d : Inflate) : (s.endInflate d).dx = d.dx ∧ (s.endInflate d).br = d.br := by
  unfold State.endInflate
  split <;> exact ⟨rfl, rfl⟩

/-- The counts shown are the bytes produced and consumed (rules R363, R378). -/
theorem State.showInflate_counts (s : State) {d : Inflate} {len : Word} (hlen : d.br.len = len) :
    (s.showInflate d).port.a5 = d.dx.outpos
      ∧ (s.showInflate d).port.a6.toNat = min len.toNat (ceilDiv d.br.bitpos.toNat 8) := by
  subst hlen
  refine ⟨by simp [State.showInflate], ?_⟩
  exact (BitVec.toNat_ofNat _ _).trans (Nat.mod_eq_of_lt (Nat.lt_of_le_of_lt (Nat.min_le_left _ _) d.br.len.isLt))

/-- A free count is at most its bound (U5). -/
theorem toNat_freeCount_le (n : Nat) (bound : Word) : (BitVec.ofNat 32 (n % (bound.toNat + 1))).toNat ≤ bound.toNat := by
  rw [BitVec.toNat_ofNat]
  exact Nat.le_trans (Nat.mod_le _ _) (Nat.le_of_lt_succ (Nat.mod_lt _ (Nat.succ_pos _)))

/-- Shown or hidden, the counts stay within the capacity and the input length (U5, log 6). -/
theorem State.endInflate_counts_le {s : State} {d : Inflate} (hout : d.dx.outpos.toNat ≤ s.port.a3.toNat) (hlen : d.br.len = s.port.a1) :
    (s.endInflate d).port.a5.toNat ≤ s.port.a3.toNat ∧ (s.endInflate d).port.a6.toNat ≤ s.port.a1.toNat := by
  have shown : (s.showInflate d).port.a5.toNat ≤ s.port.a3.toNat ∧ (s.showInflate d).port.a6.toNat ≤ s.port.a1.toNat := by
    obtain ⟨hproduced, hconsumed⟩ := s.showInflate_counts hlen
    exact ⟨by rwa [hproduced], by rw [hconsumed]; exact Nat.min_le_left _ _⟩
  unfold State.endInflate
  split
  · exact ⟨toNat_freeCount_le _ _, toNat_freeCount_le _ _⟩
  all_goals exact shown

/-- Settles O50: the run is over within `maxSteps`, sound, and inside its buffers. -/
theorem decompressAlwaysEnds : Obligations.DecompressAlwaysEnds := by
  intro s ha hops
  have hbody : commandBody .decompress s = _ := decompressBody_accepted (checkTwoBufs_of_operands hops)
  have hover := s.inflate_over
  have sound := (Inflate.good_runAll (maxSteps s.port.a1) s.good_startInflate).sound
  have ext := Inflate.extends_runAll (maxSteps s.port.a1) s.startInflate
  generalize Inflate.runAll (maxSteps s.port.a1) s.startInflate = d at hbody hover sound ext
  have hlen : d.br.len = s.port.a1 := ext.reader.len
  have hout : d.dx.outpos.toNat ≤ s.port.a3.toNat := ext.outpos_fits (Nat.zero_le _)
  have hbits : d.br.bitpos.toNat ≤ 8 * s.port.a1.toNat + 64 := ext.reader.bound (Nat.zero_le _)
  obtain ⟨hdx, hbr⟩ := s.endInflate_units d
  obtain ⟨hproduced, hconsumed⟩ := State.endInflate_counts_le hout hlen
  refine ⟨_, exec_of_body rfl ha hbody, ?_⟩
  simp only [State.ended_dx, State.ended_br, State.ended_result, State.ended_a5, State.ended_a6, hdx, hbr]
  refine ⟨hover.verdict sound, fun hshown => ?_, hproduced, hconsumed, hout, hbits⟩
  rw [State.endInflate_shown (hshown.imp_left sound.ne_error_of_success)]
  exact s.showInflate_counts hlen

end Sys2Proof.Machine
end

section
/-! PROOF. DX.STEP where it reads no bit, and the elements that steer a stream: block headers, literals, the end of a
block, reserved symbols (rules R362 to R365, R371 to R377). -/

namespace Sys2Proof.Machine

/-! ## Steps that read no bit (rules R362, R365) -/

theorem Inflate.step_of_done {d : Inflate} (h : d.dx.state = .done) : d.step = d := by
  rw [Inflate.step, h]

theorem Inflate.step_of_error {d : Inflate} (h : d.dx.state = .error) : d.step = d := by
  rw [Inflate.step, h]

/-- The lengths and tables of a fixed block (rule R365). -/
theorem Inflate.buildFixed_eq (d : Inflate) : ∃ litlen offset, buildTable .litlen fixedLitlenLens = some litlen
    ∧ buildTable .offset fixedOffsetLens = some offset ∧ d.buildFixed = { d with
        lens := d.lens.loadFixed, dtab := ⟨litlen, offset, d.dtab.precode⟩, dx := { d.dx with state := .decodeLoop } } := by
  obtain ⟨⟨litlen, hlitlen⟩, offset, hoffset⟩ := fixed_built
  obtain ⟨hll, hof⟩ := fixed_lengths d.lens
  exact ⟨litlen, offset, hlitlen, hoffset, Inflate.buildBoth_eq (d := { d with lens := d.lens.loadFixed })
    (by rw [hll]; exact hlitlen) (by rw [hof]; exact hoffset)⟩

theorem Inflate.step_of_fixed {d : Inflate} (h : d.dx.state = .buildTables) (hb : d.dx.btype = 1) : d.step = d.buildFixed := by
  rw [Inflate.step, h]
  exact if_pos hb

/-- Settles O43: the fixed lengths make complete codes, so `buildFixed_eq` has both tables. -/
theorem dxStepWhereNoBitIsRead : Obligations.DxStepWhereNoBitIsRead := by
  refine fun s ha => ⟨fun hdone => ?_, fun hfailed => ?_, fun hbuild hfixed => ?_⟩
  · rw [exec_dxStep ha (Inflate.step_of_done hdone), State.inflate_dx, Decomp.verdict, hdone]
    rfl
  · rw [exec_dxStep ha (Inflate.step_of_error hfailed), State.inflate_dx, Decomp.verdict, hfailed]
    rfl
  · obtain ⟨litlen, offset, hlitlen, hoffset, hbuilt⟩ := s.inflate.buildFixed_eq
    obtain ⟨hll, hof⟩ := fixed_lengths s.lens
    exact ⟨_, exec_dxStep ha ((Inflate.step_of_fixed hbuild hfixed).trans hbuilt), rfl, rfl, rfl, rfl, rfl, hll, hof, rfl, rfl,
      length_fixedLitlenLens, length_fixedOffsetLens, hlitlen, hoffset⟩

/-! ## Literals, ends of blocks (rules R371, R372) -/

theorem Inflate.literal_full {d : Inflate} (b : Byte) (h : d.dx.outpos = d.dx.cap) :
    d.literal b = d.error .insufficientSpace := if_pos h

theorem Inflate.literal_room {d : Inflate} (b : Byte) (h : d.dx.outpos ≠ d.dx.cap) : d.literal b =
    { d with mem := d.mem.write (d.dx.dst + d.dx.outpos) b, dx := { d.dx with outpos := d.dx.outpos + 1 } } := by
  rw [Inflate.literal, if_neg h, bufferAddr, BitVec.ofNat_toNat, BitVec.setWidth_eq]

/-- Settles O44: the headers and the reserved symbols record what they say; a literal tests the room, the end of a block
goes where `afterBlock` says. -/
theorem controlElementsAct : Obligations.ControlElementsAct := by
  refine fun s final value symbol => ⟨rfl, rfl, rfl, rfl, fun hfull => ?_, fun hroom => ?_, ?_, rfl, rfl⟩
  · rw [exec_element rfl, show s.inflate.run (.lit value) = _ from Inflate.literal_full value hfull]
    rfl
  · refine ⟨_, exec_element rfl s, ?_⟩
    rw [show s.inflate.run (.lit value) = _ from Inflate.literal_room value hroom]
    exact ⟨rfl, fun addr => s.mem.read_write _ addr value⟩
  · rw [exec_element rfl, show s.inflate.run .eob = _ from Inflate.blockDone_eq_afterBlock (s := s) rfl rfl rfl rfl]
    rfl

end Sys2Proof.Machine
end

section
/-! PROOF. How a dynamic header ends (rules R366 to R369, R377): its counts are recorded, and it is refused, or ends in
BAD_DATA, or with its three tables built. -/

namespace Sys2Proof.Machine

/-! ## Reading lengths, or BAD_DATA -/

/-- The decompressor with its reader and the length sequence moved on. -/
def Inflate.gathered (d : Inflate) (br : Reader) (seq : List (BitVec 4)) : Inflate :=
  { d with br := br, dx := { d.dx with seq := seq } }

/-- What reading a length sequence can do: move the reader and the sequence on, and end in BAD_DATA or not (rule R368). -/
def Inflate.Gathers (d d' : Inflate) : Prop := ∃ br seq, d' = d.gathered br seq ∨ d' = (d.gathered br seq).error .badData

theorem Inflate.Gathers.refl (d : Inflate) : d.Gathers d := ⟨d.br, d.dx.seq, .inl rfl⟩

theorem Inflate.gathers_error (d : Inflate) : d.Gathers (d.error .badData) := ⟨d.br, d.dx.seq, .inr rfl⟩

theorem Inflate.Gathers.trans {d d' d'' : Inflate} (h : d.Gathers d') (g : d'.Gathers d'') : d.Gathers d'' := by
  obtain ⟨br, seq, hd''⟩ := g
  refine ⟨br, seq, ?_⟩
  obtain ⟨_, _, rfl | rfl⟩ := h
  · exact hd''
  · exact .inr (hd''.elim id id)

theorem Inflate.Gathers.andThen {d d' : Inflate} {f : Inflate → Inflate} (h : d.Gathers d') (hf : d'.Gathers (f d')) :
    d.Gathers (d'.andThen f) := by
  unfold Inflate.andThen
  split
  · exact h
  all_goals exact h.trans hf

theorem Inflate.gathers_extend (d : Inflate) (v : BitVec 4) (n : Nat) : d.Gathers (d.extend v n) := by
  unfold Inflate.extend
  split
  · exact d.gathers_error
  · exact ⟨d.br, _, .inl rfl⟩

theorem Inflate.gathers_runPrecode (d : Inflate) (i : Instr) : d.Gathers (d.runPrecode i) := by
  cases i with
  | preLen value => exact d.gathers_extend _ _
  | preRep extra =>
    show d.Gathers (d.preRep extra)
    unfold Inflate.preRep
    split
    · exact d.gathers_error
    · exact d.gathers_extend _ _
  | preZrep3 extra => exact d.gathers_extend _ _
  | preZrep11 extra => exact d.gathers_extend _ _
  | _ => exact d.gathers_error

theorem Inflate.gathers_precodeStep (d : Inflate) : d.Gathers d.precodeStep := by
  have moved (r : Reader) : d.Gathers { d with br := r } := ⟨r, d.dx.seq, .inl rfl⟩
  unfold Inflate.precodeStep
  split
  · exact (moved _).trans (Inflate.gathers_error _)
  · exact (moved _).trans (Inflate.gathers_runPrecode _ _)

theorem Inflate.gathers_readLengths (fuel : Nat) (d : Inflate) : d.Gathers (Inflate.readLengths fuel d) := by
  induction fuel generalizing d with
  | zero => exact .refl d
  | succ fuel ih =>
    unfold Inflate.readLengths
    split
    · exact .refl d
    · exact d.gathers_precodeStep.andThen (ih _)

/-- Reading the precode's lengths moves the reader and fills their array, or ends in BAD_DATA (rule R367). -/
theorem Inflate.readPrecodeLens_cases (order : List Nat) (d : Inflate) : ∃ br pre,
    Inflate.readPrecodeLens order d = { d with br := br, lens := { d.lens with precode := pre } }
      ∨ Inflate.readPrecodeLens order d = Inflate.error { d with br := br, lens := { d.lens with precode := pre } } .badData := by
  induction order generalizing d with
  | nil => exact ⟨d.br, d.lens.precode, .inl rfl⟩
  | cons s order ih =>
    unfold Inflate.readPrecodeLens
    split
    · exact ⟨_, d.lens.precode, .inr rfl⟩
    · exact ih _

/-! ## Building the tables (rules R301, R369) -/

/-- Both tables are built, or one length set is refused. -/
theorem Inflate.buildBoth_cases (d : Inflate) :
    d.buildBoth.dx = { d.dx with state := .error, err := .badData }
      ∨ ∃ litlen offset, buildTable .litlen (d.lens.lengths .litlen) = some litlen
          ∧ buildTable .offset (d.lens.lengths .offset) = some offset
          ∧ d.buildBoth = { d with dtab := ⟨litlen, offset, d.dtab.precode⟩, dx := { d.dx with state := .decodeLoop } } := by
  cases hlitlen : buildTable .litlen (d.lens.lengths .litlen) with
  | none => exact .inl (by rw [Inflate.buildBoth_refused_litlen hlitlen]; rfl)
  | some litlen =>
    cases hoffset : buildTable .offset (d.lens.lengths .offset) with
    | none => exact .inl (by rw [Inflate.buildBoth_refused_offset hlitlen hoffset]; rfl)
    | some offset => exact .inr ⟨litlen, offset, rfl, rfl, Inflate.buildBoth_eq hlitlen hoffset⟩

/-! ## The dynamic header -/

/-- A dynamic table build has ended with its three tables built from the lengths it read (rule R369). -/
structure Inflate.DynamicBuilt (d d' : Inflate) : Prop where
  dx : d'.dx = { d.dx with seq := [], state := .decodeLoop }
  litlen_past : ∀ a, d.dx.nlit.toNat ≤ a → d'.lens.litlen.get a = 0
  offset_past : ∀ a, d.dx.ndist.toNat ≤ a → d'.lens.offset.get a = 0
  precode : buildTable .precode (d'.lens.lengths .precode) = some d'.dtab.precode
  litlen : buildTable .litlen (d'.lens.lengths .litlen) = some d'.dtab.litlen
  offset : buildTable .offset (d'.lens.lengths .offset) = some d'.dtab.offset

/-- A loaded array is 0 past the lengths it was loaded with (rule R369). -/
theorem get_loaded_past {l : List (BitVec 4)} {a : Nat} (h : l.length ≤ a) :
    (Table.ofList 4 (l.map BitVec.toNat)).get a = 0 := by
  rw [get_loaded, List.getD_eq_default _ _ h]

/-- A dynamic table build ends in BAD_DATA, or with its three tables built; the offset lengths are what the sequence, within
its total, holds past the litlen lengths (rules R368, R369). -/
theorem Inflate.buildDynamic_cases {d : Inflate} (hs : d.dx.state ≠ .error) :
    d.buildDynamic.dx = { d.dx with seq := [], state := .error, err := .badData } ∨ d.DynamicBuilt d.buildDynamic := by
  cases hpre : buildTable .precode (d.lens.lengths .precode) with
  | none => exact .inl (by rw [Inflate.buildDynamic_refused hpre]; rfl)
  | some pre =>
    have hcount := (Inflate.counted_readLengths d.total (Inflate.dropSeq { d with dtab := d.dtab.put .precode pre })).seq
      (Nat.zero_le _)
    obtain ⟨br, seq, hread | hread⟩ :=
      Inflate.gathers_readLengths d.total (Inflate.dropSeq { d with dtab := d.dtab.put .precode pre })
    · rw [hread] at hcount
      rw [Inflate.buildDynamic_built hpre, hread, Inflate.andThen_of_ne (by exact hs)]
      replace hcount : seq.length ≤ d.dx.nlit.toNat + d.dx.ndist.toNat := hcount
      rcases Inflate.buildBoth_cases (Inflate.loadLengths (Inflate.gathered _ br seq)) with
        hbad | ⟨litlen, offset, hlitlen, hoffset, hbuilt⟩
      · exact .inl (by rw [Inflate.dropSeq, hbad]; rfl)
      · rw [hbuilt]
        exact .inr ⟨rfl, fun a ha => get_loaded_past (Nat.le_trans (List.length_take_le _ _) ha),
          fun a ha => get_loaded_past (by rw [List.length_drop]; exact Nat.le_trans (Nat.sub_le_iff_le_add'.mpr hcount) ha),
          hpre, hlitlen, hoffset⟩
    · exact .inl (by rw [Inflate.buildDynamic_built hpre, hread]; rfl)

/-- The declared counts are refused exactly above 286 or 30 under STRICT_COUNTS (rule R366). -/
theorem Inflate.countsRefused_declared (d : Inflate) (hlit hdist : BitVec 5) (hclen : BitVec 4) :
    (d.declared hlit hdist hclen).countsRefused = true
      ↔ d.cfg.strictCounts = true ∧ (29 < hlit.toNat ∨ 29 < hdist.toNat) := by
  have hcfg : (d.declared hlit hdist hclen).cfg = d.cfg := rfl
  rw [Inflate.countsRefused_eq, d.declared_nlit, d.declared_ndist, hcfg]
  simp only [Bool.and_eq_true, Bool.or_eq_true, decide_eq_true_eq]
  exact and_congr_right fun _ => by omega

theorem Inflate.declared_npre (d : Inflate) (hlit hdist : BitVec 5) (hclen : BitVec 4) :
    (d.declared hlit hdist hclen).dx.npre.toNat = hclen.toNat + 4 := by
  have := hclen.isLt
  show (BitVec.ofNat 5 _).toNat = _
  rw [BitVec.toNat_ofNat]
  omega

/-- A header whose counts are accepted ends in BAD_DATA, or with its three tables built (rules R367 to R369, R377). -/
theorem Inflate.dynamicHeader_cases {d : Inflate} {hlit hdist : BitVec 5} {hclen : BitVec 4} (hs : d.dx.state ≠ .error)
    (hseq : d.dx.seq = []) (h : ¬ (d.declared hlit hdist hclen).countsRefused = true) :
    (d.dynamicHeader hlit hdist hclen).dx = { (d.declared hlit hdist hclen).dx with state := .error, err := .badData }
      ∨ (d.declared hlit hdist hclen).DynamicBuilt (d.dynamicHeader hlit hdist hclen) := by
  rw [Inflate.dynamicHeader_accepted h]
  obtain ⟨br, pre, hread | hread⟩ :=
    Inflate.readPrecodeLens_cases (precodeOrder.take (hclen.toNat + 4)) (d.declared hlit hdist hclen)
  · rw [hread, Inflate.andThen_of_ne (by exact hs)]
    rcases Inflate.buildDynamic_cases (d := { d.declared hlit hdist hclen with
        br := br, lens := { (d.declared hlit hdist hclen).lens with precode := pre } }) hs with hbad | built
    · exact .inl (hbad.trans (by rw [← hseq]; rfl))
    · exact .inr ⟨built.dx, built.litlen_past, built.offset_past, built.precode, built.litlen, built.offset⟩
  · exact .inl (by rw [hread]; rfl)

/-- Settles O46: `countsRefused_declared` says which counts are refused, `dynamicHeader_cases` how the others end. -/
theorem dynamicHeaderBuildsOrRefuses : Obligations.DynamicHeaderBuildsOrRefuses := by
  intro s hlit hdist hclen hdx hs
  obtain ⟨-, sound, hseq⟩ := (decompOk_iff _).mp hdx
  have hne : s.dx.state ≠ .error := by rw [hs]; decide
  have hrefused := s.inflate.countsRefused_declared hlit hdist hclen
  have hrun : exec (.dynamicHeader hlit hdist hclen) s = .next (s.withInflate (s.inflate.dynamicHeader hlit hdist hclen)) :=
    exec_element rfl s
  have nlit := s.inflate.declared_nlit hlit hdist hclen
  have ndist := s.inflate.declared_ndist hlit hdist hclen
  have npre := s.inflate.declared_npre hlit hdist hclen
  refine ⟨fun hstrict habove => ?_, fun hwithin => ?_⟩
  · rw [Inflate.dynamicHeader_refused (hrefused.mpr ⟨hstrict, habove⟩)] at hrun
    exact ⟨_, hrun, rfl, nlit, ndist, npre, rfl, rfl⟩
  · have haccepted : ¬ (s.inflate.declared hlit hdist hclen).countsRefused = true := fun hr => by
      obtain ⟨hstrict, habove⟩ := hrefused.mp hr
      obtain ⟨h1, h2⟩ := hwithin hstrict
      omega
    refine ⟨_, hrun, ?_⟩
    rcases Inflate.dynamicHeader_cases (d := s.inflate) hne hseq haccepted with hbad | built
    · rw [State.withInflate_dx, hbad]
      exact ⟨nlit, ndist, npre, rfl, .inl ⟨rfl, rfl⟩⟩
    · rw [State.withInflate_dx, built.dx]
      exact ⟨nlit, ndist, npre, rfl, .inr ⟨rfl, sound.fine hne, fun a ha => built.litlen_past a (nlit ▸ ha),
        fun a ha => built.offset_past a (ndist ▸ ha), built.precode, built.litlen, built.offset⟩⟩

end Sys2Proof.Machine
end

section
/-! PROOF. The hard reset: the values it leaves, in a running engine and in the reset state, and the invariants there
(rule R450). -/

namespace Sys2Proof.Machine

/-- A hard reset that is the host's next access (rules R100, R450). -/
theorem step_hardReset {s : State} {rest : List HostOp} (h : s.host = .hardReset :: rest) :
    step s = .next (State.hardReset { s with host := rest }) := by
  simp only [step, h, serve]

theorem Port.operand_reset (index : Nat) : Port.reset.operand index = 0 := by
  unfold Port.operand
  split <;> rfl

/-- Cleared port registers and a STATUS of 0 make the whole port read 0 (rules R33 to R36). -/
theorem State.portRead_eq_zero {s : State} (port : s.port = Port.reset) (status : s.status = 0) (index : Nat) :
    s.portRead index = 0 := by
  simp only [State.portRead, port, Port.operand_reset, status, show Port.reset.cmd = 0 from rfl, ite_self]

/-- The reset state holds the values of rule R450: they are the constants it is written with. -/
theorem hardResetValues_reset : hardResetValues State.reset :=
  ⟨State.portRead_eq_zero rfl rfl, by decide⟩

theorem memoryOk_reset : memoryOk State.reset := rfl

/-- Tables that list nothing are canonical (log entry 1). -/
theorem tablesOk_reset : tablesOk State.reset :=
  ⟨rfl, rfl, Trio.wf_empty _, Trio.wf_empty _, Trio.wf_empty _, Trio.wf_empty _, rfl⟩

/-- The output buffers are empty, at address 0: what the writer's and the decompressor's invariants say of them. -/
theorem buffersFit_reset : buffersFit State.reset := by
  obtain ⟨-, -, -, -, writerFits⟩ := writerOk_reset
  obtain ⟨withinCap, decompFits, -⟩ := decompOk_reset
  exact ⟨writerFits, decompFits, withinCap⟩

/-- Settles O9: `State.hardReset` clears every scalar and keeps memory, and the reset state meets each unit's invariant;
those of the handle and of the counts bind only a live handle. -/
theorem hardResetClearsScalars : Obligations.HardResetClearsScalars := by
  refine ⟨fun s rest h => ⟨_, step_hardReset h, hardResetValues_hardReset _, rfl, rfl, rfl⟩, hardResetValues_reset, rfl,
    memoryOk_reset, tablesOk_reset, writerOk_reset, readerOk_reset, decompOk_reset, tokensOk_empty 0,
    matchFinderOk_cleared [] [], (nomatch ·), countsOk_of_dead rfl, buffersFit_reset⟩

end Sys2Proof.Machine
end
